-- ==== Sys2Proof/Word.lean ====
section
/-! DEFINITION. The word types of the Horeg (R5): registers of 32 bits, pairs of 64 bits, lane masks of 32 bits. -/

namespace Sys2Proof

/-- A lane or uniform register (R5). -/
abbrev Word := BitVec 32
/-- A register pair, a virtual address or a system register (R5). -/
abbrev DWord := BitVec 64
/-- One byte of memory. -/
abbrev Byte := BitVec 8
/-- A lane mask: bit L stands for lane L. -/
abbrev Mask := BitVec 32

end Sys2Proof
end

