-- ==== Sys2Proof/Config.lean ====
section
/-! DEFINITION. What an implementation fixes and the spec leaves open, as constants without a body: nothing can evaluate
them or prove a value of them. -/

namespace Sys2Proof.Config

/-- The n-th free value: what the spec calls undefined (R9), one number for each use (log entry 3). -/
opaque free : Nat → BitVec 64

/-- What a byte of a team's scratchpad holds when the team is placed (R112), by the number of the placement and the offset
(log entry 20). -/
opaque padByte : Nat → Nat → BitVec 8

/-- FTRN's result in its bounded functions (R356): function code, FTZ, and the operand's bits. It is used where it lies
within the bound (log entry 12). -/
opaque ftrn : Nat → Bool → BitVec 32 → BitVec 32

/-- The fraction of the FP32 NaN for which a reserved E8 code stands (R105, R342; log entry 14). -/
opaque e8Fraction : BitVec 23

/-- The NaN that a tile addition of the matrix array gives (R106 states no payload; log entry 16), by its two operands. -/
opaque tileNan : BitVec 32 → BitVec 32 → BitVec 32

/-- FINFO's form factor and silicon stepping (R263). -/
opaque formFactor : BitVec 2
opaque stepping : BitVec 8

/-- What the cycle counter of a core leads the model's clock by: counters of different cores are not synchronised (R58). -/
opaque clockSkew : Nat → BitVec 32

/-- The fuse state that the boot ROM measures, as bytes (R303). -/
opaque fuses : List Nat
/-- The device identity key pair's public key, derived from the fused secret and a measurement (R303). -/
opaque identityKey : Nat → Nat
/-- The certificate that an identity key signs for the attestation key (R303). -/
opaque certificate : Nat → Nat
/-- The signature of a quote's bytes by the attestation key (R303), as a number. -/
opaque signature : List Nat → Nat

/-- The cycles for which the device may leave undone what is due without a break (R302 promises finite time and states no bound; log
entry 2). -/
opaque patience : Nat

end Sys2Proof.Config
end

