-- ==== Sys2Proof/Syntax.lean ====
section
/-! DEFINITION. The instructions and device operations of spec/opcode_table.json, one constructor a row. Operand fields
are typed by the classes of R57 and sized by the encodings of R52 to R62, so that a term names exactly what an encoding can
name; what remains to be checked (parity, classes a position accepts, R309) is in WellFormed. Rows without an encoding are
operations of the device's other agents; their arguments say on what they act. -/

namespace Sys2Proof

/-- The special values of R58, in code order. -/
inductive Special
  | lane | item | gen | bunch | split | team | core | row | cellar | device | clock | role
deriving DecidableEq, Repr

/-- A lane register or a uniform register: classes v and k of R57. -/
inductive VK
  | v (n : BitVec 8)
  | k (n : BitVec 6)
deriving DecidableEq, Repr

/-- A source of class v, k, special or immediate (R57). -/
inductive Src
  | v (n : BitVec 8)
  | k (n : BitVec 6)
  | sp (c : Special)
  | imm (n : BitVec 8)
deriving DecidableEq, Repr

/-- A source in operand position B, which may also be a literal (R59). -/
inductive SrcL
  | src (s : Src)
  | lit (x : DWord)
deriving DecidableEq, Repr

/-- A guard: p[PG] XOR PN (R53). -/
structure Guard where
  pn : Bool
  pg : BitVec 3
deriving DecidableEq, Repr

/-- The scope codes 0 to 4 of R60 and R129. -/
inductive Scope
  | team | row | cellar | estate | sys
deriving DecidableEq, Repr

/-- The token fields of an instruction that may leave TE clear (R56): RED, PREF and the stores. -/
structure TokOpt where
  te  : Bool
  tok : BitVec 3
deriving DecidableEq, Repr

/-- Operand B of a base word (R52, R59): a register, a 6-bit immediate or, with L = 0b10, a literal. -/
inductive BaseB
  | reg (n : BitVec 6)
  | imm (n : BitVec 6)
  | lit (x : DWord)
deriving DecidableEq, Repr

/-- The fields of a two-source base word, its modifier bit apart (R52). -/
structure Base2 where
  pg : BitVec 3
  d  : BitVec 6
  a  : BitVec 6
  b  : BaseB
deriving DecidableEq, Repr

/-- The fields of a one-source base word (R54). -/
structure Base1 where
  pg : BitVec 3
  d  : BitVec 6
  a  : BitVec 6
deriving DecidableEq, Repr

/-- Operands of an element-wise instruction with one source (R331). -/
structure Alu1 where
  g : Guard
  d : VK
  a : Src
deriving DecidableEq, Repr

/-- Operands of an element-wise instruction with two sources (R331). -/
structure Alu2 where
  g : Guard
  d : VK
  a : Src
  b : SrcL
deriving DecidableEq, Repr

/-- Operands of an element-wise instruction with three sources (R331). -/
structure Alu3 where
  g : Guard
  d : VK
  a : Src
  b : SrcL
  c : Src
deriving DecidableEq, Repr

/-- Operands of a comparison: a predicate destination (R331). -/
structure Cmp where
  g : Guard
  d : BitVec 3
  a : Src
  b : SrcL
deriving DecidableEq, Repr

/-- IADD and ISUB: wrap, .sat, .usat (R361). -/
inductive AddMode | wrap | sat | usat
deriving DecidableEq, Repr

/-- IMAD: low, .wide, .wide.u (R364). -/
inductive MadMode | low | wide | wideU
deriving DecidableEq, Repr

/-- LOP (R374). -/
inductive LopOp | and | or | xor | andn | not
deriving DecidableEq, Repr

/-- SHF (R389). -/
inductive ShfOp | l | r | ra | f
deriving DecidableEq, Repr

/-- ICMP conditions (R362). -/
inductive ICond | eq | ne | lt | le | gt | ge
deriving DecidableEq, Repr

/-- FCMP conditions (R350). -/
inductive FCond | eq | ne | lt | le | gt | ge | num | nan
deriving DecidableEq, Repr

/-- FTRN functions (R355). -/
inductive FtrnFn | rcp | rsq | sqrt | exp2 | log2 | sin | cos
deriving DecidableEq, Repr

/-- Rounding modes: RNE, RZ, RU, RD (R341, R354). -/
inductive RMode | rne | rz | ru | rd
deriving DecidableEq, Repr

/-- SEL's condition: a predicate or a uniform register (R388). -/
inductive SelCond
  | p (n : BitVec 3)
  | k (n : BitVec 6)
deriving DecidableEq, Repr

/-- MOVK's lane number under SOP 1: class k or immediate (R378). -/
inductive LaneNo
  | k (n : BitVec 6)
  | imm (n : BitVec 8)
deriving DecidableEq, Repr

/-- VOTE (R402). -/
inductive VoteOp | any | all | ballot
deriving DecidableEq, Repr

/-- A destination of class v, k or p (R402). -/
inductive VKP
  | v (n : BitVec 8)
  | k (n : BitVec 6)
  | p (n : BitVec 3)
deriving DecidableEq, Repr

/-- SHFL patterns (R390). -/
inductive ShflOp | idx | up | down | xor
deriving DecidableEq, Repr

/-- BRED and BSCAN operations (R320). -/
inductive RedOp | add | min | max | and | or | xor | umin | umax | fadd | fmin | fmax
deriving DecidableEq, Repr

/-- MATCH destinations: .any writes a lane register, .all a predicate (R375). -/
inductive MatchD
  | any (d : BitVec 8)
  | all (d : BitVec 3)
deriving DecidableEq, Repr

/-- PLOP operations (R381). -/
inductive PlopOp | and | or | xor | andn | not | mov
deriving DecidableEq, Repr

/-- Load sizes and extensions, SOP 0 to 6 (R368). -/
inductive LoadSize | w32 | u8 | s8 | u16 | s16 | d64 | q128
deriving DecidableEq, Repr

/-- Store sizes (R391). -/
inductive StoreSize | w32 | b8 | h16 | d64 | q128
deriving DecidableEq, Repr

/-- LDS forms (R368). -/
inductive LdsMode | plain | acq | fe | feClr
deriving DecidableEq, Repr

/-- STS forms (R391). -/
inductive StsMode | plain | rel | fe
deriving DecidableEq, Repr

/-- CCTL forms (R325). -/
inductive CctlOp | l1 | tlb | code
deriving DecidableEq, Repr

/-- Atomic ordering: none, .acq, .rel, .acq.rel (R311). -/
inductive AtomOrd | none | acq | rel | acqRel
deriving DecidableEq, Repr

/-- WTOK names one token or a mask (R404). -/
inductive WtokSel
  | one (t : BitVec 3)
  | many (mask : BitVec 8)
deriving DecidableEq, Repr

/-- CPY directions (R187). -/
inductive CpyDir | m2m | m2s | s2m | s2s
deriving DecidableEq, Repr

/-- CPY sizes (R187). -/
inductive CpySize | b4 | b8 | b16
deriving DecidableEq, Repr

/-- The suffix bits of a copy instruction (R187). -/
structure CpyMods where
  crc   : Bool
  chk   : Bool
  ctrap : Bool
deriving DecidableEq, Repr

/-- CPYX's route: the short form of the third word, or the literal (R62, R336). -/
inductive Route
  | short (r : BitVec 30)
  | lit (x : DWord)
deriving DecidableEq, Repr

/-- MMS modes (R206). -/
inductive TriMode | plain | tri | triFill
deriving DecidableEq, Repr

/-- CKITR modes with their operands (R174). -/
inductive ItrMode
  | range (c : BitVec 4) (b : BitVec 6)
  | box (c : BitVec 4) (b : BitVec 6)
  | voxel (c : BitVec 4) (b : BitVec 6) (p : BitVec 6)
  | scan (c : BitVec 4) (b : BitVec 6)
  | close
deriving DecidableEq, Repr

/-- PSEG curves (R287). -/
inductive SegKind | line | quad | cubic
deriving DecidableEq, Repr

/-- HMAP's word-3 fields (R259). -/
structure HmapMods where
  size   : BitVec 2
  w      : Bool
  x      : Bool
  layout : BitVec 2
  comp   : Bool
  cache  : BitVec 2
deriving DecidableEq, Repr

/-! ### Arguments of operations that have no encoding -/

/-- An access by a host agent or another device (R292, R297). -/
inductive ExtAccess
  /-- A read of `n` bytes. -/
  | read (addr n : Nat)
  /-- A write of bytes. -/
  | write (addr : Nat) (bytes : List Byte)
  /-- An atomic add of a 32-bit word. -/
  | add (addr : Nat) (x : Word)
  /-- DEPD of a bunch of another device on a slot (R238): its context. -/
  | depd (addr ctx : Nat)
deriving DecidableEq, Repr

/-- A request that reaches this device through an estate port (R292). -/
inductive Inbound
  /-- Device memory of a cellar: the home cellar and the access at a physical address. -/
  | mem (home : Nat) (acc : ExtAccess)
  /-- A commons-window operation of another device: cellar and access at a commons offset (R114, R16). -/
  | commons (cellar : Nat) (acc : ExtAccess)
  /-- A cask operation of another device, at its home row: context, slot's descriptor VA, key, offset and columns of an insert. -/
  | caskInsert (ctx : Nat) (desc : DWord) (key offset : DWord) (cols : List Word)
  /-- A CPYX payload: port, home, address, and the payload as it travels, header byte first (R200). -/
  | payload (home addr len : Nat) (body : List Byte)
  /-- A record that a front end of another device passes on: a launch or task of a context (R238). -/
  | record (ctx : Nat) (task : Bool) (va : DWord)
  /-- GARM of a node of a graph that runs here (R241): context, graph's address, node. -/
  | rearm (ctx : Nat) (va : DWord) (node : Nat)
  /-- An upcall of another device's context to a pager of this one (R265): its context, record and template. -/
  | upcall (ctx : Nat) (raw : BitVec 512) (va : DWord)
deriving DecidableEq, Repr

/-- A unit that an uncorrectable error may poison (R275). -/
inductive PoisonUnit
  /-- A 32-byte unit of device memory. -/
  | mem (home addr : Nat)
  /-- A commons word. -/
  | commons (cellar off : Nat)
  /-- A scratchpad granule of a core. -/
  | granule (core g : Nat)
  /-- A lane register of a bunch. -/
  | reg (bunch lane n : Nat)
  /-- An accumulator element of a core: tile, row, column. -/
  | acc (core tile row col : Nat)
deriving DecidableEq, Repr

/-- The registers that system software gives a context it creates (R114, R116, R222, R254). -/
structure CtxInit where
  fn        : Nat
  cmnWin    : DWord
  ptRoot    : DWord
  pri       : DWord
  hndBase   : DWord
  poolBase  : DWord
  futBase   : DWord
  pagerTab  : DWord
  saveBase  : DWord
  saveCfg   : DWord
  hringBase : DWord
deriving DecidableEq, Repr

/-- The instructions and operations of spec/opcode_table.json. -/
inductive Instr
  -- control
  | nop
  | braBase (pg : BitVec 3) (off : BitVec 18)
  | bra (g : Guard) (off : BitVec 32)
  | braD (g : Guard) (off : BitVec 32) (rc : BitVec 16)
  | brx (g : Guard) (a : BitVec 6)
  | brxD (g : Guard) (a : BitVec 8) (b : BitVec 6)
  | call (g : Guard) (off : BitVec 32)
  | ret (pg : BitVec 3)
  | exit (pg : BitVec 3)
  | rfill (map : BitVec 6)
  | drain
  | yield (pg : BitVec 3)
  | trap (g : Guard) (code : BitVec 32)
  | bkpt (pg : BitVec 3)
  | cfetch (g : Guard) (d : BitVec 6) (seg : BitVec 8) (tok : BitVec 3)
  | jmpf (g : Guard) (off : BitVec 32)
  | eret
  -- integer and address
  | iaddBase (sat : Bool) (f : Base2)
  | iadd (m : AddMode) (f : Alu2)
  | isubBase (sat : Bool) (f : Base2)
  | isub (m : AddMode) (f : Alu2)
  | imulBase (f : Base2)
  | imul (f : Alu2)
  | imulhBase (u : Bool) (f : Base2)
  | imulh (u : Bool) (f : Alu2)
  | imad (m : MadMode) (f : Alu3)
  | iminBase (f : Base2)
  | imin (u : Bool) (f : Alu2)
  | imaxBase (f : Base2)
  | imax (u : Bool) (f : Alu2)
  | iabsBase (sat : Bool) (f : Base1)
  | iabs (sat : Bool) (f : Alu1)
  | lopBase (or : Bool) (f : Base2)
  | lop (op : LopOp) (g : Guard) (d : VK) (a : Src) (b : Option SrcL)
  | shfBase (r : Bool) (f : Base2)
  | shf (op : ShfOp) (g : Guard) (d : VK) (a : Src) (b : SrcL) (c : Option Src)
  | bfx (s : Bool) (pos wm1 : BitVec 5) (f : Alu1)
  | bfi (pos wm1 : BitVec 5) (g : Guard) (d : VK) (a b : Src)
  | popcBase (f : Base1)
  | popc (f : Alu1)
  | clzBase (f : Base1)
  | clz (f : Alu1)
  | leaBase (s : Bool) (f : Base2)
  | lea (s : Bool) (shift : BitVec 3) (g : Guard) (d a : VK) (b : SrcL)
  | icmp (c : ICond) (u : Bool) (f : Cmp)
  | sel (wide : Bool) (g : Guard) (d : VK) (a : Src) (b : SrcL) (c : SelCond)
  | movBase (wide : Bool) (pg : BitVec 3) (d : BitVec 6) (b : BaseB)
  | mov (wide : Bool) (g : Guard) (d : VK) (b : SrcL)
  | movk (g : Guard) (d : BitVec 6) (a : BitVec 8) (lane : Option LaneNo)
  -- float and conversion
  | faddBase (sat : Bool) (f : Base2)
  | fadd (sat : Bool) (f : Alu2)
  | fmulBase (sat : Bool) (f : Base2)
  | fmul (sat : Bool) (f : Alu2)
  | ffma (sat nega negc : Bool) (f : Alu3)
  | fminBase (f : Base2)
  | fmin (f : Alu2)
  | fmaxBase (f : Base2)
  | fmax (f : Alu2)
  | fcmp (c : FCond) (f : Cmp)
  | ftrnRcpBase (f : Base1)
  | ftrn (fn : FtrnFn) (f : Alu1)
  | pfma (bf sat nega negc : Bool) (f : Alu3)
  | idp4 (ua ub sat : Bool) (f : Alu3)
  | cvt (sat : Bool) (src dst : BitVec 5) (rm : RMode) (f : Alu1)
  | frnd (rm : RMode) (f : Alu1)
  -- bunch-wide and predicate
  | vote (op : VoteOp) (g : Guard) (d : VKP) (a : BitVec 3)
  | shfl (op : ShflOp) (g : Guard) (d a : BitVec 8) (b : SrcL)
  | bred (op : RedOp) (g : Guard) (d : VK) (a : BitVec 8)
  | bscan (op : RedOp) (excl : Bool) (g : Guard) (d a : BitVec 8)
  | matchl (g : Guard) (d : MatchD) (a : BitVec 8)
  | qdif (y : Bool) (g : Guard) (d a : BitVec 8)
  | plop (op : PlopOp) (g : Guard) (d a : BitVec 3) (b : Option (BitVec 3))
  -- memory
  | ld (g : Guard) (sz : LoadSize) (acq : Bool) (sc : Scope) (d base : VK) (off : BitVec 29) (tok : BitVec 3)
  | st (g : Guard) (sz : StoreSize) (rel : Bool) (sc : Scope) (base : VK) (off : BitVec 29) (b : SrcL) (t : TokOpt)
  | lds (g : Guard) (sz : LoadSize) (m : LdsMode) (d base : VK) (off : BitVec 29) (tok : BitVec 3)
  | sts (g : Guard) (sz : StoreSize) (m : StsMode) (base : VK) (off : BitVec 29) (b : SrcL) (t : TokOpt)
  | ldc (g : Guard) (sz : LoadSize) (acq : Bool) (sc : Scope) (d base : VK) (off : BitVec 29) (tok : BitVec 3)
  | stc (g : Guard) (sz : StoreSize) (rel : Bool) (sc : Scope) (base : VK) (off : BitVec 29) (b : SrcL) (t : TokOpt)
  | ldk (g : Guard) (sz : LoadSize) (acq : Bool) (sc : Scope) (d base : BitVec 6) (off : BitVec 29) (tok : BitVec 3)
  | tld (s32 : Bool) (g : Guard) (d : VK) (x : BitVec 8) (b : VK) (fill : Word) (tok : BitVec 3)
  | pref (l1 : Bool) (g : Guard) (base : VK) (off : BitVec 29) (t : TokOpt)
  | cctl (op : CctlOp) (sc : Scope) (g : Guard) (a : BitVec 6) (len : SrcL) (off : BitVec 29) (tok : BitVec 3)
  -- atomics and synchronisation
  | atom (op : BitVec 4) (ord : AtomOrd) (sc : Scope) (g : Guard) (d base : VK) (off : BitVec 29) (b : SrcL) (tok : BitVec 3)
  | atoms (op : BitVec 4) (ord : AtomOrd) (sc : Scope) (g : Guard) (d base : VK) (off : BitVec 29) (b : SrcL) (tok : BitVec 3)
  | atomc (op : BitVec 4) (ord : AtomOrd) (sc : Scope) (g : Guard) (d base : VK) (off : BitVec 29) (b : SrcL) (tok : BitVec 3)
  | red (op : BitVec 4) (rel : Bool) (sc : Scope) (g : Guard) (base : VK) (off : BitVec 29) (b : SrcL) (t : TokOpt)
  | fence (sc : Scope) (g : Guard)
  | fenceOpnd (g : Guard)
  | bar (g : Guard) (b : BitVec 4) (n : BitVec 5)
  | barArrive (g : Guard) (b : BitVec 4) (n : BitVec 5)
  | barWait (g : Guard) (b : BitVec 4)
  | wtok (g : Guard) (t : WtokSel)
  | mwait (g : Guard) (mask : BitVec 5)
  -- copy
  | cpy (dir : CpyDir) (sz : CpySize) (crc : Bool) (g : Guard) (d a : BitVec 8) (off : BitVec 29) (tok : BitVec 3)
  | cpya (m : CpyMods) (spd sps x24 : Bool) (g : Guard) (d a : BitVec 8) (b : BitVec 6) (tok : BitVec 3)
  | cpyg (crc spd sps spi : Bool) (g : Guard) (d a : BitVec 8) (b : BitVec 6) (tok : BitVec 3)
  | cpys (crc spd : Bool) (g : Guard) (d a : BitVec 8) (b : BitVec 6) (tok : BitVec 3)
  | cpyq (crc spd sps : Bool) (g : Guard) (d a : BitVec 8) (b : BitVec 6) (tok : BitVec 3)
  | cpyl (crc spd sps : Bool) (prog : BitVec 4) (g : Guard) (d a : BitVec 8) (tok : BitVec 3)
  | cpyx (m : CpyMods) (sps : Bool) (route : Route) (g : Guard) (d a b : BitVec 6) (tok : BitVec 3)
  -- matrix
  | wld (sps : Bool) (g : Guard) (x : BitVec 8) (b : BitVec 6) (krows : BitVec 7)
  | wswp (g : Guard)
  | mms (m : TriMode) (clr sps : Bool) (g : Guard) (t : BitVec 2) (x : BitVec 8) (b : BitVec 6) (c : Option (BitVec 6))
      (rows : BitVec 8) (promo : BitVec 7) (trow : BitVec 8)
  | aprm (g : Guard) (t : BitVec 2)
  | aclr (g : Guard) (t : BitVec 2)
  | adrn (bias spd : Bool) (g : Guard) (x : BitVec 8) (t : BitVec 2) (b : BitVec 6) (rows trow : BitVec 8) (tok : BitVec 3)
  -- tensor table
  | tdsc (g : Guard) (x : BitVec 8) (a : BitVec 6) (off : BitVec 29) (tok : BitVec 3)
  | tcod (g : Guard) (tbl : BitVec 4) (a : BitVec 6) (off : BitVec 29) (tok : BitVec 3)
  | tsyn (g : Guard)
  | tqry (g : Guard) (d : BitVec 6) (x : BitVec 8) (sel : BitVec 8) (tok : BitVec 3)
  -- casks
  | ckopn (g : Guard) (c : BitVec 4) (a : BitVec 6) (off : BitVec 29) (tok : BitVec 3)
  | ckcls (g : Guard) (c : BitVec 4) (tok : BitVec 3)
  | ckrak (g : Guard) (d : BitVec 6) (c : BitVec 4) (tok : BitVec 3)
  | ckcnt (g : Guard) (d : BitVec 6) (c : BitVec 4) (tok : BitVec 3)
  | ckins (now : Bool) (g : Guard) (d : BitVec 8) (c : BitVec 4) (b : BitVec 8) (tok : BitVec 3)
  | ckrem (g : Guard) (d : BitVec 8) (c : BitVec 4) (b : BitVec 8) (tok : BitVec 3)
  | ckmov (now : Bool) (g : Guard) (d : BitVec 8) (c : BitVec 4) (b : BitVec 8) (tok : BitVec 3)
  | ckitr (m : ItrMode) (g : Guard) (j : BitVec 3) (tok : BitVec 3)
  | cknxt (g : Guard) (d : BitVec 8) (j : BitVec 3) (n : BitVec 5) (kc : BitVec 6) (pf px : BitVec 3) (map : BitVec 8) (tok : BitVec 3)
  | ckpay (g : Guard) (d : BitVec 8) (c : BitVec 4) (b : BitVec 8) (map : BitVec 8) (tok : BitVec 3)
  | ckwr (g : Guard) (d : BitVec 8) (c : BitVec 4) (b : BitVec 8) (map : BitVec 8) (tok : BitVec 3)
  | dpst (g : Guard) (d a b : BitVec 8) (tok : BitVec 3)
  -- launch and task
  | lnch (g : Guard) (d a : BitVec 6) (off : BitVec 29) (tok : BitVec 3)
  | task (g : Guard) (d a : BitVec 6) (off : BitVec 29) (tok : BitVec 3)
  | depd (g : Guard) (d a : BitVec 6) (off : BitVec 29) (tok : BitVec 3)
  | cwait (sc : Scope) (g : Guard) (d a : BitVec 6) (off : BitVec 29) (b : BitVec 6) (tok : BitVec 3)
  | garm (g : Guard) (d a : BitVec 6) (off : BitVec 29) (b : BitVec 6) (tok : BitVec 3)
  | hpost (g : Guard) (d : BitVec 6) (ring : BitVec 4) (b : BitVec 6) (tok : BitVec 3)
  | hpostFlush (g : Guard) (d : BitVec 6) (ring : BitVec 4) (tok : BitVec 3)
  -- raster
  | prim (g : Guard) (d a b : BitVec 6) (tok : BitVec 3)
  | primSplat (g : Guard) (d a b : BitVec 6) (c : BitVec 4) (tok : BitVec 3)
  | primClose (g : Guard) (d b : BitVec 6) (tok : BitVec 3)
  | pseg (k : SegKind) (g : Guard) (x : BitVec 8) (a : BitVec 8) (tok : BitVec 3)
  | covr (eo clr : Bool) (g : Guard) (d a : BitVec 8) (b : BitVec 6) (tok : BitVec 3)
  -- system
  | csrr (g : Guard) (d : BitVec 6) (num : BitVec 12)
  | csrw (g : Guard) (b : SrcL) (num : BitVec 12)
  | hmap (m : HmapMods) (g : Guard) (d a : VK) (tok : BitVec 3)
  | pgup (g : Guard) (d a : VK) (tok : BitVec 3)
  | finfo (g : Guard) (d : VK) (sel : BitVec 8) (tok : BitVec 3)
  -- register writes of their own (R102, R205, R223, R247, R254)
  | fpStatClear (bunch : Nat) (bits : BitVec 4)
  | accPromoWrite (ctx : Nat) (x : DWord)
  | registerWrite (fn ctx num : Nat) (x : DWord)
  | queueDoorbell (fn q : Nat) (tail : Word)
  | hringBaseWrite (fn ctx : Nat) (x : DWord)
  -- front end
  | launchCommand (q : Nat)
  | taskCommand (q : Nat)
  | copyCommand (q : Nat)
  | copyAgentComplete (i : Nat)
  | waitCommand (q : Nat)
  | waitSatisfied (q : Nat)
  | signalCommand (q : Nat)
  | graphCommand (q : Nat)
  | ringPostCommand (q : Nat)
  | pendingLaunchAccept (owner : Nat)
  | dependenceRecordAccept
  | graphRecordAccept
  | pagerUpcallAccept
  | teamPlacement (launch core : Nat)
  | taskPlacement (launch core : Nat)
  | bunchRetire (bunch : Nat)
  | launchComplete (launch : Nat)
  -- waits' ends and completions
  | rfillWaitEnd (bunch split : Nat)
  | drainWaitEnd (bunch split : Nat)
  | opportunisticFusion (bunch split split' : Nat)
  | feWaitEnd (bunch split : Nat)
  | tokenCompletion (bunch op : Nat)
  | copyComplete (bunch op : Nat)
  | copyFaultSuspend (bunch op : Nat)
  -- contexts
  | stopContextRequest (ctx : Nat)
  | contextCreate (ctx : Nat) (c : CtxInit)
  | contextReset (ctx : Nat)
  | splitAgeWatchdog (bunch split : Nat)
  | launchDeadlineWatchdog (bunch : Nat)
  | cwaitSatisfied (bunch split : Nat)
  | cwaitSwapOut (bunch : Nat)
  | swappedBunchPlacement (bunch slot : Nat)
  | futureStatusWrite (ctx n : Nat) (status : DWord)
  | savedBunchPlacement (bunch core slot : Nat)
  | preemptRequest (ctx : Nat)
  | preemptTimeout (ctx : Nat)
  | contextResume (ctx : Nat)
  -- graphs, rings, units
  | graphNodeComplete (run node : Nat)
  | ringCoalesceTimer (ctx ring : Nat)
  | commonsBankOperation (cellar bank : Nat)
  | cooperOperation (cellar row : Nat)
  | pageWalk (core : Nat)
  | fencePointAck (source : Nat)
  | fenceCounterFree (source : Nat)
  | matrixCommandStart (core : Nat)
  | matrixCommandComplete (core : Nat)
  | matrixFaultSuspend (core : Nat)
  | primDeliveryResume (cellar : Nat)
  -- integrity, power, links
  | codeParityRefetch (core block : Nat)
  | poisonError (u : PoisonUnit)
  | correctedError (unit loc syndrome : Nat)
  | fatalError (cause cellar unit : Nat)
  | thermalTrip (cellar : Nat)
  | dvfsMeasurement (watts celsius : Nat)
  | powerCapSet (watts : Nat)
  | flitReplay (port : Nat)
  | linkXoff (port cls : Nat)
  | linkXon (port cls : Nat)
  | portDownTimeout (port : Nat)
  | portRetire (port : Nat)
  | checkpointStart (tier : Nat)
  | checkpointEnd
  | d3hotEntry
  | d3hotExit
  | selfRefreshTimer
  | deviceReset (device devices : Nat)
  | recoveryImageLoad (version : Nat) (signed : Bool) (stages : List (List Nat))
  | quoteRequest (nonce : Nat)
  | unassignedOpcode (w : Word)
  | portLaneLoss (port lanes : Nat)
  | portTrainingComplete (port lanes peerDev peerPort : Nat)
  | hostCxlMemAccess (home : Nat) (acc : ExtAccess)
  | estateInboundRequest (port : Nat) (r : Inbound)
  | d3coldEntry
  | d0IdleEntry
deriving DecidableEq, Repr

end Sys2Proof
end

