-- ==== Sys2Proof/WellFormed.lean ====
section
/-! DEFINITION. What an encoding must satisfy beyond the sizes of its fields: the parity of pairs, the classes a position
accepts, R309's restriction of uniform destinations, and the field ranges of the reference entries. What depends on the
issuing bunch (its budget, WIDTH, role) is checked at issue, not here. -/

namespace Sys2Proof

namespace VK
/-- The register number is a multiple of `m` (R57, R312). -/
def mult (m : Nat) : VK → Bool
  | .v n => n.toNat % m == 0
  | .k n => n.toNat % m == 0
/-- The register is of class k. -/
def isK : VK → Bool
  | .k _ => true
  | .v _ => false
/-- The register as a source. -/
def toSrc : VK → Src
  | .v n => .v n
  | .k n => .k n
end VK

namespace Src
/-- A source R309 admits beside a k destination. -/
def uniform : Src → Bool
  | .v _ => false
  | .k _ => true
  | .imm _ => true
  | .sp c => c != .lane && c != .item && c != .gen
/-- A register source is a multiple of `m`; other sources pass. -/
def mult (m : Nat) : Src → Bool
  | .v n => n.toNat % m == 0
  | .k n => n.toNat % m == 0
  | _ => true
/-- The source is a special value. -/
def isSpecial : Src → Bool
  | .sp _ => true
  | _ => false
/-- The source is of class v. -/
def isV : Src → Bool
  | .v _ => true
  | _ => false
/-- The source is a register. -/
def isReg : Src → Bool
  | .v _ => true
  | .k _ => true
  | _ => false
end Src

namespace SrcL
/-- R309 for operand B: a literal is uniform. -/
def uniform : SrcL → Bool
  | .src s => s.uniform
  | .lit _ => true
/-- Bits 63:32 of a literal read by a 32-bit consumer are zero (R59). -/
def lit32 : SrcL → Bool
  | .src _ => true
  | .lit x => x.toNat < 2 ^ 32
/-- A register source is a multiple of `m`. -/
def mult (m : Nat) : SrcL → Bool
  | .src s => s.mult m
  | .lit _ => true
/-- Neither a special value nor, for a k destination, a lane register is meant: the class list v, k, immediate, literal. -/
def noSpecial : SrcL → Bool
  | .src s => !s.isSpecial
  | .lit _ => true
/-- The operand is a literal. -/
def isLit : SrcL → Bool
  | .lit _ => true
  | .src _ => false
/-- The operand is a register. -/
def isReg : SrcL → Bool
  | .src s => s.isReg
  | .lit _ => false
/-- The operand is of class v. -/
def isV : SrcL → Bool
  | .src s => s.isV
  | .lit _ => false
end SrcL

/-- PG = 7 with PN = 1 is illegal (R53). -/
def Guard.ok (g : Guard) : Bool := !(g.pn && g.pg == 7)

/-- R309: with a k destination every source is uniform. -/
def elementWise (d : VK) (srcs : List Src) : Bool := !d.isK || srcs.all Src.uniform

def BaseB.lit32 : BaseB → Bool
  | .lit x => x.toNat < 2 ^ 32
  | _ => true
def BaseB.even : BaseB → Bool
  | .reg n => n.toNat % 2 == 0
  | _ => true

def Base2.wf (f : Base2) : Bool := f.b.lit32
def Alu1.wf (f : Alu1) : Bool := f.g.ok && elementWise f.d [f.a]
def Alu2.wf (f : Alu2) : Bool := f.g.ok && elementWise f.d [f.a] && (!f.d.isK || f.b.uniform) && f.b.lit32
def Alu3.wf (f : Alu3) : Bool :=
  f.g.ok && elementWise f.d [f.a, f.c] && (!f.d.isK || f.b.uniform) && f.b.lit32
def Cmp.wf (f : Cmp) : Bool := f.g.ok && f.b.lit32

/-- The major opcodes of R76 that are assigned. -/
def opcodeAssigned (op : Nat) : Bool :=
  op ≤ 0x0D || (0x10 ≤ op && op ≤ 0x21) || (0x28 ≤ op && op ≤ 0x31) || (0x38 ≤ op && op ≤ 0x3E)
    || (0x40 ≤ op && op ≤ 0x49) || (0x50 ≤ op && op ≤ 0x5E) || (0x60 ≤ op && op ≤ 0x65) || (0x68 ≤ op && op ≤ 0x77)

/-- The register numbers that R339 assigns. -/
def csrAssigned (n : Nat) : Bool :=
  n == 0x40 || n == 0x41 || (0x50 ≤ n && n ≤ 0x5D) || (0x60 ≤ n && n ≤ 0x6F) || (0x70 ≤ n && n ≤ 0x73)
    || (0x80 ≤ n && n ≤ 0x8F)

/-- The selectors of TQRY (R398). -/
def tqrySelector (n : Nat) : Bool := n ≤ 9 || (16 ≤ n && n ≤ 21) || (24 ≤ n && n ≤ 29)

/-- Turn `i` of a route string (R62). -/
def routeTurn (r : DWord) (i : Nat) : Nat := (r.toNat >>> (3 * i)) % 8

/-- The turns from `i` on: no reserved turn before the first eject, and only zeros after it (R62). -/
def routeTurnsOk (r : DWord) : Nat → Nat → Bool
  | 0, _ => false
  | n + 1, i =>
    if routeTurn r i == 5 then r.toNat % 2 ^ 63 < 2 ^ (3 * (i + 1))
    else if routeTurn r i ≥ 6 then false
    else routeTurnsOk r n (i + 1)

/-- A well-formed route string (R62). -/
def routeWf (r : DWord) : Bool := r.toNat ≥ 2 ^ 63 && routeTurnsOk r 21 0

/-- The string a route operand stands for (R62). -/
def Route.string : Route → DWord
  | .short r => BitVec.ofNat 64 (2 ^ 63 + r.toNat)
  | .lit x => x

/-- The load size's destination is a multiple of (R368). -/
def LoadSize.mult : LoadSize → Nat
  | .d64 => 2
  | .q128 => 4
  | _ => 1
/-- The bytes a load reads (R368). -/
def LoadSize.bytes : LoadSize → Nat
  | .w32 => 4 | .u8 => 1 | .s8 => 1 | .u16 => 2 | .s16 => 2 | .d64 => 8 | .q128 => 16
/-- A register data operand of a store is a multiple of (R391). -/
def StoreSize.mult : StoreSize → Nat
  | .d64 => 2
  | .q128 => 4
  | _ => 1
/-- The bytes a store writes (R391). -/
def StoreSize.bytes : StoreSize → Nat
  | .w32 => 4 | .b8 => 1 | .h16 => 2 | .d64 => 8 | .q128 => 16

/-- A scope other than team needs an ordering qualifier (R132). -/
def scopeOk (ordered : Bool) (sc : Scope) : Bool := ordered || sc == .team

/-- The destination and base of a load: parity, and R309 for a k destination (R368). -/
def loadRegs (sz : LoadSize) (d base : VK) (pair : Bool) : Bool :=
  d.mult sz.mult && (!pair || base.mult 2) && (!d.isK || base.isK)

/-- The data operand of a store (R391). -/
def storeData (sz : StoreSize) (b : SrcL) : Bool :=
  b.noSpecial && b.mult sz.mult && (b.lit32 || sz == .d64) && !(b.isLit && sz == .q128)

/-- The register shape of an atomic (R312): `v4` says that code 12 is .add.v4. -/
def atomRegs (op : BitVec 4) (v4 : Bool) (d : Option VK) (b : SrcL) : Bool :=
  let dm (m : Nat) : Bool := match d with
    | some r => r.mult m
    | none => true
  match op.toNat with
  | 7 => b.isReg && b.mult 2
  | 14 => dm 2 && b.isReg && b.mult 4
  | 8 | 9 | 10 | 13 => dm 2 && b.mult 2
  | 12 => if v4 then dm 4 && b.isReg && b.mult 4 else b.lit32
  | _ => b.lit32

/-- The class rule of an atomic that returns a value (R312). -/
def atomClasses (d base : VK) (b : SrcL) : Bool :=
  base.mult 2 && b.noSpecial && (!d.isK || (base.isK && !b.isV))

def ItrMode.wf : ItrMode → Bool
  | .range _ b => b.toNat % 2 == 0 && b.toNat + 3 ≤ 63
  | .box _ b => b.toNat % 2 == 0 && b.toNat + 5 ≤ 63
  | .voxel _ b _ => b.toNat % 2 == 0 && b.toNat + 3 ≤ 63
  | .scan _ b => b.toNat % 2 == 0 && b.toNat + 3 ≤ 63
  | .close => true

/-- The suffixes of a checked copy: .ctrap needs .chk and .chk needs .crc (R187, R336). -/
def CpyMods.wf (m : CpyMods) : Bool := (!m.chk || m.crc) && (!m.ctrap || m.chk)

namespace Instr

/-- The instruction has an encoding: it is not one of the device operations of spec/95. -/
def hasWords : Instr → Bool
  | nop | braBase .. | bra .. | braD .. | brx .. | brxD .. | call .. | ret .. | exit .. | rfill .. | drain | yield ..
  | trap .. | bkpt .. | cfetch .. | jmpf .. | eret | iaddBase .. | iadd .. | isubBase .. | isub .. | imulBase .. | imul ..
  | imulhBase .. | imulh .. | imad .. | iminBase .. | imin .. | imaxBase .. | imax .. | iabsBase .. | iabs .. | lopBase ..
  | lop .. | shfBase .. | shf .. | bfx .. | bfi .. | popcBase .. | popc .. | clzBase .. | clz .. | leaBase .. | lea ..
  | icmp .. | sel .. | movBase .. | mov .. | movk .. | faddBase .. | fadd .. | fmulBase .. | fmul .. | ffma .. | fminBase ..
  | fmin .. | fmaxBase .. | fmax .. | fcmp .. | ftrnRcpBase .. | ftrn .. | pfma .. | idp4 .. | cvt .. | frnd .. | vote ..
  | shfl .. | bred .. | bscan .. | matchl .. | qdif .. | plop .. | ld .. | st .. | lds .. | sts .. | ldc .. | stc .. | ldk ..
  | tld .. | pref .. | cctl .. | atom .. | atoms .. | atomc .. | red .. | fence .. | fenceOpnd .. | bar .. | barArrive ..
  | barWait .. | wtok .. | mwait .. | cpy .. | cpya .. | cpyg .. | cpys .. | cpyq .. | cpyl .. | cpyx .. | wld .. | wswp ..
  | mms .. | aprm .. | aclr .. | adrn .. | tdsc .. | tcod .. | tsyn .. | tqry .. | ckopn .. | ckcls .. | ckrak .. | ckcnt ..
  | ckins .. | ckrem .. | ckmov .. | ckitr .. | cknxt .. | ckpay .. | ckwr .. | dpst .. | lnch .. | task .. | depd ..
  | cwait .. | garm .. | hpost .. | hpostFlush .. | prim .. | primSplat .. | primClose .. | pseg .. | covr .. | csrr ..
  | csrw .. | hmap .. | pgup .. | finfo .. | unassignedOpcode .. => true
  | fpStatClear .. | accPromoWrite .. | registerWrite .. | queueDoorbell .. | hringBaseWrite .. | launchCommand ..
  | taskCommand .. | copyCommand .. | copyAgentComplete .. | waitCommand .. | waitSatisfied .. | signalCommand ..
  | graphCommand .. | ringPostCommand .. | pendingLaunchAccept .. | dependenceRecordAccept | graphRecordAccept
  | pagerUpcallAccept | teamPlacement .. | taskPlacement .. | bunchRetire .. | launchComplete .. | rfillWaitEnd ..
  | drainWaitEnd .. | opportunisticFusion .. | feWaitEnd .. | tokenCompletion .. | copyComplete .. | copyFaultSuspend ..
  | stopContextRequest .. | contextCreate .. | contextReset .. | splitAgeWatchdog .. | launchDeadlineWatchdog ..
  | cwaitSatisfied .. | cwaitSwapOut .. | swappedBunchPlacement .. | futureStatusWrite .. | savedBunchPlacement ..
  | preemptRequest .. | preemptTimeout .. | contextResume .. | graphNodeComplete .. | ringCoalesceTimer ..
  | commonsBankOperation .. | cooperOperation .. | pageWalk .. | fencePointAck .. | fenceCounterFree ..
  | matrixCommandStart .. | matrixCommandComplete .. | matrixFaultSuspend .. | primDeliveryResume .. | codeParityRefetch ..
  | poisonError .. | correctedError .. | fatalError .. | thermalTrip .. | dvfsMeasurement .. | powerCapSet .. | flitReplay ..
  | linkXoff .. | linkXon .. | portDownTimeout .. | portRetire .. | checkpointStart .. | checkpointEnd | d3hotEntry | d3hotExit
  | selfRefreshTimer | deviceReset .. | recoveryImageLoad .. | quoteRequest .. | portLaneLoss .. | portTrainingComplete ..
  | hostCxlMemAccess .. | estateInboundRequest .. | d3coldEntry | d0IdleEntry => false

/-- What an encoded instruction must satisfy beyond its field sizes; an operation without an encoding has nothing to satisfy. -/
def wf : Instr → Bool
  | nop => true
  | braBase .. => true
  | bra g _ => g.ok
  | braD g _ _ => g.ok
  | brx g a => g.ok && a.toNat % 2 == 0
  | brxD g a b => g.ok && a.toNat % 2 == 0 && b.toNat % 2 == 0
  | call g _ => g.ok
  | ret _ => true
  | exit _ => true
  | rfill _ => true
  | drain => true
  | yield _ => true
  | trap g _ => g.ok
  | bkpt _ => true
  | cfetch g _ seg _ => g.ok && seg != 0
  | jmpf g _ => g.ok
  | eret => true
  | iaddBase _ f => f.wf
  | iadd _ f => f.wf
  | isubBase _ f => f.wf
  | isub _ f => f.wf
  | imulBase f => f.wf
  | imul f => f.wf
  | imulhBase _ f => f.wf
  | imulh _ f => f.wf
  | imad m f => f.wf && (m == .low || (f.d.mult 2 && f.c.mult 2 && !f.c.isSpecial))
  | iminBase f => f.wf
  | imin _ f => f.wf
  | imaxBase f => f.wf
  | imax _ f => f.wf
  | iabsBase _ _ => true
  | iabs _ f => f.wf
  | lopBase _ f => f.wf
  | lop op g d a b =>
    g.ok && elementWise d [a] && match b with
      | some x => op != .not && (!d.isK || x.uniform) && x.lit32
      | none => op == .not
  | shfBase _ f => f.wf
  | shf op g d a b c =>
    g.ok && elementWise d [a] && (!d.isK || b.uniform) && b.lit32 && match c with
      | some x => op == .f && elementWise d [x]
      | none => op != .f
  | bfx _ pos wm1 f => f.wf && pos.toNat + wm1.toNat + 1 ≤ 32
  | bfi pos wm1 g d a b => g.ok && elementWise d [a, b] && pos.toNat + wm1.toNat + 1 ≤ 32
  | popcBase _ => true
  | popc f => f.wf
  | clzBase _ => true
  | clz f => f.wf
  | leaBase _ f => f.wf && f.d.toNat % 2 == 0 && f.a.toNat % 2 == 0
  | lea _ _ g d a b => g.ok && d.mult 2 && a.mult 2 && elementWise d [a.toSrc] && (!d.isK || b.uniform) && b.lit32
  | icmp c u f => f.wf && !(u && (c == .eq || c == .ne))
  | sel wide g d a b c =>
    g.ok && elementWise d [a] && (!d.isK || b.uniform) && (if wide then d.mult 2 && a.mult 2 && b.mult 2 else b.lit32)
      && match c with
        | .p _ => !d.isK
        | .k _ => true
  | movBase wide _ d b => if wide then d.toNat % 2 == 0 && b.even else b.lit32
  | mov wide g d b =>
    g.ok && (!d.isK || b.uniform) && (if wide then d.mult 2 && b.mult 2 && b.noSpecial else b.lit32)
  | movk g _ _ _ => g.ok
  | faddBase _ f => f.wf
  | fadd _ f => f.wf
  | fmulBase _ f => f.wf
  | fmul _ f => f.wf
  | ffma _ _ _ f => f.wf
  | fminBase f => f.wf
  | fmin f => f.wf
  | fmaxBase f => f.wf
  | fmax f => f.wf
  | fcmp _ f => f.wf
  | ftrnRcpBase _ => true
  | ftrn _ f => f.wf
  | pfma _ _ _ _ f => f.wf && !f.b.isLit
  | idp4 _ _ _ f => f.wf
  | cvt _ src dst _ f => f.wf && src.toNat ≤ 10 && dst.toNat ≤ 10 && dst != 9
  | frnd _ f => f.wf
  | vote op g d _ =>
    g.ok && match d with
      | .p _ => op != .ballot
      | .v _ => op == .ballot
      | .k _ => true
  | shfl _ g _ _ b => g.ok && b.noSpecial && b.lit32
  | bred _ g _ _ => g.ok
  | bscan op _ g _ _ => g.ok && op != .fadd && op != .fmin && op != .fmax
  | matchl g _ _ => g.ok
  | qdif _ g _ _ => g.ok
  | plop op g _ _ b => g.ok && (b.isSome == (op != .not && op != .mov))
  | ld g sz acq sc d base _ _ => g.ok && scopeOk acq sc && loadRegs sz d base true
  | st g sz rel sc base _ b _ => g.ok && scopeOk rel sc && base.mult 2 && storeData sz b
  | lds g sz _ d base _ _ => g.ok && loadRegs sz d base false
  | sts g sz _ _ _ b _ => g.ok && storeData sz b
  | ldc g sz acq sc d base _ _ => g.ok && scopeOk acq sc && loadRegs sz d base true
  | stc g sz rel sc base _ b _ => g.ok && scopeOk rel sc && base.mult 2 && storeData sz b
  | ldk g sz acq sc d base _ _ => g.ok && scopeOk acq sc && loadRegs sz (.k d) (.k base) true
  | tld _ g d _ b _ _ => g.ok && d.isK == b.isK
  | pref _ g base _ _ => g.ok && base.mult 2
  | cctl op sc g a len _ _ =>
    g.ok && a.toNat % 2 == 0 && len.noSpecial && !len.isV && len.lit32 && (if op == .l1 then sc == .team else sc != .sys)
  | atom op ord sc g d base _ b _ =>
    g.ok && scopeOk (ord != .none) sc && atomClasses d base b && atomRegs op false (some d) b
  | atoms op ord sc g d base _ b _ =>
    g.ok && scopeOk (ord != .none) sc && atomClasses d base b && atomRegs op false (some d) b
  | atomc op ord sc g d base _ b _ =>
    g.ok && scopeOk (ord != .none) sc && atomClasses d base b && atomRegs op true (some d) b
  | red op rel sc g base _ b _ =>
    g.ok && scopeOk rel sc && base.mult 2 && b.noSpecial && atomRegs op true none b && op != 7 && op != 14
  | fence _ g => g.ok
  | fenceOpnd g => g.ok
  | bar g _ n => g.ok && n.toNat ≤ 16
  | barArrive g _ n => g.ok && n.toNat ≤ 16
  | barWait g _ => g.ok
  | wtok g _ => g.ok
  | mwait g _ => g.ok
  | cpy _ _ _ g d a _ _ => g.ok && d.toNat % 2 == 0 && a.toNat % 2 == 0
  | cpya m _ _ _ g _ _ b _ => g.ok && m.wf && b.toNat % 2 == 0
  | cpyg _ _ _ _ g _ _ b _ => g.ok && b.toNat % 2 == 0 && b.toNat + 3 ≤ 63
  | cpys _ _ g _ _ b _ => g.ok && b.toNat % 2 == 0 && b.toNat + 9 ≤ 63
  | cpyq _ _ _ g _ _ b _ => g.ok && b.toNat % 2 == 0 && b.toNat + 3 ≤ 63
  | cpyl _ _ _ _ g _ _ _ => g.ok
  | cpyx m _ route g d a b _ =>
    g.ok && m.wf && routeWf route.string && d.toNat % 2 == 0 && a.toNat % 2 == 0 && (!m.chk || b.toNat + 1 ≤ 63)
  | wld _ g _ b _ => g.ok && b.toNat + 1 ≤ 63
  | wswp g => g.ok
  | mms m _ _ g _ _ b c rows promo trow =>
    g.ok && b.toNat + 1 ≤ 63 && promo.toNat ≤ 64 && trow.toNat + rows.toNat + 1 ≤ 256 && match c with
      | some x => m != .plain && x.toNat + 1 ≤ 63
      | none => m == .plain
  | aprm g _ => g.ok
  | aclr g _ => g.ok
  | adrn bias _ g _ _ b rows trow _ =>
    g.ok && trow.toNat + rows.toNat + 1 ≤ 256 && (if bias then b.toNat % 2 == 0 && b.toNat + 3 ≤ 63 else b.toNat + 1 ≤ 63)
  | tdsc g _ a _ _ => g.ok && a.toNat % 2 == 0
  | tcod g _ a _ _ => g.ok && a.toNat % 2 == 0
  | tsyn g => g.ok
  | tqry g d _ q _ => g.ok && tqrySelector q.toNat && !((q == 8 || q == 9) && d.toNat % 2 == 1)
  | ckopn g _ a _ _ => g.ok && a.toNat % 2 == 0
  | ckcls g _ _ => g.ok
  | ckrak g _ _ _ => g.ok
  | ckcnt g _ _ _ => g.ok
  | ckins _ g _ _ b _ => g.ok && b.toNat % 2 == 0
  | ckrem g _ _ _ _ => g.ok
  | ckmov _ g _ _ b _ => g.ok && b.toNat % 2 == 0
  | ckitr m g _ _ => g.ok && m.wf
  | cknxt g d _ _ _ _ _ _ _ => g.ok && d.toNat % 2 == 0
  | ckpay g _ _ _ _ _ => g.ok
  | ckwr g _ _ _ _ _ => g.ok
  | dpst g _ a _ _ => g.ok && a.toNat % 2 == 0
  | lnch g _ a _ _ => g.ok && a.toNat % 2 == 0
  | task g _ a _ _ => g.ok && a.toNat % 2 == 0
  | depd g d a _ _ => g.ok && d.toNat % 2 == 0 && a.toNat % 2 == 0
  | cwait _ g _ a _ b _ => g.ok && a.toNat % 2 == 0 && b.toNat % 2 == 0
  | garm g _ a _ _ _ => g.ok && a.toNat % 2 == 0
  | hpost g _ _ b _ => g.ok && b.toNat + 3 ≤ 63
  | hpostFlush g _ _ _ => g.ok
  | prim g _ a b _ => g.ok && a.toNat + 6 ≤ 63 && b.toNat % 2 == 0
  | primSplat g _ a b _ _ => g.ok && a.toNat + 1 ≤ 63 && b.toNat % 2 == 0
  | primClose g _ b _ => g.ok && b.toNat % 2 == 0
  | pseg _ g _ a _ => g.ok && a.toNat + 7 ≤ 255
  | covr _ _ g _ _ b _ => g.ok && b.toNat + 3 ≤ 63
  | csrr g d num => g.ok && d.toNat % 2 == 0 && csrAssigned num.toNat
  | csrw g b num => g.ok && b.noSpecial && !b.isV && b.mult 2 && csrAssigned num.toNat
  | hmap m g d a _ => g.ok && m.size != 3 && m.layout != 3 && m.cache != 3 && a.mult 2 && d.isK == a.isK
  | pgup g d a _ => g.ok && a.mult 2 && d.isK == a.isK
  | finfo g d q _ => g.ok && d.mult 2 && q.toNat ≤ 4
  | unassignedOpcode w => !opcodeAssigned (w.toNat / 4 % 128) || (w.toNat / 4 % 128 == 0 && w != 0)
  | fpStatClear .. | accPromoWrite .. | registerWrite .. | queueDoorbell .. | hringBaseWrite .. | launchCommand ..
  | taskCommand .. | copyCommand .. | copyAgentComplete .. | waitCommand .. | waitSatisfied .. | signalCommand ..
  | graphCommand .. | ringPostCommand .. | pendingLaunchAccept .. | dependenceRecordAccept | graphRecordAccept
  | pagerUpcallAccept | teamPlacement .. | taskPlacement .. | bunchRetire .. | launchComplete .. | rfillWaitEnd ..
  | drainWaitEnd .. | opportunisticFusion .. | feWaitEnd .. | tokenCompletion .. | copyComplete .. | copyFaultSuspend ..
  | stopContextRequest .. | contextCreate .. | contextReset .. | splitAgeWatchdog .. | launchDeadlineWatchdog ..
  | cwaitSatisfied .. | cwaitSwapOut .. | swappedBunchPlacement .. | futureStatusWrite .. | savedBunchPlacement ..
  | preemptRequest .. | preemptTimeout .. | contextResume .. | graphNodeComplete .. | ringCoalesceTimer ..
  | commonsBankOperation .. | cooperOperation .. | pageWalk .. | fencePointAck .. | fenceCounterFree ..
  | matrixCommandStart .. | matrixCommandComplete .. | matrixFaultSuspend .. | primDeliveryResume .. | codeParityRefetch ..
  | poisonError .. | correctedError .. | fatalError .. | thermalTrip .. | dvfsMeasurement .. | powerCapSet .. | flitReplay ..
  | linkXoff .. | linkXon .. | portDownTimeout .. | portRetire .. | checkpointStart .. | checkpointEnd | d3hotEntry | d3hotExit
  | selfRefreshTimer | deviceReset .. | recoveryImageLoad .. | quoteRequest .. | portLaneLoss .. | portTrainingComplete ..
  | hostCxlMemAccess .. | estateInboundRequest .. | d3coldEntry | d0IdleEntry => true

end Instr
end Sys2Proof
end

