-- ==== Sys2Proof/Decode.lean ====
section
/-! DEFINITION. The decoder and the encoder. A code word is first cut into its form (R51, R52, R55, R56): fields, operand
classes, third word and literal; the form is then read as an instruction by the opcode map (R76) and the encoding tables of
each instruction. The encoder goes the same two steps back. A word sequence that names no instruction is rejected by name. -/

namespace Sys2Proof

/-- Why a code word names no instruction. All of these trap ILLEGAL_OP (R72). -/
inductive DecodeErr
  /-- Fewer words than the form needs (R51). -/
  | truncated
  /-- The Forms column of R76 excludes the form (R54, R72). -/
  | badForm
  /-- An SOP value the opcode does not assign (R56). -/
  | badSop
  /-- A MOD value the opcode does not assign (R56). -/
  | badMod
  /-- An operand class or field the position does not accept (R57). -/
  | badOperand
  /-- A literal the opcode does not accept, or misplaced (R59). -/
  | badLiteral
  /-- TE = 0 where a token must be named (R56). -/
  | noToken
  /-- A third-word field outside its values (R60). -/
  | badWord3
  /-- The fields break a rule of the instruction's entry (WellFormed). -/
  | illFormed
deriving DecidableEq, Repr

/-! ### Bit fields -/

/-- Bits `lo + n - 1 : lo` of a word. -/
def bits (w : BitVec m) (lo n : Nat) : BitVec n := w.extractLsb' lo n
/-- One bit. -/
def bit (w : BitVec m) (i : Nat) : Bool := w.getLsbD i
/-- A Boolean as one bit. -/
def b1 (b : Bool) : BitVec 1 := BitVec.ofBool b

/-- An operand of the extended form: class and field together (R57). -/
inductive Opnd
  | v (n : BitVec 8)
  | k (n : BitVec 6)
  | p (n : BitVec 3)
  | x (n : BitVec 8)
  | tok (n : BitVec 3)
  | tile (n : BitVec 2)
  | cask (n : BitVec 4)
  | cur (n : BitVec 3)
  | sp (c : Special)
  | imm (n : BitVec 8)
  | none
deriving DecidableEq, Repr

/-- The codes of R58. -/
def Special.code : Special → BitVec 8
  | .lane => 0 | .item => 1 | .gen => 2 | .bunch => 3 | .split => 4 | .team => 5 | .core => 6 | .row => 7
  | .cellar => 8 | .device => 9 | .clock => 10 | .role => 11

def Special.ofCode (n : BitVec 8) : Option Special :=
  match n.toNat with
  | 0 => some .lane | 1 => some .item | 2 => some .gen | 3 => some .bunch | 4 => some .split | 5 => some .team
  | 6 => some .core | 7 => some .row | 8 => some .cellar | 9 => some .device | 10 => some .clock | 11 => some .role
  | _ => Option.none

/-- The class code of an operand (R57). -/
def Opnd.cls : Opnd → BitVec 3
  | .v _ => 0 | .k _ => 1 | .p _ => 2 | .x _ => 3 | .tok _ => 4 | .tile _ => 4 | .cask _ => 4 | .cur _ => 4
  | .sp _ => 5 | .imm _ => 6 | .none => 7

/-- The field value of an operand (R57). -/
def Opnd.field : Opnd → BitVec 8
  | .v n => n
  | .k n => n.setWidth 8
  | .p n => n.setWidth 8
  | .x n => n
  | .tok n => n.setWidth 8
  | .tile n => 0x10 + n.setWidth 8
  | .cask n => 0x20 + n.setWidth 8
  | .cur n => 0x30 + n.setWidth 8
  | .sp c => c.code
  | .imm n => n
  | .none => 0

/-- An operand from its class code and field (R57); none where the pair is illegal. -/
def Opnd.ofCode (c : BitVec 3) (f : BitVec 8) : Option Opnd :=
  match c.toNat with
  | 0 => some (.v f)
  | 1 => if f.toNat < 64 then some (.k (f.setWidth 6)) else Option.none
  | 2 => if f.toNat < 8 then some (.p (f.setWidth 3)) else Option.none
  | 3 => some (.x f)
  | 4 =>
    if f.toNat < 8 then some (.tok (f.setWidth 3))
    else if 0x10 ≤ f.toNat ∧ f.toNat < 0x14 then some (.tile (f.setWidth 2))
    else if 0x20 ≤ f.toNat ∧ f.toNat < 0x30 then some (.cask (f.setWidth 4))
    else if 0x30 ≤ f.toNat ∧ f.toNat < 0x38 then some (.cur (f.setWidth 3))
    else Option.none
  | 5 => (Special.ofCode f).map .sp
  | 6 => some (.imm f)
  | _ => if f == 0 then some .none else Option.none

/-- A base word, its literal with it (R52). -/
structure FBase where
  op  : BitVec 7
  pg  : BitVec 3
  f   : Bool
  m   : Bool
  d   : BitVec 6
  a   : BitVec 6
  b   : BitVec 6
  lit : Option DWord
deriving DecidableEq, Repr

/-- An extended instruction in SUB layout G (R55, R56). -/
structure FG where
  op  : BitVec 7
  g   : Guard
  d   : Opnd
  a   : Opnd
  b   : Opnd
  c   : Opnd
  sop : BitVec 4
  mod : BitVec 3
  w3  : Word
  lit : Option DWord
deriving DecidableEq, Repr

/-- An extended instruction in SUB layout T (R55, R56). -/
structure FT where
  op  : BitVec 7
  g   : Guard
  d   : Opnd
  a   : Opnd
  b   : Opnd
  t   : TokOpt
  sop : BitVec 3
  mod : BitVec 3
  w3  : Word
  lit : Option DWord
deriving DecidableEq, Repr

/-- An extended branch (R61). -/
structure FB where
  op  : BitVec 7
  g   : Guard
  sop : BitVec 4
  rc  : BitVec 16
  off : BitVec 32
deriving DecidableEq, Repr

/-- A code word cut into its form. -/
inductive Code
  | base (f : FBase)
  | g (f : FG)
  | t (f : FT)
  | br (f : FB)
  /-- A word whose major opcode is unassigned, or OP 0x00 in a nonzero word (R72, R75, R77). -/
  | raw (w : Word)
deriving DecidableEq, Repr

/-- The opcodes of the branch format (R61): BRA, CALL, JMPF. -/
def isBranchOp (op : Nat) : Bool := op == 0x01 || op == 0x03 || op == 0x0C

/-- The opcodes that use SUB layout T (the SUB column of R76). -/
def isTokenOp (op : Nat) : Bool :=
  op == 0x0B || (0x40 ≤ op && op ≤ 0x49) || (0x50 ≤ op && op ≤ 0x53) || (0x58 ≤ op && op ≤ 0x5E) || op == 0x65
    || op == 0x68 || op == 0x69 || (0x6B ≤ op && op ≤ 0x75) || op == 0x77

/-! ### Forms to words -/

/-- The literal's two words, least significant first (R51). -/
def litWords : Option DWord → List Word
  | some x => [bits x 0 32, bits x 32 32]
  | none => []

def FBase.word (f : FBase) : Word :=
  f.b ++ f.a ++ f.d ++ b1 f.m ++ b1 f.f ++ f.pg ++ f.op ++ (b1 f.lit.isSome ++ (0 : BitVec 1))

def FG.word1 (f : FG) : Word :=
  f.d.cls ++ f.a.cls ++ f.b.cls ++ f.c.cls ++ f.sop ++ f.mod ++ b1 f.g.pn ++ f.g.pg ++ f.op
    ++ (b1 f.lit.isSome ++ (1 : BitVec 1))

def FT.word1 (f : FT) : Word :=
  f.d.cls ++ f.a.cls ++ f.b.cls ++ f.t.tok ++ b1 f.t.te ++ f.sop ++ f.mod ++ b1 f.g.pn ++ f.g.pg ++ f.op
    ++ (b1 f.lit.isSome ++ (1 : BitVec 1))

def FB.word1 (f : FB) : Word :=
  (0xFFF : BitVec 12) ++ f.sop ++ (0 : BitVec 3) ++ b1 f.g.pn ++ f.g.pg ++ f.op ++ (1 : BitVec 2)

/-- The words of a form, in address order (R51). -/
def Code.words : Code → List Word
  | .base f => f.word :: litWords f.lit
  | .g f => [f.word1, f.c.field ++ f.b.field ++ f.a.field ++ f.d.field, f.w3] ++ litWords f.lit
  | .t f => [f.word1, (0 : BitVec 8) ++ f.b.field ++ f.a.field ++ f.d.field, f.w3] ++ litWords f.lit
  | .br f => [f.word1, f.rc ++ (0 : BitVec 16), f.off]
  | .raw w => [w]

/-! ### Words to forms -/

/-- The number of words R51 gives the form of a first word. -/
def formLength (w : Word) : Nat :=
  match (bits w 0 2).toNat with
  | 0 => 1 | 1 => 3 | 2 => 3 | _ => 5

/-- The literal that follows the words of a form, if the form has one. -/
def takeLit (has : Bool) (ws : List Word) : Except DecodeErr (Option DWord) :=
  match has, ws with
  | false, _ => .ok none
  | true, lo :: hi :: _ => .ok (some (hi ++ lo))
  | true, _ => .error .truncated

def opnd (c : BitVec 3) (f : BitVec 8) : Except DecodeErr Opnd :=
  match Opnd.ofCode c f with
  | some o => .ok o
  | none => .error .badOperand

/-- A guard of an extended word: PG = 7 with PN = 1 is left to WellFormed. -/
def guardOf (w : Word) : Guard := { pn := bit w 12, pg := bits w 9 3 }

/-- Cut an extended instruction in layout G. -/
def cutG (w w2 w3 : Word) (lit : Option DWord) : Except DecodeErr Code := do
  let d ← opnd (bits w 29 3) (bits w2 0 8)
  let a ← opnd (bits w 26 3) (bits w2 8 8)
  let b ← opnd (bits w 23 3) (bits w2 16 8)
  let c ← opnd (bits w 20 3) (bits w2 24 8)
  .ok (.g { op := bits w 2 7, g := guardOf w, d, a, b, c, sop := bits w 16 4, mod := bits w 13 3, w3, lit })

/-- Cut an extended instruction in layout T: the C field must be zero (R56). -/
def cutT (w w2 w3 : Word) (lit : Option DWord) : Except DecodeErr Code := do
  let d ← opnd (bits w 29 3) (bits w2 0 8)
  let a ← opnd (bits w 26 3) (bits w2 8 8)
  let b ← opnd (bits w 23 3) (bits w2 16 8)
  if bits w2 24 8 != 0 then .error .badOperand
  else .ok (.t { op := bits w 2 7, g := guardOf w, d, a, b, t := { te := bit w 19, tok := bits w 20 3 }
                 sop := bits w 16 3, mod := bits w 13 3, w3, lit })

/-- Cut an extended branch: all four classes 7, MOD 0, bits 15:0 of the second word zero (R61). -/
def cutBr (w w2 w3 : Word) : Except DecodeErr Code :=
  if bits w 20 12 != 0xFFF then .error .badOperand
  else if bits w 13 3 != 0 then .error .badMod
  else if bits w2 0 16 != 0 then .error .badOperand
  else .ok (.br { op := bits w 2 7, g := guardOf w, sop := bits w 16 4, rc := bits w2 16 16, off := w3 })

/-- Cut the words at an instruction's address into its form (R51 to R61). -/
def cut : List Word → Except DecodeErr Code
  | [] => .error .truncated
  | w :: ws =>
    let op := (bits w 2 7).toNat
    if !opcodeAssigned op || (op == 0 && w != 0) then .ok (.raw w)
    else if bit w 0 then
      match ws with
      | w2 :: w3 :: rest =>
        if isBranchOp op then (if bit w 1 then .error .badLiteral else cutBr w w2 w3)
        else match takeLit (bit w 1) rest with
          | .error e => .error e
          | .ok lit => if isTokenOp op then cutT w w2 w3 lit else cutG w w2 w3 lit
      | _ => .error .truncated
    else
      match takeLit (bit w 1) ws with
      | .error e => .error e
      | .ok lit =>
        .ok (.base { op := bits w 2 7, pg := bits w 9 3, f := bit w 12, m := bit w 13, d := bits w 14 6
                     a := bits w 20 6, b := bits w 26 6, lit })

/-! ### Codes of the enumerations -/

def Scope.code : Scope → BitVec 3
  | .team => 0 | .row => 1 | .cellar => 2 | .estate => 3 | .sys => 4
def Scope.ofCode (c : BitVec 3) : Option Scope :=
  match c.toNat with
  | 0 => some .team | 1 => some .row | 2 => some .cellar | 3 => some .estate | 4 => some .sys | _ => none
def AddMode.code : AddMode → BitVec 3 | .wrap => 0 | .sat => 1 | .usat => 2
def AddMode.ofCode (c : BitVec 3) : Option AddMode :=
  match c.toNat with | 0 => some .wrap | 1 => some .sat | 2 => some .usat | _ => none
def MadMode.code : MadMode → BitVec 3 | .low => 0 | .wide => 1 | .wideU => 2
def MadMode.ofCode (c : BitVec 3) : Option MadMode :=
  match c.toNat with | 0 => some .low | 1 => some .wide | 2 => some .wideU | _ => none
def LopOp.code : LopOp → BitVec 3 | .and => 0 | .or => 1 | .xor => 2 | .andn => 3 | .not => 4
def LopOp.ofCode (c : BitVec 3) : Option LopOp :=
  match c.toNat with | 0 => some .and | 1 => some .or | 2 => some .xor | 3 => some .andn | 4 => some .not | _ => none
def ShfOp.code : ShfOp → BitVec 3 | .l => 0 | .r => 1 | .ra => 2 | .f => 3
def ShfOp.ofCode (c : BitVec 3) : Option ShfOp :=
  match c.toNat with | 0 => some .l | 1 => some .r | 2 => some .ra | 3 => some .f | _ => none
def ICond.code : ICond → BitVec 4 | .eq => 0 | .ne => 1 | .lt => 2 | .le => 3 | .gt => 4 | .ge => 5
def ICond.ofCode (c : BitVec 4) : Option ICond :=
  match c.toNat with
  | 0 => some .eq | 1 => some .ne | 2 => some .lt | 3 => some .le | 4 => some .gt | 5 => some .ge | _ => none
def FCond.code : FCond → BitVec 4
  | .eq => 0 | .ne => 1 | .lt => 2 | .le => 3 | .gt => 4 | .ge => 5 | .num => 6 | .nan => 7
def FCond.ofCode (c : BitVec 4) : Option FCond :=
  match c.toNat with
  | 0 => some .eq | 1 => some .ne | 2 => some .lt | 3 => some .le | 4 => some .gt | 5 => some .ge | 6 => some .num
  | 7 => some .nan | _ => none
def FtrnFn.code : FtrnFn → BitVec 4
  | .rcp => 0 | .rsq => 1 | .sqrt => 2 | .exp2 => 3 | .log2 => 4 | .sin => 5 | .cos => 6
def FtrnFn.ofCode (c : BitVec 4) : Option FtrnFn :=
  match c.toNat with
  | 0 => some .rcp | 1 => some .rsq | 2 => some .sqrt | 3 => some .exp2 | 4 => some .log2 | 5 => some .sin | 6 => some .cos
  | _ => none
def RMode.code : RMode → BitVec 2 | .rne => 0 | .rz => 1 | .ru => 2 | .rd => 3
def RMode.ofCode (c : BitVec 2) : RMode :=
  match c.toNat with | 0 => .rne | 1 => .rz | 2 => .ru | _ => .rd
def VoteOp.code : VoteOp → BitVec 4 | .any => 0 | .all => 1 | .ballot => 2
def VoteOp.ofCode (c : BitVec 4) : Option VoteOp :=
  match c.toNat with | 0 => some .any | 1 => some .all | 2 => some .ballot | _ => none
def ShflOp.code : ShflOp → BitVec 4 | .idx => 0 | .up => 1 | .down => 2 | .xor => 3
def ShflOp.ofCode (c : BitVec 4) : Option ShflOp :=
  match c.toNat with | 0 => some .idx | 1 => some .up | 2 => some .down | 3 => some .xor | _ => none
def RedOp.code : RedOp → BitVec 4
  | .add => 0 | .min => 1 | .max => 2 | .and => 3 | .or => 4 | .xor => 5 | .umin => 6 | .umax => 7 | .fadd => 8
  | .fmin => 9 | .fmax => 10
def RedOp.ofCode (c : BitVec 4) : Option RedOp :=
  match c.toNat with
  | 0 => some .add | 1 => some .min | 2 => some .max | 3 => some .and | 4 => some .or | 5 => some .xor | 6 => some .umin
  | 7 => some .umax | 8 => some .fadd | 9 => some .fmin | 10 => some .fmax | _ => none
def PlopOp.code : PlopOp → BitVec 4 | .and => 0 | .or => 1 | .xor => 2 | .andn => 3 | .not => 4 | .mov => 5
def PlopOp.ofCode (c : BitVec 4) : Option PlopOp :=
  match c.toNat with
  | 0 => some .and | 1 => some .or | 2 => some .xor | 3 => some .andn | 4 => some .not | 5 => some .mov | _ => none
def LoadSize.code : LoadSize → BitVec 3
  | .w32 => 0 | .u8 => 1 | .s8 => 2 | .u16 => 3 | .s16 => 4 | .d64 => 5 | .q128 => 6
def LoadSize.ofCode (c : BitVec 3) : Option LoadSize :=
  match c.toNat with
  | 0 => some .w32 | 1 => some .u8 | 2 => some .s8 | 3 => some .u16 | 4 => some .s16 | 5 => some .d64 | 6 => some .q128
  | _ => none
def StoreSize.code : StoreSize → BitVec 3 | .w32 => 0 | .b8 => 1 | .h16 => 3 | .d64 => 5 | .q128 => 6
def StoreSize.ofCode (c : BitVec 3) : Option StoreSize :=
  match c.toNat with
  | 0 => some .w32 | 1 => some .b8 | 3 => some .h16 | 5 => some .d64 | 6 => some .q128 | _ => none
def LdsMode.code : LdsMode → BitVec 3 | .plain => 0 | .acq => 1 | .fe => 4 | .feClr => 6
def LdsMode.ofCode (c : BitVec 3) : Option LdsMode :=
  match c.toNat with | 0 => some .plain | 1 => some .acq | 4 => some .fe | 6 => some .feClr | _ => none
def StsMode.code : StsMode → BitVec 3 | .plain => 0 | .rel => 2 | .fe => 4
def StsMode.ofCode (c : BitVec 3) : Option StsMode :=
  match c.toNat with | 0 => some .plain | 2 => some .rel | 4 => some .fe | _ => none
def CctlOp.num : CctlOp → BitVec 3 | .l1 => 0 | .tlb => 1 | .code => 2
def CctlOp.ofCode (c : BitVec 3) : Option CctlOp :=
  match c.toNat with | 0 => some .l1 | 1 => some .tlb | 2 => some .code | _ => none
def AtomOrd.code : AtomOrd → BitVec 2 | .none => 0 | .acq => 1 | .rel => 2 | .acqRel => 3
def AtomOrd.ofCode (c : BitVec 2) : AtomOrd :=
  match c.toNat with | 0 => .none | 1 => .acq | 2 => .rel | _ => .acqRel
def CpyDir.code : CpyDir → BitVec 3 | .m2m => 0 | .m2s => 1 | .s2m => 2 | .s2s => 3
def CpyDir.ofCode (c : BitVec 3) : Option CpyDir :=
  match c.toNat with | 0 => some .m2m | 1 => some .m2s | 2 => some .s2m | 3 => some .s2s | _ => none
def CpySize.code : CpySize → BitVec 2 | .b4 => 0 | .b8 => 1 | .b16 => 2
def CpySize.ofCode (c : BitVec 2) : Option CpySize :=
  match c.toNat with | 0 => some .b4 | 1 => some .b8 | 2 => some .b16 | _ => none
def CpySize.bytes : CpySize → Nat | .b4 => 4 | .b8 => 8 | .b16 => 16
def TriMode.code : TriMode → BitVec 4 | .plain => 0 | .tri => 1 | .triFill => 2
def TriMode.ofCode (c : BitVec 4) : Option TriMode :=
  match c.toNat with | 0 => some .plain | 1 => some .tri | 2 => some .triFill | _ => none
def SegKind.code : SegKind → BitVec 3 | .line => 0 | .quad => 1 | .cubic => 2
def SegKind.ofCode (c : BitVec 3) : Option SegKind :=
  match c.toNat with | 0 => some .line | 1 => some .quad | 2 => some .cubic | _ => none

/-- The three MOD bits, bit 0 first (R56). -/
def mod3 (b0 b1' b2 : Bool) : BitVec 3 := b1 b2 ++ b1 b1' ++ b1 b0

/-! ### Reading operands out of a form -/

def orErr (e : DecodeErr) : Option α → Except DecodeErr α
  | some x => .ok x
  | none => .error e
def must (c : Bool) (e : DecodeErr) : Except DecodeErr Unit := if c then .ok () else .error e

def Opnd.vk : Opnd → Except DecodeErr VK
  | .v n => .ok (.v n)
  | .k n => .ok (.k n)
  | _ => .error .badOperand
def Opnd.src : Opnd → Except DecodeErr Src
  | .v n => .ok (.v n)
  | .k n => .ok (.k n)
  | .sp c => .ok (.sp c)
  | .imm n => .ok (.imm n)
  | _ => .error .badOperand
/-- Operand B: under a literal its class is 6 and its field 0 (R59). -/
def Opnd.srcL (o : Opnd) : Option DWord → Except DecodeErr SrcL
  | some y => if o = .imm 0 then .ok (.lit y) else .error .badLiteral
  | Option.none => match o.src with
    | .ok s => .ok (.src s)
    | .error e => .error e
def Opnd.getV : Opnd → Except DecodeErr (BitVec 8)
  | .v n => .ok n
  | _ => .error .badOperand
def Opnd.getK : Opnd → Except DecodeErr (BitVec 6)
  | .k n => .ok n
  | _ => .error .badOperand
def Opnd.getP : Opnd → Except DecodeErr (BitVec 3)
  | .p n => .ok n
  | _ => .error .badOperand
def Opnd.getX : Opnd → Except DecodeErr (BitVec 8)
  | .x n => .ok n
  | _ => .error .badOperand
def Opnd.getTile : Opnd → Except DecodeErr (BitVec 2)
  | .tile n => .ok n
  | _ => .error .badOperand
def Opnd.getCask : Opnd → Except DecodeErr (BitVec 4)
  | .cask n => .ok n
  | _ => .error .badOperand
def Opnd.getCur : Opnd → Except DecodeErr (BitVec 3)
  | .cur n => .ok n
  | _ => .error .badOperand
def Opnd.isNone : Opnd → Except DecodeErr Unit
  | .none => .ok ()
  | _ => .error .badOperand

/-! ### Operands back into a form -/

def VK.opnd : VK → Opnd
  | .v n => .v n
  | .k n => .k n
def Src.opnd : Src → Opnd
  | .v n => .v n
  | .k n => .k n
  | .sp c => .sp c
  | .imm n => .imm n
def SrcL.opnd : SrcL → Opnd
  | .src s => s.opnd
  | .lit _ => .imm 0
def SrcL.litOf : SrcL → Option DWord
  | .src _ => none
  | .lit x => some x

/-! ### Base words -/

/-- Operand B of a base word (R52, R59). -/
def FBase.bOf (f : FBase) : Except DecodeErr BaseB :=
  match f.lit with
  | some x => if f.b = 0 ∧ f.f = false then .ok (.lit x) else .error .badLiteral
  | none => .ok (if f.f then .imm f.b else .reg f.b)
def BaseB.field : BaseB → BitVec 6
  | .reg n => n
  | .imm n => n
  | .lit _ => 0
def BaseB.flag : BaseB → Bool
  | .imm _ => true
  | _ => false
def BaseB.litOf : BaseB → Option DWord
  | .lit x => some x
  | _ => none

/-- A two-source base instruction (R54). -/
def FBase.two (f : FBase) (k : Bool → Base2 → Instr) : Except DecodeErr Instr := do
  let b ← f.bOf
  .ok (k f.m { pg := f.pg, d := f.d, a := f.a, b })
/-- A one-source base instruction: F and B zero, no literal (R54). -/
def FBase.oneSrc (f : FBase) (k : Bool → Base1 → Instr) : Except DecodeErr Instr := do
  must (f.lit == none) .badLiteral
  must (f.b == 0 && !f.f) .badOperand
  .ok (k f.m { pg := f.pg, d := f.d, a := f.a })
/-- A base instruction without modifier: M must be 0 (R330). -/
def noM (m : Bool) (i : Instr) : Except DecodeErr Instr := if m then .error .badMod else .ok i
/-- A control word of the base form: every field but PG, OP and L zero (R31, R76). -/
def FBase.bare (f : FBase) (i : Instr) : Except DecodeErr Instr := do
  must (f.lit == none) .badLiteral
  must (f.d == 0 && f.a == 0 && f.b == 0 && !f.f && !f.m) .badOperand
  .ok i

/-- Read a base word as an instruction (R54, R76). -/
def FBase.instr (f : FBase) : Except DecodeErr Instr :=
  match f.op.toNat with
  | 0x00 => .ok .nop
  | 0x01 => do
    must (f.lit == none) .badLiteral
    must (!f.f && !f.m) .badOperand
    .ok (.braBase f.pg (f.b ++ f.a ++ f.d))
  | 0x04 => f.bare (.ret f.pg)
  | 0x05 => f.bare (.exit f.pg)
  | 0x06 => do
    must (f.lit == none) .badLiteral
    must (f.d == 0 && f.b == 0 && !f.f && !f.m && f.pg == 7) .badOperand
    .ok (.rfill f.a)
  | 0x07 => if f.pg == 7 then f.bare .drain else .error .badOperand
  | 0x08 => f.bare (.yield f.pg)
  | 0x0A => f.bare (.bkpt f.pg)
  | 0x0D => if f.pg == 7 then f.bare .eret else .error .badOperand
  | 0x10 => f.two fun m x => .iaddBase m x
  | 0x11 => f.two fun m x => .isubBase m x
  | 0x12 => if f.m then .error .badMod else f.two fun _ x => .imulBase x
  | 0x13 => f.two fun m x => .imulhBase m x
  | 0x15 => f.two fun m x => if m then .imaxBase x else .iminBase x
  | 0x16 => f.oneSrc fun m x => .iabsBase m x
  | 0x17 => f.two fun m x => .lopBase m x
  | 0x18 => f.two fun m x => .shfBase m x
  | 0x1B => if f.m then .error .badMod else f.oneSrc fun _ x => .popcBase x
  | 0x1C => if f.m then .error .badMod else f.oneSrc fun _ x => .clzBase x
  | 0x1D => f.two fun m x => .leaBase m x
  | 0x20 => do
    must (f.a == 0) .badOperand
    let b ← f.bOf
    .ok (.movBase f.m f.pg f.d b)
  | 0x28 => f.two fun m x => .faddBase m x
  | 0x29 => f.two fun m x => .fmulBase m x
  | 0x2B => f.two fun m x => if m then .fmaxBase x else .fminBase x
  | 0x2D => if f.m then .error .badMod else f.oneSrc fun _ x => .ftrnRcpBase x
  | _ => .error .badForm

/-! ### Extended words, layout G -/

/-- The third word is zero: class Z (R60). -/
def FG.z (f : FG) : Except DecodeErr Unit := must (f.w3 == 0) .badWord3
def FG.noLit (f : FG) : Except DecodeErr Unit := must (f.lit == none) .badLiteral
def FG.sop0 (f : FG) : Except DecodeErr Unit := must (f.sop == 0) .badSop
def FG.mod0 (f : FG) : Except DecodeErr Unit := must (f.mod == 0) .badMod
/-- MOD bits at and above `n` are zero. -/
def FG.modBelow (f : FG) (n : Nat) : Except DecodeErr Unit := must (f.mod.toNat < 2 ^ n) .badMod

/-- One source: BC = CC = 7 (R331). -/
def FG.alu1 (f : FG) : Except DecodeErr Alu1 := do
  f.noLit
  f.b.isNone
  f.c.isNone
  let d ← f.d.vk
  let a ← f.a.src
  .ok { g := f.g, d, a }
/-- Two sources: CC = 7 (R331). -/
def FG.alu2 (f : FG) : Except DecodeErr Alu2 := do
  f.c.isNone
  let d ← f.d.vk
  let a ← f.a.src
  let b ← f.b.srcL f.lit
  .ok { g := f.g, d, a, b }
/-- Three sources (R331). -/
def FG.alu3 (f : FG) : Except DecodeErr Alu3 := do
  let d ← f.d.vk
  let a ← f.a.src
  let b ← f.b.srcL f.lit
  let c ← f.c.src
  .ok { g := f.g, d, a, b, c }
/-- A comparison (R331). -/
def FG.cmp (f : FG) : Except DecodeErr Cmp := do
  f.c.isNone
  let d ← f.d.getP
  let a ← f.a.src
  let b ← f.b.srcL f.lit
  .ok { g := f.g, d, a, b }
/-- An instruction without operands (R133, R315, R399). -/
def FG.bare (f : FG) : Except DecodeErr Unit := do
  f.noLit
  f.d.isNone
  f.a.isNone
  f.b.isNone
  f.c.isNone

/-- A LOP operand B: absent under .not (R374). -/
def FG.lopB (f : FG) (op : LopOp) : Except DecodeErr (Option SrcL) :=
  if op == .not then do
    f.noLit
    f.b.isNone
    .ok none
  else do
    let b ← f.b.srcL f.lit
    .ok (some b)

/-- SHF's operand C: present under .f (R389). -/
def FG.shfC (f : FG) (op : ShfOp) : Except DecodeErr (Option Src) :=
  if op == .f then do
    let c ← f.c.src
    .ok (some c)
  else do
    f.c.isNone
    .ok none

def Opnd.selCond : Opnd → Except DecodeErr SelCond
  | .p n => .ok (.p n)
  | .k n => .ok (.k n)
  | _ => .error .badOperand
def Opnd.vkp : Opnd → Except DecodeErr VKP
  | .v n => .ok (.v n)
  | .k n => .ok (.k n)
  | .p n => .ok (.p n)
  | _ => .error .badOperand
def Opnd.laneNo : Opnd → Except DecodeErr LaneNo
  | .k n => .ok (.k n)
  | .imm n => .ok (.imm n)
  | _ => .error .badOperand

/-- BFX and BFI's third word: POS in 4:0, WIDTH - 1 in 9:5 (R317). -/
def FG.field (f : FG) : Except DecodeErr (BitVec 5 × BitVec 5) := do
  must (f.w3.toNat < 2 ^ 10) .badWord3
  .ok (bits f.w3 0 5, bits f.w3 5 5)

/-- Read an extended word of layout G as an instruction (R76 and the entries of its opcode). -/
def FG.instr (f : FG) : Except DecodeErr Instr :=
  match f.op.toNat with
  | 0x02 => do
    f.z; f.mod0; f.noLit
    f.d.isNone; f.c.isNone
    if f.sop == 0 then do
      f.b.isNone
      let a ← f.a.getK
      .ok (.brx f.g a)
    else do
      must (f.sop == 1) .badSop
      let a ← f.a.getV
      let b ← f.b.getK
      .ok (.brxD f.g a b)
  | 0x09 => do
    f.bare; f.sop0; f.mod0
    .ok (.trap f.g f.w3)
  | 0x10 => do
    f.z; f.sop0
    let m ← orErr .badMod (AddMode.ofCode f.mod)
    let x ← f.alu2
    .ok (.iadd m x)
  | 0x11 => do
    f.z; f.sop0
    let m ← orErr .badMod (AddMode.ofCode f.mod)
    let x ← f.alu2
    .ok (.isub m x)
  | 0x12 => do
    f.z; f.sop0; f.mod0
    let x ← f.alu2
    .ok (.imul x)
  | 0x13 => do
    f.z; f.sop0; f.modBelow 1
    let x ← f.alu2
    .ok (.imulh (bit f.mod 0) x)
  | 0x14 => do
    f.z; f.sop0
    let m ← orErr .badMod (MadMode.ofCode f.mod)
    let x ← f.alu3
    .ok (.imad m x)
  | 0x15 => do
    f.z; f.sop0; f.modBelow 2
    let x ← f.alu2
    .ok (if bit f.mod 0 then .imax (bit f.mod 1) x else .imin (bit f.mod 1) x)
  | 0x16 => do
    f.z; f.sop0; f.modBelow 1
    let x ← f.alu1
    .ok (.iabs (bit f.mod 0) x)
  | 0x17 => do
    f.z; f.sop0
    let op ← orErr .badMod (LopOp.ofCode f.mod)
    f.c.isNone
    let d ← f.d.vk
    let a ← f.a.src
    let b ← f.lopB op
    .ok (.lop op f.g d a b)
  | 0x18 => do
    f.z; f.sop0
    let op ← orErr .badMod (ShfOp.ofCode f.mod)
    let d ← f.d.vk
    let a ← f.a.src
    let b ← f.b.srcL f.lit
    let c ← f.shfC op
    .ok (.shf op f.g d a b c)
  | 0x19 => do
    f.sop0; f.modBelow 1
    let q ← f.field
    let x ← f.alu1
    .ok (.bfx (bit f.mod 0) q.1 q.2 x)
  | 0x1A => do
    f.sop0; f.mod0; f.noLit
    let q ← f.field
    f.c.isNone
    let d ← f.d.vk
    let a ← f.a.src
    let b ← f.b.src
    .ok (.bfi q.1 q.2 f.g d a b)
  | 0x1B => do
    f.z; f.sop0; f.mod0
    let x ← f.alu1
    .ok (.popc x)
  | 0x1C => do
    f.z; f.sop0; f.mod0
    let x ← f.alu1
    .ok (.clz x)
  | 0x1D => do
    f.z; f.modBelow 1
    must (f.sop.toNat < 8) .badSop
    f.c.isNone
    let d ← f.d.vk
    let a ← f.a.vk
    let b ← f.b.srcL f.lit
    .ok (.lea (bit f.mod 0) (bits f.sop 0 3) f.g d a b)
  | 0x1E => do
    f.z; f.modBelow 1
    let c ← orErr .badSop (ICond.ofCode f.sop)
    let x ← f.cmp
    .ok (.icmp c (bit f.mod 0) x)
  | 0x1F => do
    f.z; f.sop0; f.modBelow 1
    let d ← f.d.vk
    let a ← f.a.src
    let b ← f.b.srcL f.lit
    let c ← f.c.selCond
    .ok (.sel (bit f.mod 0) f.g d a b c)
  | 0x20 => do
    f.z; f.sop0; f.modBelow 1
    f.a.isNone; f.c.isNone
    let d ← f.d.vk
    let b ← f.b.srcL f.lit
    .ok (.mov (bit f.mod 0) f.g d b)
  | 0x21 => do
    f.z; f.mod0; f.noLit
    f.c.isNone
    let d ← f.d.getK
    let a ← f.a.getV
    if f.sop == 0 then do
      f.b.isNone
      .ok (.movk f.g d a none)
    else do
      must (f.sop == 1) .badSop
      let b ← f.b.laneNo
      .ok (.movk f.g d a (some b))
  | 0x28 => do
    f.z; f.sop0; f.modBelow 1
    let x ← f.alu2
    .ok (.fadd (bit f.mod 0) x)
  | 0x29 => do
    f.z; f.sop0; f.modBelow 1
    let x ← f.alu2
    .ok (.fmul (bit f.mod 0) x)
  | 0x2A => do
    f.z; f.sop0
    let x ← f.alu3
    .ok (.ffma (bit f.mod 0) (bit f.mod 1) (bit f.mod 2) x)
  | 0x2B => do
    f.z; f.sop0; f.modBelow 1
    let x ← f.alu2
    .ok (if bit f.mod 0 then .fmax x else .fmin x)
  | 0x2C => do
    f.z; f.mod0
    let c ← orErr .badSop (FCond.ofCode f.sop)
    let x ← f.cmp
    .ok (.fcmp c x)
  | 0x2D => do
    f.z; f.mod0
    let fn ← orErr .badSop (FtrnFn.ofCode f.sop)
    let x ← f.alu1
    .ok (.ftrn fn x)
  | 0x2E => do
    f.z
    must (f.sop.toNat < 2) .badSop
    let x ← f.alu3
    .ok (.pfma (bit f.sop 0) (bit f.mod 0) (bit f.mod 1) (bit f.mod 2) x)
  | 0x2F => do
    f.z; f.sop0
    let x ← f.alu3
    .ok (.idp4 (bit f.mod 0) (bit f.mod 1) (bit f.mod 2) x)
  | 0x30 => do
    f.sop0; f.modBelow 1
    must (bits f.w3 5 3 == 0 && bits f.w3 13 3 == 0 && bits f.w3 18 14 == 0) .badWord3
    let x ← f.alu1
    .ok (.cvt (bit f.mod 0) (bits f.w3 0 5) (bits f.w3 8 5) (RMode.ofCode (bits f.w3 16 2)) x)
  | 0x31 => do
    f.z; f.sop0; f.modBelow 2
    let x ← f.alu1
    .ok (.frnd (RMode.ofCode (bits f.mod 0 2)) x)
  | 0x38 => do
    f.z; f.mod0; f.noLit
    f.b.isNone; f.c.isNone
    let op ← orErr .badSop (VoteOp.ofCode f.sop)
    let d ← f.d.vkp
    let a ← f.a.getP
    .ok (.vote op f.g d a)
  | 0x39 => do
    f.z; f.mod0
    f.c.isNone
    let op ← orErr .badSop (ShflOp.ofCode f.sop)
    let d ← f.d.getV
    let a ← f.a.getV
    let b ← f.b.srcL f.lit
    .ok (.shfl op f.g d a b)
  | 0x3A => do
    f.z; f.mod0; f.noLit
    f.b.isNone; f.c.isNone
    let op ← orErr .badSop (RedOp.ofCode f.sop)
    let d ← f.d.vk
    let a ← f.a.getV
    .ok (.bred op f.g d a)
  | 0x3B => do
    f.z; f.modBelow 1; f.noLit
    f.b.isNone; f.c.isNone
    let op ← orErr .badSop (RedOp.ofCode f.sop)
    let d ← f.d.getV
    let a ← f.a.getV
    .ok (.bscan op (bit f.mod 0) f.g d a)
  | 0x3C => do
    f.z; f.mod0; f.noLit
    f.b.isNone; f.c.isNone
    let a ← f.a.getV
    if f.sop == 0 then do
      let d ← f.d.getV
      .ok (.matchl f.g (.any d) a)
    else do
      must (f.sop == 1) .badSop
      let d ← f.d.getP
      .ok (.matchl f.g (.all d) a)
  | 0x3D => do
    f.z; f.mod0; f.noLit
    f.b.isNone; f.c.isNone
    must (f.sop.toNat < 2) .badSop
    let d ← f.d.getV
    let a ← f.a.getV
    .ok (.qdif (bit f.sop 0) f.g d a)
  | 0x3E => do
    f.z; f.mod0; f.noLit
    f.c.isNone
    let op ← orErr .badSop (PlopOp.ofCode f.sop)
    let d ← f.d.getP
    let a ← f.a.getP
    if op == .not || op == .mov then do
      f.b.isNone
      .ok (.plop op f.g d a none)
    else do
      let b ← f.b.getP
      .ok (.plop op f.g d a (some b))
  | 0x54 => do
    f.z; f.bare
    if f.sop == 0 then do
      let sc ← orErr .badMod (Scope.ofCode f.mod)
      .ok (.fence sc f.g)
    else do
      must (f.sop == 1) .badSop
      f.mod0
      .ok (.fenceOpnd f.g)
  | 0x55 => do
    f.bare; f.mod0
    must (f.w3.toNat < 2 ^ 9) .badWord3
    let b := bits f.w3 0 4
    let n := bits f.w3 4 5
    match f.sop.toNat with
    | 0 => .ok (.bar f.g b n)
    | 1 => .ok (.barArrive f.g b n)
    | 2 => do
      must (n == 0) .badWord3
      .ok (.barWait f.g b)
    | _ => .error .badSop
  | 0x56 => do
    f.z; f.mod0; f.noLit
    f.d.isNone; f.b.isNone; f.c.isNone
    match f.sop.toNat, f.a with
    | 0, .tok t => .ok (.wtok f.g (.one t))
    | 1, .imm m => .ok (.wtok f.g (.many m))
    | 0, _ => .error .badOperand
    | 1, _ => .error .badOperand
    | _, _ => .error .badSop
  | 0x57 => do
    f.z; f.sop0; f.mod0; f.noLit
    f.d.isNone; f.b.isNone; f.c.isNone
    match f.a with
    | .imm m => do
      must (m.toNat ≤ 31) .badOperand
      .ok (.mwait f.g (bits m 0 5))
    | _ => .error .badOperand
  | 0x60 => do
    f.sop0; f.mod0; f.noLit
    f.d.isNone; f.c.isNone
    must (bits f.w3 7 24 == 0) .badWord3
    let x ← f.a.getX
    let b ← f.b.getK
    .ok (.wld (bit f.w3 31) f.g x b (bits f.w3 0 7))
  | 0x61 => do
    f.z; f.sop0; f.mod0; f.bare
    .ok (.wswp f.g)
  | 0x62 => do
    f.modBelow 1; f.noLit
    must (bits f.w3 15 1 == 0 && bits f.w3 24 7 == 0) .badWord3
    let m ← orErr .badSop (TriMode.ofCode f.sop)
    let t ← f.d.getTile
    let x ← f.a.getX
    let b ← f.b.getK
    let rows := bits f.w3 0 8
    let promo := bits f.w3 8 7
    let trow := bits f.w3 16 8
    if m == .plain then do
      f.c.isNone
      .ok (.mms m (bit f.mod 0) (bit f.w3 31) f.g t x b none rows promo trow)
    else do
      let c ← f.c.getK
      .ok (.mms m (bit f.mod 0) (bit f.w3 31) f.g t x b (some c) rows promo trow)
  | 0x63 => do
    f.z; f.sop0; f.mod0; f.noLit
    f.a.isNone; f.b.isNone; f.c.isNone
    let t ← f.d.getTile
    .ok (.aprm f.g t)
  | 0x64 => do
    f.z; f.sop0; f.mod0; f.noLit
    f.a.isNone; f.b.isNone; f.c.isNone
    let t ← f.d.getTile
    .ok (.aclr f.g t)
  | 0x6A => do
    f.z; f.sop0; f.mod0; f.bare
    .ok (.tsyn f.g)
  | 0x76 => do
    f.mod0
    f.a.isNone; f.c.isNone
    must (f.w3.toNat < 2 ^ 12) .badWord3
    let num := bits f.w3 0 12
    if f.sop == 0 then do
      f.noLit
      f.b.isNone
      let d ← f.d.getK
      .ok (.csrr f.g d num)
    else do
      must (f.sop == 1) .badSop
      f.d.isNone
      let b ← f.b.srcL f.lit
      .ok (.csrw f.g b num)
  | _ => .error .badForm

/-! ### Extended words, layout T -/

def FT.noLit (f : FT) : Except DecodeErr Unit := must (f.lit == none) .badLiteral
def FT.z (f : FT) : Except DecodeErr Unit := must (f.w3 == 0) .badWord3
def FT.sop0 (f : FT) : Except DecodeErr Unit := must (f.sop == 0) .badSop
def FT.mod0 (f : FT) : Except DecodeErr Unit := must (f.mod == 0) .badMod
/-- The token, with TE = 1 (R56). -/
def FT.tok (f : FT) : Except DecodeErr (BitVec 3) := if f.t.te then .ok f.t.tok else .error .noToken
/-- The SCOPE field of a class M word (R60). -/
def FT.scope (f : FT) : Except DecodeErr Scope := orErr .badWord3 (Scope.ofCode (bits f.w3 29 3))
/-- A class M word whose SCOPE must be 0 (R60). -/
def FT.off0 (f : FT) : Except DecodeErr (BitVec 29) := do
  must (bits f.w3 29 3 == 0) .badWord3
  .ok (bits f.w3 0 29)
/-- The offset of a class M word (R60). -/
def FT.off (f : FT) : BitVec 29 := bits f.w3 0 29
/-- A class M word (R60). -/
def wordM (sc : Scope) (off : BitVec 29) : Word := sc.code ++ off

/-- LD and LDC (R368). -/
def FT.load (f : FT) (k : LoadSize → Bool → Scope → VK → VK → BitVec 3 → Instr) : Except DecodeErr Instr := do
  f.noLit
  f.b.isNone
  must (f.mod.toNat < 2) .badMod
  let sz ← orErr .badSop (LoadSize.ofCode f.sop)
  let sc ← f.scope
  let t ← f.tok
  let d ← f.d.vk
  let a ← f.a.vk
  .ok (k sz (bit f.mod 0) sc d a t)

/-- ST and STC (R391). -/
def FT.store (f : FT) (k : StoreSize → Bool → Scope → VK → SrcL → Instr) : Except DecodeErr Instr := do
  f.d.isNone
  must (f.mod == 0 || f.mod == 2) .badMod
  let sz ← orErr .badSop (StoreSize.ofCode f.sop)
  let sc ← f.scope
  let a ← f.a.vk
  let b ← f.b.srcL f.lit
  .ok (k sz (bit f.mod 1) sc a b)

/-- ATOM, ATOMS and ATOMC: OPC bit 3 is MOD bit 2, bits 2:0 are SOP (R311). -/
def FT.atomic (f : FT) (k : BitVec 4 → AtomOrd → Scope → VK → VK → SrcL → BitVec 3 → Instr) : Except DecodeErr Instr := do
  let sc ← f.scope
  let t ← f.tok
  let d ← f.d.vk
  let a ← f.a.vk
  let b ← f.b.srcL f.lit
  .ok (k (bits f.mod 2 1 ++ f.sop) (AtomOrd.ofCode (bits f.mod 0 2)) sc d a b t)

/-- The suffix bits of CPYA and CPYX: bit 2 .crc, bit 1 .chk, bit 0 .ctrap (R187). -/
def FT.cpyMods (f : FT) : CpyMods := { crc := bit f.mod 2, chk := bit f.mod 1, ctrap := bit f.mod 0 }
def CpyMods.code (m : CpyMods) : BitVec 3 := mod3 m.ctrap m.chk m.crc
/-- A copy whose only suffix bit is .crc (R187). -/
def FT.onlyCrc (f : FT) : Except DecodeErr Bool := do
  must (bits f.mod 0 2 == 0) .badMod
  .ok (bit f.mod 2)

/-- CPYG, CPYS, CPYQ: two descriptors and a k block (R187). -/
def FT.xxk (f : FT) : Except DecodeErr (BitVec 8 × BitVec 8 × BitVec 6) := do
  f.noLit
  let d ← f.d.getX
  let a ← f.a.getX
  let b ← f.b.getK
  .ok (d, a, b)

/-- A k destination, a k pair and an offset: LNCH, TASK, DEPD (R248). -/
def FT.kk (f : FT) : Except DecodeErr (BitVec 6 × BitVec 6) := do
  f.noLit
  f.b.isNone
  let d ← f.d.getK
  let a ← f.a.getK
  .ok (d, a)

/-- CKITR by its mode (R166, R174). -/
def FT.itr (f : FT) : Except DecodeErr ItrMode :=
  match f.mod.toNat with
  | 4 => do
    f.z
    f.a.isNone; f.b.isNone
    .ok .close
  | 2 => do
    must (f.w3.toNat < 64) .badWord3
    let c ← f.a.getCask
    let b ← f.b.getK
    .ok (.voxel c b (bits f.w3 0 6))
  | 0 => do
    f.z
    let c ← f.a.getCask
    let b ← f.b.getK
    .ok (.range c b)
  | 1 => do
    f.z
    let c ← f.a.getCask
    let b ← f.b.getK
    .ok (.box c b)
  | 3 => do
    f.z
    let c ← f.a.getCask
    let b ← f.b.getK
    .ok (.scan c b)
  | _ => .error .badMod

/-- Read an extended word of layout T as an instruction (R76 and the entries of its opcode). -/
def FT.instr (f : FT) : Except DecodeErr Instr :=
  match f.op.toNat with
  | 0x0B => do
    f.noLit; f.sop0; f.mod0
    f.a.isNone; f.b.isNone
    must (f.w3.toNat < 256) .badWord3
    let d ← f.d.getK
    let t ← f.tok
    .ok (.cfetch f.g d (bits f.w3 0 8) t)
  | 0x40 => f.load fun sz acq sc d a t => .ld f.g sz acq sc d a f.off t
  | 0x41 => f.store fun sz rel sc a b => .st f.g sz rel sc a f.off b f.t
  | 0x42 => do
    f.noLit
    f.b.isNone
    let off ← f.off0
    let m ← orErr .badMod (LdsMode.ofCode f.mod)
    let sz ← orErr .badSop (LoadSize.ofCode f.sop)
    let t ← f.tok
    let d ← f.d.vk
    let a ← f.a.vk
    .ok (.lds f.g sz m d a off t)
  | 0x43 => do
    f.d.isNone
    let off ← f.off0
    let m ← orErr .badMod (StsMode.ofCode f.mod)
    let sz ← orErr .badSop (StoreSize.ofCode f.sop)
    let a ← f.a.vk
    let b ← f.b.srcL f.lit
    .ok (.sts f.g sz m a off b f.t)
  | 0x44 => f.load fun sz acq sc d a t => .ldc f.g sz acq sc d a f.off t
  | 0x45 => f.store fun sz rel sc a b => .stc f.g sz rel sc a f.off b f.t
  | 0x46 => do
    f.noLit
    f.b.isNone
    must (f.mod.toNat < 2) .badMod
    let sz ← orErr .badSop (LoadSize.ofCode f.sop)
    let sc ← f.scope
    let t ← f.tok
    let d ← f.d.getK
    let a ← f.a.getK
    .ok (.ldk f.g sz (bit f.mod 0) sc d a f.off t)
  | 0x47 => do
    f.noLit; f.mod0
    must (f.sop.toNat < 2) .badSop
    let t ← f.tok
    let d ← f.d.vk
    let x ← f.a.getX
    let b ← f.b.vk
    .ok (.tld (bit f.sop 0) f.g d x b f.w3 t)
  | 0x48 => do
    f.noLit; f.mod0
    f.d.isNone; f.b.isNone
    must (f.sop.toNat < 2) .badSop
    let off ← f.off0
    let a ← f.a.vk
    .ok (.pref (bit f.sop 0) f.g a off f.t)
  | 0x49 => do
    f.mod0
    f.d.isNone
    let op ← orErr .badSop (CctlOp.ofCode f.sop)
    let sc ← f.scope
    let t ← f.tok
    let a ← f.a.getK
    let b ← f.b.srcL f.lit
    .ok (.cctl op sc f.g a b f.off t)
  | 0x50 => f.atomic fun op ord sc d a b t => .atom op ord sc f.g d a f.off b t
  | 0x51 => f.atomic fun op ord sc d a b t => .atoms op ord sc f.g d a f.off b t
  | 0x52 => f.atomic fun op ord sc d a b t => .atomc op ord sc f.g d a f.off b t
  | 0x53 => do
    f.d.isNone
    must (bit f.mod 0 == false) .badMod
    let sc ← f.scope
    let a ← f.a.vk
    let b ← f.b.srcL f.lit
    .ok (.red (bits f.mod 2 1 ++ f.sop) (bit f.mod 1) sc f.g a f.off b f.t)
  | 0x58 => do
    f.noLit
    f.b.isNone
    let dir ← orErr .badSop (CpyDir.ofCode f.sop)
    let sz ← orErr .badMod (CpySize.ofCode (bits f.mod 0 2))
    let off ← f.off0
    let t ← f.tok
    let d ← f.d.getV
    let a ← f.a.getV
    .ok (.cpy dir sz (bit f.mod 2) f.g d a off t)
  | 0x59 => do
    f.sop0
    must (bits f.w3 0 29 == 0) .badWord3
    let t ← f.tok
    let q ← f.xxk
    .ok (.cpya f.cpyMods (bit f.w3 31) (bit f.w3 30) (bit f.w3 29) f.g q.1 q.2.1 q.2.2 t)
  | 0x5A => do
    f.sop0
    must (bits f.w3 0 29 == 0) .badWord3
    let crc ← f.onlyCrc
    let t ← f.tok
    let q ← f.xxk
    .ok (.cpyg crc (bit f.w3 31) (bit f.w3 30) (bit f.w3 29) f.g q.1 q.2.1 q.2.2 t)
  | 0x5B => do
    f.sop0
    must (bits f.w3 0 31 == 0) .badWord3
    let crc ← f.onlyCrc
    let t ← f.tok
    let q ← f.xxk
    .ok (.cpys crc (bit f.w3 31) f.g q.1 q.2.1 q.2.2 t)
  | 0x5C => do
    f.sop0
    must (bits f.w3 0 30 == 0) .badWord3
    let crc ← f.onlyCrc
    let t ← f.tok
    let q ← f.xxk
    .ok (.cpyq crc (bit f.w3 31) (bit f.w3 30) f.g q.1 q.2.1 q.2.2 t)
  | 0x5D => do
    f.sop0; f.noLit
    must (bits f.w3 4 26 == 0) .badWord3
    f.b.isNone
    let crc ← f.onlyCrc
    let t ← f.tok
    let d ← f.d.getX
    let a ← f.a.getX
    .ok (.cpyl crc (bit f.w3 31) (bit f.w3 30) (bits f.w3 0 4) f.g d a t)
  | 0x5E => do
    must (f.sop.toNat < 2) .badSop
    let t ← f.tok
    let d ← f.d.getK
    let a ← f.a.getK
    let b ← f.b.getK
    match f.lit with
    | some x => do
      f.z
      .ok (.cpyx f.cpyMods (bit f.sop 0) (.lit x) f.g d a b t)
    | none => do
      must (bits f.w3 30 2 == 0) .badWord3
      .ok (.cpyx f.cpyMods (bit f.sop 0) (.short (bits f.w3 0 30)) f.g d a b t)
  | 0x65 => do
    f.mod0; f.noLit
    must (f.sop.toNat < 2) .badSop
    must (bits f.w3 16 15 == 0) .badWord3
    let t ← f.tok
    let x ← f.d.getX
    let a ← f.a.getTile
    let b ← f.b.getK
    .ok (.adrn (bit f.sop 0) (bit f.w3 31) f.g x a b (bits f.w3 0 8) (bits f.w3 8 8) t)
  | 0x68 => do
    f.sop0; f.mod0; f.noLit
    f.b.isNone
    let off ← f.off0
    let t ← f.tok
    let x ← f.d.getX
    let a ← f.a.getK
    .ok (.tdsc f.g x a off t)
  | 0x69 => do
    f.sop0; f.mod0; f.noLit
    f.d.isNone
    let off ← f.off0
    let t ← f.tok
    let a ← f.a.getK
    match f.b with
    | .imm n => do
      must (n.toNat ≤ 15) .badOperand
      .ok (.tcod f.g (bits n 0 4) a off t)
    | _ => .error .badOperand
  | 0x6B => do
    f.sop0; f.mod0; f.noLit
    f.b.isNone
    must (f.w3.toNat < 256) .badWord3
    let t ← f.tok
    let d ← f.d.getK
    let x ← f.a.getX
    .ok (.tqry f.g d x (bits f.w3 0 8) t)
  | 0x6C => do
    f.mod0; f.noLit
    f.b.isNone
    let t ← f.tok
    match f.sop.toNat with
    | 0 => do
      let off ← f.off0
      let c ← f.d.getCask
      let a ← f.a.getK
      .ok (.ckopn f.g c a off t)
    | 1 => do
      f.z
      f.d.isNone
      let c ← f.a.getCask
      .ok (.ckcls f.g c t)
    | 2 => do
      f.z
      let d ← f.d.getK
      let c ← f.a.getCask
      .ok (.ckrak f.g d c t)
    | 3 => do
      f.z
      let d ← f.d.getK
      let c ← f.a.getCask
      .ok (.ckcnt f.g d c t)
    | _ => .error .badSop
  | 0x6D => do
    f.z; f.noLit
    let t ← f.tok
    let d ← f.d.getV
    let c ← f.a.getCask
    let b ← f.b.getV
    match f.sop.toNat with
    | 0 => do
      must (f.mod.toNat < 2) .badMod
      .ok (.ckins (bit f.mod 0) f.g d c b t)
    | 1 => do
      f.mod0
      .ok (.ckrem f.g d c b t)
    | 2 => do
      must (f.mod.toNat < 2) .badMod
      .ok (.ckmov (bit f.mod 0) f.g d c b t)
    | _ => .error .badSop
  | 0x6E => do
    f.noLit
    let t ← f.tok
    match f.sop.toNat with
    | 0 => do
      let j ← f.d.getCur
      let m ← f.itr
      .ok (.ckitr m f.g j t)
    | 1 => do
      f.mod0
      f.b.isNone
      must (bits f.w3 13 7 == 0) .badWord3
      let d ← f.d.getV
      let j ← f.a.getCur
      .ok (.cknxt f.g d j (bits f.w3 8 5) (bits f.w3 20 6) (bits f.w3 29 3) (bits f.w3 26 3) (bits f.w3 0 8) t)
    | _ => .error .badSop
  | 0x6F => do
    f.mod0; f.noLit
    must (f.w3.toNat < 256) .badWord3
    let t ← f.tok
    let d ← f.d.getV
    let c ← f.a.getCask
    let b ← f.b.getV
    match f.sop.toNat with
    | 0 => .ok (.ckpay f.g d c b (bits f.w3 0 8) t)
    | 1 => .ok (.ckwr f.g d c b (bits f.w3 0 8) t)
    | _ => .error .badSop
  | 0x70 => do
    f.mod0
    let off ← f.off0
    let t ← f.tok
    let q ← f.kk
    match f.sop.toNat with
    | 0 => .ok (.lnch f.g q.1 q.2 off t)
    | 1 => .ok (.task f.g q.1 q.2 off t)
    | _ => .error .badSop
  | 0x71 => do
    f.z; f.sop0; f.mod0; f.noLit
    let t ← f.tok
    let d ← f.d.getV
    let a ← f.a.getV
    let b ← f.b.getV
    .ok (.dpst f.g d a b t)
  | 0x72 => do
    f.mod0; f.noLit
    let t ← f.tok
    let d ← f.d.getK
    let a ← f.a.getK
    match f.sop.toNat with
    | 0 => do
      f.b.isNone
      let off ← f.off0
      .ok (.depd f.g d a off t)
    | 1 => do
      let b ← f.b.getK
      let sc ← f.scope
      .ok (.cwait sc f.g d a f.off b t)
    | _ => .error .badSop
  | 0x73 => do
    f.noLit
    let t ← f.tok
    let d ← f.d.getK
    match f.sop.toNat with
    | 0 => do
      f.mod0
      let off ← f.off0
      let a ← f.a.getK
      let b ← f.b.getK
      .ok (.garm f.g d a off b t)
    | 1 => do
      f.z
      match f.a with
      | .imm r => do
        must (r.toNat ≤ 15) .badOperand
        if f.mod == 0 then do
          let b ← f.b.getK
          .ok (.hpost f.g d (bits r 0 4) b t)
        else do
          must (f.mod == 1) .badMod
          f.b.isNone
          .ok (.hpostFlush f.g d (bits r 0 4) t)
      | _ => .error .badOperand
    | _ => .error .badSop
  | 0x74 => do
    f.noLit
    let t ← f.tok
    match f.sop.toNat, f.mod.toNat with
    | 0, 0 => do
      f.z
      let d ← f.d.getK
      let a ← f.a.getK
      let b ← f.b.getK
      .ok (.prim f.g d a b t)
    | 0, 1 => do
      must (f.w3.toNat < 16) .badWord3
      let d ← f.d.getK
      let a ← f.a.getK
      let b ← f.b.getK
      .ok (.primSplat f.g d a b (bits f.w3 0 4) t)
    | 0, 2 => do
      f.z
      f.a.isNone
      let d ← f.d.getK
      let b ← f.b.getK
      .ok (.primClose f.g d b t)
    | 0, _ => .error .badMod
    | 1, _ => do
      f.z
      f.b.isNone
      let k ← orErr .badMod (SegKind.ofCode f.mod)
      let x ← f.d.getX
      let a ← f.a.getV
      .ok (.pseg k f.g x a t)
    | _, _ => .error .badSop
  | 0x75 => do
    f.z
    must (f.sop.toNat < 2) .badSop
    must (f.mod.toNat < 2) .badMod
    let t ← f.tok
    let q ← f.xxk
    .ok (.covr (bit f.sop 0) (bit f.mod 0) f.g q.1 q.2.1 q.2.2 t)
  | 0x77 => do
    f.mod0; f.noLit
    f.b.isNone
    let t ← f.tok
    let d ← f.d.vk
    match f.sop.toNat with
    | 0 => do
      must (f.w3.toNat < 2 ^ 9) .badWord3
      let a ← f.a.vk
      .ok (.hmap { size := bits f.w3 0 2, w := bit f.w3 2, x := bit f.w3 3, layout := bits f.w3 4 2
                   comp := bit f.w3 6, cache := bits f.w3 7 2 } f.g d a t)
    | 1 => do
      f.z
      let a ← f.a.vk
      .ok (.pgup f.g d a t)
    | 2 => do
      f.a.isNone
      must (f.w3.toNat < 256) .badWord3
      .ok (.finfo f.g d (bits f.w3 0 8) t)
    | _ => .error .badSop
  | _ => .error .badForm

/-- Read an extended branch as an instruction (R61). -/
def FB.instr (f : FB) : Except DecodeErr Instr :=
  match f.op.toNat, f.sop.toNat with
  | 0x01, 0 => if f.rc == 0 then .ok (.bra f.g f.off) else .error .badOperand
  | 0x01, 1 => .ok (.braD f.g f.off f.rc)
  | 0x03, 0 => if f.rc == 0 then .ok (.call f.g f.off) else .error .badOperand
  | 0x0C, 0 => if f.rc == 0 then .ok (.jmpf f.g f.off) else .error .badOperand
  | _, _ => .error .badSop

/-- Read a form as an instruction, before the checks of WellFormed. -/
def Code.read : Code → Except DecodeErr Instr
  | .base f => f.instr
  | .g f => f.instr
  | .t f => f.instr
  | .br f => f.instr
  | .raw w => .ok (.unassignedOpcode w)

/-- The instruction a form stands for; a form that breaks a rule of its entry is ill-formed. -/
def Code.instr (c : Code) : Except DecodeErr Instr :=
  match c.read with
  | .ok i => if i.wf then .ok i else .error .illFormed
  | .error e => .error e

/-- Decode the instruction that begins a list of words. -/
def decode (ws : List Word) : Except DecodeErr Instr :=
  match cut ws with
  | .ok c => c.instr
  | .error e => .error e

/-! ### The encoder -/

/-- A two-source base word. -/
def Base2.code (f : Base2) (op : BitVec 7) (m : Bool) : Code :=
  .base { op, pg := f.pg, f := f.b.flag, m, d := f.d, a := f.a, b := f.b.field, lit := f.b.litOf }
/-- A one-source base word. -/
def Base1.code (f : Base1) (op : BitVec 7) (m : Bool) : Code :=
  .base { op, pg := f.pg, f := false, m, d := f.d, a := f.a, b := 0, lit := none }
/-- A control word. -/
def bareCode (op : BitVec 7) (pg : BitVec 3) : Code :=
  .base { op, pg, f := false, m := false, d := 0, a := 0, b := 0, lit := none }

def Alu1.code (f : Alu1) (op : BitVec 7) (sop : BitVec 4) (mod : BitVec 3) (w3 : Word) : Code :=
  .g { op, g := f.g, d := f.d.opnd, a := f.a.opnd, b := .none, c := .none, sop, mod, w3, lit := none }
def Alu2.code (f : Alu2) (op : BitVec 7) (mod : BitVec 3) : Code :=
  .g { op, g := f.g, d := f.d.opnd, a := f.a.opnd, b := f.b.opnd, c := .none, sop := 0, mod, w3 := 0, lit := f.b.litOf }
def Alu3.code (f : Alu3) (op : BitVec 7) (sop : BitVec 4) (mod : BitVec 3) : Code :=
  .g { op, g := f.g, d := f.d.opnd, a := f.a.opnd, b := f.b.opnd, c := f.c.opnd, sop, mod, w3 := 0, lit := f.b.litOf }
def Cmp.code (f : Cmp) (op : BitVec 7) (sop : BitVec 4) (mod : BitVec 3) : Code :=
  .g { op, g := f.g, d := .p f.d, a := f.a.opnd, b := f.b.opnd, c := .none, sop, mod, w3 := 0, lit := f.b.litOf }
/-- An extended word of layout G without a literal. -/
def gCode (op : BitVec 7) (g : Guard) (d a b c : Opnd) (sop : BitVec 4) (mod : BitVec 3) (w3 : Word) : Code :=
  .g { op, g, d, a, b, c, sop, mod, w3, lit := none }
/-- An extended word of layout T without a literal. -/
def tCode (op : BitVec 7) (g : Guard) (d a b : Opnd) (t : TokOpt) (sop mod : BitVec 3) (w3 : Word) : Code :=
  .t { op, g, d, a, b, t, sop, mod, w3, lit := none }
/-- A token that must be named. -/
def onTok (t : BitVec 3) : TokOpt := { te := true, tok := t }
/-- A store or RED (R391, R385). -/
def storeCode (op : BitVec 7) (g : Guard) (sop mod : BitVec 3) (base : VK) (b : SrcL) (t : TokOpt) (w3 : Word) : Code :=
  .t { op, g, d := .none, a := base.opnd, b := b.opnd, t, sop, mod, w3, lit := b.litOf }
/-- An atomic (R311). -/
def atomCode (op : BitVec 7) (opc : BitVec 4) (ord : AtomOrd) (sc : Scope) (g : Guard) (d base : VK) (off : BitVec 29)
    (b : SrcL) (tok : BitVec 3) : Code :=
  .t { op, g, d := d.opnd, a := base.opnd, b := b.opnd, t := onTok tok, sop := bits opc 0 3
       mod := bits opc 3 1 ++ ord.code, w3 := wordM sc off, lit := b.litOf }
def flag31 (b : Bool) : Word := b1 b ++ (0 : BitVec 31)
def flag30 (b : Bool) : Word := (0 : BitVec 1) ++ b1 b ++ (0 : BitVec 30)
def flag29 (b : Bool) : Word := (0 : BitVec 2) ++ b1 b ++ (0 : BitVec 29)

/-- The form of an instruction; none for an operation without an encoding. -/
def Instr.code : Instr → Option Code
  | .nop => some (.base { op := 0, pg := 0, f := false, m := false, d := 0, a := 0, b := 0, lit := none })
  | .braBase pg off =>
    some (.base { op := 0x01, pg, f := false, m := false, d := bits off 0 6, a := bits off 6 6, b := bits off 12 6, lit := none })
  | .bra g off => some (.br { op := 0x01, g, sop := 0, rc := 0, off })
  | .braD g off rc => some (.br { op := 0x01, g, sop := 1, rc, off })
  | .brx g a => some (gCode 0x02 g .none (.k a) .none .none 0 0 0)
  | .brxD g a b => some (gCode 0x02 g .none (.v a) (.k b) .none 1 0 0)
  | .call g off => some (.br { op := 0x03, g, sop := 0, rc := 0, off })
  | .ret pg => some (bareCode 0x04 pg)
  | .exit pg => some (bareCode 0x05 pg)
  | .rfill map => some (.base { op := 0x06, pg := 7, f := false, m := false, d := 0, a := map, b := 0, lit := none })
  | .drain => some (bareCode 0x07 7)
  | .yield pg => some (bareCode 0x08 pg)
  | .trap g code => some (gCode 0x09 g .none .none .none .none 0 0 code)
  | .bkpt pg => some (bareCode 0x0A pg)
  | .cfetch g d seg tok => some (tCode 0x0B g (.k d) .none .none (onTok tok) 0 0 (seg.setWidth 32))
  | .jmpf g off => some (.br { op := 0x0C, g, sop := 0, rc := 0, off })
  | .eret => some (bareCode 0x0D 7)
  | .iaddBase sat f => some (f.code 0x10 sat)
  | .iadd m f => some (f.code 0x10 m.code)
  | .isubBase sat f => some (f.code 0x11 sat)
  | .isub m f => some (f.code 0x11 m.code)
  | .imulBase f => some (f.code 0x12 false)
  | .imul f => some (f.code 0x12 0)
  | .imulhBase u f => some (f.code 0x13 u)
  | .imulh u f => some (f.code 0x13 (mod3 u false false))
  | .imad m f => some (f.code 0x14 0 m.code)
  | .iminBase f => some (f.code 0x15 false)
  | .imin u f => some (f.code 0x15 (mod3 false u false))
  | .imaxBase f => some (f.code 0x15 true)
  | .imax u f => some (f.code 0x15 (mod3 true u false))
  | .iabsBase sat f => some (f.code 0x16 sat)
  | .iabs sat f => some (f.code 0x16 0 (mod3 sat false false) 0)
  | .lopBase o f => some (f.code 0x17 o)
  | .lop op g d a b =>
    some (.g { op := 0x17, g, d := d.opnd, a := a.opnd, b := (match b with
        | some x => x.opnd
        | none => .none), c := .none, sop := 0, mod := op.code, w3 := 0, lit := b.bind SrcL.litOf })
  | .shfBase r f => some (f.code 0x18 r)
  | .shf op g d a b c =>
    some (.g { op := 0x18, g, d := d.opnd, a := a.opnd, b := b.opnd, c := (match c with
        | some x => x.opnd
        | none => .none), sop := 0, mod := op.code, w3 := 0, lit := b.litOf })
  | .bfx s pos wm1 f => some (f.code 0x19 0 (mod3 s false false) ((0 : BitVec 22) ++ wm1 ++ pos))
  | .bfi pos wm1 g d a b => some (gCode 0x1A g d.opnd a.opnd b.opnd .none 0 0 ((0 : BitVec 22) ++ wm1 ++ pos))
  | .popcBase f => some (f.code 0x1B false)
  | .popc f => some (f.code 0x1B 0 0 0)
  | .clzBase f => some (f.code 0x1C false)
  | .clz f => some (f.code 0x1C 0 0 0)
  | .leaBase s f => some (f.code 0x1D s)
  | .lea s shift g d a b =>
    some (.g { op := 0x1D, g, d := d.opnd, a := a.opnd, b := b.opnd, c := .none, sop := shift.setWidth 4
               mod := mod3 s false false, w3 := 0, lit := b.litOf })
  | .icmp c u f => some (f.code 0x1E c.code (mod3 u false false))
  | .sel wide g d a b c =>
    some (.g { op := 0x1F, g, d := d.opnd, a := a.opnd, b := b.opnd, c := (match c with
        | .p n => .p n
        | .k n => .k n), sop := 0, mod := mod3 wide false false, w3 := 0, lit := b.litOf })
  | .movBase wide pg d b =>
    some (.base { op := 0x20, pg, f := b.flag, m := wide, d, a := 0, b := b.field, lit := b.litOf })
  | .mov wide g d b =>
    some (.g { op := 0x20, g, d := d.opnd, a := .none, b := b.opnd, c := .none, sop := 0, mod := mod3 wide false false
               w3 := 0, lit := b.litOf })
  | .movk g d a lane =>
    some (match lane with
      | none => gCode 0x21 g (.k d) (.v a) .none .none 0 0 0
      | some (.k n) => gCode 0x21 g (.k d) (.v a) (.k n) .none 1 0 0
      | some (.imm n) => gCode 0x21 g (.k d) (.v a) (.imm n) .none 1 0 0)
  | .faddBase sat f => some (f.code 0x28 sat)
  | .fadd sat f => some (f.code 0x28 (mod3 sat false false))
  | .fmulBase sat f => some (f.code 0x29 sat)
  | .fmul sat f => some (f.code 0x29 (mod3 sat false false))
  | .ffma sat nega negc f => some (f.code 0x2A 0 (mod3 sat nega negc))
  | .fminBase f => some (f.code 0x2B false)
  | .fmin f => some (f.code 0x2B 0)
  | .fmaxBase f => some (f.code 0x2B true)
  | .fmax f => some (f.code 0x2B 1)
  | .fcmp c f => some (f.code 0x2C c.code 0)
  | .ftrnRcpBase f => some (f.code 0x2D false)
  | .ftrn fn f => some (f.code 0x2D fn.code 0 0)
  | .pfma bf sat nega negc f => some (f.code 0x2E ((0 : BitVec 3) ++ b1 bf) (mod3 sat nega negc))
  | .idp4 ua ub sat f => some (f.code 0x2F 0 (mod3 ua ub sat))
  | .cvt sat src dst rm f =>
    some (f.code 0x30 0 (mod3 sat false false)
      ((0 : BitVec 14) ++ rm.code ++ (0 : BitVec 3) ++ dst ++ (0 : BitVec 3) ++ src))
  | .frnd rm f => some (f.code 0x31 0 ((0 : BitVec 1) ++ rm.code) 0)
  | .vote op g d a =>
    some (gCode 0x38 g (match d with
      | .v n => .v n
      | .k n => .k n
      | .p n => .p n) (.p a) .none .none op.code 0 0)
  | .shfl op g d a b =>
    some (.g { op := 0x39, g, d := .v d, a := .v a, b := b.opnd, c := .none, sop := op.code, mod := 0, w3 := 0, lit := b.litOf })
  | .bred op g d a => some (gCode 0x3A g d.opnd (.v a) .none .none op.code 0 0)
  | .bscan op excl g d a => some (gCode 0x3B g (.v d) (.v a) .none .none op.code (mod3 excl false false) 0)
  | .matchl g d a =>
    some (match d with
      | .any n => gCode 0x3C g (.v n) (.v a) .none .none 0 0 0
      | .all n => gCode 0x3C g (.p n) (.v a) .none .none 1 0 0)
  | .qdif y g d a => some (gCode 0x3D g (.v d) (.v a) .none .none ((0 : BitVec 3) ++ b1 y) 0 0)
  | .plop op g d a b =>
    some (gCode 0x3E g (.p d) (.p a) (match b with
      | some n => .p n
      | none => .none) .none op.code 0 0)
  | .ld g sz acq sc d base off tok =>
    some (tCode 0x40 g d.opnd base.opnd .none (onTok tok) sz.code (mod3 acq false false) (wordM sc off))
  | .st g sz rel sc base off b t => some (storeCode 0x41 g sz.code (mod3 false rel false) base b t (wordM sc off))
  | .lds g sz m d base off tok =>
    some (tCode 0x42 g d.opnd base.opnd .none (onTok tok) sz.code m.code (wordM .team off))
  | .sts g sz m base off b t => some (storeCode 0x43 g sz.code m.code base b t (wordM .team off))
  | .ldc g sz acq sc d base off tok =>
    some (tCode 0x44 g d.opnd base.opnd .none (onTok tok) sz.code (mod3 acq false false) (wordM sc off))
  | .stc g sz rel sc base off b t => some (storeCode 0x45 g sz.code (mod3 false rel false) base b t (wordM sc off))
  | .ldk g sz acq sc d base off tok =>
    some (tCode 0x46 g (.k d) (.k base) .none (onTok tok) sz.code (mod3 acq false false) (wordM sc off))
  | .tld s32 g d x b fill tok =>
    some (tCode 0x47 g d.opnd (.x x) b.opnd (onTok tok) ((0 : BitVec 2) ++ b1 s32) 0 fill)
  | .pref l1 g base off t => some (tCode 0x48 g .none base.opnd .none t ((0 : BitVec 2) ++ b1 l1) 0 (wordM .team off))
  | .cctl op sc g a len off tok =>
    some (.t { op := 0x49, g, d := .none, a := .k a, b := len.opnd, t := onTok tok, sop := op.num, mod := 0
               w3 := wordM sc off, lit := len.litOf })
  | .atom op ord sc g d base off b tok => some (atomCode 0x50 op ord sc g d base off b tok)
  | .atoms op ord sc g d base off b tok => some (atomCode 0x51 op ord sc g d base off b tok)
  | .atomc op ord sc g d base off b tok => some (atomCode 0x52 op ord sc g d base off b tok)
  | .red op rel sc g base off b t =>
    some (storeCode 0x53 g (bits op 0 3) (bits op 3 1 ++ b1 rel ++ (0 : BitVec 1)) base b t (wordM sc off))
  | .fence sc g => some (gCode 0x54 g .none .none .none .none 0 sc.code 0)
  | .fenceOpnd g => some (gCode 0x54 g .none .none .none .none 1 0 0)
  | .bar g b n => some (gCode 0x55 g .none .none .none .none 0 0 ((0 : BitVec 23) ++ n ++ b))
  | .barArrive g b n => some (gCode 0x55 g .none .none .none .none 1 0 ((0 : BitVec 23) ++ n ++ b))
  | .barWait g b => some (gCode 0x55 g .none .none .none .none 2 0 (b.setWidth 32))
  | .wtok g t =>
    some (match t with
      | .one n => gCode 0x56 g .none (.tok n) .none .none 0 0 0
      | .many m => gCode 0x56 g .none (.imm m) .none .none 1 0 0)
  | .mwait g mask => some (gCode 0x57 g .none (.imm (mask.setWidth 8)) .none .none 0 0 0)
  | .cpy dir sz crc g d a off tok =>
    some (tCode 0x58 g (.v d) (.v a) .none (onTok tok) dir.code (b1 crc ++ sz.code) (wordM .team off))
  | .cpya m spd sps x24 g d a b tok =>
    some (tCode 0x59 g (.x d) (.x a) (.k b) (onTok tok) 0 m.code (flag31 spd ||| flag30 sps ||| flag29 x24))
  | .cpyg crc spd sps spi g d a b tok =>
    some (tCode 0x5A g (.x d) (.x a) (.k b) (onTok tok) 0 (mod3 false false crc) (flag31 spd ||| flag30 sps ||| flag29 spi))
  | .cpys crc spd g d a b tok =>
    some (tCode 0x5B g (.x d) (.x a) (.k b) (onTok tok) 0 (mod3 false false crc) (flag31 spd))
  | .cpyq crc spd sps g d a b tok =>
    some (tCode 0x5C g (.x d) (.x a) (.k b) (onTok tok) 0 (mod3 false false crc) (flag31 spd ||| flag30 sps))
  | .cpyl crc spd sps prog g d a tok =>
    some (tCode 0x5D g (.x d) (.x a) .none (onTok tok) 0 (mod3 false false crc)
      (flag31 spd ||| flag30 sps ||| prog.setWidth 32))
  | .cpyx m sps route g d a b tok =>
    some (.t { op := 0x5E, g, d := .k d, a := .k a, b := .k b, t := onTok tok, sop := (0 : BitVec 2) ++ b1 sps, mod := m.code
               w3 := (match route with
                 | .short r => (0 : BitVec 2) ++ r
                 | .lit _ => 0)
               lit := (match route with
                 | .short _ => none
                 | .lit x => some x) })
  | .wld sps g x b krows => some (gCode 0x60 g .none (.x x) (.k b) .none 0 0 (flag31 sps ||| krows.setWidth 32))
  | .wswp g => some (gCode 0x61 g .none .none .none .none 0 0 0)
  | .mms m clr sps g t x b c rows promo trow =>
    some (gCode 0x62 g (.tile t) (.x x) (.k b) (match c with
      | some n => .k n
      | none => .none) m.code (mod3 clr false false)
      (b1 sps ++ (0 : BitVec 7) ++ trow ++ (0 : BitVec 1) ++ promo ++ rows))
  | .aprm g t => some (gCode 0x63 g (.tile t) .none .none .none 0 0 0)
  | .aclr g t => some (gCode 0x64 g (.tile t) .none .none .none 0 0 0)
  | .adrn bias spd g x t b rows trow tok =>
    some (tCode 0x65 g (.x x) (.tile t) (.k b) (onTok tok) ((0 : BitVec 2) ++ b1 bias) 0
      (b1 spd ++ (0 : BitVec 15) ++ trow ++ rows))
  | .tdsc g x a off tok => some (tCode 0x68 g (.x x) (.k a) .none (onTok tok) 0 0 (wordM .team off))
  | .tcod g tbl a off tok => some (tCode 0x69 g .none (.k a) (.imm (tbl.setWidth 8)) (onTok tok) 0 0 (wordM .team off))
  | .tsyn g => some (gCode 0x6A g .none .none .none .none 0 0 0)
  | .tqry g d x q tok => some (tCode 0x6B g (.k d) (.x x) .none (onTok tok) 0 0 (q.setWidth 32))
  | .ckopn g c a off tok => some (tCode 0x6C g (.cask c) (.k a) .none (onTok tok) 0 0 (wordM .team off))
  | .ckcls g c tok => some (tCode 0x6C g .none (.cask c) .none (onTok tok) 1 0 0)
  | .ckrak g d c tok => some (tCode 0x6C g (.k d) (.cask c) .none (onTok tok) 2 0 0)
  | .ckcnt g d c tok => some (tCode 0x6C g (.k d) (.cask c) .none (onTok tok) 3 0 0)
  | .ckins now g d c b tok => some (tCode 0x6D g (.v d) (.cask c) (.v b) (onTok tok) 0 (mod3 now false false) 0)
  | .ckrem g d c b tok => some (tCode 0x6D g (.v d) (.cask c) (.v b) (onTok tok) 1 0 0)
  | .ckmov now g d c b tok => some (tCode 0x6D g (.v d) (.cask c) (.v b) (onTok tok) 2 (mod3 now false false) 0)
  | .ckitr m g j tok =>
    some (match m with
      | .range c b => tCode 0x6E g (.cur j) (.cask c) (.k b) (onTok tok) 0 0 0
      | .box c b => tCode 0x6E g (.cur j) (.cask c) (.k b) (onTok tok) 0 1 0
      | .voxel c b p => tCode 0x6E g (.cur j) (.cask c) (.k b) (onTok tok) 0 2 (p.setWidth 32)
      | .scan c b => tCode 0x6E g (.cur j) (.cask c) (.k b) (onTok tok) 0 3 0
      | .close => tCode 0x6E g (.cur j) .none .none (onTok tok) 0 4 0)
  | .cknxt g d j n kc pf px map tok =>
    some (tCode 0x6E g (.v d) (.cur j) .none (onTok tok) 1 0 (pf ++ px ++ kc ++ (0 : BitVec 7) ++ n ++ map))
  | .ckpay g d c b map tok => some (tCode 0x6F g (.v d) (.cask c) (.v b) (onTok tok) 0 0 (map.setWidth 32))
  | .ckwr g d c b map tok => some (tCode 0x6F g (.v d) (.cask c) (.v b) (onTok tok) 1 0 (map.setWidth 32))
  | .dpst g d a b tok => some (tCode 0x71 g (.v d) (.v a) (.v b) (onTok tok) 0 0 0)
  | .lnch g d a off tok => some (tCode 0x70 g (.k d) (.k a) .none (onTok tok) 0 0 (wordM .team off))
  | .task g d a off tok => some (tCode 0x70 g (.k d) (.k a) .none (onTok tok) 1 0 (wordM .team off))
  | .depd g d a off tok => some (tCode 0x72 g (.k d) (.k a) .none (onTok tok) 0 0 (wordM .team off))
  | .cwait sc g d a off b tok => some (tCode 0x72 g (.k d) (.k a) (.k b) (onTok tok) 1 0 (wordM sc off))
  | .garm g d a off b tok => some (tCode 0x73 g (.k d) (.k a) (.k b) (onTok tok) 0 0 (wordM .team off))
  | .hpost g d ring b tok => some (tCode 0x73 g (.k d) (.imm (ring.setWidth 8)) (.k b) (onTok tok) 1 0 0)
  | .hpostFlush g d ring tok => some (tCode 0x73 g (.k d) (.imm (ring.setWidth 8)) .none (onTok tok) 1 1 0)
  | .prim g d a b tok => some (tCode 0x74 g (.k d) (.k a) (.k b) (onTok tok) 0 0 0)
  | .primSplat g d a b c tok => some (tCode 0x74 g (.k d) (.k a) (.k b) (onTok tok) 0 1 (c.setWidth 32))
  | .primClose g d b tok => some (tCode 0x74 g (.k d) .none (.k b) (onTok tok) 0 2 0)
  | .pseg k g x a tok => some (tCode 0x74 g (.x x) (.v a) .none (onTok tok) 1 k.code 0)
  | .covr eo clr g d a b tok =>
    some (tCode 0x75 g (.x d) (.x a) (.k b) (onTok tok) ((0 : BitVec 2) ++ b1 eo) (mod3 clr false false) 0)
  | .csrr g d num => some (gCode 0x76 g (.k d) .none .none .none 0 0 (num.setWidth 32))
  | .csrw g b num =>
    some (.g { op := 0x76, g, d := .none, a := .none, b := b.opnd, c := .none, sop := 1, mod := 0
               w3 := num.setWidth 32, lit := b.litOf })
  | .hmap m g d a tok =>
    some (tCode 0x77 g d.opnd a.opnd .none (onTok tok) 0 0
      ((0 : BitVec 23) ++ m.cache ++ b1 m.comp ++ m.layout ++ b1 m.x ++ b1 m.w ++ m.size))
  | .pgup g d a tok => some (tCode 0x77 g d.opnd a.opnd .none (onTok tok) 1 0 0)
  | .finfo g d q tok => some (tCode 0x77 g d.opnd .none .none (onTok tok) 2 0 (q.setWidth 32))
  | .unassignedOpcode w => some (.raw w)
  | .fpStatClear .. | .accPromoWrite .. | .registerWrite .. | .queueDoorbell .. | .hringBaseWrite .. | .launchCommand ..
  | .taskCommand .. | .copyCommand .. | .copyAgentComplete .. | .waitCommand .. | .waitSatisfied .. | .signalCommand ..
  | .graphCommand .. | .ringPostCommand .. | .pendingLaunchAccept .. | .dependenceRecordAccept | .graphRecordAccept
  | .pagerUpcallAccept | .teamPlacement .. | .taskPlacement .. | .bunchRetire .. | .launchComplete .. | .rfillWaitEnd ..
  | .drainWaitEnd .. | .opportunisticFusion .. | .feWaitEnd .. | .tokenCompletion .. | .copyComplete ..
  | .copyFaultSuspend .. | .stopContextRequest .. | .contextCreate .. | .contextReset .. | .splitAgeWatchdog ..
  | .launchDeadlineWatchdog .. | .cwaitSatisfied .. | .cwaitSwapOut .. | .swappedBunchPlacement ..
  | .futureStatusWrite .. | .savedBunchPlacement .. | .preemptRequest .. | .preemptTimeout .. | .contextResume ..
  | .graphNodeComplete .. | .ringCoalesceTimer .. | .commonsBankOperation .. | .cooperOperation .. | .pageWalk ..
  | .fencePointAck .. | .fenceCounterFree .. | .matrixCommandStart .. | .matrixCommandComplete ..
  | .matrixFaultSuspend .. | .primDeliveryResume .. | .codeParityRefetch .. | .poisonError .. | .correctedError ..
  | .fatalError .. | .thermalTrip .. | .dvfsMeasurement .. | .powerCapSet .. | .flitReplay .. | .linkXoff .. | .linkXon ..
  | .portDownTimeout .. | .portRetire .. | .checkpointStart .. | .checkpointEnd | .d3hotEntry | .d3hotExit
  | .selfRefreshTimer | .deviceReset .. | .recoveryImageLoad .. | .quoteRequest .. | .portLaneLoss ..
  | .portTrainingComplete .. | .hostCxlMemAccess .. | .estateInboundRequest .. | .d3coldEntry | .d0IdleEntry => none

/-- The words of an instruction, in address order; empty for an operation without an encoding. -/
def encode (i : Instr) : List Word :=
  match i.code with
  | some c => c.words
  | none => []

/-! ### Words of the opcode table -/

/-- The first `n` 32-bit words of a number whose bit 0 is bit 0 of the first word. -/
def wordsOf (w : Nat) : Nat → List Word
  | 0 => []
  | n + 1 => BitVec.ofNat 32 w :: wordsOf (w / 2 ^ 32) n

/-- The instruction the decoder reads from `nbits` bits `w`, bit 0 the least significant bit of the first word and every bit
above `nbits` zero; five words are the longest instruction (R51). -/
def decodeTableWord (nbits w : Nat) : Option Instr :=
  match decode (wordsOf (w % 2 ^ nbits) 5) with
  | .ok i => some i
  | .error _ => none

end Sys2Proof
end

