-- ==== Sys2Proof/Machine/Store.lean ====
section
/-! DEFINITION. Sparse tables keyed by a number, in one canonical form: keys strictly rising; where a table has a value for
unlisted keys, no entry holds that value. Memory (a table of bytes) is the main use. -/

namespace Sys2Proof.Machine

/-- A sparse table: keys strictly rising. -/
abbrev Store (α : Type) := List (Nat × α)

/-- The entry at a key. -/
def Store.find (m : Store α) (k : Nat) : Option α :=
  match m with
  | [] => none
  | (a, x) :: r => if k = a then some x else Store.find r k

/-- The value at a key, `d` where unlisted. -/
def Store.get (d : α) (m : Store α) (k : Nat) : α :=
  match Store.find m k with
  | some x => x
  | none => d

/-- Insert or replace an entry. -/
def Store.insert (m : Store α) (k : Nat) (v : α) : Store α :=
  match m with
  | [] => [(k, v)]
  | (a, x) :: r =>
    if k < a then (k, v) :: (a, x) :: r
    else if k = a then (k, v) :: r
    else (a, x) :: Store.insert r k v

/-- Remove an entry. -/
def Store.erase (m : Store α) (k : Nat) : Store α :=
  match m with
  | [] => []
  | (a, x) :: r => if k = a then Store.erase r k else (a, x) :: Store.erase r k

/-- Write a value: the value of an unlisted key removes the entry. -/
def Store.put [DecidableEq α] (d : α) (m : Store α) (k : Nat) (v : α) : Store α :=
  if v = d then Store.erase m k else Store.insert m k v

/-- Keys strictly rising, all above `lo`. -/
def Store.sortedFrom (lo : Nat) (m : Store α) : Bool :=
  match m with
  | [] => true
  | (a, _) :: r => decide (lo ≤ a) && Store.sortedFrom (a + 1) r

/-- The canonical form: keys strictly rising, no entry equal to the value of unlisted keys. -/
def Store.wf [DecidableEq α] (d : α) (m : Store α) : Bool :=
  Store.sortedFrom 0 m && m.all fun e => decide (e.2 ≠ d)

/-- Keep the entries whose key passes a test. -/
def Store.keep (p : Nat → Bool) (m : Store α) : Store α := m.filter fun e => p e.1

/-- Apply a function to every value. -/
def Store.mapVals (f : Nat → α → β) (m : Store α) : Store β := m.map fun e => (e.1, f e.1 e.2)

/-! ### Memory -/

/-- A memory: bytes by key; an unlisted byte reads 0 (DESIGN CHOICE, log entry 5). -/
abbrev Memory := Store Byte

def Memory.read (m : Memory) (a : Nat) : Byte := Store.get 0 m a
def Memory.write (m : Memory) (a : Nat) (b : Byte) : Memory := Store.put 0 m a b
/-- The canonical form of a memory. -/
def Memory.wf (m : Memory) : Bool := Store.wf (0 : Byte) m

/-- `n` bytes from an address, lowest first. -/
def Memory.bytes (m : Memory) (a : Nat) : Nat → List Byte
  | 0 => []
  | n + 1 => m.read a :: Memory.bytes m (a + 1) n

/-- Write bytes from an address. -/
def Memory.writeBytes (m : Memory) (a : Nat) : List Byte → Memory
  | [] => m
  | b :: r => Memory.writeBytes (m.write a b) (a + 1) r

/-- Little-endian value of bytes (R5). -/
def leNat : List Byte → Nat
  | [] => 0
  | b :: r => b.toNat + 256 * leNat r

/-- The `n` little-endian bytes of a number. -/
def leBytes (x : Nat) : Nat → List Byte
  | 0 => []
  | n + 1 => BitVec.ofNat 8 x :: leBytes (x / 256) n

end Sys2Proof.Machine
end

