-- ==== Sys2Proof/Machine/State.lean ====
section
/-! DEFINITION. The state of a Horeg device, as plain data, and the state after reset. Tables are sparse: an unlisted entry
stands for the value the field's comment gives. INVENTORY.md lists each piece with its rule and reset value. -/

namespace Sys2Proof.Machine

/-! ### Small types -/

/-- Why a step stops for good. -/
inductive Fault
  /-- Raised by `step` where no event waits in `State.inputs` and the device does nothing by itself: after a fatal error
  (R299), in recovery (R303), in D3hot or D3cold (R305). Safe: the hardware waits too (log entry 2). -/
  | halted
deriving DecidableEq, Repr

/-- Why the model gives an instruction no meaning here. -/
inductive Refusal
  /-- Raised by `exec` for an instruction not modelled yet. Safe. -/
  | notModelled (mnemonic : String)
  /-- Raised by the meaning of an instruction when no live split stands as its issuer (`State.issuer`): the instruction was
  not issued by a bunch. Safe: `step` never asks for it. -/
  | noIssuer
  /-- Raised by the meaning of a device operation whose preconditions the state does not meet: the spec has no such
  occurrence there. Safe: such an event does not happen on the hardware. -/
  | eventNotEnabled (event : String)
deriving DecidableEq, Repr

/-- Roles, in the order of %role (R58). -/
inductive Role | vector | copy | matrix | epilogue
deriving DecidableEq, Repr

/-- A place that holds bytes (R110). -/
inductive Place
  /-- Device memory: home cellar and physical address. -/
  | dev (home pa : Nat)
  | host (pa : Nat)
  /-- Commons: estate cellar and offset. -/
  | commons (cellar off : Nat)
  /-- Scratchpad and offset. Scratchpad n is that of a team on estate core n mod 4608: the core's first team has number n < 4608,
  further teams on the core each one of their own (R10, R111; log entry 20). -/
  | scratch (pad off : Nat)
  /-- What a read through a stale translation meets (R121): undefined bytes, by the number of the reading. -/
  | stale (n off : Nat)
deriving DecidableEq, Repr

/-- Causes of R252. -/
inductive Cause
  | illegalOp | bundleForm | branchAlign | stallShort | codeAbsent | roleViolation | splitDepth | watchdog | trap | bkpt
  | pageNotPresent | pageProtection | attrAlias | misaligned | caskStale | caskFull | tdescFormat | tdescBounds
  | crcMismatch | eccUncorrectable | linkDown | handlerFault
deriving DecidableEq, Repr

/-- Kinds of access (R253). -/
inductive Kind | read | write | fetch | atomic | engine | none
deriving DecidableEq, Repr

/-- A place in the code: a bundle address and the number of an instruction in it. -/
structure Pc where
  bundle : DWord
  slot   : Nat
deriving DecidableEq, Repr

/-- A register of a bunch. -/
inductive Reg
  | v (n : Nat)
  | k (n : Nat)
  | p (n : Nat)
deriving DecidableEq, Repr

/-- One lane's fault (R255). -/
structure LaneFault where
  lane  : Nat
  cause : Cause
  addr  : DWord
  kind  : Kind
deriving DecidableEq, Repr

/-! ### Casks and cursors -/

/-- A cask slot's binding: the descriptor's address and the bytes CKOPN read (R168). -/
structure CaskBind where
  va   : DWord
  desc : BitVec 512
deriving DecidableEq, Repr

/-- Cursor bounds (R174). -/
inductive CurMode
  | range (lo hi : Nat)
  | box (lo hi : List Nat)
  | voxel (lo hi p : Nat)
  | scan (r0 r1 a0 a1 : Nat)
deriving DecidableEq, Repr

/-- An element's place: home entry, key, and run rank as chain position and slot (R164); the chain position is
2^20 × (number of the main stave) + number in its overflow chain. -/
structure CaskPos where
  key   : Nat
  home  : Nat
  chain : Nat
  slot  : Nat
deriving DecidableEq, Repr

/-- An open cursor (R174 to R177). -/
structure Cursor where
  bind  : CaskBind
  mode  : CurMode
  homes : List Nat
  last  : Option CaskPos := none
  /-- Scan mode: the part that wraps to azimuth 0 has begun. -/
  wrapped : Bool := false
deriving DecidableEq, Repr

/-- An element where it stands: stave, slot and chain position, key, offset, columns and state bits. -/
structure CaskElem where
  home  : Nat
  stave : Nat
  slot  : Nat
  chain : Nat
  key   : Nat
  off   : Nat
  cols  : List Nat
  live  : Bool
  moved : Bool
  pmove : Bool
deriving DecidableEq, Repr

/-- What a CKNXT names: its cursor, D, N, the split's lanes, KC, PF, PX and the columns (R176). -/
structure NextForm where
  cursor : Nat
  d      : Nat
  count  : Nat
  lanes  : List Nat
  kc     : Nat
  pf     : Nat
  px     : Nat
  cols   : List Nat
deriving DecidableEq, Repr

/-- A cask operation that the core splits into one a home (R19), with what its parts have brought. -/
inductive CaskJob
  /-- CKCNT: kD and the sum. -/
  | count (d sum : Nat)
  /-- CKNXT: the cursor so far, and the elements, each with its home's entry. -/
  | next (f : NextForm) (cur : Cursor) (got : List (CaskElem × Nat))
  /-- CKITR: the cursor it opens, and the homes that count it. -/
  | opening (j : Nat) (cur : Cursor) (did : List Nat)
deriving DecidableEq, Repr

/-- One home that a part has still to act at: the phase of a wrapped scan, the home, and its row's cooper unit. -/
structure CaskPart where
  phase : Nat
  home  : Nat
  unit  : Nat
deriving DecidableEq, Repr

structure CaskWait where
  job  : CaskJob
  bind : CaskBind
  todo : List CaskPart
  /-- The operation on its token, and the lane in which it faults. -/
  op   : Nat
  lane : Nat
deriving DecidableEq, Repr

/-! ### Splits and bunches -/

/-- An entry of a split's stack (R41). -/
inductive StackEntry
  | join (n : Nat) (rc : DWord) (j a : Mask)
  | defer (pc : Pc) (m : Mask)
deriving DecidableEq, Repr

/-- A lane of an .fe access that waits for its granule: the offset, and the bytes a store writes (R113). -/
structure FeLane where
  lane : Nat
  off  : Nat
  data : List Byte
deriving DecidableEq, Repr

/-- An .fe access with lanes that wait, its operands as they were at issue: the size; of a load its destination; .clr; the lanes
left; the operation on its token. -/
structure FeWait where
  sz   : LoadSize
  dst  : Option VK
  clr  : Bool
  work : List FeLane
  op   : Option Nat
deriving DecidableEq, Repr

/-- What a Blocked split waits for (R45). -/
inductive Wait
  /-- WTOK, or an entry of 13: the tokens of a mask idle. -/
  | tokens (mask : BitVec 8)
  /-- MWAIT: array commands numbered below `bound` that name a tile or WLD of the mask. -/
  | matrix (mask : BitVec 5) (bound : Nat)
  /-- BAR: the barrier releases the bunch. -/
  | barrier (b : Nat)
  /-- .fe: a granule of the team's scratchpad becomes full or empty. -/
  | granules (w : FeWait)
  /-- RFILL with an empty mask. -/
  | refill (map : BitVec 6)
  | drain
  /-- CWAIT: the counter's cellar and offset, the target, a value that has met it (R343), the cycle at which the bunch may be
  swapped out, 0 for never (R243), and the operation that will write kD. -/
  | counter (cellar off : Nat) (target : DWord) (met : Option DWord) (swapAt op : Nat)
  /-- A full pending-launch queue: the operation whose entry stands beyond the four places (R236). -/
  | launchQueue (op : Nat)
  /-- A full matrix command queue. -/
  | matrixQueue
  /-- An access that waits at a fence point, 0 to 15 a port and 16 the base die: for the port to carry its class (R291, R292), or,
  where no class is named, for a counter (R294). -/
  | port (point : Nat) (cls : Option Nat)
  /-- 64 copies in flight: the copy that the engine has yet to take (R183). -/
  | copyEngine (op : Nat)
  /-- A handler's first wait: the register writes of instructions issued before it (R256). -/
  | writes
  /-- A cooper unit that has inserts or removes of earlier clocks to execute (R19): the instruction issues again. -/
  | cooper (row : Nat)
  /-- The parts of a cask operation at further homes (R19). -/
  | cask (w : CaskWait)
  /-- Futures awaited by the bunch (R266). -/
  | futures
  /-- The retirement split's wait (R407). -/
  | retirement
deriving DecidableEq, Repr

/-- States of a live split (R45); Stalled is `notBefore` and `stallToks`, Frozen is `frozen`. -/
inductive SplitState
  | ready
  /-- Blocked; `resume` is where the split continues when the wait ends, none: the instruction issues again. -/
  | blocked (w : Wait) (resume : Option Pc)
  | joining
deriving DecidableEq, Repr

structure Split where
  pc        : Pc
  mask      : Mask
  state     : SplitState := .ready
  frozen    : Bool := false
  stack     : List StackEntry := []
  /-- Age counter of R49, in cycles. -/
  age       : Nat := 0
  /-- The next instruction issues no earlier than this cycle (R66, R67). -/
  notBefore : Nat := 0
  /-- Tokens an entry of 13 waits on (R66). -/
  stallToks : BitVec 8 := 0
  /-- Stall entry 14 or YIELD: the greedy choice of R46 is lost. -/
  noGreedy  : Bool := false
  /-- The cycle from which the split would have been Ready without a break since it last issued: a cycle in which it is not
  Ready moves it on (R46). -/
  readyAt   : Nat := 0
  /-- The lanes in which the instruction at `pc` issues, where not all of the mask: after ERET (R258). -/
  retry     : Option Mask := none
  /-- ERET under SKIP passes over the instruction at `pc`, whose fetch had faulted, once its bundle can be read (R258). -/
  passes    : Bool := false
  /-- Faults of an .fe access held until its other lanes have performed (R113). -/
  heldFaults : List LaneFault := []
  /-- A WATCHDOG trip was taken and no progress was made since the ERET (R50). -/
  tripped   : Bool := false
deriving DecidableEq, Repr

/-- A fixed-latency result issued and not yet readable (R68); `old` is the value a k register had. -/
structure Pend where
  reg   : Reg
  lanes : Mask
  ready : Nat
  entry : Nat
  old   : Word
deriving DecidableEq, Repr

/-- A register write that a token-covered operation makes when it completes. `gen` is the lane's %gen at issue (R348);
`undef` marks a result the program overwrote too early (R70); `drop` one that a parked or refilled lane discards (R346). -/
structure RegWrite where
  reg   : Reg
  lane  : Nat
  val   : Word
  gen   : Word
  undef : Bool := false
  drop  : Bool := false
deriving DecidableEq, Repr

/-- A tensor descriptor, 64 bytes (R98). -/
abbrev Desc := BitVec 512

/-- A copy's work, captured at issue (R187 to R199). -/
inductive CopyJob
  /-- CPY: lanes with source and destination address; a Bool says scratchpad. -/
  | lanes (size : Nat) (srcS dstS : Bool) (work : List (Nat × DWord × DWord))
  /-- CPYA: descriptors and walk record. -/
  | affine (src dst : Desc) (sps spd x24 : Bool) (record : BitVec 1024)
  /-- CPYG: list address, count, first destination row. -/
  | gather (src dst : Desc) (sps spd spi : Bool) (list : DWord) (n : Nat) (drow : Word)
  /-- CPYS: row pointers, column indices, first row, rows, destinations. -/
  | sparse (src dst : Desc) (spd : Bool) (rp ci : DWord) (fr n : Nat) (dci drp : DWord)
  /-- CPYQ: side list, capacity, threshold. -/
  | quant (src dst : Desc) (sps spd : Bool) (side : DWord) (cap : Nat) (thr : Word)
  /-- CPYL: the program's words. -/
  | layout (src dst : Desc) (sps spd : Bool) (prog : List Word)
  /-- CPYX: source, destination, length, and where the route ejects: a core's scratchpad (`Place.scratch`), or an estate port; what
  it met that firmware had retired, by the numbers of PORT_RETIRE (R64). -/
  | estate (sps : Bool) (src dst : DWord) (len : Nat) (toPad : Option Nat) (port : Nat) (cut : List Nat)
  /-- ADRN: tile, rows, origins and bias words (R214). -/
  | drain (dst : Desc) (spd : Bool) (tile trow rows : Nat) (drow dcol : Word) (bias : Option (List Word))
deriving DecidableEq, Repr

/-- Progress of a copy (R184, R186): elements done and what the record will receive. -/
structure CopyRun where
  job    : CopyJob
  /-- The engine holds 64 copies and has yet to take this one (R183). -/
  queued : Bool := false
  /-- The code table of the source, read at issue (R108). -/
  codes  : BitVec 256 := 0
  done   : Nat := 0
  bytes  : Nat := 0
  sat    : Bool := false
  fill   : Bool := false
  supp   : Bool := false
  side   : Bool := false
  fstep  : BitVec 2 := 0
  crcOn  : Bool := false
  /-- The destination stream so far, by place in the stream (R201): kept only under .crc. -/
  parts  : Store (List Byte) := []
  /-- Scratchpad granules to be set full when the copy completes (R189), by key of `State.full`. -/
  grans  : List Nat := []
  /-- ADRN: the drained values and the tile afterwards are undefined (R215). -/
  undef  : Bool := false
  /-- .chk: the expected CRC; .ctrap. -/
  chk    : Option Word := none
  ctrap  : Bool := false
  /-- Numbers a job carries from element to element: side-list length (CPYQ), RP[FR] and its last pointer (CPYS). -/
  reg0   : Nat := 0
  reg1   : Nat := 0
  /-- The fault the copy is suspended on. -/
  fault  : Option LaneFault := none
  /-- CPY: the faults of lanes after the one it is suspended at (R186, R255). -/
  more   : List LaneFault := []
  /-- The copy has completed with CRC_MISMATCH under .ctrap and the trap has not been taken (R186). -/
  crcTrap : Bool := false
  /-- The copy instruction's own address, and its faulting lanes (R186). -/
  origin : Pc
  lane   : Nat := 0
deriving DecidableEq, Repr

/-- A quad in a pixel launch's queue (R281, R283): covered lanes and each lane's v1 to v4. -/
structure Quad where
  index   : Word
  covered : BitVec 4
  words   : List (List Word)
deriving DecidableEq, Repr

/-- The work of a raster unit or a ring writer, captured at issue (R245, R279 to R289). -/
inductive UnitJob
  /-- PRIM: TARGET, the quads not yet queued, how many there were; INV if the triangle was discarded (R280). -/
  | prim (seq : Word) (quads : List Quad) (total : Nat) (inv : Bool)
  | close (seq : Word)
  /-- PRIM.splat: cask, viewport, colour target, tiles whose splats are still to be read, and those read: a splat is nine
  FP32 words cx, cy, a, b, c, o, R, G, B. -/
  | splat (bind : CaskBind) (w h : Nat) (col : DWord) (tiles : List Nat) (got : List (Nat × List (List Word)))
  /-- PSEG: contributions as lane, column, row, value. -/
  | seg (d : Desc) (adds : List (Nat × Nat × Nat × Word))
  /-- COVR: first element and size of the region. -/
  | cover (src dst : Desc) (eo clr : Bool) (x0 y0 w h : Word)
  /-- HPOST: ring, record, .flush. -/
  | post (ring : Nat) (record : List Word) (flush : Bool)
deriving DecidableEq, Repr

/-- Progress of such work: elements done, what kD will receive, and the fault it is suspended on. -/
structure UnitRun where
  job   : UnitJob
  done  : Nat := 0
  count : Nat := 0
  fault : Option LaneFault := none
  lane  : Nat := 0
deriving DecidableEq, Repr

/-- What a token-covered operation still needs. -/
inductive TokJob
  /-- Its results are decided; it completes by TOKEN_COMPLETION. -/
  | ready
  /-- The front end completes it when it accepts the launch (R236). -/
  | held
  /-- The end of its split's wait completes it: an .fe access with lanes that wait (R113), or CWAIT (R242). -/
  | waits
  /-- PREF or CCTL.tlb: the walks, by number, that have still to end (R326, R383). -/
  | walks (ids : List Nat)
  | copy (r : CopyRun)
  | unit (r : UnitRun)
deriving DecidableEq, Repr

/-- An operation that holds a token busy (R69). -/
structure TokOp where
  id     : Nat
  tok    : BitVec 3
  entry  : Nat
  /-- The cycle at which a nominal latency ends; it binds nothing (R3). -/
  due    : Nat
  job    : TokJob
  writes : List RegWrite
  /-- Homes of a cask, by pool, into which a DPST or CKINS.now has inserted: in flight for Closed (R34). -/
  into   : List (Nat × Nat) := []
  /-- CFETCH: the segment that lands when the operation completes (R231). -/
  lands  : Option Nat := none
  /-- CKRAK in progress: the cask's descriptor (R178). -/
  rack   : Option DWord := none
deriving DecidableEq, Repr

/-- A bunch's arrival at one barrier (R38, R316): the arrive mask, the flag, the count last named, and one more than the
generation in which it last arrived, 0 before. -/
structure BarArrive where
  lanes   : Mask := 0
  reached : Bool := false
  count   : Nat := 0
  gen     : Nat := 0
deriving DecidableEq, Repr

structure Bunch where
  ctx      : Nat
  /-- The launch or task that placed it. -/
  launch   : Nat
  /-- The team; a task bunch has none (R235). -/
  team     : Option Nat
  /-- Estate core number: 18 × cellar + core (R19). -/
  core     : Nat
  /-- The scratchpad of its team (`Place.scratch`). -/
  pad      : Nat := core
  /-- The slot it holds, none while saved, and the one to which it returns after pre-emption (R270). -/
  slot     : Option Nat
  home     : Option Nat := none
  /-- %bunch. -/
  num      : Nat
  role     : Role
  width    : Nat
  budget   : Nat
  active   : Mask
  helper   : Mask := 0
  /-- %item and %gen of a lane (R27, R34): 0 where unlisted; bunches without items read all ones. -/
  items    : Store Word := []
  gens     : Store Word := []
  noItems  : Bool := false
  /-- Lane register n of lane L at 32 n + L; 0 where unlisted (R27). -/
  v        : Store Word := []
  /-- Predicates p0 to p6, a lane mask each; false where unlisted. -/
  p        : Store Mask := []
  /-- Uniform registers; 0 where unlisted. -/
  k        : Store Word := []
  /-- Split-table entries 0 to 5. -/
  splits   : Store Split := []
  nextDiv  : Nat := 0
  drained  : Bool := false
  bars     : Store BarArrive := []
  pends    : List Pend := []
  ops      : List TokOp := []
  fpStat   : BitVec 4 := 0
  tokRec   : Store DWord := []
  tokCrc   : Store Word := []
  /-- The last copy issued with .crc on a token, by operation number (R185). -/
  tokCrcOp : Store Nat := []
  fltCause : DWord := 0
  fltAddr  : DWord := 0
  fltMask  : Word := 0
  fltPc    : DWord := 0
  /-- Each faulting lane's own cause and address (R255). -/
  laneFlt  : List LaneFault := []
  /-- Where the split continues when ERET passes the faulting instruction, the tokens it then waits on, and the cycle before
  which it does not go on (R66, R258). -/
  fltNext  : Pc := { bundle := 0, slot := 0 }
  fltStall : BitVec 8 := 0
  fltAfter : Nat := 0
  /-- The fault was taken at a wait point (R258); the suspended operation, or the matrix array. -/
  fltWait  : Bool := false
  fltOps   : List Nat := []
  /-- The Shadow of R256: the handler's lanes, v0 to v7, p0 to p6, k48 to k63. -/
  shMask   : Mask := 0
  shV      : Store Word := []
  shP      : Store Mask := []
  shK      : Store Word := []
  /-- Futures the bunch waits on, and those PGUP added in this handler run (R265). -/
  futures  : List Nat := []
  newFuts  : List Nat := []
  /-- The cycle at which it may be swapped out while it waits on them, 0 for never (R266). -/
  futSwap  : Nat := 0
  cursors  : Store Cursor := []
  /-- The next launch deadline, a cycle; none: no deadline. -/
  deadline : Option Nat := none
  heldTrip : Bool := false
  /-- The bunch record it is saved in. -/
  record   : Option Nat := none
  /-- Words of poisoned registers: (register, lane). -/
  poison   : List (Nat × Nat) := []
  /-- The address of the instruction that freed the last split (R407). -/
  lastPc   : Pc := { bundle := 0, slot := 0 }
deriving DecidableEq, Repr

/-! ### Cores and teams -/

/-- A cell's weight in one slot: its code and its block scale (R203, R207); a zero weight is not listed. -/
structure Weight where
  code  : BitVec 16
  scale : BitVec 8
deriving DecidableEq, Repr

/-- A plane set (R203): format code of the last WLD, none while undefined; cell (k, c) slot s at (128 k + c) 4 + s. -/
structure Planes where
  fmt   : Option (BitVec 5) := none
  cells : Store Weight := []
deriving DecidableEq, Repr

/-- An accumulator element (R106, R204): tile value, A26 value and pass count. -/
structure Acc where
  tile   : Word
  a26    : Word
  passes : Nat
deriving DecidableEq, Repr

/-- A matrix command (R202, R206). -/
inductive MatCmd
  | wld (d : Desc) (sps : Bool) (n0 k0 : Word) (krows : Nat)
  | wswp
  | mms (d : Desc) (sps : Bool) (mode : TriMode) (clr : Bool) (t w : Nat) (arow k0 : Word) (diag konst : Word)
      (rows trow promo : Nat)
  | aprm (t : Nat)
  | aclr (t : Nat)
deriving DecidableEq, Repr

/-- A queued command and its number. -/
structure MatEntry where
  num   : Nat
  ctx   : Nat
  bunch : Nat
  cmd   : MatCmd
  /-- It leaves its tiles undefined: it met an ADRN of its tile (R215). -/
  spoil : Bool := false
deriving DecidableEq, Repr

/-- The command the array executes: rows done, and the fault it is suspended on (R216). -/
structure MatRun where
  entry : MatEntry
  done  : Nat := 0
  fault : Option LaneFault := none
deriving DecidableEq, Repr

/-- A TLB entry (R119, R120): a table or leaf entry of a level as a walk read it, for the span of addresses it covers. -/
structure TlbEntry where
  ctx   : Nat
  level : Nat
  base  : Nat
  span  : Nat
  pte   : DWord
deriving DecidableEq, Repr

/-- A code block held in a core's instruction store (R229, R326). -/
structure CodeBlock where
  ctx    : Nat
  va     : DWord
  bytes  : List Byte
  stale  : Bool := false
  /-- Launches that share it, with the segment they know it as. -/
  users  : List (Nat × Nat) := []
  /-- When the fetch completed, none while it is in flight (R231). -/
  fetched : Option Nat := some 0
  /-- Its 32-byte units that memory held poisoned: the fetch carries poison, and the bundle that is issued consumes it (R275). -/
  bad     : List Nat := []
deriving DecidableEq, Repr

/-- A write the operand path may not have seen: scratchpad offset, the bytes before it, and the writing bunch (R143). A matrix
command numbered below `before` was outstanding when it was made (R144); `fenced`: a FENCE.opnd has covered it. The offset
counts from the first scratchpad of the core (`padOffset`). -/
structure OldWrite where
  off    : Nat
  old    : List Byte
  writer : Nat
  before : Nat
  fenced : Bool := false
deriving DecidableEq, Repr

/-- What a row of an MMS has read through the operand path (R144): the command, its tiles, the tile row, and the bytes as
offset (`padOffset`) and length. -/
structure OpRead where
  num   : Nat
  tiles : List Nat
  row   : Nat
  spans : List (Nat × Nat)
deriving DecidableEq, Repr

structure Core where
  /-- Accumulator element (tile, row, column) at 32768 tile + 128 row + column; undefined where unlisted (R204). -/
  acc      : Store Acc := []
  planes   : Planes := {}
  shadow   : Planes := {}
  /-- Columns a cell will have (w of R209) as the sequencer knows it: active set, shadow set, at issue. -/
  wAct     : Nat := 1
  wShd     : Nat := 1
  mqueue   : List MatEntry := []
  mrun     : Option MatRun := none
  mnext    : Nat := 0
  /-- Tiles whose last MMS no MWAIT has covered yet (R215). -/
  unwaited : BitVec 4 := 0
  oldBytes : List OldWrite := []
  /-- Per tile the number of its last MMS, while no MWAIT on the tile and no later WLD or WSWP has covered its reads (R144). -/
  unread   : Store Nat := []
  /-- What those MMS have read. -/
  opReads  : List OpRead := []
  blocks   : List CodeBlock := []
  /-- The split each quadrant issued last, and when: quadrant ↦ (bunch, entry, cycle); 4 is the matrix sequencer. -/
  quads    : Store (Nat × Nat × Nat) := []
  /-- The core's 256-entry TLB, newest first. -/
  tlb      : List TlbEntry := []
deriving DecidableEq, Repr

/-- A team barrier (R316). -/
structure Barrier where
  gen     : Nat := 0
  count   : Nat := 0
  arrived : Nat := 0
deriving DecidableEq, Repr

/-- An entry of a pending-launch queue (R236): issuer, token operation, the record and what it is. -/
structure PendLaunch where
  bunch : Nat
  op    : Nat
  task  : Bool
  va    : DWord
  raw   : BitVec 512
  d     : Nat
deriving DecidableEq, Repr

/-- What a core holds for a pre-empted team (R217, R272): scratchpad by offset, granules, tiles, plane sets, commands. -/
structure TeamSave where
  record   : Nat
  scratch  : Memory
  full     : Memory
  acc      : Store Acc
  planes   : Planes
  shadow   : Planes
  wAct     : Nat
  wShd     : Nat
  mqueue   : List MatEntry
  mrun     : Option MatRun
  unwaited : BitVec 4
  oldBytes : List OldWrite
  unread   : Store Nat
  opReads  : List OpRead
  /-- The number of the free contents that its scratchpad had when it was placed (`State.pads`). -/
  seed     : Option Nat
deriving DecidableEq, Repr

structure Team where
  launch : Nat
  core   : Nat
  /-- Its scratchpad (`Place.scratch`): the core's first, or a further one where another team stands on the core. -/
  pad    : Nat := core
  num    : Nat
  bars   : Store Barrier := []
  saved  : Option TeamSave := none
deriving DecidableEq, Repr

/-! ### Launches, commands, graphs -/

/-- Where a launch, task or command came from. -/
inductive Source
  | queue (q : Nat)
  | device
  | depEngine
  | graph (run node : Nat)
  | pager
deriving DecidableEq, Repr

structure Launch where
  ctx      : Nat
  task     : Bool
  raw      : BitVec 512
  /-- The record's address (R227). -/
  va       : DWord
  src      : Source
  seq      : Nat
  /-- Partition vector: cellar and share, in order. -/
  parts    : List (Nat × Nat) := []
  /-- Argument-block words (R27). -/
  args     : List Word := []
  /-- Untaken ranges [lo, hi) of a cellar's share, and of a row's row share (key 3 × cellar + row) (R34). -/
  shares   : Store (List (Nat × Nat)) := []
  rows     : Store (List (Nat × Nat)) := []
  /-- Teams placed, bunches placed, bunches retired, bunches that have executed DRAIN. -/
  teams    : Nat := 0
  placed   : Nat := 0
  retired  : Nat := 0
  drains   : Nat := 0
  /-- With a HINT_PTR, the accesses of its context while it ran, by address (R126). -/
  touched  : Store Nat := []
  /-- Cores on which a team of it has been placed (R277). -/
  hosts    : List Nat := []
  /-- Cores on which a multicast task still has to be placed (R234). -/
  todo     : List Nat := []
  wdog     : DWord := 0
  dispatched : Option Nat := none
  /-- The cycle from which it waits for leases (R268). -/
  since    : Nat := 0
  /-- Queue launch: the cask bound for Take (R179). -/
  cask     : Option CaskBind := none
  /-- Pixel launch, by cellar: closes counted, quads queued, quads ever queued (R281). -/
  closes   : Store Nat := []
  queue    : Store (List Quad) := []
  quadNum  : Store Nat := []
  /-- Segments that have landed, by core (R231): (core, segment). -/
  landed   : List (Nat × Nat) := []
  /-- Its last bunch has retired and its counter increment waits at the bank (R28). -/
  closing  : Bool := false
deriving DecidableEq, Repr

/-- A command accepted from a queue and not yet complete (R226). -/
structure Command where
  seq   : Nat
  queue : Nat
  ctx   : Nat
  kind  : Nat
  /-- The launch, graph run or copy it runs. -/
  ref   : Nat
deriving DecidableEq, Repr

/-- A copy of the front end's copy agent (R225): a queue's, or a graph node's. -/
structure AgentCopy where
  id    : Nat
  ctx   : Nat
  seq   : Nat
  src   : DWord
  dst   : DWord
  len   : Nat
  done  : DWord
  node  : Option (Nat × Nat) := none
  /-- It has moved its bytes: its counter has still to be added to. -/
  moved : Bool := false
deriving DecidableEq, Repr

/-- A journal entry (R227). -/
structure JEntry where
  seq    : Nat
  source : Nat
  ctx    : Nat
  kind   : Nat
  state  : Nat
  digest : Word
  tag    : Word
  ref    : DWord
deriving DecidableEq, Repr

/-- A hardware queue (R223). -/
structure Queue where
  base  : DWord := 0
  log2n : Nat := 0
  pri   : Nat := 0
  ctx   : Nat := 0
  en    : Bool := false
  tail  : Word := 0
  head  : Word := 0
  /-- A wait command that holds the queue (R225): counter, target, journal number. -/
  wait  : Option (DWord × DWord × Nat) := none
deriving DecidableEq, Repr

/-- A record the dependence engine has ready (R238). -/
structure DepRec where
  ctx  : Nat
  task : Bool
  va   : DWord
deriving DecidableEq, Repr

/-- States of a graph node (R240). -/
inductive NodeState | armed | fired | running | done
deriving DecidableEq, Repr

/-- The firing of a node: its journal entry, and the record or slot as read then (R240). -/
structure Fire where
  seq : Nat
  raw : Option (BitVec 512)
deriving DecidableEq, Repr

/-- A run of a graph (R239, R240). -/
structure GraphRun where
  id    : Nat
  ctx   : Nat
  va    : DWord
  seq   : Nat
  queue : Nat
  done  : DWord
  nodes : List (BitVec 512)
  rem   : Store Nat := []
  state : Store NodeState := []
  /-- The journal entry of a node that has fired, and the record or slot that its PAYLOAD names, as read then (R240). -/
  fires : Store Fire := []
  held  : List Nat := []
  /-- It waits for an earlier run of the same graph (R240). -/
  waits : Bool := false
deriving DecidableEq, Repr

/-- A pager upcall waiting to be accepted (R265): the pager's context, the template with its arguments, its address. -/
structure Upcall where
  ctx  : Nat
  raw  : BitVec 512
  va   : DWord
deriving DecidableEq, Repr

/-! ### Contexts -/

/-- A host ring's state (R247). -/
structure Ring where
  tail    : Word := 0
  pending : Nat := 0
  since   : Nat := 0
deriving DecidableEq, Repr

/-- How far a write of a table entry or of a slot binding has reached (R109, R181): the bunch, the operation and its token;
whether the bunch has seen the token idle; whether the write is covered, by a TSYN or, for a binding, with that; whether a release
has followed since, by it or by a bunch that has acquired it; the bunches that have acquired it. -/
structure Reach where
  writer   : Nat
  op       : Nat
  tok      : BitVec 3
  idle     : Bool := false
  covered  : Bool := false
  released : Bool := false
  seen     : List Nat := []
deriving DecidableEq, Repr

/-- A descriptor or code table that was rewritten, as it stood before (R109). -/
structure OldEntry where
  code  : Bool
  idx   : Nat
  old   : BitVec 512
  reach : Reach
deriving DecidableEq, Repr

/-- A slot's binding as it stood before a CKOPN or CKCLS (R181). -/
structure OldBind where
  slot  : Nat
  old   : Option CaskBind
  reach : Reach
deriving DecidableEq, Repr

/-- A future in use (R264, R267): its page, the first nonzero STATUS that was written, and the status the front end has acted
on; both 0 while pending. -/
structure Future where
  page   : DWord
  seen   : DWord := 0
  status : DWord := 0
deriving DecidableEq, Repr

structure Context where
  created   : Bool := false
  fn        : Nat := 0
  /-- Saved by pre-emption (R269); why: 0 none, 1 asked or timed out, 2 a checkpoint, 3 D3hot. -/
  preempted : Nat := 0
  /-- Saved by pre-emption, the cycle from which it waits for leases (R268). -/
  since     : Nat := 0
  /-- CTX_CTL (R254). -/
  ctl       : DWord := 0
  cmnWin    : DWord := 0
  ptRoot    : DWord := 0
  layoutTab : DWord := 0
  accPromo  : DWord := 0x10
  swap      : DWord := 0x1000
  pri       : DWord := 0x17
  hringBase : DWord := 0
  wdog      : DWord := 0x100000
  hndBase   : DWord := 0
  poolBase  : DWord := 0
  futBase   : DWord := 0
  pagerTab  : DWord := 0
  saveBase  : DWord := 0
  saveCfg   : DWord := 0
  /-- Tensor table (R98); unwritten where unlisted (R395). -/
  tensors   : Store Desc := []
  /-- Code tables, 16 FP16 entries each, entry 0 lowest; +0 where unlisted (R96). -/
  codes     : Store (BitVec 256) := []
  /-- Contents that an instruction may still see (R109), newest first; so too the slot bindings (R181). -/
  olds      : List OldEntry := []
  casks     : Store CaskBind := []
  oldCasks  : List OldBind := []
  rings     : Store Ring := []
  /-- Futures that are not free, by number (R265, R267). -/
  futures   : Store Future := []
deriving DecidableEq, Repr

/-- Cask state in no record (R409), by context, pool and home: open cursors, and links pending (stave, slot) ↦ element
(stave, slot). -/
structure CaskHidden where
  ctx   : Nat
  pool  : Nat
  home  : Nat
  opens : Nat := 0
  links : List ((Nat × Nat) × (Nat × Nat)) := []
deriving DecidableEq, Repr

/-! ### Device units -/

/-- What completes when a front-end operation has been performed at its bank (R28, R226, R240). -/
inductive Done
  | none
  /-- The command with a journal number. -/
  | command (seq : Nat)
  | launch (l : Nat)
deriving DecidableEq, Repr

/-- An operation waiting at a commons bank or a cooper unit (R16, R19). -/
inductive UnitOp
  /-- A completion-counter increment or signal of the front end: the addend. -/
  | add (cellar off : Nat) (x : DWord) (done : Done)
  /-- An inbound access of another device. -/
  | ext (cellar : Nat) (acc : ExtAccess)
  /-- A DEPD by a signal command (R225). -/
  | depd (cellar off : Nat) (ctx : Nat) (done : Done)
  /-- A cask insert of another device. -/
  | caskInsert (ctx : Nat) (desc key offset : DWord) (cols : List Word)
  /-- The next part of a bunch's cask operation, whose split waits (R19). -/
  | caskPart (bunch entry : Nat)
deriving DecidableEq, Repr

/-- A waiting operation with its unit: a bank (64 × cellar + bank) or a row (3 × cellar + row), and its source number. -/
structure UnitReq where
  unit : Nat
  src  : Nat
  /-- The cycle in which it reached the unit. -/
  at_  : Nat
  op   : UnitOp
deriving DecidableEq, Repr

/-- A page walk that a PREF asked for: its number, core, context and address. The first 64 of a row are in flight (R15). -/
structure Walk where
  id    : Nat
  core  : Nat
  ctx   : Nat
  va    : DWord
deriving DecidableEq, Repr

/-- An estate port (R295). -/
structure Port where
  peerDev  : Nat := 0
  peerPort : Nat := 0
  replays  : Nat := 0
  crcErr   : Nat := 0
  lanes    : Nat := 0
  state    : Nat := 0
  /-- Consecutive replays (R291), classes held by XOFF (R292), since when it is down (R296). -/
  streak   : Nat := 0
  xoff     : BitVec 8 := 0
  downAt   : Nat := 0
deriving DecidableEq, Repr

/-- A source's counter at a fence point (R148): 0 to 15 a port, 16 the base die; the source bunch; the stores passed on and not
yet acknowledged, the newest one's address, and by key the bytes that they replaced, newest first. -/
structure FenceCount where
  point : Nat
  src   : Nat
  count : Nat
  va    : DWord
  olds  : List (Nat × Byte)
deriving DecidableEq, Repr

/-- A source's lost store (R296), and whether a release has reported it. -/
structure LostStore where
  src  : Nat
  va   : DWord
  told : Bool := false
deriving DecidableEq, Repr

/-- A record of the error log (R298); `corrected` counts towards the threshold. -/
structure ErrRec where
  seq      : Nat
  corrected : Bool
  unit     : Nat
  loc      : Nat
  syndrome : Nat
deriving DecidableEq, Repr

/-- An instruction that has reached a cellar's raster unit (R279). -/
structure RasterEntry where
  cellar : Nat
  bunch  : Nat
  op     : Nat
deriving DecidableEq, Repr

/-- What the device owes: an issue of a unit of a core, or an operation of one of its agents (R302). -/
inductive Owed
  | issue (core unit : Nat)
  | event (i : Instr)
deriving DecidableEq, Repr

/-- The image of a checkpoint (R300): its tier's address, memory and frame tags, and whether it is complete. -/
structure Image where
  tier  : Nat
  mem   : Memory
  tags  : Memory
  whole : Bool := false
deriving DecidableEq, Repr

/-- Power states (R305). -/
inductive Power | active | idle | d3hot | d3cold
deriving DecidableEq, Repr

/-- The split for which the next instruction is executed, with its bundle's control word (R65). -/
structure Issuer where
  bunch : Nat
  entry : Nat
  ctl   : DWord
deriving DecidableEq, Repr

structure State where
  /-- The model's cycle count. -/
  now       : Nat := 0
  /-- Real time, in units of 1/126,000 µs: a whole number of them pass in a cycle of every DVFS step (R306). -/
  time      : Nat := 0
  /-- What has been due without a break, with the cycles for which it has (R302; log entry 2). -/
  owed      : List (Owed × Nat) := []
  /-- Which enabled move comes next, and in which order lanes act: read from the front; 0 when empty (log entry 2). -/
  choices   : List Nat := []
  /-- Events that have arrived from outside (log entry 2). -/
  inputs    : List Instr := []
  /-- Numbers the free values (log entry 3). -/
  freeCount : Nat := 0
  issuer    : Option Issuer := none
  nextId    : Nat := 0
  /-- Device memory, host memory, commons and scratchpads, by `Place.key`. -/
  mem       : Memory := []
  /-- Full/empty bits: granule g of scratchpad c at 32768 c + g; 1 is full, 0 (unlisted) empty. -/
  full      : Memory := []
  /-- Frame tags: {COMP, LAYOUT} of frame f of a home at 2^39 home + f (R121). -/
  tags      : Memory := []
  /-- The free contents with which a scratchpad began, by number (R9, R112): 0 everywhere where unlisted. -/
  pads      : Store Nat := []
  /-- Poisoned units (R275). -/
  poison    : List PoisonUnit := []
  bunches   : Store Bunch := []
  teams     : Store Team := []
  cores     : Store Core := []
  ctxs      : Store Context := []
  launches  : Store Launch := []
  /-- Pending-launch queues by owner: a team t at 2 t, a task bunch b at 2 b + 1 (R236). -/
  plqs      : Store (List PendLaunch) := []
  queues    : Store Queue := []
  commands  : List Command := []
  agents    : List AgentCopy := []
  /-- Round-robin positions by priority level (R224), and within number 512. -/
  rr        : Store Nat := []
  rr512     : Store Nat := []
  jseq      : Nat := 0
  journal   : List JEntry := []
  /-- Base key and entries of the journal ring in device memory; size 0: not set up. -/
  jbase     : Nat := 0
  jsize     : Nat := 0
  depRecs   : List DepRec := []
  upcalls   : List Upcall := []
  graphs    : List GraphRun := []
  caskHid   : List CaskHidden := []
  bankQ     : List UnitReq := []
  cooperQ   : List UnitReq := []
  /-- The cycle from which a row's cooper unit may execute its next insert or remove (R19), by estate row. -/
  cooperTo  : Store Nat := []
  walks     : List Walk := []
  /-- The second-level TLB of each row, 8,192 entries, newest first, by estate row. -/
  rowTlb    : Store (List TlbEntry) := []
  /-- Instructions at the raster units, in the order in which they arrived (R279). -/
  raster    : List RasterEntry := []
  /-- Fence-point counters (R148), and the stores that were lost (R296). -/
  fence     : List FenceCount := []
  lost      : List LostStore := []
  ports     : Store Port := []
  /-- Interrupts raised: function and vector, oldest first. -/
  msix      : List (Nat × Nat) := []
  errLog    : List ErrRec := []
  errThresh : Nat := 0
  /-- Base key and entries of the error-log ring in device memory; size 0: not set up. -/
  ebase     : Nat := 0
  esize     : Nat := 0
  /-- Base key of the dump region, if the physical function has reserved one (R299). -/
  dbase     : Option Nat := none
  ckptState : BitVec 2 := 0
  ckptCtx   : BitVec 6 := 0
  /-- The image of the newest checkpoint, on its tier (R300). -/
  image     : Option Image := none
  power     : Power := .active
  dvfs      : Nat := 0
  cap       : Nat := 1600
  /-- The power and temperature that firmware measured last, which management reads over I3C (R297, R306). -/
  watts     : Nat := 0
  celsius   : Nat := 25
  halved    : Bool := false
  stallTo   : Nat := 0
  idleSince : Nat := 0
  selfRefresh : Bool := false
  fatal     : Bool := false
  dump      : List Nat := []
  ready     : Bool := true
  recovery  : Bool := false
  fwVersion : Nat := 0
  rollback  : Nat := 0
  /-- The stages of the firmware image in the flash (R303). -/
  flash     : List (List Nat) := []
  measures  : List Nat := [0, 0, 0, 0, 0, 0, 0, 0]
  /-- The device identity key, and the certificate of the attestation key (R303). -/
  identity  : Nat := 0
  cert      : Nat := 0
  quotes    : List (List Nat) := []
  device    : Nat := 0
  /-- Devices of the estate: 1 outside any estate (R263). -/
  devices   : Nat := 1
  /-- Ports that have been down for 10 ms (R296), by number. -/
  retiredLinks : List Nat := []
  /-- What firmware has retired besides ports (R64): die-to-die link l of die d at 4 d + l, core c of die d at 32 + 18 d + c. -/
  retiredUnits : List Nat := []
deriving DecidableEq, Repr

/-- The machine right after reset, as the ready report of R304 leaves it: no context, no command, every register at its reset
value, nothing in memory. -/
def State.reset : State := {}

end Sys2Proof.Machine
end

