-- ==== Sys2Proof/Machine/Memory.lean ====
section
/-! DEFINITION. The address spaces (R110) and translation (R114 to R122). Every byte of the device has one place; every access
goes through `locate` or names a scratchpad offset. -/

namespace Sys2Proof.Machine

/-- The key of a place in `State.mem`. -/
def Place.key : Place → Nat
  | .dev h a => h * 2 ^ 51 + a
  | .host a => 256 * 2 ^ 51 + a
  | .commons c o => 257 * 2 ^ 51 + c * 2 ^ 25 + o
  | .scratch c o => 258 * 2 ^ 51 + c * 2 ^ 19 + o
  | .stale _ o => 2 ^ 80 + o

/-- The core of a scratchpad, the k-th scratchpad of a core, and an offset counted from the core's first scratchpad. -/
def padCore (pad : Nat) : Nat := pad % 4608
def padOn (core k : Nat) : Nat := core + 4608 * k
def padOffset (pad off : Nat) : Nat := pad / 4608 * 2 ^ 19 + off

/-- A core's first scratchpad that no team holds (log entry 20). -/
def State.freePad (s : State) (core : Nat) : Nat :=
  (((List.range (s.teams.length + 1)).map (padOn core)).find? fun p => !s.teams.any fun t => t.2.pad == p).getD core

/-- The place `n` bytes further. -/
def Place.plus : Place → Nat → Place
  | .dev h a, n => .dev h (a + n)
  | .host a, n => .host (a + n)
  | .commons c o, n => .commons c (o + n)
  | .scratch c o, n => .scratch c (o + n)
  | .stale z o, n => .stale z (o + n)

/-- What an access does, for the checks of R119. -/
inductive Access | read | write | fetch
deriving DecidableEq, Repr

/-- A translated address: its place, and the attributes of its page; `window` for a commons window address, which has none. -/
structure Xlat where
  place  : Place
  layout : Nat
  page   : Nat
  window : Bool
  /-- The translation is stale: what it reads is undefined (R121). -/
  stale  : Bool := false
deriving DecidableEq, Repr

/-! ### Contexts and cores -/

def State.ctx (s : State) (c : Nat) : Context := Store.get {} s.ctxs c
def State.setCtx (s : State) (c : Nat) (x : Context) : State := { s with ctxs := Store.insert s.ctxs c x }
def State.core (s : State) (c : Nat) : Core := Store.get {} s.cores c
def State.setCore (s : State) (c : Nat) (x : Core) : State := { s with cores := Store.insert s.cores c x }

/-- %cellar, %core and %row of an estate core number (R12). -/
def cellarOf (core : Nat) : Nat := core / 18
def coreInCellar (core : Nat) : Nat := core % 18
def rowOf (core : Nat) : Nat := core % 18 / 6
/-- A core number no bunch has: the front end's own accesses meet no core's TLB. -/
def feCore : Nat := 4608
/-- A row's number in the estate. -/
def estateRow (core : Nat) : Nat := 3 * cellarOf core + rowOf core

/-- The estate cellar is present: its device is one of the estate's (log entry 7). -/
def State.cellarPresent (s : State) (c : Nat) : Bool := decide (c / 8 < max s.devices (s.device + 1))
/-- The cellar is one of this device's eight. -/
def State.ownCellar (s : State) (c : Nat) : Bool := c / 8 == s.device

/-- Read one control choice (log entry 2). -/
def State.choice (s : State) (n : Nat) : Nat := s.choices.getD n 0

/-! ### Free values (R9; log entry 3) -/

def State.freeValue (s : State) (n : Nat) : BitVec 64 := Config.free (s.freeCount + n)
def State.usedFree (s : State) (n : Nat) : State := { s with freeCount := s.freeCount + n }

/-! ### Poison (R275) -/

/-- The poison unit that holds a place. -/
def Place.unit : Place → PoisonUnit
  | .dev h a => .mem h (a / 32)
  | .host a => .mem 256 (a / 32)
  | .commons c o => .commons c (o / 8)
  | .scratch c o => .granule c (o / 16)
  | .stale _ o => .mem 257 (o / 32)
/-- Bytes of a poison unit at a place. -/
def Place.unitSize : Place → Nat
  | .dev .. => 32
  | .host .. => 32
  | .commons .. => 8
  | .scratch .. => 16
  | .stale .. => 32
def Place.offset : Place → Nat
  | .dev _ a => a
  | .host a => a
  | .commons _ o => o
  | .scratch _ o => o
  | .stale _ o => o

/-- The poison units that an access of `n` bytes meets; an access of none meets the unit it names. -/
def Place.unitsMet (p : Place) (n : Nat) : List PoisonUnit :=
  (List.range ((p.offset % p.unitSize + max n 1 - 1) / p.unitSize + 1)).map fun i => (p.plus (i * p.unitSize)).unit
/-- The poison units that `n` bytes cover whole. -/
def Place.unitsCovered (p : Place) (n : Nat) : List PoisonUnit :=
  let skip := (p.unitSize - p.offset % p.unitSize) % p.unitSize
  (List.range ((n - skip) / p.unitSize)).map fun i => (p.plus (skip + i * p.unitSize)).unit

/-- Some byte of the access lies in a poisoned unit. -/
def State.poisoned (s : State) (p : Place) (n : Nat) : Bool :=
  !s.poison.isEmpty && (p.unitsMet n).any fun u => s.poison.contains u

/-- A write of every byte of a poisoned unit clears it (R275). -/
def State.clearPoison (s : State) (p : Place) (n : Nat) : List PoisonUnit :=
  if s.poison.isEmpty then [] else s.poison.filter fun u => !(p.unitsCovered n).contains u

/-! ### Bytes at a place -/

/-- The number of the free contents behind a place: those with which a scratchpad began, or what a stale translation reads; none
for a place whose bytes stand in `State.mem` as they are. -/
def State.seedOf (s : State) (p : Place) : Option Nat :=
  match p with
  | .scratch c _ => (Store.find s.pads c).map (2 * ·)
  | .stale n _ => some (2 * n + 1)
  | _ => none

/-- Bytes that begin with free contents stand in memory as their difference from these. -/
def maskBytes (z : Nat) (off : Nat) : List Byte → List Byte
  | [] => []
  | x :: r => (x ^^^ Config.padByte z off) :: maskBytes z (off + 1) r

/-- Bytes of a place as `State.mem` holds them, and back. -/
def State.stored (s : State) (p : Place) (bs : List Byte) : List Byte :=
  match s.seedOf p with
  | none => bs
  | some z => maskBytes z p.offset bs

def State.bytesAt (s : State) (p : Place) (n : Nat) : List Byte := s.stored p (s.mem.bytes p.key n)
def State.natAt (s : State) (p : Place) (n : Nat) : Nat := leNat (s.bytesAt p n)

/-- Two spans of bytes meet. -/
def spansMeet (a n b m : Nat) : Bool := decide (a < b + m ∧ b < a + n)

/-- A write of operand bytes that an MMS has read, before its reads are covered, makes what it read undefined (R144): the
elements of the row lose their values. -/
def Core.overwritten (c : Core) (off n : Nat) : Core :=
  let hit := c.opReads.filter fun r => r.spans.any fun q => spansMeet off n q.1 q.2
  if hit.isEmpty then c
  else { c with acc := Store.keep (fun k => !hit.any fun r => r.tiles.contains (k / 32768) && k / 128 % 256 == r.row) c.acc }

/-- The operand-path history of a scratchpad write (R143): the bytes it replaces. -/
def State.noteOld (s : State) (p : Place) (writer n : Nat) : Store Core :=
  match p with
  | .scratch c o =>
    let x := s.core (padCore c)
    let w := padOffset c o
    let y : Core := { x with oldBytes := x.oldBytes ++ [{ off := w, old := s.bytesAt p n, writer, before := x.mnext }] }
    Store.insert s.cores (padCore c) (y.overwritten w n)
  | _ => s.cores

/-- Write bytes at a place, on behalf of a bunch. -/
def State.writeAt (s : State) (p : Place) (bs : List Byte) (writer : Nat := 0) : State :=
  { s with mem := s.mem.writeBytes p.key (s.stored p bs), poison := s.clearPoison p bs.length
           cores := s.noteOld p writer bs.length }

/-! ### The walk (R115 to R121) -/

/-- Bits of a page-table entry (R117). -/
def pteHome (e : DWord) : Nat := (bits e 56 8).toNat
def ptePager (e : DWord) : Nat := (bits e 52 4).toNat
def pteHost (e : DWord) : Bool := bit e 51
def pteSize (e : DWord) : Nat := (bits e 47 2).toNat
def pteLayout (e : DWord) : Nat := (bits e 45 2).toNat
def pteComp (e : DWord) : Nat := (bits e 43 2).toNat
def pteLeaf (e : DWord) : Bool := bit e 42
def pteW (e : DWord) : Bool := bit e 41
def pteX (e : DWord) : Bool := bit e 40
def pteFrame (e : DWord) : Nat := (bits e 1 39).toNat
def pteP (e : DWord) : Bool := bit e 0

/-- The page size of a SIZE code. -/
def pageBytes (size : Nat) : Nat :=
  match size with
  | 0 => 2 ^ 12
  | 1 => 2 ^ 16
  | 2 => 2 ^ 21
  | _ => 2 ^ 30

/-- A frame number's place. -/
def frameAt (e : DWord) : Place :=
  if pteHost e then .host (pteFrame e * 4096) else .dev (pteHome e) (pteFrame e * 4096)

/-- Device memory of a cellar that a PTE may map: below the tag table in the top 12 MiB of 96 GiB (R121). -/
def mappableBytes : Nat := 96 * 2 ^ 30 - 12 * 2 ^ 20

/-- A present entry breaks R117 or R118 at its level; a frame outside the stack's mappable part counts so too (log entry 11). -/
def pteMalformed (e : DWord) (lvl : Nat) : Bool :=
  (pteHost e && pteHome e != 0) ||
  if pteLeaf e then
    decide (2 ≤ lvl) || (pteSize e == 3) != (lvl == 1) || pteFrame e * 4096 % pageBytes (pteSize e) != 0 ||
    (bits e 49 2).toNat == 3 || decide (2 ≤ pteComp e) || pteLayout e == 3 ||
    (pteHost e && (pteComp e != 0 || pteLayout e != 0)) ||
    (!pteHost e && decide (mappableBytes < pteFrame e * 4096 + pageBytes (pteSize e)))
  else lvl == 0 || bits e 40 11 != 0 || bit e 1

/-- Why a walk stopped, and the entry at which it did. -/
structure WalkStop where
  cause : Cause
  entry : DWord
  level : Nat
deriving DecidableEq, Repr

/-- A leaf a walk found. -/
structure Leaf where
  pte   : DWord
  level : Nat
deriving DecidableEq, Repr

/-- The place of the entry for a VA in a table of a level. -/
def pteAt (tbl : Place) (va lvl : Nat) : Place := tbl.plus (8 * (va / 2 ^ (12 + 10 * lvl) % 1024))

/-- The entry for a VA in a table of a level, or why the walk stops at it (R119, checks 1 and 2). An entry whose HOME names a
cellar that the estate lacks counts as not present, after check 2 (DESIGN CHOICE: the spec is silent; log entry 11). -/
def walkEntry (s : State) (tbl : Place) (va lvl : Nat) : Except WalkStop DWord :=
  let at_ := pteAt tbl va lvl
  let e : DWord := BitVec.ofNat 64 (s.natAt at_ 8)
  if s.poisoned at_ 8 then .error { cause := .eccUncorrectable, entry := e, level := lvl }
  else if !pteP e then .error { cause := .pageNotPresent, entry := e, level := lvl }
  else if pteMalformed e lvl then .error { cause := .pageProtection, entry := e, level := lvl }
  else if !pteHost e && !s.cellarPresent (pteHome e) then .error { cause := .pageNotPresent, entry := e, level := lvl }
  else .ok e

/-- Walk from a table of a level down (R119). -/
def walkFrom (s : State) (tbl : Place) (va : Nat) : Nat → Except WalkStop Leaf
  | 0 =>
    match walkEntry s tbl va 0 with
    | .error e => .error e
    | .ok e => .ok { pte := e, level := 0 }
  | l + 1 =>
    match walkEntry s tbl va (l + 1) with
    | .error e => .error e
    | .ok e => if pteLeaf e then .ok { pte := e, level := l + 1 } else walkFrom s (frameAt e) va l

/-- The level-3 table of PT_ROOT (R116). -/
def rootTable (root : DWord) : Place :=
  if bit root 51 then .host ((bits root 13 38).toNat * 2 ^ 13) else .dev (bits root 56 8).toNat ((bits root 13 38).toNat * 2 ^ 13)

/-- Walk a context's tables for a VA. -/
def walk (s : State) (ctx : Nat) (va : Nat) : Except WalkStop Leaf :=
  let root := (s.ctx ctx).ptRoot
  if bit root 0 then walkFrom s (rootTable root) va 3
  else .error { cause := .pageNotPresent, entry := 0, level := 3 }

/-- Bytes of address that an entry of a level covers. -/
def levelSpan (lvl : Nat) : Nat := 2 ^ (12 + 10 * lvl)

/-- An entry read at a level, as a TLB holds it: a table's span, or the whole page of a leaf (R120). -/
def tlbEntry (ctx va lvl : Nat) (e : DWord) : TlbEntry :=
  let span := if pteLeaf e then pageBytes (pteSize e) else levelSpan lvl
  { ctx, level := lvl, base := va / span * span, span, pte := e }

/-- The entries that a walk from a table of a level reads, where none of them stops it. -/
def walkPath (s : State) (tbl : Place) (ctx va : Nat) : Nat → List TlbEntry
  | 0 =>
    match walkEntry s tbl va 0 with
    | .error _ => []
    | .ok e => [tlbEntry ctx va 0 e]
  | l + 1 =>
    match walkEntry s tbl va (l + 1) with
    | .error _ => []
    | .ok e => tlbEntry ctx va (l + 1) e :: if pteLeaf e then [] else walkPath s (frameAt e) ctx va l

/-- A TLB entry serves an address of a context. -/
def TlbEntry.covers (e : TlbEntry) (ctx va : Nat) : Bool := e.ctx == ctx && decide (e.base ≤ va ∧ va < e.base + e.span)
def TlbEntry.sameTag (e f : TlbEntry) : Bool := e.ctx == f.ctx && e.level == f.level && e.base == f.base && e.span == f.span

/-- A TLB of a size takes an entry: the newest stands first and takes the place of one for the same span. -/
def tlbTake (size : Nat) (l : List TlbEntry) (e : TlbEntry) : List TlbEntry :=
  if l.contains e then l else (e :: l.filter fun f => !f.sameTag e).take size

/-- What the core's TLB and its row's hold for an address (R120). -/
def State.tlbHits (s : State) (core ctx va : Nat) : List TlbEntry :=
  ((s.core core).tlb ++ Store.get [] s.rowTlb (estateRow core)).filter fun e => e.covers ctx va
/-- The leaves among them. -/
def State.tlbLeaves (s : State) (core ctx va : Nat) : List DWord :=
  ((s.tlbHits core ctx va).filter fun e => pteLeaf e.pte).map (·.pte)

/-- A walk that takes the table entries of some levels (a bit for each) from the TLBs, where these hold one (R119). -/
def walkHeld (s : State) (held : List TlbEntry) (levels : Nat) (tbl : Place) (va : Nat) : Nat → Except WalkStop Leaf
  | 0 => walkFrom s tbl va 0
  | l + 1 =>
    match if levels.testBit (l + 1) then held.find? (fun e => e.level == l + 1 && !pteLeaf e.pte) else none with
    | some e => walkHeld s held levels (frameAt e.pte) va l
    | none =>
      match walkEntry s tbl va (l + 1) with
      | .error e => .error e
      | .ok e => if pteLeaf e then .ok { pte := e, level := l + 1 } else walkHeld s held levels (frameAt e) va l

/-- Leaves of a page larger than its level's span (R118). -/
def pageLeaves (size : Nat) : Nat := if size = 3 then 256 else pageBytes size / 4096

/-- The leaf that a walk for another part of the page of a SIZE finds, where it maps a page of that SIZE (R118: a translation may
come from any of the leaves). -/
def leafOfPage (s : State) (ctx va size i : Nat) : Option DWord :=
  let step := pageBytes size / pageLeaves size
  match walk s ctx (va / pageBytes size * pageBytes size + i % pageLeaves size * step) with
  | .ok l => if pteSize l.pte = size then some l.pte else none
  | .error _ => none

/-- The leaf an access uses, and whether a TLB held it: a fresh walk's (0); one the TLBs hold (R120); a walk's by way of table
entries they hold (R119); the walk's of another of the page's leaves (R118); as choice `n` says. -/
def leafFor (s : State) (core ctx va n : Nat) : Except Cause (DWord × Bool) :=
  let walked (w : Except WalkStop Leaf) : Except Cause (DWord × Bool) :=
    match w with
    | .ok l => .ok (l.pte, false)
    | .error e => .error e.cause
  match s.choice n with
  | 0 => walked (walk s ctx va)
  | d + 1 =>
    let ls := s.tlbLeaves core ctx va
    match ls[d]? with
    | some e => .ok (e, true)
    | none =>
      let r := d - ls.length
      let root := (s.ctx ctx).ptRoot
      if r < 7 ∧ bit root 0 then walked (walkHeld s (s.tlbHits core ctx va) (2 * r + 2) (rootTable root) va 3)
      else match leafOfPage s ctx va ((r - 7) % 3 + 1) ((r - 7) / 3) with
        | some e => .ok (e, false)
        | none => walked (walk s ctx va)

/-- The layout permutation of R122 on a frame offset. -/
def permute (layout a : Nat) : Nat :=
  match layout with
  | 1 => a ^^^ ((a >>> 7 &&& 7) <<< 4)
  | 2 => a ^^^ ((a >>> 7 &&& 3) <<< 5)
  | _ => a

/-- The tag check of R121: the accessed frame's, and a large page's first frame's. -/
def tagsAgree (s : State) (e : DWord) (pa : Nat) : Bool :=
  let want : Byte := BitVec.ofNat 8 (pteComp e * 4 + pteLayout e)
  pteHost e || (s.tags.read (pteHome e * 2 ^ 39 + pa / 4096) == want &&
    (pteSize e == 0 || s.tags.read (pteHome e * 2 ^ 39 + pteFrame e) == want))

/-- The base of a context's commons window. -/
def windowBase (c : Context) : Nat := (bits c.cmnWin 33 19).toNat * 2 ^ 33
/-- A VA lies in the commons window (R114). -/
def inWindow (c : Context) (va : DWord) : Bool :=
  bit c.cmnWin 0 && decide (windowBase c ≤ va.toNat ∧ va.toNat < windowBase c + 2 ^ 33)

/-- Locate a generic or engine access (R114, R115, R119): the first check that fails gives the cause. A walk compares the frame
tags; a translation that a TLB holds is used without a walk, and where the tags have changed it reads undefined bytes (R121). A
code fetch from the commons window faults PAGE_PROTECTION (DESIGN CHOICE: the spec is silent; log entry 11). -/
def locate (s : State) (core ctx : Nat) (va : DWord) (k : Access) (n : Nat := 0) : Except Cause Xlat :=
  let c := s.ctx ctx
  if 2 ^ 52 ≤ va.toNat then .error .pageProtection
  else if inWindow c va then
    let o := va.toNat - windowBase c
    if k = .fetch then .error .pageProtection
    else if s.cellarPresent (o / 2 ^ 25) then
      .ok { place := .commons (o / 2 ^ 25) (o % 2 ^ 25), layout := 0, page := 1, window := true }
    else .error .pageNotPresent
  else
    match leafFor s core ctx va.toNat n with
    | .error e => .error e
    | .ok (e, held) =>
      let pa := pteFrame e * 4096 + va.toNat % pageBytes (pteSize e)
      let agree := tagsAgree s e pa
      if (k = .write ∧ !pteW e) ∨ (k = .fetch ∧ !pteX e) then .error .pageProtection
      else if !agree && !held then .error .attrAlias
      else
        let pa' := pa / 4096 * 4096 + permute (pteLayout e) (pa % 4096)
        .ok { place := if !agree && k != .write then .stale s.freeCount va.toNat else if pteHost e then .host pa' else .dev (pteHome e) pa'
              layout := pteLayout e, page := pageBytes (pteSize e), window := false, stale := !agree }

/-- Locate an access that must fall in the commons window (R114). -/
def locateWindow (s : State) (ctx : Nat) (va : DWord) : Except Cause Place :=
  let c := s.ctx ctx
  if inWindow c va then
    let o := va.toNat - windowBase c
    if s.cellarPresent (o / 2 ^ 25) then .ok (.commons (o / 2 ^ 25) (o % 2 ^ 25)) else .error .pageNotPresent
  else .error .pageProtection

/-- A launch with a list of reuse hints whose bunches run in a context (R125, R126). -/
def Launch.hinted (l : Launch) (ctx : Nat) : Bool := !l.task && l.ctx == ctx && l.dispatched.isSome && l.raw.extractLsb' 256 64 != 0
/-- The key under which an engine's accesses are noted, whose addresses are not kept. -/
def engineKey : Nat := 2 ^ 64
/-- Note an access of a context, by its address, for the launches that count them (R126; log entry 19). -/
def State.touch (s : State) (ctx key : Nat) : State :=
  if s.launches.any fun e => e.2.hinted ctx then
    { s with launches := Store.mapVals (fun _ (l : Launch) =>
        if l.hinted ctx then { l with touched := Store.insert l.touched key (Store.get 0 l.touched key + 1) } else l) s.launches }
  else s

/-- What the walk for an access leaves in the TLBs of the core and of its row (R119, R120). A number of the free values is used
where a TLB's leaf for the address is stale. -/
def State.fillTlb (s0 : State) (core ctx : Nat) (va : DWord) : State :=
  let root := (s0.ctx ctx).ptRoot
  if 2 ^ 52 ≤ va.toNat ∨ inWindow (s0.ctx ctx) va ∨ !bit root 0 then s0
  else
    let s := s0.touch ctx va.toNat
    let es := walkPath s (rootTable root) ctx va.toNat 3
    let x := s.core core
    let r := estateRow core
    let t := if (s.tlbLeaves core ctx va.toNat).any fun e => !tagsAgree s e (pteFrame e * 4096 + va.toNat % pageBytes (pteSize e)) then
        s.usedFree 1 else s
    if es.all x.tlb.contains then t
    else { t.setCore core { x with tlb := es.foldl (tlbTake 256) x.tlb } with
      rowTlb := Store.insert s.rowTlb r (es.foldl (tlbTake 8192) (Store.get [] s.rowTlb r)) }

end Sys2Proof.Machine
end

