-- ==== Sys2Proof/Machine/Ops.lean ====
section
/-! DEFINITION. Named operations over bunches, registers, masks and free values. -/

namespace Sys2Proof.Machine

/-! ### Masks -/

/-- The lanes of a mask, ascending. -/
def lanesOf (m : Mask) : List Nat := (List.range 32).filter fun i => m.getLsbD i
/-- The mask of one lane. -/
def laneBit (l : Nat) : Mask := (1 : Mask) <<< l
/-- The lowest lane of a mask; 0 for an empty one. -/
def lowest (m : Mask) : Nat := (lanesOf m).headD 0
/-- The mask of the first `n` lanes. -/
def firstLanes (n : Nat) : Mask := BitVec.ofNat 32 (2 ^ n - 1)
/-- The mask of a list of lanes. -/
def maskOf (ls : List Nat) : Mask := ls.foldl (fun m l => m ||| laneBit l) 0
/-- Number of lanes. -/
def laneCount (m : Mask) : Nat := (lanesOf m).length

/-- A permutation of a list, chosen by a number (R137): each digit picks the next element. -/
def permuteBy (seed : Nat) (xs : List α) : Nat → List α
  | 0 => []
  | n + 1 =>
    match xs with
    | [] => []
    | y :: r =>
      let l := xs.length
      xs.getD (seed % l) y :: permuteBy (seed / l) ((y :: r).eraseIdx (seed % l)) n

/-- The lanes of a mask in the order the state's choice gives (R137). -/
def State.laneOrder (s : State) (m : Mask) : List Nat :=
  let ls := lanesOf m
  permuteBy (s.choice 32) ls ls.length

/-! ### Bunches -/

def State.setBunch (s : State) (i : Nat) (b : Bunch) : State := { s with bunches := Store.insert s.bunches i b }
/-- Change a bunch, if it exists. -/
def State.onBunch (s : State) (i : Nat) (f : Bunch → Bunch) : State :=
  match Store.find s.bunches i with
  | some b => s.setBunch i (f b)
  | none => s
def Bunch.setSplit (b : Bunch) (e : Nat) (sp : Split) : Bunch := { b with splits := Store.insert b.splits e sp }
def Bunch.dropSplit (b : Bunch) (e : Nat) : Bunch := { b with splits := Store.erase b.splits e }

/-- Register n of a lane. -/
def Bunch.vAt (b : Bunch) (n lane : Nat) : Word := Store.get 0 b.v (32 * n + lane)
def Bunch.setV (b : Bunch) (n lane : Nat) (x : Word) : Bunch := { b with v := Store.put 0 b.v (32 * n + lane) x }
def Bunch.kAt (b : Bunch) (n : Nat) : Word := Store.get 0 b.k n
def Bunch.setK (b : Bunch) (n : Nat) (x : Word) : Bunch := { b with k := Store.put 0 b.k n x }
/-- Predicate n as a lane mask; p7 reads true (R53, R57). -/
def Bunch.pAt (b : Bunch) (n : Nat) : Mask := if n = 7 then -1 else Store.get 0 b.p n
/-- Write predicate n in the lanes of a mask; p7 discards the write (R57). -/
def Bunch.setP (b : Bunch) (n : Nat) (lanes x : Mask) : Bunch :=
  if n = 7 then b
  else { b with p := Store.put 0 b.p n ((b.pAt n &&& ~~~lanes) ||| (x &&& lanes)) }

/-- %item and %gen (R27, R32). -/
def Bunch.item (b : Bunch) (lane : Nat) : Word := if b.noItems then 0xFFFFFFFF else Store.get 0 b.items lane
def Bunch.gen (b : Bunch) (lane : Nat) : Word := Store.get 0 b.gens lane

/-- Lanes that exist (R29). -/
def Bunch.lanes (b : Bunch) : Mask := firstLanes b.width
/-- Parked lanes (R29). -/
def Bunch.parked (b : Bunch) : Mask := b.lanes &&& ~~~(b.active ||| b.helper)

/-- Write one register in one lane. -/
def Bunch.setReg (b : Bunch) (r : Reg) (lane : Nat) (x : Word) : Bunch :=
  match r with
  | .v n => b.setV n lane x
  | .k n => b.setK n x
  | .p n => b.setP n (laneBit lane) (if x = 0 then 0 else laneBit lane)

/-! ### Tokens (R69) -/

/-- The operations that hold a token busy. -/
def Bunch.opsOn (b : Bunch) (t : BitVec 3) : List TokOp := b.ops.filter fun o => o.tok == t
def Bunch.tokBusy (b : Bunch) (t : Nat) : Bool := b.ops.any fun o => o.tok.toNat == t
/-- Tokens of a mask that are busy. -/
def Bunch.busyOf (b : Bunch) (m : BitVec 8) : List Nat := (List.range 8).filter fun t => m.getLsbD t && b.tokBusy t

/-- The copy a token operation runs. -/
def TokOp.copy? (o : TokOp) : Option CopyRun :=
  match o.job with
  | .copy r => some r
  | _ => none
/-- A copy suspended on a fault, or one that still owes a CRC_MISMATCH trap (R186). -/
def TokOp.suspended (o : TokOp) : Bool :=
  match o.job with
  | .copy r => r.fault.isSome || r.crcTrap
  | .unit r => r.fault.isSome
  | _ => false

/-- Apply one register write of a completing operation: a lane that was refilled in between, or a register overwritten too
early, receives free value `u` (R70, R348). -/
def Bunch.applyWrite (b : Bunch) (w : RegWrite) (u : Word) : Bunch :=
  match w.reg with
  | .k n => b.setK n (if w.undef then u else w.val)
  | r =>
    if w.drop && (b.gen w.lane != w.gen || !(b.active ||| b.helper).getLsbD w.lane) then b
    else b.setReg r w.lane (if w.undef || b.gen w.lane != w.gen then u else w.val)

/-- Apply the writes of an operation in order. -/
def applyWrites (s : State) (b : Bunch) : List RegWrite → Nat → Bunch
  | [], _ => b
  | w :: r, n => applyWrites s (b.applyWrite w ((s.freeValue n).setWidth 32)) r (n + 1)

/-- A result that lands while the bunch's handler runs also lands in the Shadow, which ERET restores (R256). -/
def Bunch.shadowWrite (b : Bunch) (w : RegWrite) : Bunch :=
  match w.reg with
  | .v n => if n < 8 && b.shMask.getLsbD w.lane then { b with shV := Store.put 0 b.shV (32 * n + w.lane) (b.vAt n w.lane) } else b
  | .k n => if 48 ≤ n then { b with shK := Store.put 0 b.shK n (b.kAt n) } else b
  | .p n => { b with shP := Store.put 0 b.shP n (b.pAt n) }

/-- A write of a register clears its poison (R275). -/
def Bunch.curePoison (b : Bunch) (m : Mask) (rs : List Reg) : Bunch :=
  if b.poison.isEmpty then b
  else { b with poison := b.poison.filter fun q => !rs.any fun r =>
    match r with
    | .v n => q.1 == n && m.getLsbD q.2
    | .k n => q.1 == 256 + n && m != 0
    | .p n => q.1 == 320 + n && m.getLsbD q.2 }

/-- The segment of a completed CFETCH has landed (R231). -/
def State.land (s : State) (b : Bunch) (o : TokOp) : State :=
  match o.lands with
  | none => s
  | some seg =>
    match Store.find s.launches b.launch with
    | none => s
    | some l =>
      let l1 := { l with landed := if l.landed.contains (b.core, seg) then l.landed else (b.core, seg) :: l.landed }
      let c := s.core b.core
      let done (k : CodeBlock) : CodeBlock := if k.fetched.isNone && k.users.contains (b.launch, seg) then { k with fetched := some s.now } else k
      let t := s.setCore b.core { c with blocks := c.blocks.map done }
      { t with launches := Store.insert s.launches b.launch l1 }

/-- Complete a token operation: its results are written and it leaves the bunch. -/
def State.completeOp (s : State) (id : Nat) (op : Nat) : State :=
  match Store.find s.bunches id with
  | none => s
  | some b =>
    match b.ops.find? (fun o => o.id == op) with
    | none => s
    | some o =>
      let b1 := applyWrites s b o.writes 0
      let b2 := if o.entry < 4 && (Store.find b.splits 4).isSome then o.writes.foldl Bunch.shadowWrite b1 else b1
      let b3 := o.writes.foldl (fun c w => c.curePoison (laneBit w.lane) [w.reg]) b2
      (((s.land b o).setBunch id { b3 with ops := b.ops.filter fun o => o.id != op })).usedFree o.writes.length

/-- Put result words into the writes of an operation, in order. -/
def TokOp.setWords (o : TokOp) (ws : List Word) : TokOp :=
  { o with writes := (o.writes.zip (List.range o.writes.length)).map fun e => { e.1 with val := ws.getD e.2 0 } }

/-- An agent has finished an operation: its results are known. -/
def State.finishOp (s : State) (id op : Nat) (ws : List Word) : State :=
  s.onBunch id fun b =>
    { b with ops := b.ops.map fun o => if o.id == op then { o.setWords ws with job := .ready } else o }

/-! ### What a bunch is guaranteed to see of table entries and slot bindings (R109, R181) -/

/-- The write is guaranteed to a bunch: to its own once covered, to another that has acquired a release after that. -/
def Reach.sure (r : Reach) (id : Nat) : Bool := if r.writer = id then r.covered else r.seen.contains id
/-- A bunch releases; a bunch acquires (any acquire after the release is taken for one of it: DESIGN CHOICE of log entry 15). -/
def Reach.release (r : Reach) (id : Nat) : Reach := if r.sure id then { r with released := true } else r
def Reach.acquire (r : Reach) (id : Nat) : Reach :=
  if r.released && r.writer != id && !r.seen.contains id then { r with seen := id :: r.seen } else r
/-- A bunch has seen the tokens of a mask idle (R69): a binding is then covered. -/
def Reach.sawIdle (r : Reach) (id : Nat) (m : BitVec 8) (busy : List Nat) (bind : Bool) : Reach :=
  if r.writer = id && m.getLsbD r.tok.toNat && !busy.contains r.op then { r with idle := true, covered := r.covered || bind } else r

/-- Change how far the writes of a context have reached. -/
def Context.reach (c : Context) (f : Bool → Reach → Reach) : Context :=
  { c with olds := c.olds.map fun o => { o with reach := f false o.reach }
           oldCasks := c.oldCasks.map fun o => { o with reach := f true o.reach } }
def State.reach (s : State) (ctx : Nat) (f : Bool → Reach → Reach) : State :=
  let c := s.ctx ctx
  if c.olds.isEmpty && c.oldCasks.isEmpty then s else s.setCtx ctx (c.reach f)

def State.releases (s : State) (id : Nat) : State :=
  match Store.find s.bunches id with
  | some b => s.reach b.ctx fun _ r => r.release id
  | none => s
def State.acquires (s : State) (id : Nat) : State :=
  match Store.find s.bunches id with
  | some b => s.reach b.ctx fun _ r => r.acquire id
  | none => s
def State.sawIdle (s : State) (id : Nat) (m : BitVec 8) : State :=
  match Store.find s.bunches id with
  | some b => s.reach b.ctx fun bind r => r.sawIdle id m (b.ops.map (·.id)) bind
  | none => s

/-- The versions of an entry that a bunch may see: the newest, then those replaced by writes that are not guaranteed to it. -/
def versions (id : Nat) (now : α) (olds : List (α × Reach)) : List α := now :: (olds.takeWhile fun o => !o.2.sure id).map (·.1)

/-! ### Contexts, interrupts, launches -/

/-- A context runs: it is neither pre-empted nor stopped (R269, R273). -/
def State.ctxRuns (s : State) (c : Nat) : Bool := (s.ctx c).preempted == 0 && !bit (s.ctx c).ctl 7

/-- Raise an MSI-X vector of a function (R246, R297). -/
def State.raise (s : State) (fn vec : Nat) : State := { s with msix := s.msix ++ [(fn, vec)] }

def State.launch (s : State) (l : Nat) : Option Launch := Store.find s.launches l
def State.setLaunch (s : State) (l : Nat) (x : Launch) : State := { s with launches := Store.insert s.launches l x }
def State.onLaunch (s : State) (l : Nat) (f : Launch → Launch) : State :=
  match s.launch l with
  | some x => s.setLaunch l (f x)
  | none => s

/-- A field of a record: bits lo + n - 1 : lo, as a number. -/
def fieldOf (r : BitVec w) (lo n : Nat) : Nat := (r.extractLsb' lo n).toNat

/-- Launch-record fields (R23). -/
def lrPri (r : BitVec 512) : Nat := fieldOf r 507 5
def lrWidth (r : BitVec 512) : Nat := 4 * 2 ^ fieldOf r 505 2
def lrKind (r : BitVec 512) : Nat := fieldOf r 503 2
def lrQuad (r : BitVec 512) : Bool := r.getLsbD 502
def lrCoop (r : BitVec 512) : Bool := r.getLsbD 501
def lrSteal (r : BitVec 512) : Bool := r.getLsbD 500
def lrRefill (r : BitVec 512) : Bool := r.getLsbD 499
def lrDone (r : BitVec 512) : DWord := r.extractLsb' 320 64
def lrEntry (r : BitVec 512) : DWord := r.extractLsb' 0 64
def lrRefillOff (r : BitVec 512) : DWord := BitVec.ofNat 64 (fieldOf r 110 18)

/-- Task-record fields (R233). -/
def trPri (r : BitVec 512) : Nat := fieldOf r 507 5
def trPc (r : BitVec 512) : DWord := r.extractLsb' 320 64
def trCellar (r : BitVec 512) : Nat := fieldOf r 496 8
def trMask (r : BitVec 512) : Nat := fieldOf r 478 18

/-- REFILL of a bunch's launch; a task's is 0 (R40). -/
def State.refills (s : State) (b : Bunch) : Bool :=
  match s.launch b.launch with
  | some l => !l.task && lrRefill l.raw && b.role == .vector
  | none => false

/-- The bunch has reached a barrier that has yet to release it (R34, R38). -/
def Bunch.atBarrier (b : Bunch) : Bool := b.bars.any fun e => e.2.reached

/-! ### Splits: arrival and the end of a bunch (R35, R43) -/

/-- The topmost JOIN of a stack. -/
def topJoin : List StackEntry → Option (Nat × DWord × Mask × Mask)
  | [] => none
  | .join n rc j a :: _ => some (n, rc, j, a)
  | .defer .. :: r => topJoin r

/-- Add lanes to the arrived mask of the topmost JOIN. -/
def orArrived (m : Mask) : List StackEntry → List StackEntry
  | [] => []
  | .join n rc j a :: r => .join n rc j (a ||| m) :: r
  | e :: r => e :: orArrived m r

/-- Splits of the bunch in JOINING whose top is JOIN n, with their A masks, by entry. -/
def joiningOn (b : Bunch) (n : Nat) : List (Nat × Mask) :=
  b.splits.filterMap fun e =>
    match e.2.state, e.2.stack with
    | .joining, .join m _ _ a :: _ => if m = n then some (e.1, a) else none
    | _, _ => none

/-- The latest cycle at which a fixed-latency result of the given entries is written (R67). -/
def Bunch.pendMax (b : Bunch) (es : List Nat) : Nat :=
  b.pends.foldl (fun m p => if es.contains p.entry then max m p.ready else m) 0

/-- What follows when a bunch has no split left (R35): a split at the refill point, which waits for the fixed-latency results
of the splits it came from (R67, R387), or nothing (it retires). -/
def State.afterLastSplit (s : State) (id : Nat) : State :=
  match Store.find s.bunches id with
  | none => s
  | some b =>
    if !b.splits.isEmpty then s
    else if s.refills b && !b.drained then
      match s.launch b.launch with
      | some l =>
        s.setBunch id (b.setSplit 0
          { pc := { bundle := lrEntry l.raw + lrRefillOff l.raw, slot := 0 }, mask := 0
            notBefore := max (s.now + 1) (b.pendMax [0, 1, 2, 3]), readyAt := s.now + 1 })
      | none => s
    else s

/-- The age counter of a split that arrives: zero at a reconvergence PC, kept where only its mask ran empty (R49). -/
def Split.ageAt (sp : Split) (rc : DWord) : Nat := if sp.pc = { bundle := rc, slot := 0 } then 0 else sp.age

/-- Arrive(S) of R43, at most `n` rounds: each round pops a stack entry, and a stack holds eight. The split that fuses waits as
the entries after each fused split's last instruction say (R66, R67). -/
def arriveN (b : Bunch) (e : Nat) : Nat → Bunch
  | 0 => b
  | n + 1 =>
    match Store.find b.splits e with
    | none => b
    | some sp =>
      match sp.stack with
      | [] => if sp.mask = 0 then b.dropSplit e else b
      | .defer pc m :: r =>
        let age := match topJoin r with
          | some (_, rc, _, _) => sp.ageAt rc
          | none => sp.age
        let b1 := b.setSplit e
          { sp with stack := orArrived sp.mask r, mask := m, pc := pc, state := .ready, age := age, tripped := false
                    notBefore := max sp.notBefore (b.pendMax [e]) }
        match topJoin r with
        | some (_, rc, _, _) => if pc = { bundle := rc, slot := 0 } then arriveN b1 e n else b1
        | none => b1
      | .join d rc j a :: r =>
        let b1 := b.setSplit e { sp with stack := .join d rc j (a ||| sp.mask) :: r, state := .joining, age := sp.ageAt rc, tripped := false }
        let h := joiningOn b1 d
        let u := h.foldl (fun m x => m ||| x.2) 0
        if j &&& ~~~u = 0 then
          match h with
          | [] => b1
          | f :: rest =>
            let b2 := rest.foldl (fun c x => c.dropSplit x.1) b1
            match Store.find b2.splits f.1 with
            | none => b2
            | some fs =>
              let all := h.filterMap fun x => Store.find b1.splits x.1
              let b3 := b2.setSplit f.1
                { fs with mask := u &&& j, stack := fs.stack.tail, pc := { bundle := rc, slot := 0 }, state := .ready, age := 0
                          notBefore := all.foldl (fun m x => max m x.notBefore) (b2.pendMax (h.map (·.1)))
                          stallToks := all.foldl (fun m x => m ||| x.stallToks) 0 }
              if u &&& j = 0 then arriveN b3 f.1 n
              else
                match topJoin fs.stack.tail with
                | some (_, rc', _, _) => if rc' = rc then arriveN b3 f.1 n else b3
                | none => b3
        else b1

/-- A split arrives: as often as its stack is deep. -/
def arrive (b : Bunch) (e : Nat) : Bunch := arriveN b e 18

/-- A split whose PC has become the rc of its top JOIN arrives (R43). -/
def arriveIf (b : Bunch) (e : Nat) : Bunch :=
  match Store.find b.splits e with
  | none => b
  | some sp =>
    match sp.state with
    | .ready =>
      match topJoin sp.stack with
      | some (_, rc, _, _) => if sp.pc = { bundle := rc, slot := 0 } then arrive b e else b
      | none => b
    | _ => b

/-- Remove lanes from the join mask of every JOIN of every split, and test the fusions that this allows (R33, R43). -/
def dropFromJoins (b : Bunch) (m : Mask) : Bunch :=
  { b with splits := Store.mapVals (fun _ sp =>
      { sp with stack := sp.stack.map fun e =>
          match e with
          | .join n rc j a => .join n rc (j &&& ~~~m) (a &&& ~~~m)
          | .defer pc x => .defer pc x }) b.splits }

/-! ### Barriers (R316) -/

/-- The team's bunch count (R23). -/
def teamBunches (r : BitVec 512) : Nat := fieldOf r 448 5 + fieldOf r 457 5 + fieldOf r 466 5 + fieldOf r 475 5

/-- Release the bunches that arrived in generation `gen` of barrier `n` of a team. -/
def State.releaseBar (s : State) (team n gen : Nat) : State :=
  { s with bunches := Store.mapVals (fun _ (c : Bunch) =>
      let a := Store.get {} c.bars n
      if c.team = some team ∧ a.reached ∧ a.gen = gen + 1 then { c with bars := Store.insert c.bars n { a with reached := false } }
      else c) s.bunches }

/-- CheckArrival(B, b) of R316. -/
def State.checkArrival (s : State) (id n : Nat) : State :=
  match Store.find s.bunches id with
  | none => s
  | some b =>
    let a := Store.get {} b.bars n
    let live := b.active ||| b.helper
    match b.team with
    | none => s
    | some t =>
      match Store.find s.teams t with
      | none => s
      | some y =>
        if !(a.reached && live != 0 && live &&& ~~~a.lanes == 0) then s
        else
          let r := match s.launch y.launch with
            | some l => l.raw
            | none => 0
          let x := Store.get {} y.bars n
          let count := if x.arrived = 0 then (if a.count = 0 then teamBunches r else a.count) else x.count
          let s1 := s.setBunch id { b with bars := Store.insert b.bars n { a with lanes := 0, gen := x.gen + 1 } }
          if x.arrived + 1 = count then
            let s2 := { s1 with teams := Store.insert s1.teams t { y with bars := Store.insert y.bars n { gen := x.gen + 1, count, arrived := 0 } } }
            s2.releaseBar t n x.gen
          else
            { s1 with teams := Store.insert s1.teams t { y with bars := Store.insert y.bars n { gen := x.gen, count, arrived := x.arrived + 1 } } }

/-- The arrival of a bunch is checked again when one of its lanes parks. -/
def State.checkArrivals (s : State) (id : Nat) : State := (List.range 16).foldl (fun t n => t.checkArrival id n) s

end Sys2Proof.Machine
end

