-- ==== Sys2Proof/Machine/Links.lean ====
section
/-! DEFINITION. Die-to-die and estate links as accesses see them (R64, R291, R292, R296), and fence points (R148, R294). -/

namespace Sys2Proof.Machine

/-! ### Links -/

def State.port (s : State) (p : Nat) : Port := Store.get {} s.ports p
def State.setPort (s : State) (p : Nat) (x : Port) : State := { s with ports := Store.insert s.ports p x }

/-- The device on which a place lies; none for host memory. -/
def Place.device : Place → Option Nat
  | .dev h _ => some (h / 8)
  | .host _ => none
  | .commons c _ => some (c / 8)
  | .scratch c _ => some (padCore c / 144)
  | .stale .. => none
/-- The cellar whose unit serves a place; none for host memory. -/
def Place.cellar : Place → Option Nat
  | .dev h _ => some h
  | .host _ => none
  | .commons c _ => some c
  | .scratch c _ => some (cellarOf (padCore c))
  | .stale .. => none

/-- A port that firmware has retired, or that has been down for 10 ms (R64, R296). -/
def State.portGone (s : State) (p : Nat) : Bool := (s.port p).state == 3 || s.retiredLinks.contains p
/-- No port can carry traffic any more (R296). -/
def State.noRoute (s : State) : Bool := (List.range 16).all s.portGone
/-- The traffic class of an access at a place of another device (R292). -/
def Place.cls : Place → Nat
  | .commons .. => 5
  | _ => 0
/-- A port carries a class now: it is up, not retraining, and the class is not in XOFF (R291, R292). -/
def State.carries (s : State) (p cls : Nat) : Bool := (s.port p).state == 2 && !(s.port p).xoff.getLsbD cls && !s.portGone p
/-- The port by which traffic leaves for a device: one that is up and linked to it, else to a switch, else the first that is up,
else the first that has not gone (log entry 36: R293 leaves the route tables to firmware). -/
def State.portTo (s : State) (d : Nat) : Nat :=
  let live := (List.range 16).filter fun p => !s.portGone p
  let up := live.filter fun p => (s.port p).state == 2
  ((up.filter fun p => (s.port p).peerDev == d) ++ (up.filter fun p => (s.port p).peerDev == 255) ++ up ++ live).headD 0

/-- Firmware has retired a unit, by the numbers of PORT_RETIRE: a port, 16 + link l of die d at 4 d + l, 16 + core c of die d at
32 + 18 d + c (R64). -/
def State.unitRetired (s : State) (n : Nat) : Bool := if n < 16 then (s.port n).state == 3 else s.retiredUnits.contains (n - 16)

/-- All four die-to-die links of a die have been retired (R17, R64, R298). -/
def State.dieCut (s : State) (die : Nat) : Bool := (List.range 4).all fun l => s.retiredUnits.contains (4 * die + l)
/-- A die's links carry nothing now: each that has not been retired retrains (R291, R298). A link's replays and training state stand
among the ports, by its number. -/
def State.dieHeld (s : State) (die : Nat) : Bool :=
  !s.dieCut die && (List.range 4).all fun l => s.retiredUnits.contains (4 * die + l) || (s.port (16 + 4 * die + l)).state == 1
/-- An access of a core leaves its die. -/
def leavesDie (core : Nat) (p : Place) : Bool :=
  match p with
  | .scratch .. => false
  | .stale .. => false
  | _ => p.cellar != some (cellarOf core)
/-- A place of this device whose die's links are all retired. -/
def State.placeCut (s : State) (p : Place) : Bool :=
  match p.cellar with
  | some c => c / 8 == s.device && s.dieCut (c % 8)
  | none => false
/-- No route leads from a core, or from the front end, to a place (R296, R298). -/
def State.unreachable (s : State) (core : Nat) (p : Place) : Bool :=
  (p.device.any (· != s.device) && s.noRoute)
    || (leavesDie core p && (s.placeCut p || (decide (core < feCore) && s.dieCut (cellarOf core % 8))))

/-! ### Fence points -/

/-- The fence point that a store of a core passes (R148): the base die, number 16, for another cellar of the package, a port for
another device; none for its own cellar and for host memory. -/
def State.fencePoint (s : State) (core : Nat) (p : Place) : Option Nat :=
  match p.cellar with
  | none => none
  | some c => if c = cellarOf core then none else if c / 8 = s.device then some 16 else some (s.portTo (c / 8))
/-- A fence point can count a store of a source: it holds counters for 4,096 sources (R294). -/
def State.fenceRoom (s : State) (point src : Nat) : Bool :=
  let at_ := s.fence.filter fun f => f.point == point
  at_.any (fun f => f.src == src) || decide (at_.length < 4096)
/-- Count a store at a fence point (R148). -/
def countAt (point src : Nat) (va : DWord) (olds : List (Nat × Byte)) : List FenceCount → List FenceCount
  | [] => [{ point, src, count := 1, va, olds }]
  | f :: r =>
    if f.point = point ∧ f.src = src then { f with count := f.count + 1, va, olds := olds ++ f.olds } :: r else f :: countAt point src va olds r
/-- A store of `n` bytes is about to be made: a fence point that it passes counts it. -/
def State.countStore (s : State) (core src : Nat) (p : Place) (va : DWord) (n : Nat) : State :=
  match s.fencePoint core p with
  | none => s
  | some q => { s with fence := countAt q src va ((List.range n).map fun i => (p.key + i, s.mem.read (p.key + i))) s.fence }

/-- The die of a core or of the place that it accesses whose links retrain, of an access that leaves its die. -/
def State.heldDie (s : State) (core : Nat) (p : Place) : Option Nat :=
  let dies := (if core < feCore then [cellarOf core % 8] else []) ++ (match p.cellar with
    | some c => if c / 8 = s.device then [c % 8] else []
    | none => [])
  if leavesDie core p then dies.find? s.dieHeld else none

/-- What holds back an access of a core at a place, where a route exists: a die whose links retrain, a port that carries nothing of
its class now (R291, R292), or, for a store, a fence point whose table is full (R294). -/
def State.heldBy (s : State) (core src : Nat) (p : Place) (store : Bool) : Option Wait :=
  let far := p.device.any (· != s.device)
  if s.unreachable core p then none
  else if let some d := s.heldDie core p then some (.port (16 + 4 * d) (some p.cls))
  else if far ∧ !s.carries (s.portTo (p.device.getD 0)) p.cls then some (.port (s.portTo (p.device.getD 0)) (some p.cls))
  else match s.fencePoint core p with
    | some q => if store ∧ !s.fenceRoom q src then some (.port q none) else none
    | none => none

/-- Nothing is far away, no fence point is full and no link of a die retrains: no access can be held back. -/
def State.linksIdle (s : State) : Bool :=
  decide (max s.devices (s.device + 1) ≤ 1 ∧ s.fence.length < 4096) && s.ports.all fun e => decide (e.1 < 16) || e.2.state != 1

/-- A release at estate or sys scope reports a lost store (R296): again until a route returns, and once where one has. -/
def State.lostStore (s : State) (src : Nat) : Option DWord :=
  (s.lost.find? fun l => l.src == src && (!l.told || s.noRoute)).map (·.va)
/-- The report has been made. -/
def State.tellLost (s : State) (src : Nat) : State :=
  { s with lost := (s.lost.map fun l => if l.src = src then { l with told := true } else l) }

end Sys2Proof.Machine
end

