-- ==== Sys2Proof/Machine/Banks.lean ====
section
/-! DEFINITION. The journal (R227, R228), commons banks (R16, R145) with what watches commons words (R242, R267), and accesses of the
front end, the array and the units through translation. -/

namespace Sys2Proof.Machine

/-! ### Journal -/

/-- The 32 bytes of an entry (R227). -/
def JEntry.bytes (e : JEntry) : List Byte :=
  leBytes e.ref.toNat 8 ++ leBytes e.tag.toNat 4 ++ leBytes e.digest.toNat 4
    ++ leBytes (e.state * 2 ^ 36 + e.kind * 2 ^ 40 + e.ctx * 2 ^ 48 + e.source * 2 ^ 54) 8 ++ leBytes e.seq 8

/-- Write an entry to the ring in device memory, where the physical function has set one up. -/
def State.jwrite (s : State) (e : JEntry) : State :=
  if s.jsize = 0 then s else { s with mem := s.mem.writeBytes (s.jbase + 32 * (e.seq % s.jsize)) e.bytes }

/-- The oldest entry is unfinished and the ring is full: nothing is accepted (R228). -/
def State.journalFull (s : State) : Bool :=
  s.jsize != 0 && s.journal.any fun e => decide (e.state ≤ 1) && decide (e.seq + s.jsize ≤ s.jseq)

/-- Add an entry (R228); its number is the one `jseq` held. -/
def State.jadd (s : State) (source ctx kind state : Nat) (digest tag : Word) (ref : DWord) : State :=
  let e : JEntry := { seq := s.jseq, source, ctx, kind, state, digest, tag, ref }
  { s.jwrite e with journal := s.journal ++ [e], jseq := s.jseq + 1 }

/-- Set the STATE of the entries that a test selects. -/
def State.jset (s : State) (p : JEntry → Bool) (st : Nat) : State :=
  let t := (s.journal.filter p).foldl (fun t e => t.jwrite { e with state := st }) s
  { t with journal := s.journal.map fun e => if p e then { e with state := st } else e }

def State.jstate (s : State) (seq st : Nat) : State := s.jset (fun e => e.seq == seq) st

/-! ### Counters (R242, R343) -/

/-- A CWAIT test: a value that meets the target is kept. -/
def Split.tested (sp : Split) (f : Nat → Nat → Nat) : Split :=
  match sp.state with
  | .blocked (.counter c o t none at_ op) r =>
    let v := f c o
    if t.toNat ≤ v then { sp with state := .blocked (.counter c o t (some (BitVec.ofNat 64 v)) at_ op) r } else sp
  | _ => sp

/-- Some CWAIT has still to find its value. -/
def State.counting (s : State) : Bool := s.bunches.any fun e => e.2.splits.any fun f => match f.2.state with
  | .blocked (.counter _ _ _ none _ _) _ => true
  | _ => false

/-- Every CWAIT tests its counter. -/
def State.testCounters (s : State) : State :=
  if s.counting then
    { s with bunches := Store.mapVals (fun _ (b : Bunch) =>
        { b with splits := Store.mapVals (fun _ sp => sp.tested fun c o => s.natAt (.commons c o) 8) b.splits }) s.bunches }
  else s

/-! ### Futures (R266, R267) -/

/-- FUT_BASE's table: its window offset. -/
def futOffset (c : Context) (n : Nat) : Nat := (bits c.futBase 14 19).toNat * 2 ^ 14 + 16 * n
/-- The place of a window offset (R114). -/
def windowPlace (o : Nat) : Place := .commons (o / 2 ^ 25) (o % 2 ^ 25)
/-- The STATUS in memory. -/
def State.futMem (s : State) (ctx n : Nat) : Nat := s.natAt (windowPlace (futOffset (s.ctx ctx) n)) 8

/-- A future's first nonzero STATUS is noted in the step that wrote it (R267). -/
def State.noteFuture (s : State) (ctx n : Nat) (f : Future) : Future :=
  if f.seen = 0 then { f with seen := BitVec.ofNat 64 (s.futMem ctx n) } else f
def State.noteFutures (s : State) : State :=
  if s.ctxs.all fun e => e.2.futures.isEmpty then s
  else { s with ctxs := Store.mapVals (fun i (c : Context) => { c with futures := Store.mapVals (s.noteFuture i) c.futures }) s.ctxs }

/-! ### Commons banks (R16, R145) -/

/-- The bank unit of a commons place: 64 × cellar + bank. -/
def bankUnit (cellar off : Nat) : Nat := 64 * cellar + off / 64 % 64

/-- What watches memory looks at it after each operation: CWAIT tests (R242), futures (R267). -/
def State.observe (s : State) : State := s.testCounters.noteFutures

/-- Write bytes at a place as one operation: what watches the commons looks at each. -/
def State.storeAt (s : State) (p : Place) (bs : List Byte) (writer : Nat := 0) : State :=
  match p with
  | .commons .. => (s.writeAt p bs writer).observe
  | _ => s.writeAt p bs writer

/-- 64-bit and 32-bit additions in place. -/
def State.addAt (s : State) (p : Place) (n : Nat) (x : Nat) : State := s.storeAt p (leBytes ((s.natAt p n + x) % 2 ^ (8 * n)) n)

/-- KIND of a dependence slot (R237). -/
def State.depKind (s : State) (p : Place) : Nat := s.natAt (p.plus 8) 8 / 2 ^ 62

/-- DEPD's action on a slot (R238): the old count, and the record it enqueues; none on a slot of KIND 3. -/
def State.depdAt (s : State) (p : Place) (ctx : Nat) : State × DWord :=
  let old := s.natAt p 8
  let w : DWord := BitVec.ofNat 64 (s.natAt (p.plus 8) 8)
  let kind := s.depKind p
  let t := if old = 0 ∨ kind = 3 then s else s.storeAt p (leBytes (old - 1) 8)
  (if old = 1 ∧ (kind = 1 ∨ kind = 2) then
      { t with depRecs := t.depRecs ++ [{ ctx, task := kind == 2, va := (bits w 0 52).setWidth 64 }] }
    else t, BitVec.ofNat 64 old)

/-- An access of another device at a place: its bytes (R292). -/
def State.extAt (s : State) (p : Nat → Place) : ExtAccess → State
  | .read .. => s
  | .write a bs => s.storeAt (p a) bs
  | .add a x => s.addAt (p a) 4 x.toNat
  | .depd a ctx => (s.depdAt (p a) ctx).1

/-- A front-end operation has been performed at its bank: what completes with it (R28, R226). -/
def State.completes (s : State) : Done → State
  | .none => s
  | .command seq =>
    { s.jstate seq 2 with
      commands := s.commands.filter fun c => c.seq != seq, agents := s.agents.filter fun a => a.seq != seq }
  | .launch l =>
    match s.launch l with
    | none => s
    | some x =>
      { s.jstate x.seq 2 with
        launches := Store.erase s.launches l
        commands := s.commands.filter fun c => c.seq != x.seq }

/-- What a bank does for one operation; cask operations are no bank's. -/
def State.bankAct (s : State) (r : UnitReq) : State :=
  match r.op with
  | .add c o x d => (s.addAt (.commons c o) 8 x.toNat).completes d
  | .ext c acc => s.extAt (.commons c) acc
  | .depd c o ctx d => ((s.depdAt (.commons c o) ctx).1).completes d
  | .caskInsert .. => s
  | .caskPart .. => s

/-- Operations of a list reach a bank; those of one cycle stand in ascending source number (R16). -/
def reachBank (r : UnitReq) : List UnitReq → List UnitReq
  | [] => [r]
  | x :: q => if x.unit = r.unit ∧ x.at_ = r.at_ ∧ r.src < x.src then r :: x :: q else x :: reachBank r q

def State.toBank (s : State) (cellar off src : Nat) (op : UnitOp) : State :=
  { s with bankQ := reachBank { unit := bankUnit cellar off, src, at_ := s.now, op } s.bankQ }

/-- The bank executes what reached it in earlier cycles (R16). -/
def State.drainBank (s : State) (unit : Nat) : State :=
  let mine (r : UnitReq) : Bool := r.unit == unit && decide (r.at_ < s.now)
  (s.bankQ.filter mine).foldl State.bankAct { s with bankQ := s.bankQ.filter fun r => !mine r }

/-- Before an access at a place: its bank's earlier operations. -/
def State.ready_ (s : State) (p : Place) : State :=
  match p with
  | .commons c o => if s.bankQ.isEmpty then s else s.drainBank (bankUnit c o)
  | _ => s

/-! ### Accesses of units through translation -/

/-- Read `n` naturally aligned bytes through translation, as a load does (R119, R296, R369): a bank's earlier operations come first
(R16). -/
def readVa (s : State) (core ctx : Nat) (va : DWord) (n : Nat) : Except Cause Nat :=
  match locate s core ctx va .read with
  | .error e => .error e
  | .ok x =>
    let t := s.ready_ x.place
    if t.poisoned x.place n then .error .eccUncorrectable
    else if s.unreachable core x.place then .error .linkDown
    else .ok (t.natAt x.place n)

/-- Read `m` consecutive units of `n` bytes; a failure names its address. -/
def readUnits (s : State) (core ctx : Nat) (va : DWord) (n : Nat) : Nat → Except (Cause × DWord) (List Nat)
  | 0 => .ok []
  | m + 1 =>
    match readVa s core ctx va n with
    | .error e => .error (e, va)
    | .ok x =>
      match readUnits s core ctx (va + BitVec.ofNat 64 n) n m with
      | .error e => .error e
      | .ok r => .ok (x :: r)

/-- A little-endian number from units of `n` bytes. -/
def unitsNat (n : Nat) : List Nat → Nat
  | [] => 0
  | x :: r => x + 2 ^ (8 * n) * unitsNat n r

/-- Read a record of `8 m` bytes, 8 at a time. -/
def readRecord (s : State) (core ctx : Nat) (va : DWord) (m : Nat) : Except (Cause × DWord) Nat :=
  match readUnits s core ctx va 8 m with
  | .error e => .error e
  | .ok r => .ok (unitsNat 8 r)

/-- Write `n` naturally aligned bytes through translation. -/
def writeVa (s : State) (core ctx : Nat) (va : DWord) (bs : List Byte) (writer : Nat := 0) : Except Cause State :=
  match locate s core ctx va .write with
  | .error e => .error e
  | .ok x => if s.unreachable core x.place then .error .linkDown else .ok ((s.ready_ x.place).storeAt x.place bs writer)

/-- Write consecutive 8-byte words through translation. -/
def writeWords (s : State) (core ctx : Nat) (va : DWord) : List DWord → Except (Cause × DWord) State
  | [] => .ok s
  | w :: r =>
    match writeVa s core ctx va (leBytes w.toNat 8) with
    | .error e => .error (e, va)
    | .ok t => writeWords t core ctx (va + 8) r

end Sys2Proof.Machine
end

