-- ==== Sys2Proof/Machine/Save.lean ====
section
/-! DEFINITION. The save area (R271, R272), closing cursors (R174, R175) and stopping a context
(R273, R274). -/

namespace Sys2Proof.Machine

/-! ### Cask cursors -/

/-- Descriptor fields (R157). -/
def ckPool (d : BitVec 512) : DWord := BitVec.ofNat 64 (fieldOf d 395 52)
def ckHomeVa (d : BitVec 512) : DWord := BitVec.ofNat 64 (fieldOf d 319 52)

def State.caskHidden (s : State) (ctx pool home : Nat) : CaskHidden :=
  match s.caskHid.find? (fun h => h.ctx == ctx && h.pool == pool && h.home == home) with
  | some h => h
  | none => { ctx, pool, home }

def State.setHidden (s : State) (h : CaskHidden) : State :=
  { s with caskHid := h :: s.caskHid.filter fun x => !(x.ctx == h.ctx && x.pool == h.pool && x.home == h.home) }

/-- The OPEN field of a home entry reports min(count, 63) (R175): bits 77:72 of the entry. The access may fault (R180). -/
def State.reportOpen (s : State) (core ctx : Nat) (homeVa : DWord) (home opens : Nat) : Except (Cause × DWord) State :=
  let va := homeVa + BitVec.ofNat 64 (32 * home + 8)
  match readVa s core ctx va 8 with
  | .error e => .error (e, va)
  | .ok x => (writeVa s core ctx va (leBytes (x / 2 ^ 14 * 2 ^ 14 + min opens 63 * 2 ^ 8 + x % 2 ^ 8) 8)).mapError fun e => (e, va)

/-- Change the open-cursor counts of homes (R175); a fault changes none. -/
def State.openHomes (s : State) (core ctx : Nat) (d : BitVec 512) (f : Nat → Nat) : List Nat → Except (Cause × DWord) State
  | [] => .ok s
  | h :: r =>
    let x := s.caskHidden ctx (ckPool d).toNat h
    match (s.setHidden { x with opens := f x.opens }).reportOpen core ctx (ckHomeVa d) h (f x.opens) with
    | .error e => .error e
    | .ok t => t.openHomes core ctx d f r

/-- A cursor of a bunch that retires or stops closes: its counts are taken back, and where an OPEN field cannot be written the
report alone is left out (DEDUCED from R175: the field is a report that no operation reads; log entry 33). -/
def State.takeOpens (s : State) (core ctx : Nat) (c : Cursor) : State :=
  c.homes.foldl (fun t h =>
    let x := t.caskHidden ctx (ckPool c.bind.desc).toNat h
    let u := t.setHidden { x with opens := x.opens - 1 }
    match u.reportOpen core ctx (ckHomeVa c.bind.desc) h (x.opens - 1) with
    | .ok v => v
    | .error _ => u) s

/-- Close one cursor of a bunch. -/
def State.closeCursor (s : State) (id j : Nat) : State :=
  match Store.find s.bunches id with
  | none => s
  | some b =>
    match Store.find b.cursors j with
    | none => s
    | some c =>
      (s.setBunch id { b with cursors := Store.erase b.cursors j }).takeOpens b.core b.ctx c

def State.closeCursors (s : State) (id : Nat) : State := (List.range 8).foldl (fun t j => t.closeCursor id j) s

/-! ### Save area -/

/-- Role and state numbers in records; the spec gives the fields and no codes (log entry 13). -/
def Role.num : Role → Nat | .vector => 0 | .copy => 1 | .matrix => 2 | .epilogue => 3
/-- Free 0, Ready 1, Stalled 2, Blocked 3, Joining 4, Frozen 5 (R45). -/
def Split.num (sp : Split) (now : Nat) : Nat :=
  if sp.frozen then 5
  else match sp.state with
    | .blocked .. => 3
    | .joining => 4
    | .ready => if now < sp.notBefore ∨ sp.stallToks ≠ 0 then 2 else 1

def StackEntry.bytes : StackEntry → List Byte
  | .join n rc j a => leBytes (rc.toNat / 128 + n % 2 ^ 18 * 2 ^ 45) 8 ++ leBytes j.toNat 4 ++ leBytes a.toNat 4
  | .defer pc m => leBytes (pc.bundle.toNat + pc.slot + 2 ^ 63) 8 ++ leBytes m.toNat 4 ++ leBytes 0 4

/-- A list of bytes brought to a length with zeros. -/
def padTo (n : Nat) (bs : List Byte) : List Byte := (bs ++ List.replicate (n - bs.length) 0).take n

/-- PC, mask, state, age, depth and the stack: 160 bytes, all zero for a free entry. -/
def Split.bytes (sp : Split) (now : Nat) : List Byte :=
  padTo 160 (leBytes (sp.pc.bundle.toNat + sp.pc.slot) 8 ++ leBytes sp.mask.toNat 4 ++ leBytes (sp.num now) 4 ++ leBytes sp.age 8
    ++ leBytes sp.stack.length 8 ++ (sp.stack.map StackEntry.bytes).flatten)

/-- A cursor's 64 bytes, all zero for a closed one: open, mode, wrapped, homes, the descriptor's address, the mode's bounds, and
the place it has come to. -/
def Cursor.bytes (c : Cursor) : List Byte :=
  let m : Nat × List Nat := match c.mode with
    | .range lo hi => (0, [lo, hi])
    | .box lo hi => (1, lo ++ hi)
    | .voxel lo hi p => (2, [lo, hi, p])
    | .scan r0 r1 a0 a1 => (3, [r0, r1, a0, a1])
  let last : List Byte := match c.last with
    | some x => leBytes x.key 8 ++ leBytes (x.home + 1) 2 ++ leBytes x.chain 4 ++ leBytes x.slot 2
    | none => List.replicate 16 0
  padTo 64 (leBytes 1 1 ++ leBytes m.1 1 ++ leBytes (if c.wrapped then 1 else 0) 1 ++ leBytes c.homes.length 5 ++ leBytes c.bind.va.toNat 8
    ++ padTo 32 (m.2.flatMap fun n => leBytes n (if m.2.length ≤ 3 then 8 else 4)) ++ last)

/-- The 48 bytes of a suspended copy: slot, token, kind, flags; elements and bytes done; TOK_REC; what it carries; its fault. -/
def copyBytes (b : Bunch) (o : TokOp) (r : CopyRun) : List Byte :=
  let kind : Nat := match r.job with
    | .lanes .. => 1 | .affine .. => 2 | .gather .. => 3 | .sparse .. => 4 | .quant .. => 5 | .layout .. => 6 | .estate .. => 7
    | .drain .. => 8
  let flags := (if r.sat then 1 else 0) + (if r.fill then 2 else 0) + (if r.supp then 4 else 0) + (if r.side then 8 else 0)
    + (if r.crcOn then 16 else 0) + (if r.ctrap then 32 else 0)
  padTo 48 (leBytes (b.slot.getD 0) 1 ++ leBytes o.tok.toNat 1 ++ leBytes kind 1 ++ leBytes flags 1 ++ leBytes r.done 4 ++ leBytes r.bytes 8
    ++ leBytes (Store.get 0 b.tokRec o.tok.toNat).toNat 8 ++ leBytes r.reg0 4 ++ leBytes r.reg1 4
    ++ leBytes (match r.fault with
      | some f => f.addr.toNat
      | none => 0) 8 ++ leBytes r.origin.bundle.toNat 8)

/-- A bunch record's fields with their offsets (R272). -/
def bunchRecord (now : Nat) (b : Bunch) : List (Nat × List Byte) :=
  let lane (L : Nat) : Nat := if b.active.getLsbD L then 1 else if b.helper.getLsbD L then 2 else if L < b.width then 3 else 0
  [(0x000, leBytes (b.slot.getD 0) 1 ++ leBytes b.role.num 1 ++ leBytes b.width 1 ++ leBytes (b.budget / 16) 1 ++ leBytes 1 4),
   (0x008, leBytes ((List.range 32).foldl (fun x L => x + lane L * 4 ^ L) 0) 8),
   (0x010, ((List.range 32).map fun L => leBytes (b.item L).toNat 4).flatten),
   (0x090, ((List.range 32).map fun L => leBytes (b.gen L).toNat 4).flatten),
   (0x110, ((List.range 7).map fun n => leBytes (b.pAt n).toNat 4).flatten),
   (0x130, ((List.range 64).map fun n => leBytes (b.kAt n).toNat 4).flatten)]
  ++ ((List.range 6).map fun e => (0x230 + 160 * e, match Store.find b.splits e with
      | some sp => sp.bytes now
      | none => List.replicate 160 0))
  ++ [(0x600, ((List.range 256).map fun i => leBytes (Store.get 0 b.shV i).toNat 4).flatten),
   (0xA00, ((List.range 7).map fun n => leBytes (Store.get 0 b.shP n).toNat 4).flatten),
   (0xA1C, ((List.range 16).map fun n => leBytes (Store.get 0 b.shK (48 + n)).toNat 4).flatten),
   (0xA80, leBytes b.fltCause.toNat 8 ++ leBytes b.fltAddr.toNat 8 ++ leBytes b.fltMask.toNat 8 ++ leBytes b.fltPc.toNat 8
      ++ leBytes b.fpStat.toNat 8 ++ (b.futures.map fun n => leBytes n 4).flatten),
   (0xB00, ((List.range 8).map fun n => leBytes (Store.get 0 b.tokRec n).toNat 8).flatten),
   (0xB40, ((List.range 8).map fun n => leBytes (Store.get 0 b.tokCrc n).toNat 8).flatten)]
  ++ ((List.range 8).map fun j => (0xB80 + 64 * j, match Store.find b.cursors j with
      | some c => c.bytes
      | none => List.replicate 64 0))
  ++ ((List.range b.budget).map fun n =>
      (0x1000 + 128 * n, ((List.range 32).map fun L => leBytes (b.vAt n L).toNat 4).flatten))

/-- Write bytes of a record, one at a time through the context's translation; a byte that cannot be written is left. -/
def State.saveBytes (s : State) (core ctx : Nat) (va : DWord) : List Byte → State
  | [] => s
  | x :: r =>
    match writeVa s core ctx va [x] with
    | .ok t => t.saveBytes core ctx (va + 1) r
    | .error _ => s.saveBytes core ctx (va + 1) r

def State.saveFields (s : State) (core ctx : Nat) (va : DWord) (fs : List (Nat × List Byte)) : State :=
  fs.foldl (fun t f => t.saveBytes core ctx (va + BitVec.ofNat 64 f.1) f.2) s

/-- SAVE_BASE and SAVE_CFG (R271). -/
def saveArea (c : Context) : DWord := BitVec.ofNat 64 ((bits c.saveBase 16 36).toNat * 2 ^ 16)
def saveTeams (c : Context) : Nat := (bits c.saveCfg 0 16).toNat
def saveBunches (c : Context) : Nat := (bits c.saveCfg 16 16).toNat
def teamRecordVa (c : Context) (i : Nat) : DWord := saveArea c + BitVec.ofNat 64 (0x10000 + 0x200000 * i)
def bunchRecordVa (c : Context) (j : Nat) : DWord := saveArea c + BitVec.ofNat 64 (0x10000 + 0x200000 * saveTeams c + 0x9000 * j)

/-- The lowest bunch record of a context that no bunch holds. -/
def State.freeRecord (s : State) (ctx : Nat) : Option Nat :=
  (List.range (saveBunches (s.ctx ctx))).find? fun j => !s.bunches.any fun e => e.2.ctx == ctx && e.2.record == some j

/-- Save a bunch to a record of its context (R269, R272). -/
def State.saveBunch (s : State) (id j : Nat) : State :=
  match Store.find s.bunches id with
  | none => s
  | some b =>
    let t := s.saveFields b.core b.ctx (bunchRecordVa (s.ctx b.ctx) j) (bunchRecord s.now b)
    t.setBunch id { b with record := some j, slot := none }

/-- Weights a cell holds in a format (R203). -/
def weightsPer (f : Nat) : Nat :=
  if f = 11 then 4 else if f = 12 ∨ f = 13 then 2 else 1

/-- A plane set's two bytes a cell: the eight latches, slot s of w in 8/w of them, and the exponent extension of a BF16 weight
(R203; the order of the bits is a DESIGN CHOICE of log entry 13). -/
def Planes.bytes (q : Planes) : List Byte :=
  let w := match q.fmt with
    | some f => weightsPer f.toNat
    | none => 1
  (List.range 16384).flatMap fun i =>
    let code (n : Nat) : Nat := match Store.find q.cells (4 * i + n) with
      | some x => x.code.toNat
      | none => 0
    leBytes (if w = 1 then code 0 else (List.range w).foldl (fun m n => m + code n % 2 ^ (8 / w) * 2 ^ (8 / w * n)) 0) 2

/-- The 64 bytes of a queued array command: its number, opcode, descriptor's base, origins, tile and rows. -/
def MatEntry.bytes (e : MatEntry) : List Byte :=
  padTo 64 (leBytes e.num 8 ++ match e.cmd with
    | .wld d sps n0 k0 krows => leBytes 0x60 1 ++ leBytes (if sps then 1 else 0) 1 ++ leBytes krows 2 ++ leBytes n0.toNat 4 ++ leBytes k0.toNat 4
        ++ leBytes (fieldOf d 376 52) 8
    | .wswp => leBytes 0x61 1
    | .mms d sps _ clr t w arow k0 _ _ rows trow promo => leBytes 0x62 1 ++ leBytes ((if sps then 1 else 0) + (if clr then 2 else 0)) 1 ++ leBytes rows 2
        ++ leBytes arow.toNat 4 ++ leBytes k0.toNat 4 ++ leBytes (fieldOf d 376 52) 8 ++ leBytes t 1 ++ leBytes w 1 ++ leBytes trow 2 ++ leBytes promo 2
    | .aprm t => leBytes 0x63 1 ++ leBytes t 1
    | .aclr t => leBytes 0x64 1 ++ leBytes t 1)

/-- The fields of a team record (R272); the array's are those of a team with a matrix bunch. -/
def teamRecord (s : State) (t : Nat) (x : Team) : List (Nat × List Byte) :=
  let c : Core := if s.bunches.any fun e => e.2.team == some t && e.2.role == .matrix then s.core x.core else {}
  let slots := s.bunches.foldl (fun m e => if e.2.team = some t then m + 2 ^ e.2.slot.getD 16 else m) 0
  let seq := match s.launch x.launch with
    | some l => l.seq
    | none => 0
  let acc := Store.keep (fun k => decide (k < 131072)) c.acc
  let copies := s.bunches.flatMap fun e =>
    if e.2.team = some t then e.2.ops.filterMap fun o => (TokOp.copy? o).map fun r => copyBytes e.2 o r else []
  [(0, leBytes seq 8 ++ leBytes x.core 4 ++ leBytes slots 4),
   (0x100, padTo 0x100 (((Store.get [] s.plqs (2 * t)).take 4).flatMap fun p => leBytes p.raw.toNat 64)),
   (0x200, padTo 0x200 (c.mqueue.flatMap fun e => e.bytes)),
   (0x400, padTo 0xC00 copies.flatten),
   (0x1000, (List.range 4096).map fun i =>
      BitVec.ofNat 8 ((List.range 8).foldl (fun m j => m + (s.full.read (32768 * x.pad + 8 * i + j)).toNat * 2 ^ j) 0)),
   (0x2000, c.planes.bytes), (0xA000, c.shadow.bytes)]
  ++ (acc.map fun e => (0x12000 + 4 * e.1, leBytes e.2.tile.toNat 4))
  ++ (acc.map fun e => (0x92000 + 4 * e.1, leBytes e.2.a26.toNat 4))
  ++ (acc.map fun e => (0x112000 + e.1, leBytes e.2.passes 1))
  ++ [(0x140000, s.bytesAt (.scratch x.pad 0) 524288)]

/-- Save a team to team record `i` (R269, R272). -/
def State.saveTeam (s : State) (t i : Nat) : State :=
  match Store.find s.teams t with
  | none => s
  | some x =>
    match s.launch x.launch with
    | none => s
    | some l => s.saveFields x.core l.ctx (teamRecordVa (s.ctx l.ctx) i) (teamRecord s t x)

/-! ### Stopping a context -/

def Cause.code : Cause → Nat
  | .illegalOp => 0x01 | .bundleForm => 0x02 | .branchAlign => 0x03 | .stallShort => 0x04 | .codeAbsent => 0x05
  | .roleViolation => 0x06 | .splitDepth => 0x07 | .watchdog => 0x08 | .trap => 0x09 | .bkpt => 0x0A
  | .pageNotPresent => 0x10 | .pageProtection => 0x11 | .attrAlias => 0x12 | .misaligned => 0x13 | .caskStale => 0x18
  | .caskFull => 0x19 | .tdescFormat => 0x20 | .tdescBounds => 0x21 | .crcMismatch => 0x28 | .eccUncorrectable => 0x30
  | .linkDown => 0x31 | .handlerFault => 0x3F
def Kind.code : Kind → Nat
  | .read => 0 | .write => 1 | .fetch => 2 | .atomic => 3 | .engine => 4 | .none => 5

/-- The stop record (R274). -/
def stopRecord (s : State) (id : Option Nat) (reason code : Nat) : List Byte :=
  let b : Option Bunch := match id with
    | some i => Store.find s.bunches i
    | none => none
  let seq : Nat := if reason = 5 then 2 ^ 64 - 1 else match b with
    | some x => match s.launch x.launch with
      | some l => l.seq
      | none => 2 ^ 64 - 1
    | none => 2 ^ 64 - 1
  let g (f : Bunch → Nat) : Nat := match b with
    | some x => f x
    | none => 0
  leBytes (code + reason * 2 ^ 11 + g (fun x => x.slot.getD 0) * 2 ^ 15 + g (fun x => coreInCellar x.core) * 2 ^ 19
      + g (fun x => cellarOf x.core) * 2 ^ 24) 4
    ++ leBytes (g fun x => x.fltMask.toNat) 4 ++ leBytes (g fun x => x.fltPc.toNat) 8
    ++ leBytes (g fun x => x.fltAddr.toNat) 8 ++ leBytes seq 8

/-- Bunches of a context, by number. -/
def State.bunchesOf (s : State) (ctx : Nat) : List Nat := (s.bunches.filter fun e => e.2.ctx == ctx).map (·.1)
/-- Teams of a context. -/
def State.teamsOf (s : State) (ctx : Nat) : List Nat :=
  (s.teams.filter fun e => match s.launch e.2.launch with
    | some l => l.ctx == ctx
    | none => false).map (·.1)

/-- Complete the issued operations of a bunch that are not copies: their results are written (R256, R273). -/
def State.drainOps (s : State) (id : Nat) : State :=
  match Store.find s.bunches id with
  | none => s
  | some b => (b.ops.filter fun o => o.job == .ready).foldl (fun t o => t.completeOp id o.id) s

/-- The front end drops a context's commands, with what they have still to do at a bank (R273, step 1). -/
def State.dropCommands (s : State) (ctx : Nat) : State :=
  let drop (d : Done) : Bool :=
    match d with
    | .none => false
    | .command seq => s.commands.any fun c => c.seq == seq && c.ctx == ctx
    | .launch l => match s.launch l with
      | some x => x.ctx == ctx
      | none => false
  { s with
    bankQ := s.bankQ.filter fun r => !(match r.op with
      | .add _ _ _ d => drop d
      | .depd _ _ _ d => drop d
      | _ => false)
    commands := s.commands.filter fun c => c.ctx != ctx
    agents := s.agents.filter fun a => a.ctx != ctx
    queues := Store.mapVals (fun _ q => if q.ctx = ctx then { q with head := q.tail, wait := none } else q) s.queues }

/-- Drop a context's launches and pending work (R273, steps 1 and 4). -/
def State.dropWork (s : State) (ctx : Nat) : State :=
  let mine (l : Nat) : Bool := match s.launch l with
    | some x => x.ctx == ctx
    | none => false
  let owner (k : Nat) : Bool :=
    if k % 2 = 0 then match Store.find s.teams (k / 2) with
      | some t => mine t.launch
      | none => false
    else match Store.find s.bunches (k / 2) with
      | some b => b.ctx == ctx
      | none => false
  { s with
    cooperQ := s.cooperQ.filter fun r => !(match r.op with
      | .caskPart b _ => (match Store.find s.bunches b with
        | some x => x.ctx == ctx
        | none => true)
      | _ => false)
    depRecs := s.depRecs.filter fun d => d.ctx != ctx
    graphs := s.graphs.filter fun g => g.ctx != ctx
    raster := s.raster.filter fun r => match Store.find s.bunches r.bunch with
      | some b => b.ctx != ctx
      | none => false
    plqs := Store.keep (fun k => !owner k) s.plqs
    cores := Store.mapVals (fun _ c => { c with
      mqueue := c.mqueue.filter fun e => e.ctx != ctx
      mrun := match c.mrun with
        | some r => if r.entry.ctx = ctx then none else some r
        | none => none
      blocks := (c.blocks.map fun k => { k with users := k.users.filter fun u => !mine u.1 }).filter fun k => !k.users.isEmpty }) s.cores
    teams := s.teams.filter fun e => !mine e.2.launch
    bunches := s.bunches.filter fun e => e.2.ctx != ctx
    caskHid := (s.caskHid.map fun h => if h.ctx = ctx then { h with opens := 0, links := [] } else h)
    launches := s.launches.filter fun e => e.2.ctx != ctx }

/-- StopContext (R273): a reason of R274 and the cause's code; `id` is the stopping bunch. -/
def State.stopContext (s : State) (ctx reason code : Nat) (id : Option Nat := none) : State :=
  let c := s.ctx ctx
  if bit c.ctl 7 then s
  else
    let record := stopRecord s id reason code
    let s1 := (s.dropCommands ctx).jset (fun e => e.ctx == ctx && decide (e.state ≤ 1)) 4
    let bs := s1.bunchesOf ctx
    let s2 := bs.foldl (fun t i => t.drainOps i) s1
    let s3 := (bs.zip (List.range (saveBunches c))).foldl (fun t p => t.saveBunch p.1 p.2) s2
    let s4 := bs.foldl (fun t i => t.closeCursors i) s3
    let s5 := s4.dropWork ctx
    let c5 := s5.ctx ctx
    let s6 := s5.setCtx ctx { c5 with ctl := c5.ctl ||| 0x80, futures := [], preempted := 0 }
    (s6.saveBytes 0 ctx (saveArea c) record).raise c.fn 0

end Sys2Proof.Machine
end

