-- ==== Sys2Proof/Machine/Issue.lean ====
section
/-! DEFINITION. Issuing an instruction: the checks of R73, hazards (R70), what follows an instruction (R66, R67), taking an
exception (R256) and returning from one (R258). -/

namespace Sys2Proof.Machine

/-! ### Taking an exception (R255, R256) -/

/-- FLT_CAUSE as the device writes it (R253): SKIP 0. -/
def fltCauseOf (entry : Nat) (f : LaneFault) : DWord :=
  BitVec.ofNat 64 (f.cause.code + f.kind.code * 2 ^ 8 + entry * 2 ^ 12)

/-- The fault of the lowest lane. -/
def lowestFault (fs : List LaneFault) : LaneFault :=
  fs.foldl (fun m f => if f.lane < m.lane then f else m) (fs.headD { lane := 0, cause := .illegalOp, addr := 0, kind := .none })

/-- The Shadow of R256 for a handler mask. -/
def Bunch.shadow (b : Bunch) (m : Mask) : Bunch :=
  { b with
    shMask := m
    shV := (List.range 8).foldl (fun t n => (lanesOf m).foldl (fun t l => Store.put 0 t (32 * n + l) (b.vAt n l)) t) []
    shP := (List.range 7).foldl (fun t n => Store.put 0 t n (b.pAt n)) []
    shK := (List.range 16).foldl (fun t i => Store.put 0 t (48 + i) (b.kAt (48 + i))) [] }

/-- Restore the Shadow (R258). -/
def Bunch.unshadow (b : Bunch) : Bunch :=
  let b1 := (List.range 8).foldl (fun c n => (lanesOf b.shMask).foldl (fun c l => c.setV n l (Store.get 0 b.shV (32 * n + l))) c) b
  let b2 := (List.range 7).foldl (fun c n => c.setP n b.shMask (Store.get 0 b.shP n)) b1
  (List.range 16).foldl (fun c i => c.setK (48 + i) (Store.get 0 b.shK (48 + i))) b2

/-- An operation of an issued instruction that has still to write registers and that another agent has yet to finish: the
front end, or a raster unit or ring writer that is not suspended on a fault. Copies go on, and an instruction that waits in
another split waits on (R256). -/
def TokOp.owes (o : TokOp) : Bool :=
  !o.writes.isEmpty && match o.job with
    | .held => true
    | .unit r => r.fault.isNone
    | _ => false
/-- Register writes that a handler's entry waits for. -/
def Bunch.owes (b : Bunch) : Bool := b.ops.any TokOp.owes

/-- The state of a bunch as its handler begins (R256): frozen splits, Shadow, fault registers, entry 4 at HND_BASE. -/
def Bunch.atHandler (b : Bunch) (entry : Nat) (fs : List LaneFault) (pc next : Pc) (stall : BitVec 8) (wait : Option (List Nat))
    (hnd : DWord) (now : Nat) (after : Nat := 0) : Bunch :=
  let f := lowestFault fs
  let fm := maskOf (fs.map (·.lane))
  let sm : Mask := match Store.find b.splits entry with
    | some sp => sp.mask
    | none => 0
  let m := if fm &&& sm = 0 then laneBit (lowest sm) else fm &&& sm
  let b1 := b.shadow m
  let h : Split :=
    { pc := { bundle := hnd, slot := 0 }, mask := m, notBefore := max (now + 1) (b.pendMax [0, 1, 2, 3, 4, 5]), readyAt := now + 1
      state := if b.owes then .blocked .writes none else .ready }
  { b1 with
    splits := Store.insert (Store.mapVals (fun e sp => if e < 4 then { sp with frozen := true } else sp) b.splits) 4 h
    fltCause := fltCauseOf entry f, fltAddr := f.addr, fltMask := fm
    fltPc := pc.bundle + BitVec.ofNat 64 pc.slot, laneFlt := fs
    fltNext := next, fltStall := stall, fltAfter := after, fltWait := wait.isSome, fltOps := wait.getD [] }

/-- HND_BASE's handler address (R254). -/
def handlerPc (c : Context) : DWord := BitVec.ofNat 64 ((bits c.hndBase 7 45).toNat * 2 ^ 7)

/-- TOK_REC's FSTEP: the step of the last fault taken by a two-step gather (R184). -/
def Bunch.noteStep (b : Bunch) (ops : List Nat) : Bunch :=
  b.ops.foldl (fun c o => match o.job with
    | .copy r =>
      if ops.contains o.id && r.fault.isSome && r.fstep != 0 then
        let x := Store.get 0 c.tokRec o.tok.toNat
        { c with tokRec := Store.put 0 c.tokRec o.tok.toNat ((x &&& ~~~(0xC0000000000000 : DWord)) ||| (r.fstep.setWidth 64 <<< 54)) }
      else c
    | _ => c) b

/-- The split of an entry faults or traps (R256): its bunch enters the context's handler, or the context stops. `pc` is the
faulting or waiting instruction, `next` the one after it with the tokens it then waits on, and `after` the cycle before which
that one does not issue; `wait` names the suspended operations of a fault at a wait point. -/
def State.takeFault (s : State) (id entry : Nat) (fs : List LaneFault) (pc next : Pc) (stall : BitVec 8 := 0)
    (wait : Option (List Nat) := none) (after : Nat := 0) : State :=
  match Store.find s.bunches id with
  | none => s
  | some b0 =>
    let c := s.ctx b0.ctx
    let code := (lowestFault fs).cause.code
    if (Store.find b0.splits 4).isSome then s.stopContext b0.ctx 1 0x3F (some id)
    else if !bit c.hndBase 0 then s.stopContext b0.ctx 0 code (some id)
    else
      let s1 := s.drainOps id
      match Store.find s1.bunches id with
      | none => s1
      | some b => s1.setBunch id ((b.noteStep (wait.getD [])).atHandler entry fs pc next stall wait (handlerPc c) s.now after)

/-! ### What an instruction needs and what it does -/

/-- What a handler split makes of an instruction (R40, R257). -/
inductive HndRule
  | any
  /-- EXIT, RFILL, DRAIN, CWAIT, LNCH, TASK. -/
  | forbidden
  /-- BAR, which has no effect when its guard is false (R315). -/
  | guarded
  /-- ERET, HMAP, PGUP: ROLE_VIOLATION outside a handler. -/
  | only
deriving DecidableEq, Repr

/-- The split about to execute an instruction. -/
structure View where
  s     : State
  id    : Nat
  entry : Nat
  ctl   : DWord
  b     : Bunch
  sp    : Split
  /-- Lanes in which the instruction issues: the split's mask, or the lanes of a retry (R258). -/
  lanes : Mask
  /-- Lanes whose guard holds. -/
  exec  : Mask
  /-- k registers that read their old value: another split's write is in flight (R67). -/
  old   : List (Nat × Word) := []

/-- Where control goes after an instruction. -/
inductive Flow
  | next
  /-- A taken branch. -/
  | goto (target : DWord)
  /-- The split blocks; when the wait ends it continues after the instruction, or issues it again. -/
  | wait (w : Wait) (resume : Bool)
  /-- The meaning has set PC, mask and state itself. -/
  | placed
  /-- The issuing split is gone, or its entry holds another. -/
  | ended

/-- The instruction issues again: it has had no effect yet. -/
def Flow.again : Flow → Bool
  | .wait _ false => true
  | _ => false
/-- The split waits in the instruction: what it acquires it acquires when the wait ends. -/
def Flow.waits : Flow → Bool
  | .wait .. => true
  | _ => false

/-- What a meaning answers. `waitOps`: the faults are of suspended operations, taken at this waiting instruction (R186). -/
structure Result where
  s       : State
  faults  : List LaneFault := []
  flow    : Flow := .next
  waitOps : Option (List Nat) := none
  /-- YIELD: the greedy choice of R46 is lost. -/
  yields  : Bool := false

/-- The static side of an instruction. -/
structure Attr where
  guard   : Guard
  /-- Roles that may issue it (R40, R406). -/
  roles   : List Role
  hnd     : HndRule := .any
  /-- The guard is evaluated once, in the lowest lane (R53). -/
  uniform : Bool := false
  /-- NOP has no guard (R75). -/
  noGuard : Bool := false
  reads   : List Reg := []
  writes  : List Reg := []
  /-- Fixed latency of R68; none for the others. -/
  lat     : Option Nat := none
  /-- It reads its sources in every lane of the split's mask (R37). -/
  wide    : Bool := false
  /-- The one lane whose v registers it reads, where that is not a lane of its guard: MOVK (R378). -/
  lane    : View → Option Nat := fun _ => none
  /-- It may write its results in every lane of the split's mask (R176). -/
  spread  : Bool := false
  /-- It is an acquire, or a release (R132, R133, R141, R142). -/
  acq     : Bool := false
  rel     : Bool := false
  /-- ILLEGAL_OP conditions that depend on the state. -/
  ill     : View → Bool := fun _ => false

def vecOnly : List Role := [.vector]
def vecCopy : List Role := [.vector, .copy]
def vecEpi : List Role := [.vector, .epilogue]
def noMatrix : List Role := [.vector, .copy, .epilogue]
def allRoles : List Role := [.vector, .copy, .matrix, .epilogue]

/-- The guard of an instruction without one. -/
def Guard.always : Guard := { pn := false, pg := 7 }
/-- The guard of a base word. -/
def Guard.base (pg : BitVec 3) : Guard := { pn := false, pg }

/-- The lanes in which a guard holds (R53). -/
def Bunch.guardMask (b : Bunch) (g : Guard) : Mask :=
  if g.pn then ~~~(b.pAt g.pg.toNat) else b.pAt g.pg.toNat

/-- The lanes in which a split issues: its mask, or those of a retry (R258). -/
def Split.lanes (sp : Split) : Mask :=
  match sp.retry with
  | some m => m &&& sp.mask
  | none => sp.mask

/-- The issuing split (R65): none unless `State.issuer` names a live, unfrozen split. -/
def State.issuing (s : State) : Option View :=
  match s.issuer with
  | none => none
  | some u =>
    match Store.find s.bunches u.bunch with
    | none => none
    | some b =>
      match Store.find b.splits u.entry with
      | none => none
      | some sp =>
        if sp.frozen then none
        else
          some { s, id := u.bunch, entry := u.entry, ctl := u.ctl, b, sp, lanes := sp.lanes, exec := sp.lanes }

/-- The executing lanes of an instruction: the guard's, or, for a uniform one, its lowest lane when the guard holds there
(R53). -/
def View.withGuard (x : View) (a : Attr) : View :=
  let g := if a.noGuard then -1 else x.b.guardMask a.guard
  if a.uniform then { x with exec := if g.getLsbD (lowest x.lanes) then laneBit (lowest x.lanes) else 0 }
  else { x with exec := x.lanes &&& g }

/-- The lanes in which the sources are read. -/
def View.readLanes (x : View) (a : Attr) : Mask := if a.wide && x.exec != 0 then x.sp.mask else x.exec

/-- The lanes in which one source register is read: of MOVK's v register the one that is named (R378). -/
def View.readIn (x : View) (a : Attr) (r : Reg) : Mask :=
  match r, a.lane x with
  | .v _, some l => if x.exec != 0 && decide (l < x.b.width) then laneBit l else 0
  | _, _ => x.readLanes a

/-- A uniform instruction acts. -/
def View.on (x : View) : Bool := x.exec != 0

/-- The lanes in which the results are written. -/
def View.writeLanes (x : View) (a : Attr) : Mask := if a.spread && x.exec != 0 then x.sp.mask else x.exec

/-- Stall entry Si (R66). -/
def stallEntry (ctl : DWord) (slot : Nat) : Nat := (bits ctl (4 * slot) 4).toNat
def View.stall (x : View) : Nat := stallEntry x.ctl x.sp.pc.slot
/-- The place of the instruction that follows (R65, R66). -/
def View.nextPc (x : View) : Pc :=
  if x.stall = 15 then { bundle := x.sp.pc.bundle + 128, slot := 0 } else { x.sp.pc with slot := x.sp.pc.slot + 1 }
/-- Tokens that an entry of 13 makes the next instruction wait on. -/
def View.stallToks (x : View) : BitVec 8 := if x.stall = 13 then bits x.ctl 56 8 else 0
/-- The address that names the instruction: bundle and slot (R253). -/
def View.at (x : View) : DWord := x.sp.pc.bundle + BitVec.ofNat 64 x.sp.pc.slot

/-! ### Hazards (R67, R70) -/

/-- A register's lanes that an access in the lanes `m` touches; an access in no lane touches none. -/
def regLanes (m : Mask) : Reg → Mask
  | .k _ => if m = 0 then 0 else 1
  | _ => m

/-- A pending write of a register that an access in lanes `m` by split `e` meets too early. A k register of another live split
reads old or new (R67), and is no hazard to a read; a write of a split that has fused into this one is one of its own. -/
def Bunch.early (b : Bunch) (now e : Nat) (m : Mask) (write : Bool) (r : Reg) : Bool :=
  let mine (x : Nat) : Bool := write || x == e || (Store.find b.splits x).isNone || !(match r with
    | .k _ => true
    | _ => false)
  r != .p 7 && (b.pends.any (fun p => p.reg == r && decide (now < p.ready) && (regLanes m r &&& p.lanes != 0) && mine p.entry) ||
  b.ops.any (fun o => mine o.entry && o.writes.any fun w =>
    w.reg == r && (match r with
      | .k _ => m != 0
      | _ => m.getLsbD w.lane)))

/-- Give a register undefined values in lanes (R70). -/
def spoilReg (s : State) (id : Nat) (m : Mask) (r : Reg) : State :=
  match Store.find s.bunches id with
  | none => s
  | some b =>
    let ls := lanesOf (regLanes m r)
    let b' := (ls.zip (List.range ls.length)).foldl (fun c p =>
      let u := s.freeValue p.2
      c.setReg r p.1 (match r with
        | .p _ => (u.setWidth 1).setWidth 32
        | _ => u.setWidth 32)) b
    (s.setBunch id b').usedFree ls.length

/-- Spoil the registers of a list. -/
def spoilRegs (s : State) (id : Nat) (m : Mask) (rs : List Reg) : State := rs.foldl (fun t r => spoilReg t id m r) s

/-- Mark pending token writes of registers as undefined (R70). -/
def Bunch.undefWrites (b : Bunch) (rs : List Reg) : Bunch :=
  { b with ops := b.ops.map fun o => { o with writes := o.writes.map fun w => if rs.contains w.reg then { w with undef := true } else w } }

/-- The registers read while another split's k write is in flight, with the old value, where choice 33 says so (R67). -/
def View.oldK (x : View) (a : Attr) : List (Nat × Word) :=
  if x.s.choice 33 = 1 then
    a.reads.filterMap fun r =>
      match r with
      | .k n => (x.b.pends.find? fun p => p.reg == r && decide (x.s.now < p.ready) && p.entry != x.entry &&
        (Store.find x.b.splits p.entry).isSome).map fun p => (n, p.old)
      | _ => none
  else []

/-! ### Checks before execution (R73) -/

/-- A lane register at or above the budget (R39). -/
def overBudget (b : Bunch) : Reg → Bool
  | .v n => b.role != .matrix && decide (b.budget ≤ n)
  | _ => false
/-- A register class the matrix role excludes (R14, R40). -/
def notUniform : Reg → Bool
  | .k _ => false
  | _ => true

/-- The first check of R73 that fails, with FLT_ADDR. -/
def check (a : Attr) (x : View) : Option (Cause × DWord) :=
  let rs := a.reads ++ a.writes
  if rs.any (overBudget x.b) || a.ill x then some (.illegalOp, 0)
  else if !a.roles.contains x.b.role ||
      (x.b.role == .matrix && !a.noGuard && (a.guard.pg != 7 || a.guard.pn || rs.any notUniform)) then some (.roleViolation, 0)
  else if a.hnd == .only && decide (x.entry < 4) then some (.roleViolation, 0)
  else if (a.hnd == .forbidden || (a.hnd == .guarded && x.on)) && decide (4 ≤ x.entry) then some (.handlerFault, 0)
  else if bit (x.s.ctx x.b.ctx).ctl 1 &&
      ((!a.noGuard && x.b.early x.s.now x.entry x.lanes false (.p a.guard.pg.toNat)) ||
        a.reads.any (fun r => x.b.early x.s.now x.entry (x.readIn a r) false r) || a.writes.any (x.b.early x.s.now x.entry (x.writeLanes a) true)) then
    some (.stallShort, x.at)
  else none

/-- The same fault in every lane of a mask (lane 0 for an empty one). -/
def faultAll (m : Mask) (c : Cause) (addr : DWord) (k : Kind := .none) : List LaneFault :=
  (if m = 0 then [0] else lanesOf m).map fun l => { lane := l, cause := c, addr, kind := k }

/-! ### After an instruction -/

/-- Record the issue in the quadrant or the sequencer (R46). -/
def View.quad (x : View) : Nat := if x.b.role == .matrix then 4 else x.b.slot.getD 0 / 4
def State.noteIssue (s : State) (x : View) : State :=
  let c := s.core x.b.core
  s.setCore x.b.core { c with quads := Store.insert c.quads x.quad (x.id, x.entry, x.s.now) }

/-- The cycle before which the split's next instruction does not issue (R66). -/
def View.after (x : View) : Nat := x.s.now + 1 + (if x.stall ≤ 12 then x.stall else 0)

/-- The issuing split's timing after an instruction (R66, R67); `jump`: the next instruction does not follow in the bundle. -/
def Split.after (sp : Split) (x : View) (b : Bunch) (jump : Bool) : Split :=
  { sp with
    notBefore := max x.after
      (if jump || x.stall == 15 then b.pendMax [x.entry] else 0)
    stallToks := x.stallToks, noGreedy := x.stall == 14, readyAt := x.s.now + 1, retry := none, heldFaults := [] }

/-- The results of fixed latency, as pending (R68). -/
def View.newPends (x : View) (a : Attr) : List Pend :=
  match a.lat with
  | none => []
  | some l =>
    if x.exec = 0 then []
    else a.writes.map fun r =>
      { reg := r, lanes := regLanes x.exec r, ready := x.s.now + l, entry := x.entry
        old := match r with
          | .k n => x.b.kAt n
          | _ => 0 }

/-- Move the issuing split on (R66, R43). -/
def Bunch.advance (b : Bunch) (x : View) (f : Flow) : Bunch :=
  match Store.find b.splits x.entry with
  | none => b
  | some sp =>
    match f with
    | .next => arriveIf (b.setSplit x.entry { sp.after x b false with pc := x.nextPc }) x.entry
    | .goto t => arriveIf (b.setSplit x.entry { sp.after x b true with pc := { bundle := t, slot := 0 } }) x.entry
    | .wait w true => b.setSplit x.entry { sp.after x b false with state := .blocked w (some x.nextPc), heldFaults := sp.heldFaults }
    | .wait w false => b.setSplit x.entry { sp with state := .blocked w none, readyAt := x.s.now + 1 }
    | .placed => if sp.state = .ready then arriveIf (b.setSplit x.entry (sp.after x b true)) x.entry else b
    | .ended => b

/-- A bunch whose last split was freed: note the instruction, and apply R35. -/
def State.ifEmpty (s : State) (id : Nat) (pc : Pc) : State :=
  match Store.find s.bunches id with
  | none => s
  | some b => if b.splits.isEmpty then (s.setBunch id { b with lastPc := pc }).afterLastSplit id else s

/-- An instruction is a release, then an acquire, where it acts (R132, R133, R141, R142). -/
def State.ordered (s : State) (x : View) (acq rel : Bool) : State :=
  let t := if rel && x.on then s.releases x.id else s
  if acq && x.on then t.acquires x.id else t

/-- A result of fixed latency has been written in the lanes that did not fault: it clears their poison (R275). -/
def State.cured (s : State) (a : Attr) (x : View) (fs : List LaneFault) : State :=
  let m := x.exec &&& ~~~(maskOf (fs.map (·.lane)))
  if a.lat.isNone || x.b.poison.isEmpty || m == 0 then s else s.onBunch x.id fun b => b.curePoison m a.writes

/-- What follows a meaning: a fault is taken (R255, R256), or the split moves on. Early overwritten registers become
undefined (R70). -/
def finish (a : Attr) (x : View) (r : Result) : State :=
  match r.faults with
  | [] =>
    let early := a.writes.filter (x.b.early x.s.now x.entry (x.writeLanes a) true)
    let s1 := if early.isEmpty then r.s
      else spoilRegs (r.s.onBunch x.id fun b => b.undefWrites early) x.id (x.writeLanes a) early
    let s2 := (s1.ordered x (a.acq && !r.flow.waits) (a.rel && !r.flow.again)).onBunch x.id fun b =>
      Bunch.advance { b.curePoison x.exec a.writes with
        pends := (b.pends.filter fun p => decide (x.s.now < p.ready)) ++ x.newPends a } x r.flow
    let s3 := if r.yields then s2.onBunch x.id fun b =>
        match Store.find b.splits x.entry with
        | some sp => b.setSplit x.entry { sp with noGreedy := true }
        | none => b
      else s2
    (s3.noteIssue x).ifEmpty x.id x.sp.pc
  | fs => ((r.s.cured a x fs).noteIssue x).takeFault x.id x.entry fs x.sp.pc x.nextPc x.stallToks r.waitOps x.after

/-- Poisoned registers read in the executing lanes (R275). -/
def View.poisonLanes (x : View) (a : Attr) : List Nat :=
  if x.b.poison.isEmpty then []
  else (lanesOf (x.readLanes a)).filter fun l => a.reads.any fun r =>
    match r with
    | .v n => match a.lane x with
      | some j => decide (j < x.b.width) && x.b.poison.contains (n, j)
      | none => x.b.poison.contains (n, l)
    | .k n => x.b.poison.contains (256 + n, 0)
    | .p n => x.b.poison.contains (320 + n, l)

/-- Execute a checked instruction: hazards without SB_CHECK, poison, then the meaning. -/
def perform (a : Attr) (body : View → Result) (x : View) : State :=
  let early := a.reads.filter fun r => x.b.early x.s.now x.entry (x.readIn a r) false r
  let s1 := early.foldl (fun t r => spoilReg t x.id (x.readIn a r) r) x.s
  let b1 := match Store.find s1.bunches x.id with
    | some b => b
    | none => x.b
  let pl := x.poisonLanes a
  let x1 := { x with s := s1, b := b1, exec := if a.uniform && !pl.isEmpty then 0 else x.exec &&& ~~~(maskOf pl), old := x.oldK a }
  if pl.isEmpty then finish a x1 (body x1)
  else
    let pf := pl.map fun l => LaneFault.mk l .eccUncorrectable 0 .read
    if x1.exec = 0 then finish a x1 { s := s1, faults := pf }
    else
      let r := body x1
      finish a x1 { r with faults := r.faults ++ pf }

/-- A guard read too early is undefined (R70). -/
def View.spoilGuard (x : View) (a : Attr) : View :=
  let r : Reg := .p a.guard.pg.toNat
  if a.noGuard || bit (x.s.ctx x.b.ctx).ctl 1 || !x.b.early x.s.now x.entry x.lanes false r then x
  else
    let s := spoilReg x.s x.id x.lanes r
    { x with s, b := match Store.find s.bunches x.id with
      | some b => b
      | none => x.b }

/-- Issue an instruction for the split that `State.issuer` names. -/
def issue (a : Attr) (body : View → Result) (s : State) : Host.Outcome State Fault Refusal :=
  match s.issuing with
  | none => .refused .noIssuer
  | some x0 =>
    let x := (x0.spoilGuard a).withGuard a
    .next (match check a x with
      | some (c, addr) => (x.s.noteIssue x).takeFault x.id x.entry (faultAll x.lanes c addr) x.sp.pc x.nextPc x.stallToks none x.after
      | none => perform a body x)

/-- Lanes of an access that fault: the result of a meaning whose other lanes have performed. -/
def faulted (s : State) (fs : List LaneFault) : Result := { s, faults := fs }

end Sys2Proof.Machine
end

