-- ==== Sys2Proof/Machine/Operands.lean ====
section
/-! DEFINITION. Every operand form: registers, pairs, special values, immediates and literals (R57 to R59), base operands
(R54), destinations (R308, R309), and addresses (R60). -/

namespace Sys2Proof.Machine

/-! ### Registers named -/

/-- Consecutive registers. -/
def vBlock (n c : Nat) : List Reg := (List.range c).map fun i => .v (n + i)
def kBlock (n c : Nat) : List Reg := (List.range c).map fun i => .k (n + i)

end Sys2Proof.Machine

namespace Sys2Proof

open Machine

/-- The `c` registers that an operand leads. -/
def VK.regs (o : VK) (c : Nat := 1) : List Reg :=
  match o with
  | .v n => vBlock n.toNat c
  | .k n => kBlock n.toNat c
def Src.regs (o : Src) (c : Nat := 1) : List Reg :=
  match o with
  | .v n => vBlock n.toNat c
  | .k n => kBlock n.toNat c
  | .sp _ => []
  | .imm _ => []
def SrcL.regs (o : SrcL) (c : Nat := 1) : List Reg :=
  match o with
  | .src y => y.regs c
  | .lit _ => []

/-! ### Base operands (R54) -/

def BaseB.srcL : BaseB → SrcL
  | .reg n => .src (.v (n.setWidth 8))
  | .imm n => .src (.imm (n.setWidth 8))
  | .lit y => .lit y
/-- The extended instruction a two-source base word stands for. -/
def Base2.alu (f : Base2) : Alu2 :=
  { g := Machine.Guard.base f.pg, d := .v (f.d.setWidth 8), a := .v (f.a.setWidth 8), b := f.b.srcL }
/-- The extended instruction a one-source base word stands for. -/
def Base1.alu (f : Base1) : Alu1 :=
  { g := Machine.Guard.base f.pg, d := .v (f.d.setWidth 8), a := .v (f.a.setWidth 8) }

end Sys2Proof

namespace Sys2Proof.Machine

/-- 64 bits from the even register (bits 31:0) and the next (R5). -/
def pairOf (lo hi : Word) : DWord := hi ++ lo
def lowHalf (x : DWord) : Word := bits x 0 32
def highHalf (x : DWord) : Word := bits x 32 32

/-- A k register at issue: an older value where another split's write is in flight (R67). -/
def View.kAt (x : View) (n : Nat) : Word :=
  match x.old.find? (fun e => e.1 == n) with
  | some e => e.2
  | none => x.b.kAt n
def View.kPair (x : View) (n : Nat) : DWord := pairOf (x.kAt n) (x.kAt (n + 1))
def View.vPair (x : View) (n lane : Nat) : DWord := pairOf (x.b.vAt n lane) (x.b.vAt (n + 1) lane)

/-- %team (R58): a task bunch reads 0. -/
def View.teamNum (x : View) : Nat :=
  match x.b.team with
  | some t => match Store.find x.s.teams t with
    | some y => y.num
    | none => 0
  | none => 0

/-- The special values (R58, R12). -/
def View.special (x : View) (lane : Nat) : Special → Word
  | .lane => BitVec.ofNat 32 lane
  | .item => x.b.item lane
  | .gen => x.b.gen lane
  | .bunch => BitVec.ofNat 32 x.b.num
  | .split => BitVec.ofNat 32 x.entry
  | .team => BitVec.ofNat 32 x.teamNum
  | .core => BitVec.ofNat 32 (coreInCellar x.b.core)
  | .row => BitVec.ofNat 32 (rowOf x.b.core)
  | .cellar => BitVec.ofNat 32 (cellarOf x.b.core)
  | .device => BitVec.ofNat 32 x.s.device
  | .clock => BitVec.ofNat 32 x.s.now + Config.clockSkew x.b.core
  | .role => BitVec.ofNat 32 x.b.role.num

/-- Src(X, L) of 32 bits (R307). -/
def View.word (x : View) (o : Src) (lane : Nat) : Word :=
  match o with
  | .v n => x.b.vAt n.toNat lane
  | .k n => x.kAt n.toNat
  | .sp c => x.special lane c
  | .imm n => n.setWidth 32

/-- Src(X, L) of 64 bits: a pair, or a value zero-extended. -/
def View.dword (x : View) (o : Src) (lane : Nat) : DWord :=
  match o with
  | .v n => x.vPair n.toNat lane
  | .k n => x.kPair n.toNat
  | .sp c => (x.special lane c).setWidth 64
  | .imm n => n.setWidth 64

def View.wordL (x : View) (o : SrcL) (lane : Nat) : Word :=
  match o with
  | .src y => x.word y lane
  | .lit y => lowHalf y
def View.dwordL (x : View) (o : SrcL) (lane : Nat) : DWord :=
  match o with
  | .src y => x.dword y lane
  | .lit y => y

def View.vk (x : View) (o : VK) (lane : Nat) : Word :=
  match o with
  | .v n => x.b.vAt n.toNat lane
  | .k n => x.kAt n.toNat
def View.vkPair (x : View) (o : VK) (lane : Nat) : DWord :=
  match o with
  | .v n => x.vPair n.toNat lane
  | .k n => x.kPair n.toNat

/-! ### Writing results (R308, R309) -/

/-- Write a 32-bit result in the executing lanes, or once. -/
def View.setVK (x : View) (d : VK) (f : Nat → Word) : Bunch :=
  match d with
  | .v n => (lanesOf x.exec).foldl (fun c l => c.setV n.toNat l (f l)) x.b
  | .k n => if x.on then x.b.setK n.toNat (f (lowest x.lanes)) else x.b

/-- Write a pair. -/
def View.setPair (x : View) (d : VK) (f : Nat → DWord) : Bunch :=
  match d with
  | .v n => (lanesOf x.exec).foldl (fun c l => (c.setV n.toNat l (lowHalf (f l))).setV (n.toNat + 1) l (highHalf (f l))) x.b
  | .k n =>
    if x.on then (x.b.setK n.toNat (lowHalf (f (lowest x.lanes)))).setK (n.toNat + 1) (highHalf (f (lowest x.lanes))) else x.b

/-- The lanes of the executing mask where a condition holds. -/
def View.where_ (x : View) (f : Nat → Bool) : Mask := maskOf ((lanesOf x.exec).filter f)
/-- Write a predicate in the executing lanes. -/
def View.setPred (x : View) (d : Nat) (f : Nat → Bool) : Bunch := x.b.setP d x.exec (x.where_ f)

/-- The result: the bunch changed. -/
def View.answer (x : View) (b : Bunch) : Result := { s := x.s.setBunch x.id b }

/-! ### Element-wise shapes (R331) -/

/-- One source. -/
def alu1 (roles : List Role) (lat : Nat) (f : Alu1) (op : Word → Word) : State → Host.Outcome State Fault Refusal :=
  issue { guard := f.g, roles, uniform := f.d.isK, reads := f.a.regs, writes := f.d.regs, lat := some lat }
    fun x => x.answer (x.setVK f.d fun l => op (x.word f.a l))

/-- Two sources. -/
def alu2 (roles : List Role) (lat : Nat) (f : Alu2) (op : Word → Word → Word) : State → Host.Outcome State Fault Refusal :=
  issue { guard := f.g, roles, uniform := f.d.isK, reads := f.a.regs ++ f.b.regs, writes := f.d.regs, lat := some lat }
    fun x => x.answer (x.setVK f.d fun l => op (x.word f.a l) (x.wordL f.b l))

/-- Three sources. -/
def alu3 (roles : List Role) (lat : Nat) (f : Alu3) (op : Word → Word → Word → Word) :
    State → Host.Outcome State Fault Refusal :=
  issue { guard := f.g, roles, uniform := f.d.isK, reads := f.a.regs ++ f.b.regs ++ f.c.regs, writes := f.d.regs, lat := some lat }
    fun x => x.answer (x.setVK f.d fun l => op (x.word f.a l) (x.wordL f.b l) (x.word f.c l))

/-- A comparison. -/
def cmp2 (roles : List Role) (lat : Nat) (f : Cmp) (op : Word → Word → Bool) : State → Host.Outcome State Fault Refusal :=
  issue { guard := f.g, roles, reads := f.a.regs ++ f.b.regs, writes := [.p f.d.toNat], lat := some lat }
    fun x => x.answer (x.setPred f.d.toNat fun l => op (x.word f.a l) (x.wordL f.b l))

/-! ### Addresses (R60) -/

/-- The signed byte offset of a class M word. -/
def offset64 (off : BitVec 29) : DWord := off.signExtend 64
/-- A 64-bit address: a pair plus the offset. -/
def View.addr (x : View) (base : VK) (off : BitVec 29) (lane : Nat) : DWord := x.vkPair base lane + offset64 off
/-- A k pair plus the offset. -/
def View.kAddr (x : View) (n : BitVec 6) (off : BitVec 29) : DWord := x.kPair n.toNat + offset64 off

end Sys2Proof.Machine
end

