-- ==== Sys2Proof/Machine/Flags.lean ====
section
/-! DEFINITION. Number formats (R91 to R94), rounding, overflow and NaNs (R101, R103), and the flags of FP_STAT (R102). Values
are exact: a magnitude times a power of two. -/

namespace Sys2Proof.Machine

/-- A binary floating format: exponent bits, fraction bits, and whether it has infinities. -/
structure Fmt where
  ebits : Nat
  mbits : Nat
  inf   : Bool := true
deriving DecidableEq, Repr

def Fmt.f32 : Fmt := { ebits := 8, mbits := 23 }
def Fmt.f16 : Fmt := { ebits := 5, mbits := 10 }
def Fmt.bf16 : Fmt := { ebits := 8, mbits := 7 }
def Fmt.e4m3 : Fmt := { ebits := 4, mbits := 3, inf := false }
def Fmt.e5m2 : Fmt := { ebits := 5, mbits := 2 }
def Fmt.bias (f : Fmt) : Nat := 2 ^ (f.ebits - 1) - 1
def Fmt.width (f : Fmt) : Nat := f.ebits + f.mbits + 1
/-- The exponent of the last place of subnormals. -/
def Fmt.emin (f : Fmt) : Int := 1 - (f.bias : Int) - f.mbits
/-- The magnitude code of infinity, or of E4M3's NaN. -/
def Fmt.top (f : Fmt) : Nat := if f.inf then (2 ^ f.ebits - 1) * 2 ^ f.mbits else 2 ^ (f.ebits + f.mbits) - 1
/-- The magnitude code of the largest finite value. -/
def Fmt.maxFin (f : Fmt) : Nat := f.top - 1
def Fmt.signBit (f : Fmt) (neg : Bool) : Nat := if neg then 2 ^ (f.ebits + f.mbits) else 0
/-- The quiet NaN of an invalid operation. -/
def Fmt.qnan (f : Fmt) : Nat := (2 ^ f.ebits - 1) * 2 ^ f.mbits + 2 ^ (f.mbits - 1)

/-- What a code stands for: a NaN, an infinity, or (-1)^neg × mag × 2^exp. -/
inductive Num
  | nan
  | inf (neg : Bool)
  | fin (neg : Bool) (mag : Nat) (exp : Int)
deriving DecidableEq, Repr

/-- Sign and magnitude of a code. -/
def Fmt.neg (f : Fmt) (x : Nat) : Bool := x / 2 ^ (f.ebits + f.mbits) % 2 = 1
def Fmt.mag (f : Fmt) (x : Nat) : Nat := x % 2 ^ (f.ebits + f.mbits)
def Fmt.isNan (f : Fmt) (x : Nat) : Bool := if f.inf then f.top < f.mag x else f.mag x = f.top
/-- The top fraction bit is clear in a NaN (R102, R103). -/
def Fmt.isSignalling (f : Fmt) (x : Nat) : Bool := f.isNan x && x / 2 ^ (f.mbits - 1) % 2 = 0
/-- Quiet a NaN. -/
def Fmt.quiet (f : Fmt) (x : Nat) : Nat := if x / 2 ^ (f.mbits - 1) % 2 = 0 then x + 2 ^ (f.mbits - 1) else x

/-- The value of a code (R91). -/
def Fmt.num (f : Fmt) (x : Nat) : Num :=
  let m := f.mag x
  if f.isNan x then .nan
  else if f.inf && m = f.top then .inf (f.neg x)
  else if m < 2 ^ f.mbits then .fin (f.neg x) m f.emin
  else .fin (f.neg x) (m % 2 ^ f.mbits + 2 ^ f.mbits) (f.emin + (m / 2 ^ f.mbits : Nat) - 1)

/-! ### Rounding -/

/-- Does a magnitude round up: the quotient's low bit, the remainder against half, and the sign (R101). -/
def roundUp (rm : RMode) (neg odd : Bool) (rem half : Nat) : Bool :=
  match rm with
  | .rne => decide (half < rem) || (rem == half && odd)
  | .rz => false
  | .ru => !neg && rem != 0
  | .rd => neg && rem != 0

/-- Round m × 2^e to a multiple of 2^q: the multiple, and whether it is exact. -/
def roundAt (rm : RMode) (neg : Bool) (m : Nat) (e q : Int) : Nat × Bool :=
  if q ≤ e then (m * 2 ^ (e - q).toNat, true)
  else
    let k := (q - e).toNat
    let n := m / 2 ^ k
    let rem := m % 2 ^ k
    (if roundUp rm neg (n % 2 = 1) (2 * rem) (2 ^ k) then n + 1 else n, rem = 0)

/-- floor(log2 m) of a positive number. -/
def ilog (m : Nat) : Nat := Nat.log2 m

/-- The flags (R102): UNF 8, OVF 4, DZ 2, INV 1. -/
abbrev FlagBits := BitVec 4
def flagINV : FlagBits := 1
def flagDZ : FlagBits := 2
def flagOVF : FlagBits := 4
def flagUNF : FlagBits := 8

/-- What an overflow gives (R101). -/
def Fmt.overflow (f : Fmt) (rm : RMode) (neg sat : Bool) : Nat :=
  let toMax := sat || match rm with
    | .rne => false
    | .rz => true
    | .ru => neg
    | .rd => !neg
  f.signBit neg + if toMax then f.maxFin else f.top

/-- Round an exact value once to a format (R101, R102): the code and its flags. `sticky`: something nonzero and smaller than
the last bit of `m` was dropped. -/
def Fmt.round (f : Fmt) (rm : RMode) (neg : Bool) (m0 : Nat) (e0 : Int) (sat : Bool := false) (sticky : Bool := false) :
    Nat × FlagBits :=
  if m0 = 0 && !sticky then (f.signBit neg, 0)
  else
    let m := 2 * m0 + if sticky then 1 else 0
    let e := e0 - 1
    let q := max f.emin ((ilog m : Int) + e - f.mbits)
    let (n, exact) := roundAt rm neg m e q
    let code := (q - f.emin).toNat * 2 ^ f.mbits + n
    if f.maxFin < code then (f.overflow rm neg sat, flagOVF)
    else
      let tiny := decide ((ilog m : Int) + e < f.emin + f.mbits)
      (f.signBit neg + code, if tiny && !exact && decide (code < 2 ^ f.mbits) then flagUNF else 0)

/-! ### Arithmetic (R332, R379) -/

/-- A subnormal operand under FTZ is a zero of its sign (R92). -/
def Fmt.flushIn (f : Fmt) (ftz : Bool) (x : Nat) : Nat :=
  if ftz && decide (f.mag x < 2 ^ f.mbits) then f.signBit (f.neg x) else x
/-- A subnormal result under FTZ. -/
def Fmt.flushOut (f : Fmt) (ftz : Bool) (r : Nat × FlagBits) : Nat × FlagBits :=
  if ftz && decide (f.mag r.1 < 2 ^ f.mbits) && f.mag r.1 != 0 then (f.signBit (f.neg r.1), r.2 ||| flagUNF) else r
/-- .sat: clamp to [+0, 1.0], NaN and −0 giving +0. -/
def Fmt.clamp (f : Fmt) (x : Nat) : Nat :=
  if f.isNan x || f.neg x then 0 else min x (f.bias * 2 ^ f.mbits)

/-- The first NaN of the operands, quieted, and INV for a signalling one (R332). -/
def Fmt.nans (f : Fmt) (xs : List Nat) : Option (Nat × FlagBits) :=
  match xs.find? f.isNan with
  | some x => some (f.quiet x, if xs.any f.isSignalling then flagINV else 0)
  | none => none

/-- a × b + c, rounded once by RNE (R351, R379). -/
def Fmt.fma (f : Fmt) (ftz : Bool) (a0 b0 c0 : Nat) : Nat × FlagBits :=
  let a := f.flushIn ftz a0
  let b := f.flushIn ftz b0
  let c := f.flushIn ftz c0
  match f.nans [a, b, c] with
  | some r => r
  | none =>
    let sp := f.neg a != f.neg b
    match f.num a, f.num b, f.num c with
    | .fin _ _ _, .fin _ _ _, .inf s => (f.signBit s + f.top, 0)
    | .fin _ ma ea, .fin _ mb eb, .fin sc mc ec =>
      let ep := ea + eb
      let e0 := min ep ec
      let p : Int := (ma * mb * 2 ^ (ep - e0).toNat : Nat)
      let q : Int := (mc * 2 ^ (ec - e0).toNat : Nat)
      let t := (if sp then -p else p) + if sc then -q else q
      if t = 0 then (f.signBit (sp && sc), 0)
      else f.flushOut ftz (f.round .rne (decide (t < 0)) t.natAbs e0)
    | .fin _ 0 _, _, _ => (f.qnan, flagINV)
    | _, .fin _ 0 _, _ => (f.qnan, flagINV)
    | _, _, .inf s => if s = sp then (f.signBit s + f.top, 0) else (f.qnan, flagINV)
    | _, _, _ => (f.signBit sp + f.top, 0)

def Fmt.one (f : Fmt) : Nat := f.bias * 2 ^ f.mbits
/-- a + b: the product with 1 is exact. -/
def Fmt.add (f : Fmt) (ftz : Bool) (a b : Nat) : Nat × FlagBits := f.fma ftz a f.one b
/-- a × b: the sum with −0 is exact. -/
def Fmt.mul (f : Fmt) (ftz : Bool) (a b : Nat) : Nat × FlagBits := f.fma ftz a b (f.signBit true)

/-- An order on non-NaN codes, −0 before +0 (R353). -/
def Fmt.ord (f : Fmt) (x : Nat) : Int := if f.neg x then -(f.mag x : Int) - 1 else f.mag x

/-- FMIN and FMAX (R353). -/
def Fmt.minMax (f : Fmt) (isMax ftz : Bool) (a0 b0 : Nat) : Nat × FlagBits :=
  let a := f.flushIn ftz a0
  let b := f.flushIn ftz b0
  let fl := if f.isSignalling a || f.isSignalling b then flagINV else 0
  if f.isNan a then (if f.isNan b then f.quiet a else b, fl)
  else if f.isNan b then (a, fl)
  else (if (f.ord a < f.ord b) != isMax then a else b, fl)

/-- FCMP (R350). -/
def Fmt.compare (f : Fmt) (c : FCond) (ftz : Bool) (a0 b0 : Nat) : Bool × FlagBits :=
  let a := f.flushIn ftz a0
  let b := f.flushIn ftz b0
  let fl := if f.isSignalling a || f.isSignalling b then flagINV else 0
  let nan := f.isNan a || f.isNan b
  let key (x : Nat) : Int := if f.neg x then -(f.mag x : Int) else f.mag x
  let x := key a
  let y := key b
  (match c with
    | .eq => !nan && x == y
    | .ne => nan || x != y
    | .lt => !nan && decide (x < y)
    | .le => !nan && decide (x ≤ y)
    | .gt => !nan && decide (y < x)
    | .ge => !nan && decide (y ≤ x)
    | .num => !nan
    | .nan => nan, fl)

/-- FRND (R354). -/
def Fmt.rint (f : Fmt) (rm : RMode) (ftz : Bool) (a0 : Nat) : Nat × FlagBits :=
  let a := f.flushIn ftz a0
  match f.nans [a] with
  | some r => r
  | none =>
    match f.num a with
    | .fin s m e => if 0 ≤ e then (a, 0) else ((f.round rm s (roundAt rm s m e 0).1 0).1, 0)
    | _ => (a, 0)

/-! ### Conversions between formats (R101, R103, R342) -/

/-- The floating format of a code 0 to 4. -/
def Fmt.ofCode (c : Nat) : Fmt :=
  match c with
  | 0 => .f32 | 1 => .f16 | 2 => .bf16 | 3 => .e4m3 | _ => .e5m2

/-- A NaN carried to another format (R103): through FP32's fraction. -/
def carryNan (src dst : Fmt) (x : Nat) : Nat :=
  let frac := x % 2 ^ src.mbits * 2 ^ (23 - src.mbits)
  if dst.inf then
    let t := frac / 2 ^ (23 - dst.mbits)
    dst.signBit (src.neg x) + (2 ^ dst.ebits - 1) * 2 ^ dst.mbits + if t = 0 then 1 else t
  else dst.signBit (src.neg x) + dst.top

/-- The range of an integer format: INT8, INT16, INT32, UINT8 (codes 5 to 8). -/
def intRange (c : Nat) : Int × Int :=
  match c with
  | 5 => (-128, 127)
  | 6 => (-32768, 32767)
  | 7 => (-2 ^ 31, 2 ^ 31 - 1)
  | _ => (0, 255)

/-- A source code's value: the integer formats and E8 as numbers; a NaN of E8 is reserved code 255 (R105). -/
def srcNum (c : Nat) (x : Word) : Num :=
  match c with
  | 5 => let n := (bits x 0 8).toInt; .fin (decide (n < 0)) n.natAbs 0
  | 6 => let n := (bits x 0 16).toInt; .fin (decide (n < 0)) n.natAbs 0
  | 7 => .fin (decide (x.toInt < 0)) x.toInt.natAbs 0
  | 8 => .fin false (bits x 0 8).toNat 0
  | 9 => if bits x 0 8 = 255 then .nan else .fin false 1 ((bits x 0 8).toNat - 127)
  | _ => (Fmt.ofCode c).num (x.toNat % 2 ^ (Fmt.ofCode c).width)

/-- The fraction of the NaN that stands for a reserved E8 code; the spec gives no payload (log entry 14). -/
def e8Nan : Nat := let n := (Config.e8Fraction).toNat; 0x7F800000 + if n = 0 then 1 else n

/-- An integer destination (R342): the value, and its flags. -/
def toInteger (c : Nat) (intSrc : Bool) (rm : RMode) : Num → Int × FlagBits
  | .nan => (0, flagINV)
  | .inf s => (if s then (intRange c).1 else (intRange c).2, flagINV)
  | .fin s m e =>
    let n : Int := (roundAt rm s m e 0).1
    let v := if s then -n else n
    let lim := intRange c
    let fl := if intSrc then flagOVF else flagINV
    if v < lim.1 then (lim.1, fl) else if lim.2 < v then (lim.2, fl) else (v, 0)

/-- A floating destination (R101, R342). -/
def toFloat (sc : Nat) (x : Word) (f : Fmt) (rm : RMode) (sat : Bool) : Nat × FlagBits :=
  match srcNum sc x with
  | .nan => if sc = 9 then (carryNan .f32 f e8Nan, flagINV) else (carryNan (Fmt.ofCode sc) f (x.toNat % 2 ^ (Fmt.ofCode sc).width), 0)
  | .inf s =>
    if f.inf then (f.signBit s + f.top, 0)
    else (f.signBit s + if sat then f.maxFin else f.top, flagOVF)
  | .fin s m e => f.round rm s m e sat

/-- A source's own bits, repacked (R341). -/
def repack (c : Nat) (x : Word) : Word :=
  match c with
  | 0 => x
  | 7 => x
  | 1 => (bits x 0 16).setWidth 32
  | 2 => (bits x 0 16).setWidth 32
  | 6 => (bits x 0 16).signExtend 32
  | 5 => (bits x 0 8).signExtend 32
  | _ => (bits x 0 8).setWidth 32

/-- CVT of one value (R342). -/
def cvtFn (sat : Bool) (src dst : Nat) (rm : RMode) (x : Word) : Word × FlagBits :=
  if src = dst then (repack src x, 0)
  else if dst < 5 then
    let r := toFloat src x (Fmt.ofCode dst) rm sat
    (BitVec.ofNat 32 r.1, r.2)
  else
    let r := toInteger dst (decide (5 ≤ src ∧ src ≤ 8)) rm (srcNum src x)
    (BitVec.ofInt 32 r.1, r.2)

/-! ### Helpers on words -/

/-- An FP32 function of words. -/
def w2 (r : Nat × FlagBits) : Word × FlagBits := (BitVec.ofNat 32 r.1, r.2)
/-- .sat of FP32. -/
def satW (sat : Bool) (r : Word × FlagBits) : Word × FlagBits :=
  if sat then (BitVec.ofNat 32 (Fmt.f32.clamp r.1.toNat), r.2) else r
def fadd32 (ftz : Bool) (a b : Word) : Word × FlagBits := w2 (Fmt.f32.add ftz a.toNat b.toNat)
def fmul32 (ftz : Bool) (a b : Word) : Word × FlagBits := w2 (Fmt.f32.mul ftz a.toNat b.toNat)
def fmin32 (ftz : Bool) (a b : Word) : Word × FlagBits := w2 (Fmt.f32.minMax false ftz a.toNat b.toNat)
def fmax32 (ftz : Bool) (a b : Word) : Word × FlagBits := w2 (Fmt.f32.minMax true ftz a.toNat b.toNat)
/-- A × B + C with inverted signs of A and C. -/
def ffma32 (ftz nega negc : Bool) (a b c : Word) : Word × FlagBits :=
  w2 (Fmt.f32.fma ftz (if nega then a ^^^ 0x80000000 else a).toNat b.toNat (if negc then c ^^^ 0x80000000 else c).toNat)

/-- PFMA in one half (R379). -/
def pfmaHalf (bf sat nega negc : Bool) (a b c : BitVec 16) : BitVec 16 × FlagBits :=
  let f := if bf then Fmt.bf16 else Fmt.f16
  let r := f.fma false (if nega then a ^^^ 0x8000 else a).toNat b.toNat (if negc then c ^^^ 0x8000 else c).toNat
  (BitVec.ofNat 16 (if sat then f.clamp r.1 else r.1), r.2)
def pfmaFn (bf sat nega negc : Bool) (a b c : Word) : Word × FlagBits :=
  let lo := pfmaHalf bf sat nega negc (bits a 0 16) (bits b 0 16) (bits c 0 16)
  let hi := pfmaHalf bf sat nega negc (bits a 16 16) (bits b 16 16) (bits c 16 16)
  (hi.1 ++ lo.1, lo.2 ||| hi.2)

/-! ### Shapes that set flags -/

def View.ftz (x : View) : Bool := bit (x.s.ctx x.b.ctx).ctl 0

/-- A result with flags in every executing lane: FP_STAT takes the OR (R332). -/
def View.setFlagged (x : View) (d : VK) (f : Nat → Word × FlagBits) : Bunch :=
  let b := x.setVK d fun l => (f l).1
  let ls := match d with
    | .v _ => lanesOf x.exec
    | .k _ => if x.on then [lowest x.lanes] else []
  { b with fpStat := ls.foldl (fun m l => m ||| (f l).2) b.fpStat }

def falu1 (lat : Nat) (f : Alu1) (op : Bool → Word → Word × FlagBits) : State → Host.Outcome State Fault Refusal :=
  issue { guard := f.g, roles := vecEpi, uniform := f.d.isK, reads := f.a.regs, writes := f.d.regs, lat := some lat }
    fun x => x.answer (x.setFlagged f.d fun l => op x.ftz (x.word f.a l))
def falu2 (lat : Nat) (f : Alu2) (op : Bool → Word → Word → Word × FlagBits) : State → Host.Outcome State Fault Refusal :=
  issue { guard := f.g, roles := vecEpi, uniform := f.d.isK, reads := f.a.regs ++ f.b.regs, writes := f.d.regs, lat := some lat }
    fun x => x.answer (x.setFlagged f.d fun l => op x.ftz (x.word f.a l) (x.wordL f.b l))
def falu3 (lat : Nat) (f : Alu3) (op : Bool → Word → Word → Word → Word × FlagBits) :
    State → Host.Outcome State Fault Refusal :=
  issue { guard := f.g, roles := vecEpi, uniform := f.d.isK, reads := f.a.regs ++ f.b.regs ++ f.c.regs, writes := f.d.regs
          lat := some lat }
    fun x => x.answer (x.setFlagged f.d fun l => op x.ftz (x.word f.a l) (x.wordL f.b l) (x.word f.c l))

end Sys2Proof.Machine
end

