-- ==== Sys2Proof/Machine/Waits.lean ====
section
/-! DEFINITION. Returning from a handler (R258), the ends of waits (R45), and faults taken at wait points (R186, R216, R407). -/

namespace Sys2Proof.Machine

/-- The launch deadline that a (re)start at the present cycle gives (R49, R50). -/
def State.deadlineFor (s : State) (b : Bunch) : Option Nat :=
  match s.launch b.launch with
  | some l =>
    let d := (bits l.wdog 32 32).toNat
    if d = 0 then none else some (s.now + d * 65536)
  | none => none

/-- What SKIP drops (R253): an element; of a gather's index, its row (log entry 18). -/
def CopyJob.skip (j : CopyJob) (done : Nat) : Nat :=
  match j with
  | .gather src .. => if done % (fieldOf src 88 24 + 1) = 0 then fieldOf src 88 24 + 1 else 1
  | _ => 1

/-- Resume a suspended copy, after the faulted element under SKIP; one that owed only its CRC_MISMATCH trap is complete
(R252, R253, R258). -/
def TokOp.resume (o : TokOp) (skip : Bool) : TokOp :=
  match o.job with
  | .copy r =>
    if r.crcTrap then { o with job := .ready }
    else { o with job := .copy { r with fault := none, more := [], done := if skip then r.done + r.job.skip r.done else r.done } }
  | .unit r => { o with job := .unit { r with fault := none, done := if skip then r.done + 1 else r.done } }
  | _ => o

/-- The array resumes its suspended instruction (R216). -/
def State.resumeArray (s : State) (core : Nat) (skip : Bool) : State :=
  let c := s.core core
  match c.mrun with
  | some r => s.setCore core { c with mrun := some { r with fault := none, done := if skip then r.done + 1 else r.done } }
  | none => s

/-- The faulting split after ERET (R258). Under SKIP it continues after the instruction; where that instruction could not be
fetched, its place in the bundle is known only once the bundle can be read (`Split.passes`). -/
def Bunch.resumeSplit (b : Bunch) (e : Nat) (skip : Bool) (now : Nat) (deadline : Option Nat) : Bunch :=
  match Store.find b.splits e with
  | none => b
  | some sp0 =>
    let sp := { sp0 with notBefore := max sp0.notBefore (max (now + 1) (b.pendMax [e, 4])), readyAt := max sp0.readyAt now }
    let code := (bits b.fltCause 0 8).toNat
    if b.fltWait then b.setSplit e sp
    else if code = Cause.watchdog.code then
      { b.setSplit e { sp with age := 0, tripped := true } with deadline := deadline }
    else if code = Cause.trap.code ∨ code = Cause.bkpt.code ∨ (skip ∧ code ≠ Cause.bundleForm.code) then
      if b.fltNext = sp.pc then b.setSplit e { sp with passes := true }
      else
        arriveIf (b.setSplit e { sp with pc := b.fltNext, stallToks := b.fltStall, retry := none, heldFaults := []
                                         notBefore := max sp.notBefore b.fltAfter }) e
    else
      let m := b.fltMask &&& sp.mask
      b.setSplit e { sp with retry := if m = sp.mask then none else some m, heldFaults := [] }

/-- The cycle at which a wait that begins now lets its bunch be swapped out, 0 for never (R243, R340). -/
def Context.swapAt (c : Context) (now : Nat) : Nat :=
  let n := (bits c.swap 0 24).toNat
  if n = 0 then 0 else now + 256 * n

/-- ERET by the handler split of a bunch (R258), entry 5 dead and the handler's stack empty. -/
def State.eret (s : State) (id : Nat) : State :=
  match Store.find s.bunches id with
  | none => s
  | some b =>
    let skip := bit b.fltCause 15
    let e := (bits b.fltCause 12 3).toNat
    let s1 := if b.fltWait && b.fltOps.isEmpty then s.resumeArray b.core skip else s
    let b1 := { b.unshadow with
      splits := Store.mapVals (fun _ (sp : Split) => { sp with frozen := false }) (Store.erase b.splits 4)
      ops := b.ops.map fun (o : TokOp) => if b.fltWait && b.fltOps.contains o.id then o.resume skip else o
      futures := b.futures ++ b.newFuts, newFuts := [], futSwap := (s.ctx b.ctx).swapAt s.now }
    let b2 := b1.resumeSplit e skip s.now (s.deadlineFor b)
    s1.setBunch id { b2 with fltWait := false, fltOps := [], pends := b2.pends.filter fun p => p.entry != 4 }

/-! ### Faults at wait points -/

/-- The faults a suspended operation brings to its waiter, none if it is not suspended (R186). -/
def TokOp.waitFaults (o : TokOp) : List LaneFault :=
  match o.job with
  | .copy r =>
    if r.crcTrap then
      [{ lane := r.lane, cause := .crcMismatch, addr := r.origin.bundle + BitVec.ofNat 64 r.origin.slot, kind := .engine }]
    else match r.fault with
      | some f => f :: r.more
      | none => []
  | .unit r => r.fault.toList
  | _ => []

/-- The first suspended operation on the tokens of a mask. -/
def Bunch.suspendedOn (b : Bunch) (m : BitVec 8) : Option (TokOp × List LaneFault) :=
  b.ops.findSome? fun o => if m.getLsbD o.tok.toNat && !o.waitFaults.isEmpty then some (o, o.waitFaults) else none

/-- Array commands below `bound` that name a tile, or a WLD, of an MWAIT mask (R213). -/
def MatCmd.named (m : BitVec 5) : MatCmd → Bool
  | .wld .. => bit m 4
  | .wswp => false
  | .mms _ _ _ _ t w .. => (List.range 4).any fun i => m.getLsbD i && decide (t ≤ i ∧ i < t + w)
  | .aprm t => bit m t
  | .aclr t => bit m t

/-- The commands of a core's array, the running one first. -/
def Core.commands (c : Core) : List MatEntry :=
  (match c.mrun with
    | some r => [r.entry]
    | none => []) ++ c.mqueue

/-- MWAIT's condition. -/
def Core.matrixIdle (c : Core) (m : BitVec 5) (bound : Nat) : Bool :=
  !c.commands.any fun e => decide (e.num < bound) && e.cmd.named m

/-- A copy that the engine has yet to take. -/
def TokOp.queued (o : TokOp) : Bool :=
  match o.job with
  | .copy r => r.queued
  | _ => false
/-- ADRN. -/
def CopyJob.isDrain : CopyJob → Bool
  | .drain .. => true
  | _ => false
/-- A copy that the engine holds, ADRN apart (R183). -/
def TokOp.inEngine (o : TokOp) : Bool :=
  match o.job with
  | .copy r => !r.queued && !r.job.isDrain
  | _ => false
/-- Copies in flight on a core (R183). -/
def State.copiesOn (s : State) (core : Nat) : Nat :=
  s.bunches.foldl (fun n e => if e.2.core = core then n + (e.2.ops.filter TokOp.inEngine).length else n) 0

/-- The engine takes a copy that waits for it. -/
def TokOp.admitted (o : TokOp) : TokOp :=
  match o.job with
  | .copy r => { o with job := .copy { r with queued := false } }
  | _ => o
/-- A core's engine takes a waiting copy of a bunch, where it has room. -/
def State.takeCopy (s : State) (id : Nat) (o : TokOp) : State :=
  match Store.find s.bunches id with
  | none => s
  | some b =>
    if decide (s.copiesOn b.core < 64) && b.slot.isSome then
      s.setBunch id { b with ops := b.ops.map fun q => if q.id == o.id then q.admitted else q }
    else s
/-- Waiting copies enter the engines, in the order of bunches and of issue (DESIGN CHOICE, log entry 17). -/
def State.takeCopies (s : State) : State :=
  s.bunches.foldl (fun t e => (e.2.ops.filter TokOp.queued).foldl (fun t o => t.takeCopy e.1 o) t) s

/-- The key of a bunch's pending-launch queue: its team's, or a task bunch's own (R236). -/
def Bunch.plqKey (b : Bunch) (id : Nat) : Nat :=
  match b.team with
  | some t => 2 * t
  | none => 2 * id + 1

/-- The bunch waits on futures, and no handler of it runs: its splits are Blocked (R266). -/
def Bunch.awaits (b : Bunch) : Bool := !b.futures.isEmpty && (Store.find b.splits 4).isNone

/-- A wait that no device operation ends has ended (R45). A store that waits for a counter of a fence point goes on by
FENCE_COUNTER_FREE, or where its port has gone. -/
def State.waitOver (s : State) (id : Nat) (b : Bunch) : Wait → Bool
  | .tokens m => (b.busyOf m).isEmpty
  | .matrix m bound => (s.core b.core).matrixIdle m bound
  | .barrier n => !(Store.get {} b.bars n).reached
  | .launchQueue op => !((Store.get [] s.plqs (b.plqKey id)).drop 4).any fun p => p.bunch == id && p.op == op
  | .matrixQueue => decide ((s.core b.core).mqueue.length < 8) || (match (s.core b.core).mrun with
    | some r => r.fault.isSome
    | none => false)
  | .copyEngine op => !b.ops.any fun o => o.id == op && o.queued
  | .writes => !b.owes
  | .granules _ => false
  | .port p cls => match cls with
    | some c => if p < 16 then s.portGone p || s.carries p c else !s.dieHeld ((p - 16) / 4)
    | none => decide (p < 16) && s.portGone p
  | .cooper r => decide (Store.get 0 s.cooperTo r ≤ s.now)
  | .cask _ => false
  | .refill _ => false
  | .drain => false
  | .counter .. => false
  | .futures => false
  | .retirement => false

/-- End a split's wait: it continues after the instruction, or issues it again. -/
def Bunch.wake (b : Bunch) (e : Nat) (sp : Split) (resume : Option Pc) (now : Nat) : Bunch :=
  match resume with
  | none => b.setSplit e { sp with state := .ready, readyAt := now }
  | some pc => arriveIf (b.setSplit e { sp with state := .ready, readyAt := now, pc := pc }) e

/-- An MWAIT of the matrix role has completed (R144, R213): the MMSs below its bound on the named tiles are covered, their reads
included. Another role's MWAIT orders nothing. -/
def Core.covered (c : Core) (m : BitVec 5) (bound : Nat) : Core :=
  let old (t : Nat) : Bool := m.getLsbD t && match Store.find c.unread t with
    | some n => decide (n < bound)
    | none => true
  { c with unwaited := (List.range 4).foldl (fun u t => if old t then u &&& ~~~((1 : BitVec 4) <<< t) else u) c.unwaited
           unread := Store.keep (fun t => !old t) c.unread
           opReads := c.opReads.filter fun r => !(decide (r.num < bound) && r.tiles.any fun t => m.getLsbD t) }
def State.covered (s : State) (b : Bunch) (m : BitVec 5) (bound : Nat) : State :=
  if b.role = .matrix then s.setCore b.core ((s.core b.core).covered m bound) else s

/-- Nothing holds back a retirement split or the retirement of a bunch (R28, R407). -/
def State.quiet (s : State) (b : Bunch) : Bool :=
  b.ops.isEmpty && (b.role != .matrix || (s.core b.core).matrixIdle 31 (s.core b.core).mnext)

/-- The faults that keep a bunch without splits from retiring (R407), and their operation, or the array's. -/
def State.retireFault (s : State) (b : Bunch) : Option (List Nat × List LaneFault) :=
  match b.suspendedOn 0xFF with
  | some (o, fs) => some ([o.id], fs)
  | none =>
    if b.role == .matrix then
      match (s.core b.core).mrun with
      | some r => r.fault.map fun f => ([], [f])
      | none => none
    else none

/-- Settle one split: a fault at its wait point is taken, or its wait ends. -/
def State.settleSplit (s : State) (id e : Nat) : State :=
  match Store.find s.bunches id with
  | none => s
  | some b =>
    match Store.find b.splits e with
    | none => s
    | some sp =>
      if sp.frozen || b.slot.isNone || b.awaits then s
      else
        match sp.state with
        | .joining => s
        | .ready =>
          if sp.stallToks = 0 then s
          else
            match b.suspendedOn sp.stallToks with
            | some (o, fs) => s.takeFault id e fs sp.pc sp.pc sp.stallToks (some [o.id])
            | none => if (b.busyOf sp.stallToks).isEmpty then (s.setBunch id (b.setSplit e { sp with stallToks := 0 })).sawIdle id sp.stallToks else s
        | .blocked w resume =>
          match w with
          | .tokens m =>
            match b.suspendedOn m with
            | some (o, fs) => s.takeFault id e fs sp.pc sp.pc 0 (some [o.id])
            | none => if s.waitOver id b w then (s.setBunch id (b.wake e sp resume s.now)).sawIdle id m else s
          | .matrix m bound =>
            let on_ := if s.waitOver id b w then (s.covered b m bound).setBunch id (b.wake e sp resume s.now) else s
            match b.role, (s.core b.core).mrun with
            | .matrix, some r =>
              match r.fault with
              | some f => s.takeFault id e [f] sp.pc sp.pc 0 (some [])
              | none => on_
            | _, _ => on_
          | .retirement =>
            match s.retireFault b with
            | some (ops, fs) => s.takeFault id e fs b.lastPc b.lastPc 0 (some ops)
            | none => if s.quiet b then s.setBunch id (b.dropSplit e) else s
          | .counter .. => s
          | .barrier _ => if s.waitOver id b w then (s.setBunch id (b.wake e sp resume s.now)).acquires id else s
          | _ => if s.waitOver id b w then s.setBunch id (b.wake e sp resume s.now) else s

/-- A bunch without a split that still holds a suspended instruction gets its retirement split (R407). -/
def State.retireSplit (s : State) (id : Nat) : State :=
  match Store.find s.bunches id with
  | none => s
  | some b =>
    if !b.splits.isEmpty then s
    else
      match s.retireFault b with
      | none => s
      | some (_, fs) =>
        s.setBunch id (b.setSplit 0 { pc := b.lastPc, mask := laneBit (lowestFault fs).lane, state := .blocked .retirement none })

/-! ### Watchdog trips (R49, R50) -/

/-- The split of entries 0 to 3 with the largest age, the lowest-numbered on a tie. -/
def Bunch.oldest (b : Bunch) : Option (Nat × Split) :=
  match b.splits.filter fun e => decide (e.1 < 4) with
  | [] => none
  | e :: r => some (r.foldl (fun m y => if m.2.age < y.2.age then y else m) e)

/-- A split trips WATCHDOG: a second trip without progress stops the context. -/
def State.trip (s : State) (id e : Nat) : State :=
  match Store.find s.bunches id with
  | none => s
  | some b =>
    match Store.find b.splits e with
    | none => s
    | some sp =>
      if sp.tripped then s.stopContext b.ctx 2 Cause.watchdog.code (some id)
      else
        let pc := match sp.state with
          | .blocked _ (some p) => p
          | _ => sp.pc
        (s.setBunch id { b with deadline := none }).takeFault id e (faultAll sp.mask .watchdog 0) pc pc

/-- A deadline that passed in a handler is taken after its ERET (R49), and after the futures that the handler added are complete
(R266: until then the splits are Blocked). -/
def State.heldTrips (s : State) (id : Nat) : State :=
  match Store.find s.bunches id with
  | none => s
  | some b =>
    if !b.heldTrip || !b.futures.isEmpty then s
    else
      match b.oldest with
      | none => s.setBunch id { b with heldTrip := false }
      | some (e, _) => (s.setBunch id { b with heldTrip := false }).trip id e

/-! ### Futures (R266, R267) -/

/-- The status of a future as its waiters see it. -/
def State.futStatus (s : State) (ctx n : Nat) : DWord :=
  match Store.find (s.ctx ctx).futures n with
  | some f => f.status
  | none => 0

/-- A future on which no bunch waits any more is free. -/
def State.freeFutures (s : State) (ctx : Nat) (ns : List Nat) : State :=
  let used (n : Nat) : Bool := s.bunches.any fun e => e.2.ctx == ctx && (e.2.futures.contains n || e.2.newFuts.contains n)
  let c := s.ctx ctx
  s.setCtx ctx { c with futures := Store.keep (fun n => !(ns.contains n && !used n)) c.futures }

/-- Every future a bunch waits on is complete. -/
def State.futuresDone (s : State) (b : Bunch) : Bool := b.futures.all fun n => s.futStatus b.ctx n != 0

/-- A waiter consumes its futures: it goes on, or a failed one stops the context. -/
def State.consume (s : State) (id : Nat) (b : Bunch) : State :=
  if b.futures.all fun n => s.futStatus b.ctx n == 1 then
    ((s.onBunch id fun c => { c with futures := [] }).freeFutures b.ctx b.futures).heldTrips id
  else s.stopContext b.ctx 3 (bits b.fltCause 0 8).toNat (some id)

/-- A resident bunch goes on when its last future is complete. -/
def State.settleFutures (s : State) (id : Nat) : State :=
  match Store.find s.bunches id with
  | none => s
  | some b => if !b.futures.isEmpty && b.slot.isSome && s.ctxRuns b.ctx && s.futuresDone b then s.consume id b else s

/-- Settle a bunch: its splits in table order. -/
def State.settleBunch (s : State) (id : Nat) : State :=
  [0, 1, 2, 3, 4, 5].foldl (fun t e => t.settleSplit id e) ((s.settleFutures id).retireSplit id)

/-- What follows every step by itself: waits that have ended, and faults at wait points. -/
def State.settle (s0 : State) : State :=
  let s := s0.observe.takeCopies
  (s.bunches.map (·.1)).foldl (fun t i => t.settleBunch i) s

end Sys2Proof.Machine
end

