-- ==== Sys2Proof/Machine/Access.lean ====
section
/-! DEFINITION. Accesses of lanes: places of generic, commons and scratchpad accesses (R111 to R119), what holds an access back
(R291, R294), releases (R296), and token operations (R69). -/

namespace Sys2Proof.Machine

/-! ### Places of accesses -/

/-- Spaces of the generic and commons instructions. -/
inductive Space | generic | window
deriving DecidableEq, Repr

/-- A naturally aligned access of `n` bytes: misalignment, translation, poison (of a read), a lost path, in that order (R119,
R369, R392). -/
def placeOf (s : State) (core ctx : Nat) (sp : Space) (va : DWord) (k : Access) (n choice : Nat) (reads : Bool := true) :
    Except Cause Place :=
  if va.toNat % n ≠ 0 then .error .misaligned
  else
    match (match sp with
      | .generic => (locate s core ctx va k choice).map Xlat.place
      | .window => locateWindow s ctx va) with
    | .error e => .error e
    | .ok p =>
      if reads && s.poisoned p n then .error .eccUncorrectable
      else if s.unreachable core p then .error .linkDown
      else .ok p

/-- What a lane's generic read finds to be undefined: its translation is stale (R121). -/
def staleAt (s : State) (core ctx : Nat) (sp : Space) (va : DWord) (choice : Nat) : Bool :=
  match sp, locate s core ctx va .write choice with
  | .generic, .ok x => x.stale
  | _, _ => false

/-- What holds back an instruction that accesses the given addresses, before any lane performs (R291, R292, R294): it issues again
when the wait ends (log entry 36). -/
def View.held (x : View) (sp : Space) (k : Access) (n : Nat) (a : Nat → DWord) (ls : List Nat) (store : Bool) : Option Wait :=
  if x.s.linksIdle then none
  else ls.findSome? fun l => match placeOf x.s x.b.core x.b.ctx sp (a l) k n l false with
    | .ok p => x.s.heldBy x.b.core x.id p store
    | .error _ => none

/-- A release at estate or sys scope reports a lost store (R296). -/
def View.lostFault (x : View) (rel : Bool) (sc : Scope) : Option DWord :=
  if rel && (sc == .estate || sc == .sys) then x.s.lostStore x.id else none

/-- An instruction that is a release at sys scope besides (R236, R279): LINK_DOWN where a store was lost, else its effect. -/
def View.release (x : View) (r : Result) : Result :=
  match x.lostFault true .sys with
  | some a => { s := x.s.tellLost x.id, faults := faultAll x.exec .linkDown a }
  | none => r

/-- Scratchpad bytes of a team (R111, R235). -/
def scratchBytes : Nat := 524288
/-- An aligned access of `n` bytes of the team's own scratchpad. -/
def scratchPlace (s : State) (b : Bunch) (off : DWord) (n : Nat) (reads : Bool) : Except Cause Place :=
  if off.toNat % n ≠ 0 then .error .misaligned
  else if b.team.isNone || decide (scratchBytes ≤ off.toNat) then .error .pageProtection
  else if reads && s.poisoned (.scratch b.pad off.toNat) n then .error .eccUncorrectable
  else .ok (.scratch b.pad off.toNat)

/-- The offset of an LDS or STS (R371). -/
def View.offset (x : View) (base : VK) (off : BitVec 29) (lane : Nat) : DWord := (x.vk base lane).setWidth 64 + offset64 off

/-- A granule of a scratchpad is full. -/
def State.isFull (s : State) (pad g : Nat) : Bool := s.full.read (32768 * pad + g) == 1
def State.setFull (s : State) (pad g : Nat) (f : Bool) : State :=
  { s with full := s.full.write (32768 * pad + g) (if f then 1 else 0) }
/-- Set the granules of bytes written to a scratchpad full (R112). -/
def State.fillGranules (s : State) (pad off n : Nat) : State :=
  if n = 0 then s
  else (List.range ((off + n - 1) / 16 + 1 - off / 16)).foldl (fun t i => t.setFull pad (off / 16 + i) true) s

/-! ### Lanes that do something in turn -/

/-- What one lane's access answers. -/
inductive LaneDone (α : Type)
  | ok (s : State) (x : α)
  | fail (c : Cause) (addr : DWord)

/-- Lanes act one after another; those that fault perform nothing (R255). -/
def overLanes (k : Kind) (f : State → Nat → LaneDone α) : List Nat → State → State × List (Nat × α) × List LaneFault
  | [], s => (s, [], [])
  | l :: r, s =>
    match f s l with
    | .ok t x =>
      let y := overLanes k f r t
      (y.1, (l, x) :: y.2.1, y.2.2)
    | .fail c a =>
      let y := overLanes k f r s
      (y.1, y.2.1, { lane := l, cause := c, addr := a, kind := k } :: y.2.2)

/-! ### Token operations -/

/-- A write of one register in one lane, by an operation issued now. -/
def Bunch.write (b : Bunch) (r : Reg) (lane : Nat) (x : Word) : RegWrite := { reg := r, lane, val := x, gen := b.gen lane }

/-- The writes that put words into the registers a destination leads. -/
def Bunch.destWrites (b : Bunch) (d : VK) (lane : Nat) (ws : List Word) : List RegWrite :=
  (ws.zip (List.range ws.length)).map fun e =>
    match d with
    | .v n => b.write (.v (n.toNat + e.2)) lane e.1
    | .k n => b.write (.k (n.toNat + e.2)) lane e.1

/-- A token-covered operation of the issuing split. -/
def State.addOp (s : State) (x : View) (tok : BitVec 3) (lat : Nat) (job : TokJob) (writes : List RegWrite) : State :=
  { s.onBunch x.id fun b => { b with ops := b.ops ++ [{ id := s.nextId, tok, entry := x.entry, due := s.now + lat, job, writes }] } with
    nextId := s.nextId + 1 }

/-- The words of a 64-bit value. -/
def wordsOf64 (x : DWord) : List Word := [lowHalf x, highHalf x]
/-- The k write of a status. -/
def View.kWrite (x : View) (d : Nat) (v : Word) : RegWrite := x.b.write (.k d) 0 v

/-- Faults of a uniform instruction: its lowest lane. -/
def View.fail (x : View) (c : Cause) (addr : DWord) (k : Kind := .none) : Result := faulted x.s (faultAll x.exec c addr k)

end Sys2Proof.Machine
end

