-- ==== Sys2Proof/Machine/LoadStore.lean ====
section
/-! DEFINITION. Loads (R368 to R371), stores (R391 to R393), full/empty waits (R112, R113), PREF (R383) and CCTL (R325, R326). -/

namespace Sys2Proof

/-- Registers a load writes (R368). -/
def LoadSize.regs : LoadSize → Nat
  | .d64 => 2 | .q128 => 4 | _ => 1
/-- The words a destination receives. -/
def LoadSize.extend (sz : LoadSize) (x : Nat) : List Word :=
  match sz with
  | .w32 => [BitVec.ofNat 32 x]
  | .u8 => [BitVec.ofNat 32 (x % 256)]
  | .u16 => [BitVec.ofNat 32 (x % 65536)]
  | .s8 => [(BitVec.ofNat 8 x).signExtend 32]
  | .s16 => [(BitVec.ofNat 16 x).signExtend 32]
  | .d64 => [BitVec.ofNat 32 x, BitVec.ofNat 32 (x / 2 ^ 32)]
  | .q128 => [BitVec.ofNat 32 x, BitVec.ofNat 32 (x / 2 ^ 32), BitVec.ofNat 32 (x / 2 ^ 64), BitVec.ofNat 32 (x / 2 ^ 96)]
/-- Registers a store reads (R391). -/
def StoreSize.regs : StoreSize → Nat
  | .d64 => 2 | .q128 => 4 | _ => 1

end Sys2Proof

namespace Sys2Proof.Machine

/-- Words from a register on, as a number: 32-bit registers, bytes ascending. -/
def View.block (x : View) (o : SrcL) (n lane : Nat) : Nat :=
  match o with
  | .src (.v r) => leNat ((List.range n).flatMap fun i => leBytes (x.b.vAt (r.toNat + i) lane).toNat 4)
  | .src (.k r) => leNat ((List.range n).flatMap fun i => leBytes (x.kAt (r.toNat + i)).toNat 4)
  | .src (.imm v) => v.toNat
  | .src (.sp c) => (x.special lane c).toNat
  | .lit v => v.toNat

/-- The bytes a store writes (R391). -/
def View.data (x : View) (b : SrcL) (sz : StoreSize) (lane : Nat) : List Byte := leBytes (x.block b sz.regs lane) sz.bytes

/-- Lanes that perform: helpers do not, but in a uniform form (R30). -/
def View.actors (x : View) (uniform : Bool) : Mask := if uniform then x.exec else x.exec &&& ~~~x.b.helper

/-- Nominal latencies; they bind nothing (R3). -/
def latLoad : Nat := 855
def latScratch : Nat := 24

/-! ### Generic and commons loads and stores -/

/-- One lane of a load. -/
def loadLane (x : View) (sp : Space) (n : Nat) (a : DWord) (s : State) (lane : Nat) : LaneDone Nat :=
  match placeOf s x.b.core x.b.ctx sp a .read n lane with
  | .error e => .fail e a
  | .ok p =>
    let t := s.ready_ p
    .ok (t.fillTlb x.b.core x.b.ctx a) (t.natAt p n)

/-- An instruction that is held back, or its effect. -/
def View.unlessHeld (x : View) (w : Option Wait) (r : Result) : Result :=
  match w with
  | some w => { s := x.s, flow := .wait w false }
  | none => r

/-- The result of lane accesses that return register words: the token's operation, and the faults. -/
def View.loaded (x : View) (d : VK) (tok : BitVec 3) (lat : Nat) (y : State × List (Nat × List Word) × List LaneFault) : Result :=
  let (s, done, fs) := y
  if done.isEmpty then { s, faults := fs }
  else { s := s.addOp x tok lat .ready (done.flatMap fun e => x.b.destWrites d e.1 e.2), faults := fs }

/-- LD, LDC, LDK (R369, R370). -/
def loadOp (sp : Space) (roles : List Role) (g : Guard) (sz : LoadSize) (acq : Bool) (d base : VK) (off : BitVec 29) (tok : BitVec 3) :
    State → Host.Outcome State Fault Refusal :=
  issue { guard := g, roles, uniform := d.isK, reads := base.regs 2, writes := d.regs sz.regs, acq }
    fun x =>
      let y := overLanes .read (fun s l => loadLane x sp sz.bytes (x.addr base off l) s l) (lanesOf x.exec) x.s
      x.unlessHeld (x.held sp .read sz.bytes (x.addr base off) (lanesOf x.exec) false)
        (x.loaded d tok latLoad (y.1, y.2.1.map fun e => (e.1, sz.extend e.2), y.2.2))

def execLd (g : Guard) (sz : LoadSize) (acq : Bool) (_sc : Scope) (d base : VK) (off : BitVec 29) (tok : BitVec 3) :=
  loadOp .generic noMatrix g sz acq d base off tok
def execLdc (g : Guard) (sz : LoadSize) (acq : Bool) (_sc : Scope) (d base : VK) (off : BitVec 29) (tok : BitVec 3) :=
  loadOp .window noMatrix g sz acq d base off tok
def execLdk (g : Guard) (sz : LoadSize) (acq : Bool) (_sc : Scope) (d base : BitVec 6) (off : BitVec 29) (tok : BitVec 3) :=
  loadOp .generic allRoles g sz acq (.k d) (.k base) off tok

/-- Writes of a store: no register; an operation only where the instruction names a token. -/
def View.stored (x : View) (t : TokOpt) (lat : Nat) (s : State) (fs : List LaneFault) (some_ : Bool) : Result :=
  { s := if t.te && some_ then s.addOp x t.tok lat .ready [] else s, faults := fs }

/-- One lane of a store; `lost`: the lost store that it reports as a release, once its own place is found (R296, R392). Where two
lanes write the same bytes, a whole 16-byte access of one of them stays (DESIGN CHOICE within R137, which leaves each half of
R130 open by itself; log entry 10). -/
def storeLane (x : View) (sp : Space) (lost : Option DWord) (a : DWord) (bs : List Byte) (s : State) (lane : Nat) : LaneDone Unit :=
  match placeOf s x.b.core x.b.ctx sp a .write bs.length lane false, lost with
  | .error e, _ => .fail e a
  | .ok _, some b => .fail .linkDown b
  | .ok p, none =>
    let t := ((s.ready_ p).countStore x.b.core x.id p a bs.length).storeAt p bs x.id
    .ok (t.fillTlb x.b.core x.b.ctx a) ()

/-- A reported loss has been told (R296). -/
def State.told (s : State) (src : Nat) (fs : List LaneFault) : State :=
  if fs.any fun f => f.cause == .linkDown then s.tellLost src else s

/-- A store is uniform (R392). -/
def storeUniform (base : VK) (b : SrcL) : Bool := base.isK && !b.isV

/-- ST and STC (R392, R393). -/
def storeOp (sp : Space) (g : Guard) (sz : StoreSize) (rel : Bool) (sc : Scope) (base : VK) (off : BitVec 29) (b : SrcL)
    (t : TokOpt) : State → Host.Outcome State Fault Refusal :=
  let u := storeUniform base b
  issue { guard := g, roles := noMatrix, uniform := u, reads := base.regs 2 ++ b.regs sz.regs, rel }
    fun x =>
      let ls := x.s.laneOrder (x.actors u)
      let y := overLanes .write (fun s l => storeLane x sp (x.lostFault rel sc) (x.addr base off l) (x.data b sz l) s l) ls x.s
      x.unlessHeld (x.held sp .write sz.bytes (x.addr base off) ls true)
        (x.stored t latLoad (y.1.told x.id y.2.2) y.2.2 (!y.2.1.isEmpty))

def execSt (g : Guard) (sz : StoreSize) (rel : Bool) (sc : Scope) (base : VK) (off : BitVec 29) (b : SrcL) (t : TokOpt) :=
  storeOp .generic g sz rel sc base off b t
def execStc (g : Guard) (sz : StoreSize) (rel : Bool) (sc : Scope) (base : VK) (off : BitVec 29) (b : SrcL) (t : TokOpt) :=
  storeOp .window g sz rel sc base off b t

/-! ### Scratchpad (R112, R113, R371) -/

/-- One lane of a plain LDS. -/
def ldsLane (x : View) (n : Nat) (a : DWord) (s : State) (_ : Nat) : LaneDone Nat :=
  match scratchPlace s x.b a n true with
  | .error e => .fail e a
  | .ok p => .ok s (s.natAt p n)

/-- One lane of a plain STS: the granule is set full. -/
def stsLane (x : View) (a : DWord) (bs : List Byte) (s : State) (_ : Nat) : LaneDone Unit :=
  match scratchPlace s x.b a bs.length false with
  | .error e => .fail e a
  | .ok p => .ok ((s.writeAt p bs x.id).fillGranules x.b.pad a.toNat bs.length) ()

/-- The lanes of an .fe access: those that fault at issue, and those whose granule is in the state awaited, or is not. Poison is
consumed by the read alone (R275). -/
structure FeLanes where
  faults : List LaneFault
  now    : List Nat
  later  : List Nat
deriving DecidableEq, Repr

def feLanes (x : View) (k : Kind) (full : Bool) (n : Nat) (a : Nat → DWord) (ls : List Nat) : FeLanes :=
  let place (l : Nat) : Except Cause Place := scratchPlace x.s x.b (a l) n false
  let ok (l : Nat) : Bool := match place l with
    | .ok _ => true
    | .error _ => false
  let good := ls.filter ok
  { faults := (ls.filter fun l => !ok l).map fun l =>
      { lane := l, cause := match place l with
          | .error e => e
          | .ok _ => .misaligned
        addr := a l, kind := k }
    now := good.filter fun l => x.s.isFull x.b.pad ((a l).toNat / 16) == full
    later := good.filter fun l => x.s.isFull x.b.pad ((a l).toNat / 16) != full }

/-- What lanes of an .fe access come to whose granules are in the state awaited: register writes, and faults of poison read. -/
structure FeDone where
  s      : State
  writes : List RegWrite
  faults : List LaneFault

/-- Lanes of LDS.fe on one granule share one access; .clr empties it once. A lane that meets poison reads nothing (R275). -/
def State.feLoad (s : State) (b : Bunch) (sz : LoadSize) (d : VK) (clr : Bool) (ls : List FeLane) : FeDone :=
  let bad (q : FeLane) : Bool := s.poisoned (.scratch b.pad q.off) sz.bytes
  let good := ls.filter fun q => !bad q
  { s := if clr then good.foldl (fun t q => t.setFull b.pad (q.off / 16) false) s else s
    writes := good.flatMap fun q => b.destWrites d q.lane (sz.extend (s.natAt (.scratch b.pad q.off) sz.bytes))
    faults := (ls.filter bad).map fun q => LaneFault.mk q.lane .eccUncorrectable (BitVec.ofNat 64 q.off) .read }

/-- Lanes of STS.fe write and fill, in the order given. -/
def State.feStore (s : State) (b : Bunch) (id : Nat) (ls : List FeLane) : FeDone :=
  { s := ls.foldl (fun t q => (t.writeAt (.scratch b.pad q.off) q.data id).setFull b.pad (q.off / 16) true) s, writes := [], faults := [] }

/-- The lanes of a list perform. -/
def State.feDo (s : State) (b : Bunch) (id : Nat) (w : FeWait) (ls : List FeLane) : FeDone :=
  match w.dst with
  | some d => s.feLoad b w.sz d w.clr ls
  | none => s.feStore b id ls

/-- Issue of an .fe access: the lanes whose granules are ready perform; where others wait the split blocks, holding back its
faults, with a busy token where it names one (R113). -/
def View.fe (x : View) (w : FeWait) (full : Bool) (k : Kind) (a : Nat → DWord) (data : Nat → List Byte) (tok : Option (BitVec 3))
    (ls : List Nat) : Result :=
  let f := feLanes x k full w.sz.bytes a ls
  let lane (l : Nat) : FeLane := { lane := l, off := (a l).toNat, data := data l }
  let y := x.s.feDo x.b x.id w (f.now.map lane)
  let fs := x.sp.heldFaults ++ f.faults ++ y.faults
  let did := match w.dst with
    | some _ => !y.writes.isEmpty
    | none => !f.now.isEmpty
  if f.later.isEmpty then
    { s := match tok with
        | some t => if did then y.s.addOp x t latScratch .ready y.writes else y.s
        | none => y.s
      faults := fs }
  else
    let s1 := match tok with
      | some t => y.s.addOp x t latScratch .waits y.writes
      | none => y.s
    { s := s1.onBunch x.id fun b =>
        match Store.find b.splits x.entry with
        | some sp => b.setSplit x.entry { sp with heldFaults := fs }
        | none => b
      flow := .wait (.granules { w with work := f.later.map lane, op := tok.map fun _ => y.s.nextId }) true }

/-- LDS.fe and LDS.fe.clr. -/
def View.ldsFe (x : View) (sz : LoadSize) (clr : Bool) (d : VK) (a : Nat → DWord) (tok : BitVec 3) : Result :=
  x.fe { sz, dst := some d, clr, work := [], op := none } true .read a (fun _ => []) (some tok) (lanesOf x.exec)

def execLds (g : Guard) (sz : LoadSize) (m : LdsMode) (d base : VK) (off : BitVec 29) (tok : BitVec 3) :
    State → Host.Outcome State Fault Refusal :=
  issue { guard := g, roles := allRoles, uniform := d.isK, reads := base.regs, writes := d.regs sz.regs, acq := m != .plain }
    fun x =>
      let a (l : Nat) : DWord := x.offset base off l
      let plain :=
        let y := overLanes .read (fun s l => ldsLane x sz.bytes (a l) s l) (lanesOf x.exec) x.s
        x.loaded d tok latScratch (y.1, y.2.1.map fun e => (e.1, sz.extend e.2), y.2.2)
      match m with
      | .plain => plain
      | .acq => plain
      | .fe => x.ldsFe sz false d a tok
      | .feClr => x.ldsFe sz true d a tok

/-- The size of a store as the size of its bytes. -/
def StoreSize.load : StoreSize → LoadSize
  | .b8 => .u8 | .h16 => .u16 | .w32 => .w32 | .d64 => .d64 | .q128 => .q128

/-- STS.fe. -/
def View.stsFe (x : View) (u : Bool) (sz : StoreSize) (a : Nat → DWord) (data : Nat → List Byte) (t : TokOpt) : Result :=
  x.fe { sz := StoreSize.load sz, dst := none, clr := false, work := [], op := none } false .write a data
    (if t.te then some t.tok else none) (x.s.laneOrder (x.actors u))

def execSts (g : Guard) (sz : StoreSize) (m : StsMode) (base : VK) (off : BitVec 29) (b : SrcL) (t : TokOpt) :
    State → Host.Outcome State Fault Refusal :=
  let u := storeUniform base b
  issue { guard := g, roles := allRoles, uniform := u, reads := base.regs ++ b.regs sz.regs, rel := m != .plain }
    fun x =>
      let a (l : Nat) : DWord := x.offset base off l
      let plain :=
        let ls := x.s.laneOrder (x.actors u)
        let y := overLanes .write (fun s l => stsLane x (a l) (x.data b sz l) s l) ls x.s
        x.stored t latScratch y.1 y.2.2 (!y.2.1.isEmpty)
      match m with
      | .plain => plain
      | .rel => plain
      | .fe => x.stsFe u sz a (x.data b sz) t

/-! ### PREF and CCTL -/

/-- A lane whose line PREF asks for: its address is a multiple of 4 (the spec gives PREF no size: DESIGN CHOICE of log entry 29),
outside the commons window, and maps to a page that may be cached; the others are ignored (R383). -/
def prefAsks (x : View) (a : DWord) : Bool :=
  a.toNat % 4 == 0 && decide (a.toNat < 2 ^ 52) && !inWindow (x.s.ctx x.b.ctx) a &&
  match walk x.s x.b.ctx a.toNat with
  | .ok l => (bits l.pte 49 2).toNat != 2
  | .error _ => false

/-- PREF (R383): no access, no fault. The token is busy until the walks of the lines that no TLB covers have ended (R15). -/
def execPref (_l1 : Bool) (g : Guard) (base : VK) (off : BitVec 29) (t : TokOpt) : State → Host.Outcome State Fault Refusal :=
  issue { guard := g, roles := noMatrix, uniform := false, reads := base.regs 2 }
    fun x =>
      let as := ((lanesOf x.exec).map (x.addr base off)).filter fun a =>
        prefAsks x a && (x.s.tlbLeaves x.b.core x.b.ctx a.toNat).isEmpty
      let ws := (as.zip (List.range as.length)).map fun e => { id := x.s.nextId + e.2, core := x.b.core, ctx := x.b.ctx, va := e.1 : Walk }
      let s1 := { x.s with walks := x.s.walks ++ ws, nextId := x.s.nextId + ws.length }
      { s := if t.te && x.on then s1.addOp x t.tok latLoad (.walks (ws.map (·.id))) [] else s1 }

/-- The cores of a scope instance around a core, this device's (R129). -/
def scopeCores (sc : Scope) (core : Nat) : Nat → Bool :=
  fun c => match sc with
    | .team => c == core
    | .row => estateRow c == estateRow core
    | .cellar => cellarOf c == cellarOf core
    | .estate => true
    | .sys => true

/-- A page of 4 KiB meets a range of addresses; length 0 names all. -/
def pageMeets (lo len : Nat) (va size : Nat) : Bool := len == 0 || (decide (va < lo + len) && decide (lo < va + size))

/-- Drop a context's TLB entries whose span meets a range (R326). -/
def tlbDrop (ctx lo len : Nat) (l : List TlbEntry) : List TlbEntry := l.filter fun e => !(e.ctx == ctx && pageMeets lo len e.base e.span)
def Core.dropTlb (c : Core) (ctx lo len : Nat) : Core := { c with tlb := tlbDrop ctx lo len c.tlb }
/-- The core TLBs of a scope instance, and the second-level TLBs of its rows. -/
def State.dropTlbs (s : State) (sc : Scope) (core ctx lo len : Nat) : State :=
  { s with cores := Store.mapVals (fun k (c : Core) => if scopeCores sc core k then c.dropTlb ctx lo len else c) s.cores
           rowTlb := Store.mapVals (fun r l => if sc != .team && scopeCores sc core (6 * r) then tlbDrop ctx lo len l else l) s.rowTlb }
/-- Mark a context's code blocks that meet a range stale (R326). -/
def Core.staleCode (c : Core) (ctx lo len : Nat) : Core :=
  { c with blocks := c.blocks.map fun k => if k.ctx = ctx ∧ pageMeets lo len k.va.toNat 4096 then { k with stale := true } else k }

/-- CCTL (R325, R326). The token of .tlb waits for the walks of the instance that began before it. -/
def execCctl (op : CctlOp) (sc : Scope) (g : Guard) (a : BitVec 6) (len : SrcL) (off : BitVec 29) (tok : BitVec 3) :
    State → Host.Outcome State Fault Refusal :=
  issue { guard := g, roles := noMatrix, uniform := true, reads := kBlock a.toNat 2 ++ len.regs }
    fun x =>
      if !x.on then { s := x.s }
      else
        let lo := (x.kAddr a off).toNat
        let n := (x.wordL len (lowest x.lanes)).toNat
        let hit := scopeCores sc x.b.core
        let s1 : State := match op with
          | .l1 => x.s
          | .tlb => x.s.dropTlbs sc x.b.core x.b.ctx lo n
          | .code => { x.s with cores := Store.mapVals (fun k c => if hit k then c.staleCode x.b.ctx lo n else c) x.s.cores }
        { s := s1.addOp x tok latLoad (if op == .tlb then .walks ((x.s.walks.filter fun w => hit w.core).map (·.id)) else .ready) [] }

end Sys2Proof.Machine
end

