-- ==== Sys2Proof/Machine/Tensor.lean ====
section
/-! DEFINITION. Tensor descriptors (R98 to R100), elements and their values (R95 to R99, R105), engine conversion (R101, R189), and
the instructions TDSC, TCOD, TSYN, TQRY (R395 to R399) and TLD (R400). -/

namespace Sys2Proof.Machine

/-! ### Descriptors (R98) -/

def tdFmt (d : Desc) : Nat := fieldOf d 507 5
def tdRank (d : Desc) : Nat := fieldOf d 504 3
def tdCtab (d : Desc) : Nat := fieldOf d 500 4
def tdBlk (d : Desc) : Nat := fieldOf d 498 2
def tdBounds (d : Desc) : Nat := fieldOf d 496 2
def tdLayout (d : Desc) : Nat := fieldOf d 494 2
def tdSpl (d : Desc) : Nat := fieldOf d 490 4
def tdKdim (d : Desc) : Nat := fieldOf d 487 3
def tdScale (d : Desc) : Nat := fieldOf d 428 52
def tdBase (d : Desc) : Nat := fieldOf d 376 52
def tdStride (d : Desc) (i : Nat) : Int := (d.extractLsb' (232 + 24 * i) 24).toInt
def tdExtent (d : Desc) (i : Nat) : Nat := fieldOf d (88 + 24 * i) 24
/-- The block size B. -/
def tdBlock (d : Desc) : Nat :=
  match tdBlk d with
  | 0 => 32 | 1 => 16 | 2 => 64 | _ => 128

/-- BPI-k for codes 11 to 17. -/
def isBpi (f : Nat) : Bool := decide (11 ≤ f ∧ f ≤ 17)
/-- Bytes of an element of a byte-sized format. -/
def fmtBytes (f : Nat) : Nat :=
  match f with
  | 0 => 4 | 7 => 4 | 1 => 2 | 2 => 2 | 6 => 2 | _ => 1
/-- Formats that may carry a block scale (R97). -/
def takesScale (f : Nat) : Bool := f == 3 || f == 4 || f == 5 || f == 8 || isBpi f || f == 18

/-- The checks of R100. -/
def descOk (d : Desc) : Bool :=
  let f := tdFmt d
  let r := tdRank d
  let spl := tdSpl d
  let blocks := isBpi f || tdScale d != 0
  decide (f ≤ 18) && f != 10 && decide (1 ≤ r ∧ r ≤ 6) && decide (tdBounds d ≤ 1) && tdLayout d != 3 &&
  (if isBpi f then decide (f - 9 ≤ spl ∧ spl ≤ 8) else spl == 0) &&
  (tdCtab d == 0 || f == 18) && decide (tdKdim d < r) &&
  ((List.range 6).all fun i =>
    if i < r then tdExtent d i != 0 else tdExtent d i == 0 && tdStride d i == 0) &&
  fieldOf d 480 7 == 0 && fieldOf d 0 88 == 0 &&
  tdBase d % (if isBpi f then tdBlock d / 8 else fmtBytes f) == 0 &&
  (!blocks || (tdStride d (tdKdim d) == 1 &&
    (List.range r).all fun i => i == tdKdim d || tdStride d i % (tdBlock d : Int) == 0)) &&
  (tdScale d == 0 || takesScale f)

/-- Entry n as an instruction of a bunch sees it: one of the versions that R108 and R109 allow it, as choice 34 says, and so for a
code table with choice 35. -/
def State.descriptor (s : State) (ctx id n : Nat) : Option Desc :=
  let c := s.ctx ctx
  let vs := versions id (Store.find c.tensors n)
    ((c.olds.filter fun o => !o.code && o.idx == n).map fun o => (if o.old = 0 then none else some o.old, o.reach))
  vs.getD (s.choice 34) (Store.find c.tensors n)
def State.codeTable (s : State) (ctx id n : Nat) : BitVec 256 :=
  let c := s.ctx ctx
  let vs := versions id (Store.get 0 c.codes n) ((c.olds.filter fun o => o.code && o.idx == n).map fun o => (o.old.setWidth 256, o.reach))
  vs.getD (s.choice 35) (Store.get 0 c.codes n)

/-- Position of an element (R99). -/
def tdPos (d : Desc) (idx : List Int) : Int :=
  (idx.zip (List.range 6)).foldl (fun t e => t + e.1 * tdStride d e.2) 0
/-- An index vector is in bounds (R192). -/
def tdIn (d : Desc) (idx : List Int) : Bool :=
  (idx.zip (List.range 6)).all fun e => if e.2 < tdRank d then decide (0 ≤ e.1 ∧ e.1 < tdExtent d e.2) else e.1 == 0

/-! ### Reading elements -/

/-- A reader of `n` bytes at an address, or the fault met. -/
abbrev Reader := DWord → Nat → Except (Cause × DWord) Nat

/-- An engine's place for `n` bytes: its own scratchpad offset, or a VA; under a descriptor the page must agree with its layout
(R122, R189). -/
def enginePlace (s : State) (core pad ctx : Nat) (layout : Option Nat) (sp : Bool) (a : DWord) (n : Nat) (k : Access) :
    Except (Cause × DWord) Place :=
  if a.toNat % n ≠ 0 then .error (.misaligned, a)
  else if sp then
    if a.toNat + n ≤ scratchBytes then .ok (.scratch pad a.toNat) else .error (.pageProtection, a)
  else
    match locate s core ctx a k with
    | .error e => .error (e, a)
    | .ok x =>
      if !x.window && layout.any (· != x.layout) then .error (.attrAlias, BitVec.ofNat 64 (a.toNat / x.page * x.page))
      else .ok x.place

/-- An engine's read through the generic path: a bank's earlier operations come first (R16). -/
def engineRead (s : State) (core pad ctx : Nat) (layout : Option Nat) (sp : Bool) : Reader := fun a n =>
  match enginePlace s core pad ctx layout sp a n .read with
  | .error e => .error e
  | .ok p =>
    let t := s.ready_ p
    if t.poisoned p n then .error (.eccUncorrectable, a)
    else if s.unreachable core p then .error (.linkDown, a)
    else .ok (t.natAt p n)

/-- A stored element: its bits, and its block's scale code. -/
structure Elem where
  raw   : Nat
  scale : Option Nat
deriving DecidableEq, Repr

/-- The planes 7 down to 8 − k of one BPI element (R95). -/
def bpiRead (rd : Reader) (a : Int) (plane j : Nat) : Nat → Except (Cause × DWord) Nat
  | 0 => .ok 0
  | k + 1 =>
    match bpiRead rd a plane j k with
    | .error e => .error e
    | .ok v =>
      match rd (BitVec.ofInt 64 (a + (k * plane : Nat) + (j / 8 : Nat))) 1 with
      | .error e => .error e
      | .ok b => .ok (v + b / 2 ^ (j % 8) % 2 * 2 ^ (7 - k))

/-- The bits of element e (R95, R96, R99). -/
def readRaw (rd : Reader) (d : Desc) (e : Int) : Except (Cause × DWord) Nat :=
  let f := tdFmt d
  let base : Int := tdBase d
  if isBpi f then
    let b : Int := tdBlock d
    bpiRead rd (base + e / b * (tdSpl d * (tdBlock d / 8) : Nat)) (tdBlock d / 8) (e % b).toNat (f - 9)
  else if f = 18 then
    match rd (BitVec.ofInt 64 (base + e / 2)) 1 with
    | .error x => .error x
    | .ok x => .ok (if e % 2 = 0 then x % 16 else x / 16)
  else rd (BitVec.ofInt 64 (base + e * (fmtBytes f : Nat))) (fmtBytes f)

/-- The address of the first byte that element e has. -/
def elemVa (d : Desc) (e : Int) : DWord :=
  let f := tdFmt d
  let base : Int := tdBase d
  BitVec.ofInt 64 (if isBpi f then base + e / (tdBlock d : Int) * (tdSpl d * (tdBlock d / 8) : Nat) + e % (tdBlock d : Int) / 8
    else if f = 18 then base + e / 2 else base + e * (fmtBytes f : Nat))

/-- Element e with its block's scale (R97): `rd` reads elements, `rs` scales. -/
def readElem (rd rs : Reader) (d : Desc) (e : Int) : Except (Cause × DWord) Elem :=
  match readRaw rd d e with
  | .error x => .error x
  | .ok raw =>
    if tdScale d = 0 then .ok { raw, scale := none }
    else
      match rs (BitVec.ofInt 64 ((tdScale d : Int) + e / (tdBlock d : Int))) 1 with
      | .error x => .error x
      | .ok c => .ok { raw, scale := some c }

/-! ### Values (R91, R95 to R97, R105) -/

/-- The value of a stored code without its scale, and whether it is a reserved code. -/
def codeNum (f : Nat) (codes : BitVec 256) (raw : Nat) : Num × Bool :=
  if isBpi f then
    let k := f - 9
    let q := (BitVec.ofNat 8 raw).toInt / 2 ^ (8 - k)
    let n := if k = 8 then q else 2 * q + 1
    (.fin (decide (n < 0)) n.natAbs (if k = 8 then 0 else 7 - (k : Int)), false)
  else if f = 18 then (Fmt.f16.num (codes.extractLsb' (16 * raw) 16).toNat, false)
  else (srcNum f (BitVec.ofNat 32 raw), f == 9 && raw == 255)

/-- The value with its scale; code 255 of a scale makes it NaN (R105). -/
def elemNum (f : Nat) (codes : BitVec 256) (x : Elem) : Num × Bool :=
  let y := codeNum f codes x.raw
  match x.scale with
  | none => y
  | some c =>
    if c = 255 then (.nan, true)
    else (match y.1 with
      | .fin s m e => .fin s m (e + c - 127)
      | n => n, y.2)

/-- The bits of a NaN in a floating destination: of a floating source its own payload, else that of a reserved code. -/
def elemNan (f : Nat) (codes : BitVec 256) (x : Elem) (reserved : Bool) (dst : Fmt) : Nat :=
  if reserved then carryNan .f32 dst e8Nan
  else if f = 18 then carryNan .f16 dst (codes.extractLsb' (16 * x.raw) 16).toNat
  else carryNan (Fmt.ofCode f) dst x.raw

/-- The outcome of an engine conversion: the destination's bits, SAT, INV. -/
structure Conv where
  bits : Nat
  sat  : Bool
  inv  : Bool
deriving DecidableEq, Repr

/-- Round a number into a format by engine conversion (R101): RNE, .sat. -/
def convNum (dst : Nat) (n : Num) (nan : Nat) (reserved : Bool) : Conv :=
  if dst < 5 then
    let f := Fmt.ofCode dst
    match n with
    | .nan => { bits := nan, sat := false, inv := reserved }
    | .inf s => if f.inf then { bits := f.signBit s + f.top, sat := false, inv := reserved }
      else { bits := f.signBit s + f.maxFin, sat := true, inv := reserved }
    | .fin s m e =>
      let r := f.round .rne s m e true
      { bits := r.1, sat := r.2 &&& flagOVF != 0, inv := reserved }
  else
    let r := toInteger dst false .rne n
    let w := 8 * fmtBytes dst
    match n with
    | .fin .. => { bits := (BitVec.ofInt w r.1).toNat, sat := r.2 != 0, inv := reserved }
    | .inf _ => { bits := (BitVec.ofInt w r.1).toNat, sat := true, inv := true }
    | .nan => { bits := 0, sat := false, inv := true }

/-- Engine conversion of an element (R189): the same format copies its bits. -/
def convElem (src : Nat) (codes : BitVec 256) (x : Elem) (dst : Nat) : Conv :=
  if src = dst then { bits := x.raw, sat := false, inv := false }
  else
    let y := elemNum src codes x
    convNum dst y.1 (if dst < 5 then elemNan src codes x y.2 (Fmt.ofCode dst) else 0) y.2

/-! ### The tensor-table instructions -/

/-- A record of `8 m` bytes, aligned to its size, read at issue (R396, R397): the words as a number, or the fault. -/
def View.record (x : View) (a : DWord) (m align : Nat) : Except (Cause × DWord) Nat :=
  if a.toNat % align ≠ 0 then .error (.misaligned, a)
  else
    match readRecord x.s x.b.core x.b.ctx a m with
    | .error e => .error e
    | .ok r => .ok r

def latTable : Nat := 100

/-- Remember what an entry held (R109). -/
def Context.remember (c : Context) (code : Bool) (idx : Nat) (old : BitVec 512) (writer op : Nat) (tok : BitVec 3) : Context :=
  { c with olds := { code, idx, old, reach := { writer, op, tok } } :: c.olds }

/-- TDSC (R396). -/
def execTdsc (g : Guard) (xd : BitVec 8) (a : BitVec 6) (off : BitVec 29) (tok : BitVec 3) : State → Host.Outcome State Fault Refusal :=
  issue { guard := g, roles := [.copy], uniform := true, reads := kBlock a.toNat 2 }
    fun x =>
      if !x.on then { s := x.s }
      else
        let va := x.kAddr a off
        match x.record va 8 64 with
        | .error e => x.fail e.1 e.2 .read
        | .ok r =>
          let d : Desc := BitVec.ofNat 512 r
          if !descOk d then x.fail .tdescFormat va .read
          else
            let c := x.s.ctx x.b.ctx
            let c1 := c.remember false xd.toNat ((Store.find c.tensors xd.toNat).getD 0) x.id x.s.nextId tok
            { s := (x.s.setCtx x.b.ctx { c1 with tensors := Store.insert c1.tensors xd.toNat d }).addOp x tok latTable .ready [] }

/-- TCOD (R397). -/
def execTcod (g : Guard) (tbl : BitVec 4) (a : BitVec 6) (off : BitVec 29) (tok : BitVec 3) : State → Host.Outcome State Fault Refusal :=
  issue { guard := g, roles := [.copy], uniform := true, reads := kBlock a.toNat 2 }
    fun x =>
      if !x.on then { s := x.s }
      else
        match x.record (x.kAddr a off) 4 32 with
        | .error e => x.fail e.1 e.2 .read
        | .ok r =>
          let c := x.s.ctx x.b.ctx
          let c1 := c.remember true tbl.toNat ((Store.get 0 c.codes tbl.toNat).setWidth 512) x.id x.s.nextId tok
          { s := (x.s.setCtx x.b.ctx { c1 with codes := Store.put 0 c1.codes tbl.toNat (BitVec.ofNat 256 r) }).addOp x tok latTable .ready [] }

/-- TSYN (R399): it covers the writes of its bunch whose tokens the bunch has seen idle. What every bunch of the context is then
guaranteed not to see is forgotten. -/
def Context.tsyn (c : Context) (id : Nat) (all : List Nat) : Context :=
  let olds := c.olds.map fun o => if o.reach.writer = id && o.reach.idle then { o with reach := { o.reach with covered := true } } else o
  { c with olds := olds.filter fun o => !(o.reach.released && all.all o.reach.sure) }

def execTsyn (g : Guard) : State → Host.Outcome State Fault Refusal :=
  issue { guard := g, roles := allRoles, uniform := true }
    fun x =>
      if !x.on then { s := x.s } else { s := x.s.setCtx x.b.ctx ((x.s.ctx x.b.ctx).tsyn x.id (x.s.bunchesOf x.b.ctx)) }

/-- The field TQRY reads (R398): its words. -/
def tqryField (d : Option Desc) (sel : Nat) : List Word :=
  match d with
  | none => if sel = 0 then [31] else if sel = 8 ∨ sel = 9 then [0, 0] else [0]
  | some d =>
    match sel with
    | 0 => [BitVec.ofNat 32 (tdFmt d)]
    | 1 => [BitVec.ofNat 32 (tdRank d)]
    | 2 => [BitVec.ofNat 32 (tdCtab d)]
    | 3 => [BitVec.ofNat 32 (tdBlk d)]
    | 4 => [BitVec.ofNat 32 (tdBounds d)]
    | 5 => [BitVec.ofNat 32 (tdLayout d)]
    | 6 => [BitVec.ofNat 32 (tdSpl d)]
    | 7 => [BitVec.ofNat 32 (tdKdim d)]
    | 8 => wordsOf64 (BitVec.ofNat 64 (tdScale d))
    | 9 => wordsOf64 (BitVec.ofNat 64 (tdBase d))
    | _ => if sel < 24 then [BitVec.ofNat 32 (tdExtent d (sel - 16))] else [BitVec.ofInt 32 (tdStride d (sel - 24))]

/-- TQRY (R398). -/
def execTqry (g : Guard) (d : BitVec 6) (xn : BitVec 8) (sel : BitVec 8) (tok : BitVec 3) : State → Host.Outcome State Fault Refusal :=
  issue { guard := g, roles := allRoles, uniform := true, writes := kBlock d.toNat (if sel = 8 ∨ sel = 9 then 2 else 1) }
    fun x =>
      if !x.on then { s := x.s }
      else { s := x.s.addOp x tok latScratch .ready (x.b.destWrites (.k d) 0 (tqryField (x.s.descriptor x.b.ctx x.id xn.toNat) sel.toNat)) }

/-! ### TLD (R400) -/

/-- The formats TLD accepts. -/
def tldAccepts (s32 : Bool) (d : Option Desc) : Bool :=
  match d with
  | none => false
  | some d => !s32 || tdFmt d == 5 || tdFmt d == 6 || tdFmt d == 7 || tdFmt d == 8

/-- One lane of TLD: the word, and its flags. -/
def tldLane (x : View) (s32 : Bool) (d : Desc) (fill : Word) (idx : Nat → List Int) (s : State) (lane : Nat) : LaneDone (Word × FlagBits) :=
  let i := idx lane
  let e := tdPos d i
  if !tdIn d i then
    if tdBounds d = 1 then .ok s (fill, 0) else .fail .tdescBounds (BitVec.ofInt 64 e)
  else
    let rd := engineRead s x.b.core x.b.pad x.b.ctx (some (tdLayout d)) false
    -- .s32 uses no scale, and reads none
    match (if s32 then (readRaw rd d e).map fun raw => { raw, scale := none : Elem } else readElem rd rd d e) with
    | .error f => .fail f.1 f.2
    | .ok el =>
      let t := s.fillTlb x.b.core x.b.ctx (elemVa d e)
      if s32 then .ok t (repack (tdFmt d) (BitVec.ofNat 32 el.raw), 0)
      else
        let c := convElem (tdFmt d) (s.codeTable x.b.ctx x.id (tdCtab d)) el 0
        .ok t (BitVec.ofNat 32 c.bits, (if c.sat then flagOVF else 0) ||| (if c.inv then flagINV else 0))

/-- TLD: RANK index registers from B on. The block's length is known only from the descriptor. -/
def execTld (s32 : Bool) (g : Guard) (d : VK) (xn : BitVec 8) (b : VK) (fill : Word) (tok : BitVec 3) : State → Host.Outcome State Fault Refusal :=
  fun s =>
  let desc := match s.issuing with
    | some x => s.descriptor x.b.ctx x.id xn.toNat
    | none => none
  let rank := match desc with
    | some d => tdRank d
    | none => 1
  let past : Bool := match b with
    | .v _ => false
    | .k n => decide (64 < n.toNat + rank)
  issue { guard := g, roles := noMatrix, uniform := d.isK, reads := b.regs rank, writes := d.regs, ill := fun _ => past }
    (fun x =>
      if x.exec = 0 then { s := x.s }
      else
        match desc with
        | none => x.fail .tdescFormat 0
        | some t =>
          if !tldAccepts s32 desc then x.fail .tdescFormat 0
          else
            let idx (l : Nat) : List Int := (List.range 6).map fun i =>
              if i < tdRank t then (match b with
                | .v n => (x.b.vAt (n.toNat + i) l).toInt
                | .k n => (x.kAt (n.toNat + i)).toInt) else 0
            let y := overLanes .read (tldLane x s32 t fill idx) (lanesOf x.exec) x.s
            let s1 := y.1.onBunch x.id fun b => { b with fpStat := y.2.1.foldl (fun m e => m ||| e.2.2) b.fpStat }
            let far := (lanesOf x.exec).filter fun l => tdIn t (idx l)
            x.unlessHeld (x.held .generic .read 1 (fun l => elemVa t (tdPos t (idx l))) far false)
              (x.loaded d tok latLoad (s1, y.2.1.map fun e => (e.1, [e.2.1]), y.2.2))) s

end Sys2Proof.Machine
end

