-- ==== Sys2Proof/Machine/Engine.lean ====
section
/-! DEFINITION. What the copy engine, the drain path and the matrix array share: engine accesses (R122, R189), block quantisation
(R196), CRC-32C (R201), and accumulator elements (R106, R204). -/

namespace Sys2Proof.Machine

/-! ### Engine accesses -/

/-- For whom an engine works: its core, the context and the bunch. -/
structure Engine where
  core  : Nat
  /-- The scratchpad of the bunch's team. -/
  pad   : Nat := core
  ctx   : Nat
  bunch : Nat
deriving DecidableEq, Repr

/-- A fault that an engine meets. -/
abbrev Met := Cause × DWord

/-- A link or a fence point holds back an engine's access (R291, R292, R294): met as LINK_DOWN at a place that can be reached. -/
def Engine.held (g : Engine) (s : State) (sp : Bool) (p : Place) (store : Bool) : Bool :=
  !sp && !s.linksIdle && (s.heldBy g.core g.bunch p store).isSome
/-- What an engine meets is no fault but a wait. -/
def Engine.waits (g : Engine) (s : State) (e : Met) : Bool :=
  e.1 == .linkDown && !s.linksIdle && match locate s g.core g.ctx e.2 .read with
    | .ok x => !s.unreachable g.core x.place
    | .error _ => false

def Engine.rd (g : Engine) (s : State) (layout : Option Nat) (sp : Bool) : Reader := fun a n =>
  match enginePlace s g.core g.pad g.ctx layout sp a n .read with
  | .error e => .error e
  | .ok p => if g.held s sp p false then .error (.linkDown, a) else engineRead s g.core g.pad g.ctx layout sp a n

/-- Write bytes through the generic path, or to the core's scratchpad. -/
def Engine.wr (g : Engine) (s : State) (layout : Option Nat) (sp : Bool) (a : DWord) (bs : List Byte) : Except Met State :=
  match enginePlace s g.core g.pad g.ctx layout sp a bs.length .write with
  | .error e => .error e
  | .ok p =>
    if s.unreachable g.core p || g.held s sp p true then .error (.linkDown, a)
    else
      let t := (s.ready_ p).countStore g.core g.bunch p a bs.length |>.storeAt p bs g.bunch
      .ok ((if sp then t else t.fillTlb g.core g.ctx a).touch g.ctx engineKey)

/-- INV of the issuing bunch (R102, R105). -/
def Engine.invalid (g : Engine) (s : State) (inv : Bool) : State :=
  if inv then s.onBunch g.bunch fun b => { b with fpStat := b.fpStat ||| flagINV } else s

/-- Keys of the full/empty bits of the granules of `n` scratchpad bytes. -/
def granKeys (pad off n : Nat) : List Nat :=
  (List.range ((off + n - 1) / 16 + 1 - off / 16)).map fun i => 32768 * pad + off / 16 + i

/-! ### Blocks (R196) -/

/-- A magnitude in multiples of 2^-149; none for an infinity. -/
def mag149 : Num → Option Nat
  | .fin _ m e => some (m * 2 ^ (e + 149).toNat)
  | .inf _ => none
  | .nan => some 0

def Num.isNan : Num → Bool
  | .nan => true
  | _ => false

/-- The bound G of a block's format. -/
def quantTop (f : Nat) : Nat :=
  match f with
  | 3 => 448
  | 4 => 57344
  | 8 => 255
  | _ => 127

/-- The scale code of a block's values: 255 where one is NaN (R196). -/
def blockScale (f : Nat) (xs : List Num) : Nat :=
  if xs.any Num.isNan then 255
  else
    match xs.mapM mag149 with
    | none => 254
    | some ms =>
      let m := ms.foldl max 0
      if m = 0 then 0
      else ((List.range 255).find? fun e => decide (m ≤ quantTop f * 2 ^ (e + 22))).getD 254

/-- A value's code under a block scale: its bits, and SAT (R196). -/
def quantCode (f e : Nat) (x : Num) : Nat × Bool :=
  if e = 255 then (0, false)
  else
    let y := match x with
      | .fin s m k => Num.fin s m (k + 127 - e)
      | n => n
    if f = 3 ∨ f = 4 then
      let c := convNum f y 0 false
      (c.bits, c.sat)
    else
      let r := toInteger (if f = 8 then 8 else 5) false .rne y
      ((BitVec.ofInt 8 r.1).toNat, r.2 != 0)

/-! ### CRC-32C (R201) -/

def crcBit (c : Word) : Word := if c.getLsbD 0 then (c >>> 1) ^^^ 0x82F63B78 else c >>> 1
def crcByte (c : Word) (b : Byte) : Word :=
  crcBit (crcBit (crcBit (crcBit (crcBit (crcBit (crcBit (crcBit (c ^^^ b.setWidth 32))))))))
def crc32c (bs : List Byte) : Word := bs.foldl crcByte 0xFFFFFFFF ^^^ 0xFFFFFFFF

/-! ### Accumulators (R106, R204) -/

/-- The A26 format: sign, 8 exponent and 17 fraction bits. -/
def Fmt.a26 : Fmt := { ebits := 8, mbits := 17, inf := true }

/-- RoundA26RNE. -/
def roundA26 (neg : Bool) (m : Nat) (e : Int) : Nat :=
  if m = 0 then 0
  else
    let q := (ilog m : Int) + e - 17
    let n := (roundAt .rne neg m e q).1
    -- magnitude n × 2^q, with n in [2^17, 2^18]
    if n ≠ 0 ∧ (ilog n : Int) + q < -126 then Fmt.a26.signBit neg
    else (Fmt.a26.round .rne neg n q).1

/-- The sum of two A26-bound numbers, exact, then rounded. A NaN is the positive quiet one (DESIGN CHOICE: R93 and R106 give an A26 NaN
neither sign nor fraction; log entry 16); it shows in the A26 words that a team record holds alone (R272). -/
def addA26 (a : Num) (s : Num) : Nat :=
  match a, s with
  | .nan, _ => Fmt.a26.qnan
  | _, .nan => Fmt.a26.qnan
  | .inf x, .inf y => if x = y then Fmt.a26.signBit x + Fmt.a26.top else Fmt.a26.qnan
  | .inf x, _ => Fmt.a26.signBit x + Fmt.a26.top
  | _, .inf y => Fmt.a26.signBit y + Fmt.a26.top
  | .fin sa ma ea, .fin sb mb eb =>
    let e := min ea eb
    let x : Int := (ma * 2 ^ (ea - e).toNat : Nat)
    let y : Int := (mb * 2 ^ (eb - e).toNat : Nat)
    let t := (if sa then -x else x) + if sb then -y else y
    roundA26 (decide (t < 0)) t.natAbs e

/-- The exact product of an activation and a weight. -/
def Num.mul : Num → Num → Num
  | .nan, _ => .nan
  | _, .nan => .nan
  | .inf s, .inf t => .inf (s != t)
  | .inf s, .fin t m _ => if m = 0 then .nan else .inf (s != t)
  | .fin s m _, .inf t => if m = 0 then .nan else .inf (s != t)
  | .fin s m e, .fin t n f => .fin (s != t) (m * n) (e + f)

/-- The window sum of a pass. -/
def passSum (ps : List Num) : Num :=
  let pos := ps.any (· == .inf false)
  let neg := ps.any (· == .inf true)
  if ps.any Num.isNan || (pos && neg) then .nan
  else if pos then .inf false
  else if neg then .inf true
  else
    let tops := ps.filterMap fun p => match p with
      | .fin _ m e => if m = 0 then none else some ((ilog m : Int) + e)
      | _ => none
    match tops with
    | [] => .fin false 0 0
    | t :: r =>
      let top := r.foldl max t
      let w := ps.foldl (fun (a : Int) p => match p with
        | .fin s m e =>
          let v : Int := if s then -(m : Int) else m
          let k := e + 38 - top
          a + if 0 ≤ k then v * 2 ^ k.toNat else v / 2 ^ (-k).toNat
        | _ => a) 0
      .fin (decide (w < 0)) w.natAbs (top - 38)

/-- A tile addition in binary32, subnormals kept; a NaN result has a payload of the model's (log entry 16). -/
def tileAdd (a b : Word) : Word :=
  let r := (Fmt.f32.add false a.toNat b.toNat).1
  if Fmt.f32.isNan r then
    let u := Config.tileNan a b ||| 0x7F800000
    if Fmt.f32.isNan u.toNat then u else u ||| 1
  else BitVec.ofNat 32 r

/-- An A26 word with exponent 0 is a zero, whatever its fraction holds (R93). -/
def a26Flush (x : Word) : Nat := if x.toNat / 2 ^ 17 % 256 = 0 then x.toNat / 2 ^ 25 * 2 ^ 25 else x.toNat
/-- A26 as FP32: the fraction gains six zeros. -/
def a26To32 (x : Word) : Word := BitVec.ofNat 32 (a26Flush x * 64)

/-- The promotion step. -/
def Acc.promote (x : Acc) : Acc := { tile := tileAdd x.tile (a26To32 x.a26), a26 := 0, passes := 0 }
/-- One pass of an element with interval `p`. -/
def Acc.pass (x : Acc) (ps : List Num) (p : Nat) : Acc :=
  let y : Acc := { tile := x.tile, a26 := BitVec.ofNat 32 (addA26 (Fmt.a26.num (a26Flush x.a26)) (passSum ps)), passes := x.passes + 1 }
  if p ≤ y.passes then y.promote else y
/-- ACLR. -/
def Acc.zero : Acc := { tile := 0, a26 := 0, passes := 0 }

/-- The key of an accumulator element. -/
def accKey (tile row col : Nat) : Nat := 32768 * tile + 128 * row + col
/-- Forget a tile's values: they are undefined. -/
def Core.forgetTile (c : Core) (t : Nat) : Core := { c with acc := Store.keep (fun k => k / 32768 != t) c.acc }

/-- Poison of accumulator elements (R275), by key. -/
def State.accPoisoned (s : State) (core k : Nat) : Bool :=
  s.poison.any fun u => match u with
    | .acc c t r col => c == core && accKey t r col == k
    | _ => false
def State.cureAcc (s : State) (core : Nat) (p : Nat → Bool) : State :=
  if s.poison.isEmpty then s
  else { s with poison := s.poison.filter fun u => match u with
    | .acc c t r col => !(c == core && p (accKey t r col))
    | _ => true }

/-- The rows that ADRN reads become definite: undefined elements take free values, and every element is promoted (R214). -/
def State.settleRow (s : State) (core tile row : Nat) : State :=
  let c := s.core core
  let step (t : Store Acc) (col : Nat) : Store Acc :=
    let k := accKey tile row col
    Store.insert t k (match Store.find c.acc k with
      | some a => a.promote
      | none => { tile := (s.freeValue col).setWidth 32, a26 := 0, passes := 0 })
  (s.setCore core { c with acc := (List.range 128).foldl step c.acc }).usedFree 128

end Sys2Proof.Machine
end

