-- ==== Sys2Proof/Machine/CaskStore.lean ====
section
/-! DEFINITION. Casks in memory: keys and positions (R155, R156), descriptors and homes (R157 to R159), staves and gap codes (R161 to
R163), placement (R164), handles (R165), and racking (R178). Every action reads and writes them through translation (R180, R409). -/

namespace Sys2Proof.Machine

/-! ### Bits of records -/

/-- Bits lo + n − 1 : lo of a record as a number. -/
def getBits (x lo n : Nat) : Nat := x / 2 ^ lo % 2 ^ n
def putBits (x lo n v : Nat) : Nat := x / 2 ^ (lo + n) * 2 ^ (lo + n) + v % 2 ^ n * 2 ^ lo + x % 2 ^ lo

/-! ### Descriptors (R155, R157) -/

def ckKind (d : BitVec 512) : Nat := fieldOf d 510 2
def ckLevel (d : BitVec 512) : Nat := fieldOf d 504 6
def ckQbits (d : BitVec 512) : Nat := fieldOf d 499 5
def ckRbits (d : BitVec 512) : Nat := fieldOf d 494 5
def ckAbits (d : BitVec 512) : Nat := fieldOf d 489 5
def ckNcol (d : BitVec 512) : Nat := fieldOf d 485 4
def ckColType (d : BitVec 512) (i : Nat) : Nat := fieldOf d (461 + 3 * i) 3
def ckTag (d : BitVec 512) : Nat := fieldOf d 457 4
def ckSpare (d : BitVec 512) : Nat := fieldOf d 451 6
def ckFlags (d : BitVec 512) : Nat := fieldOf d 447 4
def ckPoolN (d : BitVec 512) : Nat := fieldOf d 375 20
def ckHomes (d : BitVec 512) : Nat := fieldOf d 313 6 + 1
def ckVintage (d : BitVec 512) : Nat := fieldOf d 281 32
def ckCell (d : BitVec 512) : Nat := fieldOf d 249 32
def ckOrg (d : BitVec 512) (a : Nat) : Nat := fieldOf d (217 - 32 * a) 32
def ckAxes (d : BitVec 512) : Nat :=
  match ckKind d with
  | 0 => 3 | 1 => 2 | _ => 1
def ckKeyBits (d : BitVec 512) : Nat := if ckKind d = 2 then ckRbits d + ckAbits d else ckAxes d * ckLevel d
def ckOffBits (d : BitVec 512) : Nat := ckQbits d * ckAxes d
/-- A key lies in R155's range. -/
def ckKeyOk (d : BitVec 512) (key : Nat) : Bool := decide (key < 2 ^ ckKeyBits d)

/-- Width of a column type in bytes. -/
def colBytes (t : Nat) : Nat :=
  match t with
  | 0 => 1 | 2 => 4 | 5 => 4 | _ => 2
def ckWidth (d : BitVec 512) (i : Nat) : Nat := colBytes (ckColType d i)

/-- Round up to a multiple. -/
def roundUpTo (x w : Nat) : Nat := (x + w - 1) / w * w

/-- The descriptor's own checks (R158). -/
def caskDescOk (d : BitVec 512) : Bool :=
  let k := ckKind d
  let n := ckNcol d
  (match k with
    | 0 => decide (1 ≤ ckLevel d ∧ ckLevel d ≤ 21)
    | 1 => decide (1 ≤ ckLevel d ∧ ckLevel d ≤ 32)
    | 2 => ckLevel d == 0
    | _ => false) &&
  decide (ckQbits d ≤ 16) &&
  (if k = 2 then decide (1 ≤ ckRbits d ∧ ckRbits d ≤ 16 ∧ 1 ≤ ckAbits d ∧ ckAbits d ≤ 24) else ckRbits d == 0 && ckAbits d == 0) &&
  decide (n ≤ 8) && ((List.range 8).all fun i => if i < n then decide (ckColType d i < 6) else ckColType d i == 0) &&
  (ckTag d == 15 || (decide (ckTag d < n) && decide (ckColType d (ckTag d) ≤ 2))) &&
  ckFlags d / 2 == 0 && (ckPool d).toNat % 512 == 0 && decide (1 ≤ ckPoolN d ∧ ckPoolN d ≤ 0xFFFFE) &&
  fieldOf d 371 4 == 0 && (ckHomeVa d).toNat % 32 == 0 && fieldOf d 0 153 == 0 &&
  (match Fmt.f32.num (ckCell d) with
    | .fin s m _ => !s && m != 0
    | _ => false)

/-! ### Positions (R156) -/

/-- Every `n`-th bit of a key from bit `a`. -/
def unweave (key n a : Nat) : Nat → Nat
  | 0 => 0
  | l + 1 => unweave key n a l + key / 2 ^ (n * l + a) % 2 * 2 ^ l
/-- The cell of a Morton key on an axis. -/
def ckCellOf (d : BitVec 512) (key a : Nat) : Nat := unweave key (ckAxes d) a (ckLevel d)
def ckRing (d : BitVec 512) (key : Nat) : Nat := key % 2 ^ ckRbits d
def ckAzimuth (d : BitVec 512) (key : Nat) : Nat := key / 2 ^ ckRbits d

/-- An exact integer as FP32. -/
def f32OfNat (n : Nat) : Word := BitVec.ofNat 32 (Fmt.f32.round .rne false n 0).1

/-- ORG + (cell + (o + 0.5) / 2^QBITS) × CELL, rounded once; a NaN origin gives `u` (log entry 19). -/
def axisPos (d : BitVec 512) (org cell o : Nat) (u : Word) : Word :=
  let q := ckQbits d
  match Fmt.f32.num org, Fmt.f32.num (ckCell d) with
  | .nan, _ => u
  | .fin s m e, .fin _ mc ec =>
    let t := (2 * (cell * 2 ^ q + o) + 1) * mc
    let et := ec - (q : Int) - 1
    let lo := min e et
    let x : Int := (m * 2 ^ (e - lo).toNat : Nat)
    let y : Int := (t * 2 ^ (et - lo).toNat : Nat)
    let z := (if s then -x else x) + y
    BitVec.ofNat 32 (Fmt.f32.round .rne (decide (z < 0)) z.natAbs lo).1
  | _, _ => BitVec.ofNat 32 org

/-- The three position words of an element (R156, R176). -/
def ckPosition (d : BitVec 512) (key off : Nat) (u : Nat → Word) : List Word :=
  let q := ckQbits d
  let o (a : Nat) : Nat := off / 2 ^ (q * a) % 2 ^ q
  if ckFlags d % 2 = 0 then [BitVec.ofNat 32 off, BitVec.ofNat 32 (off / 2 ^ 32), 0]
  else if ckKind d = 2 then
    [f32OfNat (ckRing d key), f32OfNat (ckAzimuth d key), axisPos d (ckOrg d 0) 0 (o 0) (u 0)]
  else
    (List.range 3).map fun a => if a < ckAxes d then axisPos d (ckOrg d a) (ckCellOf d key a) (o a) (u a) else 0

/-! ### Records through translation -/

/-- A cask as an action sees it: from where, and the descriptor as memory holds it. -/
structure Cask where
  core : Nat
  ctx  : Nat
  va   : DWord
  d    : BitVec 512
deriving DecidableEq, Repr

/-- Read a binding's descriptor afresh (R409). -/
def openCask (s : State) (core ctx : Nat) (va : DWord) : Except Met Cask :=
  (readRecord s core ctx va 8).map fun x => { core, ctx, va, d := BitVec.ofNat 512 x }

def dwords (x n : Nat) : List DWord := (List.range n).map fun i => BitVec.ofNat 64 (x / 2 ^ (64 * i))

/-- No stave. -/
def noStave : Nat := 0xFFFFF

def Cask.homeVa (c : Cask) (h : Nat) : DWord := ckHomeVa c.d + BitVec.ofNat 64 (32 * h)
def Cask.home (c : Cask) (s : State) (h : Nat) : Except Met Nat := readRecord s c.core c.ctx (c.homeVa h) 4
def Cask.setHome (c : Cask) (s : State) (h x : Nat) : Except Met State := writeWords s c.core c.ctx (c.homeVa h) (dwords x 4)

def Cask.staveVa (c : Cask) (n : Nat) : DWord := ckPool c.d + BitVec.ofNat 64 (512 * n)
def Cask.stave (c : Cask) (s : State) (n : Nat) : Except Met Nat := readRecord s c.core c.ctx (c.staveVa n) 64
def Cask.setStave (c : Cask) (s : State) (n x : Nat) : Except Met State := writeWords s c.core c.ctx (c.staveVa n) (dwords x 64)

/-- Home-entry fields (R159). -/
def hmLo (x : Nat) : Nat := getBits x 192 64
def hmCellar (x : Nat) : Nat := getBits x 184 8
def hmRow (x : Nat) : Nat := getBits x 182 2
def hmFirst (x : Nat) : Nat := getBits x 156 20
def hmPend (x : Nat) : Nat := getBits x 136 20
def hmFree (x : Nat) : Nat := getBits x 116 20
def hmLive (x : Nat) : Nat := getBits x 84 32
def hmVint (x : Nat) : Nat := getBits x 78 6

/-- Stave fields (R161). -/
def stFirstKey (x : Nat) : Nat := getBits x 192 64
def stNext (x : Nat) : Nat := getBits x 172 20
def stOvf (x : Nat) : Nat := getBits x 152 20
def stCount (x : Nat) : Nat := getBits x 145 7
def stCap (x : Nat) : Nat := getBits x 138 7
def stGapLen (x : Nat) : Nat := getBits x 124 12
def stOffStart (x : Nat) : Nat := getBits x 115 9
def stColBase (x : Nat) : Nat := getBits x 106 9
def stLive (x s : Nat) : Bool := getBits x (256 + s) 1 == 1
def stMoved (x s : Nat) : Bool := getBits x (320 + s) 1 == 1
def stPmove (x s : Nat) : Bool := getBits x (384 + s) 1 == 1
/-- The gap stream begins at byte 56. -/
def gapStart : Nat := 448

/-- Every home entry, in order. -/
def Cask.homesFrom (c : Cask) (s : State) (h : Nat) : Nat → Except Met (List Nat)
  | 0 => .ok []
  | n + 1 =>
    match c.home s h with
    | .error e => .error e
    | .ok x =>
      match c.homesFrom s (h + 1) n with
      | .error e => .error e
      | .ok r => .ok (x :: r)
def Cask.allHomes (c : Cask) (s : State) : Except Met (List Nat) := c.homesFrom s 0 (ckHomes c.d)

/-- The home table obeys R159. -/
def homesOk : List Nat → Option Nat → Bool
  | [], _ => true
  | x :: r, prev =>
    (match prev with
      | none => hmLo x == 0
      | some p => decide (p < hmLo x)) &&
    hmRow x != 3 && getBits x 176 6 == 0 && getBits x 0 72 == 0 && homesOk r (some (hmLo x))

/-- The row that a home entry names, as an estate row: its cooper unit (R15, R19). -/
def hmUnit (x : Nat) : Nat := 3 * hmCellar x + hmRow x
/-- The home of a key: the last whose LO does not exceed it. -/
def homeOf (homes : List Nat) (key : Nat) : Nat :=
  ((homes.zip (List.range homes.length)).foldl (fun h x => if hmLo x.1 ≤ key then x.2 else h) 0)
/-- The last key of a home. -/
def homeTop (d : BitVec 512) (homes : List Nat) (h : Nat) : Nat :=
  match homes[h + 1]? with
  | some x => hmLo x - 1
  | none => 2 ^ ckKeyBits d - 1

/-! ### Layout and codes (R162, R163) -/

/-- OFFSTART, COLBASE and the end of the last column. -/
structure StaveLayout where
  off  : Nat
  cols : Nat
  fin  : Nat
deriving DecidableEq, Repr

/-- The start of column i where columns begin at a base. -/
def colStart (d : BitVec 512) (base cap : Nat) : Nat → Nat
  | 0 => roundUpTo base (ckWidth d 0)
  | i + 1 => roundUpTo (colStart d base cap i + cap * ckWidth d i) (ckWidth d (i + 1))

def layoutFor (d : BitVec 512) (n g cap : Nat) : StaveLayout :=
  let off := 56 + (g + 68 * (cap - n) + 7) / 8
  let cols := off + (cap * ckOffBits d + 7) / 8
  { off, cols, fin := match ckNcol d with
      | 0 => cols
      | k + 1 => colStart d cols cap k + cap * ckWidth d k }
def fitsIn (d : BitVec 512) (n g cap : Nat) : Bool := decide ((layoutFor d n g cap).fin ≤ 512)
/-- The largest CAP up to a bound whose layout with one element fits. -/
def bigCap (d : BitVec 512) : Nat → Nat
  | 0 => 1
  | n + 1 => if fitsIn d 1 0 (n + 1) then n + 1 else bigCap d n

/-- The key that a code at a bit of the stream gives, and the bit after it. -/
def readCode (x p prev : Nat) : Nat × Nat :=
  let b (i : Nat) : Bool := getBits x (gapStart + p + i) 1 == 1
  if !b 0 then (prev, p + 1)
  else if !b 1 then (prev + getBits x (gapStart + p + 2) 4 + 1, p + 6)
  else if !b 2 then (prev + getBits x (gapStart + p + 3) 12 + 17, p + 15)
  else if !b 3 then (prev + getBits x (gapStart + p + 4) 28 + 4113, p + 32)
  else (getBits x (gapStart + p + 4) 64, p + 68)

/-- The keys of `n` further slots. -/
def readKeys (x : Nat) : Nat → Nat → Nat → List Nat
  | 0, _, _ => []
  | n + 1, p, prev =>
    let y := readCode x p prev
    y.1 :: readKeys x n y.2 y.1
def staveKeys (x : Nat) : List Nat :=
  match min (stCount x) 64 with
  | 0 => []
  | n + 1 => stFirstKey x :: readKeys x n 0 (stFirstKey x)

/-- The absolute code, and the shortest one: value and length. -/
def absCode (key : Nat) : Nat × Nat := (15 + key * 16, 68)
def shortCode (prev key : Nat) : Nat × Nat :=
  let g := key - prev
  if key < prev then absCode key
  else if g = 0 then (0, 1)
  else if g ≤ 16 then (1 + (g - 1) * 4, 6)
  else if g ≤ 4112 then (3 + (g - 17) * 8, 15)
  else if g < 4113 + 2 ^ 28 then (7 + (g - 4113) * 16, 32)
  else absCode key

/-! ### Elements -/

/-- The bit at which column i of a slot begins. -/
def colBit (d : BitVec 512) (x i slot : Nat) : Nat := 8 * (colStart d (stColBase x) (stCap x) i + ckWidth d i * slot)
def readCols (d : BitVec 512) (x slot : Nat) : List Nat :=
  (List.range (ckNcol d)).map fun i => getBits x (colBit d x i slot) (8 * ckWidth d i)
def writeCol (d : BitVec 512) (x i slot v : Nat) : Nat := putBits x (colBit d x i slot) (8 * ckWidth d i) v

/-- The elements of a stave. -/
def staveElems (d : BitVec 512) (home n chain x : Nat) : List CaskElem :=
  let keys := staveKeys x
  (keys.zip (List.range keys.length)).map fun e =>
    { home, stave := n, slot := e.2, chain, key := e.1, off := getBits x (8 * stOffStart x + ckOffBits d * e.2) (ckOffBits d)
      cols := readCols d x e.2, live := stLive x e.2, moved := stMoved x e.2, pmove := stPmove x e.2 }

/-- Put an element in the next slot: absolute code, state bits, offset and columns (R162, R163). -/
def appendElem (d : BitVec 512) (x : Nat) (key off : Nat) (cols : List Nat) (moved : Bool) (code : Nat × Nat) : Nat :=
  let n := stCount x
  let x1 := if n = 0 then putBits x 192 64 key
    else putBits (putBits x (gapStart + stGapLen x) code.2 code.1) 124 12 (stGapLen x + code.2)
  let x2 := putBits (putBits x1 (256 + n) 1 1) (320 + n) 1 (if moved then 1 else 0)
  let x3 := putBits x2 (8 * stOffStart x + ckOffBits d * n) (ckOffBits d) off
  let x4 := (cols.zip (List.range (ckNcol d))).foldl (fun t e => writeCol d t e.2 n e.1) x3
  putBits x4 145 7 (n + 1)

/-- An empty stave of a kind with a layout. -/
def emptyStave (kind vint cap : Nat) (l : StaveLayout) : Nat :=
  putBits (putBits (putBits (putBits (putBits (putBits (putBits 0 172 20 noStave) 152 20 noStave) 138 7 cap) 136 2 kind) 115 9 l.off)
    106 9 l.cols) 100 6 vint

/-! ### Chains -/

/-- Staves along a link, with their contents, from stave `n` on. -/
def Cask.follow (c : Cask) (s : State) (link : Nat → Nat) : Nat → Nat → Except Met (List (Nat × Nat))
  | 0, _ => .ok []
  | f + 1, n =>
    if ckPoolN c.d ≤ n then .ok []
    else
      match c.stave s n with
      | .error e => .error e
      | .ok x =>
        match c.follow s link f (link x) with
        | .error e => .error e
        | .ok r => .ok ((n, x) :: r)

/-- A stave with its chain position (R164). -/
structure Place3 where
  stave : Nat
  raw   : Nat
  chain : Nat
deriving DecidableEq, Repr

/-- The overflow chains of main staves. -/
def Cask.overflows (c : Cask) (s : State) : List (Nat × Nat) → Nat → Except Met (List Place3)
  | [], _ => .ok []
  | (n, x) :: r, i =>
    match c.follow s stOvf (ckPoolN c.d) (stOvf x) with
    | .error e => .error e
    | .ok os =>
      match c.overflows s r (i + 1) with
      | .error e => .error e
      | .ok rest =>
        .ok ({ stave := n, raw := x, chain := i * 2 ^ 20 } ::
          (os.zip (List.range os.length)).map (fun o => { stave := o.1.1, raw := o.1.2, chain := i * 2 ^ 20 + o.2 + 1 }) ++ rest)

/-- Main staves in key order, each followed by its overflow chain. -/
def Cask.mains (c : Cask) (s : State) (hm : Nat) : Except Met (List Place3) :=
  match c.follow s stNext (ckPoolN c.d) (hmFirst hm) with
  | .error e => .error e
  | .ok ms => c.overflows s ms 0
def Cask.pending (c : Cask) (s : State) (hm : Nat) : Except Met (List (Nat × Nat)) := c.follow s stNext (ckPoolN c.d) (hmPend hm)

def insertByKey (e : CaskElem) : List CaskElem → List CaskElem
  | [] => [e]
  | x :: r => if e.key < x.key then e :: x :: r else x :: insertByKey e r
/-- A stable sort by key. -/
def sortByKey (es : List CaskElem) : List CaskElem := es.foldl (fun t e => insertByKey e t) []

/-- The elements of a home in cask order (R164). -/
def Cask.elems (c : Cask) (s : State) (h hm : Nat) : Except Met (List CaskElem) :=
  (c.mains s hm).map fun ps => sortByKey (ps.flatMap fun p => staveElems c.d h p.stave p.chain p.raw)

/-! ### Placement (R164) -/

/-- A new element's place. -/
structure Placed where
  s     : State
  stave : Nat
  slot  : Nat
deriving DecidableEq, Repr

/-- Take the first free stave of a home for one kind, holding one element; the link that leads to it is the caller's. -/
def Cask.startStave (c : Cask) (s : State) (h hm kind : Nat) (key off : Nat) (cols : List Nat) (moved : Bool) : Except Met (Placed × Nat) :=
  let n := hmFree hm
  if ckPoolN c.d ≤ n then .error (.caskFull, BitVec.ofNat 64 key)
  else
    match c.stave s n with
    | .error e => .error e
    | .ok x =>
      let cap := bigCap c.d 64
      let y := appendElem c.d (emptyStave kind (hmVint hm) cap (layoutFor c.d 1 0 cap)) key off cols moved (absCode key)
      match c.setStave s n y with
      | .error e => .error e
      | .ok t =>
        let hm1 := putBits hm 116 20 (stNext x)
        match c.setHome t h hm1 with
        | .error e => .error e
        | .ok u => .ok ({ s := u, stave := n, slot := 0 }, hm1)

/-- Append to a stave. -/
def Cask.appendTo (c : Cask) (s : State) (n x : Nat) (key off : Nat) (cols : List Nat) (moved : Bool) : Except Met Placed :=
  (c.setStave s n (appendElem c.d x key off cols moved (absCode key))).map fun t => { s := t, stave := n, slot := stCount x }

/-- Change a count of live elements. -/
def bumpLive (hm : Nat) (f : Nat → Nat) : Nat := putBits hm 84 32 (f (hmLive hm))

/-- A .now destination (R164, R169). -/
def Cask.insertNow (c : Cask) (s : State) (homes : List Nat) (key off : Nat) (cols : List Nat) : Except Met Placed :=
  let h := homeOf homes key
  match c.home s h with
  | .error e => .error e
  | .ok hm =>
    match c.mains s hm with
    | .error e => .error e
    | .ok [] =>
      match c.startStave s h hm 0 key off cols false with
      | .error e => .error e
      | .ok (p, hm1) => (c.setHome p.s h (putBits (bumpLive hm1 (· + 1)) 156 20 p.stave)).map fun t => { p with s := t }
    | .ok (p0 :: ps) =>
      let all := p0 :: ps
      let target := (all.foldl (fun i p => if p.chain % 2 ^ 20 = 0 ∧ stFirstKey p.raw ≤ key then p.chain / 2 ^ 20 else i) 0)
      let chain := all.filter fun p => p.chain / 2 ^ 20 == target
      let placed : Except Met (Placed × Nat) :=
        match chain.find? (fun p => decide (stCount p.raw < stCap p.raw)) with
        | some p => (c.appendTo s p.stave p.raw key off cols false).map fun q => (q, hm)
        | none =>
          match c.startStave s h hm 1 key off cols false with
          | .error e => .error e
          | .ok (q, hm1) =>
            match chain.getLast? with
            | none => .ok (q, hm1)
            | some l => (c.setStave q.s l.stave (putBits l.raw 152 20 q.stave)).map fun t => ({ q with s := t }, hm1)
      match placed with
      | .error e => .error e
      | .ok (q, hm1) => (c.setHome q.s h (bumpLive hm1 (· + 1))).map fun t => { q with s := t }

/-- A .next entry (R164, R169). -/
def Cask.insertNext (c : Cask) (s : State) (homes : List Nat) (key off : Nat) (cols : List Nat) (moved : Bool) : Except Met Placed :=
  let h := homeOf homes key
  match c.home s h with
  | .error e => .error e
  | .ok hm =>
    match c.pending s hm with
    | .error e => .error e
    | .ok ps =>
      match ps.getLast? with
      | none =>
        match c.startStave s h hm 2 key off cols moved with
        | .error e => .error e
        | .ok (p, hm1) => (c.setHome p.s h (putBits hm1 136 20 p.stave)).map fun t => { p with s := t }
      | some (n, x) =>
        if stCount x < stCap x then c.appendTo s n x key off cols moved
        else
          match c.startStave s h hm 2 key off cols moved with
          | .error e => .error e
          | .ok (p, _) => (c.setStave p.s n (putBits x 172 20 p.stave)).map fun t => { p with s := t }

/-! ### Handles (R165) -/

def handleOf (hm stave slot : Nat) : Word := BitVec.ofNat 32 (slot * 2 ^ 26 + stave * 2 ^ 6 + hmVint hm)
def hdSlot (w : Word) : Nat := (bits w 26 6).toNat
def hdStave (w : Word) : Nat := (bits w 6 20).toNat
def hdVint (w : Word) : Nat := (bits w 0 6).toNat

/-- A home owns a stave: it stands in one of its chains. -/
def Cask.owns (c : Cask) (s : State) (hm n : Nat) : Except Met Bool :=
  match c.mains s hm with
  | .error e => .error e
  | .ok ms =>
    if ms.any fun p => p.stave == n then .ok true
    else (c.pending s hm).map fun ps => ps.any fun p => p.1 == n

/-- The home that owns a stave in use. -/
def Cask.ownerFrom (c : Cask) (s : State) (n : Nat) : List Nat → Nat → Except Met (Option Nat)
  | [], _ => .ok none
  | hm :: r, h =>
    match c.owns s hm n with
    | .error e => .error e
    | .ok true => .ok (some h)
    | .ok false => c.ownerFrom s n r (h + 1)

/-- The element a handle names: its home, the entry and the stave; a stale handle faults. -/
structure Named where
  h    : Nat
  hm   : Nat
  raw  : Nat
  elem : CaskElem
deriving DecidableEq, Repr

def Cask.byHandle (c : Cask) (s : State) (homes : List Nat) (w : Word) : Except Met Named :=
  let stale : Except Met Named := .error (.caskStale, w.setWidth 64)
  let n := hdStave w
  if ckPoolN c.d ≤ n then stale
  else
    match c.ownerFrom s n homes 0 with
    | .error e => .error e
    | .ok none => stale
    | .ok (some h) =>
      let hm := homes.getD h 0
      if hdVint w ≠ hmVint hm then stale
      else
        match c.stave s n with
        | .error e => .error e
        | .ok x =>
          match (staveElems c.d h n 0 x)[hdSlot w]? with
          | none => stale
          | some e => .ok { h, hm, raw := x, elem := e }

/-- Remove an element (R170): its LIVE and PMOVE bits, and the count. -/
def Cask.remove (c : Cask) (s : State) (h stave slot : Nat) : Except Met State :=
  match c.stave s stave with
  | .error e => .error e
  | .ok x =>
    match c.setStave s stave (putBits (putBits x (256 + slot) 1 0) (384 + slot) 1 0) with
    | .error e => .error e
    | .ok t =>
      match c.home t h with
      | .error e => .error e
      | .ok hm => c.setHome t h (bumpLive hm (· - 1))

/-! ### Links of pending moves (R170, R178, R409) -/

def Cask.hidden (c : Cask) (s : State) (h : Nat) : CaskHidden := s.caskHidden c.ctx (ckPool c.d).toNat h
/-- The pending copy of an element, among the homes. -/
def Cask.copyOf (c : Cask) (s : State) (stave slot : Nat) : Option (Nat × Nat) :=
  (List.range (ckHomes c.d)).findSome? fun h =>
    ((c.hidden s h).links.find? fun l => l.2 == (stave, slot)).map (·.1)

/-! ### Racking (R178) -/

/-- A new stave: its elements, gap bits and capacity. -/
structure Pack where
  elems : List CaskElem
  gaps  : Nat
  cap   : Nat
deriving DecidableEq, Repr

/-- Extend a stave by the elements that still fit. -/
def packMore (d : BitVec 512) : List CaskElem → List CaskElem → Nat → Nat → List CaskElem × Nat × List CaskElem
  | acc, [], _, g => (acc, g, [])
  | acc, e :: r, prev, g =>
    let n := acc.length + 1
    let g1 := g + (shortCode prev e.key).2
    if n ≤ 64 - ckSpare d ∧ fitsIn d n g1 (n + ckSpare d) then packMore d (acc ++ [e]) r e.key g1 else (acc, g, e :: r)

/-- Pack a list greedily; the fuel is its length. -/
def packAll (d : BitVec 512) : Nat → List CaskElem → List Pack
  | 0, _ => []
  | _, [] => []
  | f + 1, e :: r =>
    if fitsIn d 1 0 (1 + ckSpare d) then
      let y := packMore d [e] r e.key 0
      { elems := y.1, gaps := y.2.1, cap := y.1.length + ckSpare d } :: packAll d f y.2.2
    else { elems := [e], gaps := 0, cap := bigCap d (1 + ckSpare d) } :: packAll d f r

/-- The old stave that each new one reuses, if one is emptied by then: none, it comes from FREE. -/
def reuse : List Pack → List Nat → List (Option Nat)
  | [], _ => []
  | _ :: r, old =>
    let left := r.flatMap (·.elems)
    match old.find? (fun n => !left.any fun e => e.stave == n) with
    | some n => some n :: reuse r (old.filter (· != n))
    | none => none :: reuse r old

/-- Give the staves from FREE to the packs that need one. -/
def assign : List (Option Nat) → List Nat → List Nat
  | [], _ => []
  | some n :: r, fs => n :: assign r fs
  | none :: r, f :: fs => f :: assign r fs
  | none :: r, [] => noStave :: assign r []

/-- A racked stave. -/
def packedStave (d : BitVec 512) (p : Pack) (next vint : Nat) : Nat :=
  let base := putBits (emptyStave 0 vint p.cap (layoutFor d p.elems.length p.gaps p.cap)) 172 20 next
  (p.elems.foldl (fun (t : Nat × Nat) e =>
    (appendElem d t.1 e.key e.off e.cols e.moved (shortCode t.2 e.key), e.key)) (base, 0)).1

/-- Write staves linked one to the next, the last to `last`. -/
def Cask.writeChain (c : Cask) (f : Nat → Nat → Nat) (last : Nat) : List Nat → Nat → State → Except Met State
  | [], _, s => .ok s
  | n :: r, i, s =>
    match c.setStave s n (f i (r.headD last)) with
    | .error e => .error e
    | .ok t => c.writeChain f last r (i + 1) t

/-- What a home will do when it racks: none where it lacks free staves. -/
structure RackPlan where
  packs : List Pack
  new   : List Nat
  /-- Old staves left over, in chain order. -/
  left  : List Nat
  /-- The free list after the staves taken from it. -/
  free  : Nat
  count : Nat
deriving DecidableEq, Repr

/-- A pending entry is still wanted: a cancelled move is not (R170). -/
def Cask.wanted (c : Cask) (s : State) (h : Nat) (e : CaskElem) : Bool :=
  e.live && match (c.hidden s h).links.find? (fun l => l.1 == (e.stave, e.slot)) with
    | none => true
    | some l => match c.stave s l.2.1 with
      | .ok x => stPmove x l.2.2
      | .error _ => true

def Cask.plan (c : Cask) (s : State) (h hm : Nat) : Except Met (Option RackPlan) :=
  match c.mains s hm with
  | .error e => .error e
  | .ok ms =>
    match c.pending s hm with
    | .error e => .error e
    | .ok ps =>
      let kept := sortByKey ((ms.flatMap fun p => staveElems c.d h p.stave p.chain p.raw).filter fun e => e.live && !e.pmove)
      let pend := (ps.flatMap fun p => staveElems c.d h p.1 0 p.2).filter (c.wanted s h)
      let l := sortByKey (kept.map (fun e => { e with moved := false }) ++ pend)
      let packs := packAll c.d l.length l
      let old := ms.map (·.stave) ++ ps.map (·.1)
      let use := reuse packs old
      let need := (use.filter (·.isNone)).length
      match c.follow s stNext need (hmFree hm) with
      | .error e => .error e
      | .ok fs =>
        if fs.length < need then .ok none
        else
          let new := assign use (fs.map (·.1))
          .ok (some { packs, new, left := old.filter (fun n => !new.contains n), count := l.length
                      free := match fs.getLast? with
                        | some f => stNext f.2
                        | none => hmFree hm })

/-- Plans of every home; none where one lacks staves. -/
def Cask.plans (c : Cask) (s : State) : List Nat → Nat → Except Met (Option (List RackPlan))
  | [], _ => .ok (some [])
  | hm :: r, h =>
    match c.plan s h hm with
    | .error e => .error e
    | .ok none => .ok none
    | .ok (some p) =>
      match c.plans s r (h + 1) with
      | .error e => .error e
      | .ok none => .ok none
      | .ok (some ps) => .ok (some (p :: ps))

/-- Carry out a home's plan. -/
def Cask.rackHome (c : Cask) (s : State) (h hm : Nat) (p : RackPlan) : Except Met State :=
  let vint := (hmVint hm + 1) % 64
  match c.writeChain (fun i next => packedStave c.d (p.packs.getD i { elems := [], gaps := 0, cap := 1 }) next vint) noStave p.new 0 s with
  | .error e => .error e
  | .ok s1 =>
    match c.writeChain (fun _ next => putBits (putBits 0 172 20 next) 136 2 3) p.free p.left 0 s1 with
    | .error e => .error e
    | .ok s2 =>
      let hm1 := putBits (putBits (putBits hm 156 20 (p.new.headD noStave)) 136 20 noStave) 116 20 (p.left.headD p.free)
      let hm2 := putBits (putBits hm1 84 32 p.count) 78 6 vint
      (c.setHome s2 h hm2).map fun t => t.setHidden { c.hidden t h with links := [] }

def Cask.rackAll (c : Cask) : List (Nat × RackPlan) → Nat → State → Except Met State
  | [], _, s => .ok s
  | (hm, p) :: r, h, s =>
    match c.rackHome s h hm p with
    | .error e => .error e
    | .ok t => c.rackAll r (h + 1) t

/-- VINTAGE, in bits 312:281 of the descriptor. -/
def Cask.setVintage (c : Cask) (s : State) : Except Met State :=
  let w := fieldOf c.d 256 64
  (writeVa s c.core c.ctx (c.va + 32) (leBytes (putBits w 25 32 (ckVintage c.d + 1)) 8)).mapError fun e => (e, c.va + 32)

/-- Another CKRAK of the cask is in progress: one whose token is busy counts, unless choice 40 says that it has ended (R178). -/
def Cask.racking (c : Cask) (s : State) : Bool :=
  s.choice 40 == 0 && s.bunches.any fun b => b.2.ctx == c.ctx && b.2.ops.any fun o => o.rack == some c.va

/-- CKRAK's action: its status (R167, R178). -/
def Cask.rack (c : Cask) (s : State) : Except Met (State × Word) :=
  match c.allHomes s with
  | .error e => .error e
  | .ok homes =>
    if c.racking s || (List.range homes.length).any fun h => (c.hidden s h).opens != 0 then .ok (s, 0xFFFFFFF1)
    else
      match c.plans s homes 0 with
      | .error e => .error e
      | .ok none => .ok (s, 0xFFFFFFF5)
      | .ok (some ps) =>
        match c.rackAll (homes.zip ps) 0 s with
        | .error e => .error e
        | .ok t => (c.setVintage t).map fun u => (u, 0xFFFFFFF0)

end Sys2Proof.Machine
end

