-- ==== Sys2Proof/Machine/Casks.lean ====
section
/-! DEFINITION. The cask instructions (R166 to R178, R328, R329), DPST (R345, R346), and Take (R34, R179). -/

namespace Sys2Proof.Machine

def latCask : Nat := 200

/-! ### Bindings (R166, R168, R181) -/

/-- A slot's binding as an instruction of a bunch sees it: one of the versions that R181 allows it, as choice 38 says (log entry 2). -/
def State.caskSlot (s : State) (ctx id slot : Nat) : Option CaskBind :=
  let c := s.ctx ctx
  let vs := versions id (Store.find c.casks slot) ((c.oldCasks.filter fun o => o.slot == slot).map fun o => (o.old, o.reach))
  vs.getD (s.choice 38) (Store.find c.casks slot)

/-- Change a slot's binding, remembering the old one; what every bunch of the context is guaranteed not to see is forgotten. -/
def View.rebind (x : View) (slot : Nat) (new : Option CaskBind) (tok : BitVec 3) : State :=
  let c := x.s.ctx x.b.ctx
  let all := x.s.bunchesOf x.b.ctx
  let old : OldBind := { slot, old := Store.find c.casks slot, reach := { writer := x.id, op := x.s.nextId, tok } }
  x.s.setCtx x.b.ctx { c with
    casks := match new with
      | some b => Store.insert c.casks slot b
      | none => Store.erase c.casks slot
    oldCasks := old :: c.oldCasks.filter fun o => !(o.reach.released && all.all o.reach.sure) }

def View.slot (x : View) (slot : BitVec 4) : Option CaskBind := x.s.caskSlot x.b.ctx x.id slot.toNat
def View.open (x : View) (s : State) (b : CaskBind) : Except Met Cask := openCask s x.b.core x.b.ctx b.va

/-- CASK_STALE of an unbound slot, in the executing lanes: FLT_ADDR is the lane's handle (R252), or 0 where the instruction has none
(DESIGN CHOICE: the spec names no other value; log entry 33). -/
def View.unbound (x : View) (handle : Nat → Word := fun _ => 0) : Result :=
  faulted x.s ((lanesOf x.exec).map fun l => { lane := l, cause := .caskStale, addr := (handle l).setWidth 64, kind := .engine })

/-- The binding that the issuing split would see: the sizes of register blocks depend on it. -/
def State.slotNow (s : State) (slot : BitVec 4) : Option CaskBind :=
  match s.issuing with
  | some x => x.slot slot
  | none => none
def ncolOf (b : Option CaskBind) : Nat :=
  match b with
  | some c => ckNcol c.desc
  | none => 0

/-- The columns of a map, ascending (R172). -/
def mapCols (m : BitVec 8) : List Nat := (List.range 8).filter fun i => m.getLsbD i
/-- A set bit at or above NCOL. -/
def mapBad (b : Option CaskBind) (m : BitVec 8) : Bool := b.isSome && (mapCols m).any fun i => decide (ncolOf b ≤ i)

/-! ### Statuses (R167) -/

def ckOk : Word := 0xFFFFFFF0
def ckAbsent : Word := 0xFFFFFFF2
def ckPending : Word := 0xFFFFFFF3
def ckRange : Word := 0xFFFFFFF4

/-- A uniform cask instruction. -/
def caskOp (g : Guard) (reads writes : List Reg) (ill : View → Bool) (f : View → Result) : State → Host.Outcome State Fault Refusal :=
  issue { guard := g, roles := vecCopy, uniform := true, reads, writes, ill } fun x => if !x.on then { s := x.s } else f x

/-- A cask operation with its result. -/
def View.caskDone (x : View) (s : State) (tok : BitVec 3) (ws : List RegWrite) : Result := { s := s.addOp x tok latCask .ready ws }

def execCkopn (g : Guard) (c : BitVec 4) (a : BitVec 6) (off : BitVec 29) (tok : BitVec 3) : State → Host.Outcome State Fault Refusal :=
  caskOp g (kBlock a.toNat 2) [] (fun _ => false) fun x =>
    let va := x.kAddr a off
    if va.toNat % 64 ≠ 0 then x.fail .misaligned va .engine
    else
      match openCask x.s x.b.core x.b.ctx va with
      | .error e => x.fail e.1 e.2 .engine
      | .ok k =>
        if !caskDescOk k.d then x.fail .tdescFormat va .engine
        else
          match k.allHomes x.s with
          | .error e => x.fail e.1 e.2 .engine
          | .ok hs =>
            if !homesOk hs none then x.fail .tdescFormat va .engine
            else x.caskDone (x.rebind c.toNat (some { va, desc := k.d }) tok) tok []

def execCkcls (g : Guard) (c : BitVec 4) (tok : BitVec 3) : State → Host.Outcome State Fault Refusal :=
  caskOp g [] [] (fun _ => false) fun x => x.caskDone (x.rebind c.toNat none tok) tok []

/-- CKRAK (R178): in progress while its token is busy. -/
def execCkrak (g : Guard) (d : BitVec 6) (c : BitVec 4) (tok : BitVec 3) : State → Host.Outcome State Fault Refusal :=
  caskOp g [] [.k d.toNat] (fun _ => false) fun x =>
    match x.slot c with
    | none => x.unbound
    | some b =>
      match (x.open x.s b).bind fun k => k.rack x.s with
      | .error e => x.fail e.1 e.2 .engine
      | .ok (s, w) =>
        let t := s.addOp x tok latCask .ready [x.kWrite d.toNat w]
        { s := if w = 0xFFFFFFF0 then t.onBunch x.id fun q =>
            { q with ops := q.ops.map fun o => if o.id == s.nextId then { o with rack := some b.va } else o }
          else t }

/-! ### Per-lane actions (R169 to R172) -/

/-- What a lane's action leaves: the state, the words for D on, the homes it inserted into, and the units that inserted or
removed, once for each. -/
structure CaskDone where
  s     : State
  words : List Word
  into  : List (Nat × Nat) := []
  acts  : List Nat := []
deriving DecidableEq, Repr

/-- A cooper unit executes one insert or remove a clock (R19): those of an instruction occupy it for as many clocks. -/
def State.occupy (s : State) (units : List Nat) : State :=
  { s with cooperTo := units.foldl (fun t u => Store.insert t u (max (Store.get 0 t u) s.now + 1)) s.cooperTo }
/-- A unit that has inserts or removes of earlier instructions to execute. -/
def State.unitBusy (s : State) (units : List Nat) : Option Nat := units.find? fun u => decide (s.now < Store.get 0 s.cooperTo u)

/-- Lanes act in ascending order (R164); a lane that faults has no effect (R180, R255), and KIND is engine, as of every access of a
cooper unit (DESIGN CHOICE: the spec gives none; log entry 39). The instruction issues again where a unit is occupied (R19). -/
def View.perLane (x : View) (lanes : Mask) (d : BitVec 8) (tok : BitVec 3) (drop : Bool) (f : State → Nat → Except Met CaskDone) : Result :=
  let step (s : State) (l : Nat) : LaneDone CaskDone :=
    match f s l with
    | .ok y => .ok y.s y
    | .error e => .fail e.1 e.2
  let y := overLanes .engine step (lanesOf lanes) x.s
  let ws := y.2.1.flatMap fun e => (x.b.destWrites (.v d) e.1 e.2.words).map fun w => { w with drop := drop }
  let acts := y.2.1.flatMap fun e => e.2.acts
  let into := y.2.1.flatMap fun e => e.2.into
  match x.s.unitBusy acts with
  | some u => { s := x.s, flow := .wait (.cooper u) false }
  | none =>
    let s0 := y.1.occupy acts
    if y.2.1.isEmpty then { s := s0, faults := y.2.2 }
    else
      let id := s0.nextId
      let s1 := (s0.addOp x tok latCask .ready ws).onBunch x.id fun b =>
        { b with ops := b.ops.map fun o => if o.id == id then { o with into := into } else o }
      { s := s1, faults := y.2.2 }

/-- A per-lane instruction on a slot; `handle` names the register that leads with a handle. A handle whose stave no pool of the
binding has is stale before any access of the unit (R328). -/
def View.laneCask (x : View) (slot : BitVec 4) (lanes : Mask) (d : BitVec 8) (tok : BitVec 3) (handle : Option (BitVec 8))
    (f : Cask → List Nat → State → Nat → Except Met CaskDone) : Result :=
  let hd (l : Nat) : Word := match handle with
    | some r => x.b.vAt r.toNat l
    | none => 0
  if x.exec = 0 then { s := x.s }
  else
    match x.slot slot with
    | none => x.unbound hd
    | some b => x.perLane lanes d tok false fun s l =>
        if handle.isSome && decide (ckPoolN b.desc ≤ hdStave (hd l)) then .error (.caskStale, (hd l).setWidth 64)
        else (x.open s b).bind fun c => (c.allHomes s).bind fun hs => f c hs s l

/-- CKINS.now of one element. -/
def Cask.addNow (c : Cask) (s : State) (homes : List Nat) (key off : Nat) (cols : List Nat) : Except Met CaskDone :=
  if !ckKeyOk c.d key then .ok { s, words := [ckRange] }
  else
    let h := homes.getD (homeOf homes key) 0
    (c.insertNow s homes key off cols).map fun p =>
      { s := p.s, words := [handleOf h p.stave p.slot], into := [((ckPool c.d).toNat, homeOf homes key)], acts := [hmUnit h] }

/-- Column values from registers, and an offset, each from its low bits. -/
def View.colsFrom (x : View) (v l n : Nat) : List Nat := (List.range n).map fun i => (x.b.vAt (v + i) l).toNat

def execCkins (now : Bool) (g : Guard) (d : BitVec 8) (c : BitVec 4) (b : BitVec 8) (tok : BitVec 3) :
    State → Host.Outcome State Fault Refusal := fun s =>
  let n := ncolOf (s.slotNow c)
  issue { guard := g, roles := vecCopy, reads := vBlock b.toNat (4 + n), writes := [.v d.toNat] } (fun x =>
    x.laneCask c (x.actors false) d tok none fun k hs t l =>
      let key := (x.vPair b.toNat l).toNat
      let off := (x.vPair (b.toNat + 2) l).toNat
      let cols := x.colsFrom (b.toNat + 4) l n
      if now then k.addNow t hs key off cols
      else if !ckKeyOk k.d key then .ok { s := t, words := [ckRange] }
      else (k.insertNext t hs key off cols false).map fun p => { s := p.s, words := [ckOk], acts := [hmUnit (hs.getD (homeOf hs key) 0)] }) s

def execCkrem (g : Guard) (d : BitVec 8) (c : BitVec 4) (b : BitVec 8) (tok : BitVec 3) : State → Host.Outcome State Fault Refusal :=
  issue { guard := g, roles := vecCopy, reads := [.v b.toNat], writes := [.v d.toNat] } fun x =>
    x.laneCask c (x.actors false) d tok (some b) fun k hs t l =>
      match k.byHandle t hs (x.b.vAt b.toNat l) with
      | .error e => .error e
      | .ok n =>
        if !n.elem.live then .ok { s := t, words := [ckAbsent] }
        else (k.remove t n.h n.elem.stave n.elem.slot).map fun u => { s := u, words := [ckOk], acts := [hmUnit n.hm] }

/-- CKMOV of one element (R171). -/
def Cask.move (c : Cask) (s : State) (homes : List Nat) (now : Bool) (w : Word) (key off : Nat) : Except Met CaskDone :=
  match c.byHandle s homes w with
  | .error e => .error e
  | .ok n =>
    if !n.elem.live then .ok { s, words := [ckAbsent] }
    else if !ckKeyOk c.d key then .ok { s, words := [ckRange] }
    else if now then
      match c.insertNow s homes key off n.elem.cols with
      | .error e => .error e
      | .ok p =>
        (c.remove p.s n.h n.elem.stave n.elem.slot).map fun t =>
          { s := t, words := [handleOf (homes.getD (homeOf homes key) 0) p.stave p.slot]
            acts := [hmUnit (homes.getD (homeOf homes key) 0), hmUnit n.hm] }
    else if n.elem.pmove then .ok { s, words := [ckPending] }
    else
      match c.insertNext s homes key off n.elem.cols true with
      | .error e => .error e
      | .ok p =>
        match c.stave p.s n.elem.stave with
        | .error e => .error e
        | .ok x =>
          (c.setStave p.s n.elem.stave (putBits x (384 + n.elem.slot) 1 1)).map fun t =>
            let h := c.hidden t (homeOf homes key)
            { s := t.setHidden { h with links := ((p.stave, p.slot), (n.elem.stave, n.elem.slot)) :: h.links }, words := [ckOk]
              acts := [hmUnit (homes.getD (homeOf homes key) 0)] }

def execCkmov (now : Bool) (g : Guard) (d : BitVec 8) (c : BitVec 4) (b : BitVec 8) (tok : BitVec 3) :
    State → Host.Outcome State Fault Refusal :=
  issue { guard := g, roles := vecCopy, reads := .v b.toNat :: vBlock (b.toNat + 2) 4, writes := [.v d.toNat] } fun x =>
    x.laneCask c (x.actors false) d tok (some b) fun k hs t l =>
      k.move t hs now (x.b.vAt b.toNat l) (x.vPair (b.toNat + 2) l).toNat (x.vPair (b.toNat + 4) l).toNat

def execCkpay (g : Guard) (d : BitVec 8) (c : BitVec 4) (b : BitVec 8) (map : BitVec 8) (tok : BitVec 3) :
    State → Host.Outcome State Fault Refusal := fun s =>
  let bind := s.slotNow c
  issue { guard := g, roles := vecCopy, reads := [.v b.toNat], writes := vBlock d.toNat (mapCols map).length, ill := fun _ => mapBad bind map } (fun x =>
    x.laneCask c x.exec d tok (some b) fun k hs t l =>
      (k.byHandle t hs (x.b.vAt b.toNat l)).map fun n =>
        { s := t, words := (mapCols map).map fun i => BitVec.ofNat 32 (n.elem.cols.getD i 0) }) s

/-- Write columns of a slot, and of its pending copy (R172). -/
def Cask.putCols (c : Cask) (s : State) (stave slot : Nat) (vals : List (Nat × Nat)) : Except Met State :=
  match c.stave s stave with
  | .error e => .error e
  | .ok x => c.setStave s stave (vals.foldl (fun t v => writeCol c.d t v.1 slot v.2) x)

def execCkwr (g : Guard) (d : BitVec 8) (c : BitVec 4) (b : BitVec 8) (map : BitVec 8) (tok : BitVec 3) :
    State → Host.Outcome State Fault Refusal := fun s =>
  let bind := s.slotNow c
  let cols := mapCols map
  issue { guard := g, roles := vecCopy, reads := vBlock b.toNat (1 + cols.length), writes := [.v d.toNat], ill := fun _ => mapBad bind map } (fun x =>
    x.laneCask c (x.actors false) d tok (some b) fun k hs t l =>
      match k.byHandle t hs (x.b.vAt b.toNat l) with
      | .error e => .error e
      | .ok n =>
        let vals := cols.zip (x.colsFrom (b.toNat + 1) l cols.length)
        match k.putCols t n.elem.stave n.elem.slot vals with
        | .error e => .error e
        | .ok u =>
          match (if n.elem.pmove then k.copyOf u n.elem.stave n.elem.slot else none) with
          | none => .ok { s := u, words := [ckOk] }
          | some p => (k.putCols u p.1 p.2 vals).map fun v => { s := v, words := [ckOk] }) s

/-! ### Iteration (R174 to R177) -/

/-- A key lies in a cursor's bounds. -/
def CurMode.holds (m : CurMode) (d : BitVec 512) (key : Nat) : Bool :=
  match m with
  | .range lo hi => decide (lo ≤ key ∧ key ≤ hi)
  | .voxel lo hi _ => decide (lo ≤ key ∧ key ≤ hi)
  | .box lo hi => (List.range (ckAxes d)).all fun a =>
      decide (lo.getD a 0 ≤ ckCellOf d key a ∧ ckCellOf d key a ≤ hi.getD a 0)
  | .scan r0 r1 a0 a1 =>
    let r := ckRing d key
    let a := ckAzimuth d key
    decide (r0 ≤ r ∧ r ≤ r1) && (if a0 ≤ a1 then decide (a0 ≤ a ∧ a ≤ a1) else decide (a0 ≤ a ∨ a ≤ a1))

/-- 1 in the part of a wrapped scan that comes second (R174). -/
def CurMode.phase (m : CurMode) (d : BitVec 512) (key : Nat) : Nat :=
  match m with
  | .scan _ _ a0 a1 => if a1 < a0 ∧ ckAzimuth d key < a0 then 1 else 0
  | _ => 0

/-- Bounds that hold nothing: such a cursor reaches no home. -/
def CurMode.empty (m : CurMode) (d : BitVec 512) : Bool :=
  match m with
  | .range lo hi => decide (hi < lo)
  | .voxel lo hi _ => decide (hi < lo)
  | .box lo hi => (List.range (ckAxes d)).any fun a => decide (hi.getD a 0 < lo.getD a 0)
  | .scan r0 r1 _ _ => decide (r1 < r0)

/-- A cube of cells of level `l` below a prefix holds a cell of a box whose key lies in [a, b]. -/
def boxMeets (axes : Nat) (lo hi : List Nat) (a b : Nat) : Nat → Nat → Bool
  | 0, pre =>
    decide (a ≤ pre ∧ pre ≤ b)
  | l + 1, pre =>
    (List.range (2 ^ axes)).any fun i =>
      let p := pre * 2 ^ axes + i
      let size := 2 ^ (axes * l)
      decide (a < (p + 1) * size ∧ p * size ≤ b) &&
      ((List.range axes).all fun ax =>
        let cell := unweave p axes ax 32 * 2 ^ l
        decide (lo.getD ax 0 < cell + 2 ^ l ∧ cell ≤ hi.getD ax 0)) &&
      boxMeets axes lo hi a b l p

/-- Some azimuth of [x, y] has a ring of [r0, r1] whose key lies in [a, b]. -/
def scanMeets (rb r0 r1 x y a b : Nat) : Bool :=
  let first := max x ((a - r1 + 2 ^ rb - 1) / 2 ^ rb)
  decide (r0 ≤ b) && decide (first ≤ min y ((b - r0) / 2 ^ rb))

/-- A home whose keys are [a, b] may hold a key of the bounds (R175). -/
def CurMode.meets (m : CurMode) (d : BitVec 512) (a b : Nat) : Bool :=
  !m.empty d &&
  match m with
  | .range lo hi => decide (lo ≤ b ∧ a ≤ hi)
  | .voxel lo hi _ => decide (lo ≤ b ∧ a ≤ hi)
  | .box lo hi => boxMeets (ckAxes d) lo hi a b (ckLevel d) 0
  | .scan r0 r1 a0 a1 =>
    let top := 2 ^ ckAbits d - 1
    let r1' := min r1 (2 ^ ckRbits d - 1)
    decide (r0 ≤ r1') &&
    (if a0 ≤ a1 then scanMeets (ckRbits d) r0 r1' a0 (min a1 top) a b
      else scanMeets (ckRbits d) r0 r1' a0 top a b || scanMeets (ckRbits d) r0 r1' 0 (min a1 top) a b)

/-- The mode and bounds that CKITR gives; none: close. -/
def View.curMode (x : View) : ItrMode → Option (BitVec 4 × CurMode)
  | .range c b => some (c, .range (x.kPair b.toNat).toNat (x.kPair (b.toNat + 2)).toNat)
  | .box c b =>
    let k (i : Nat) : Nat := (x.kAt (b.toNat + i)).toNat
    some (c, .box [k 0, k 1, k 2] [k 3, k 4, k 5])
  | .voxel c b p => some (c, .voxel (x.kPair b.toNat).toNat (x.kPair (b.toNat + 2)).toNat p.toNat)
  | .scan c b =>
    let k (i : Nat) : Nat := (x.kAt (b.toNat + i)).toNat
    some (c, .scan (k 0) (k 1) (k 2) (k 3))
  | .close => none

/-- The k registers that give bounds. -/
def itrReads : ItrMode → List Reg
  | .range _ b => kBlock b.toNat 4
  | .box _ b => kBlock b.toNat 6
  | .voxel _ b _ => kBlock b.toNat 4
  | .scan _ b => kBlock b.toNat 4
  | .close => []
def itrSlot : ItrMode → Option (BitVec 4)
  | .range c _ => some c
  | .box c _ => some c
  | .voxel c _ _ => some c
  | .scan c _ => some c
  | .close => none

/-- Modes that a cask's kind refuses (R174). -/
def itrBad (m : ItrMode) (b : Option CaskBind) : Bool :=
  match b with
  | none => false
  | some c =>
    match m with
    | .box .. => ckKind c.desc == 2
    | .scan .. => ckKind c.desc != 2
    | .voxel _ _ p => decide (ckLevel c.desc < p.toNat)
    | _ => false

/-- The homes of a cask that a mode's bounds meet. -/
def reached (d : BitVec 512) (homes : List Nat) (m : CurMode) : List Nat :=
  (List.range homes.length).filter fun h => m.meets d (hmLo (homes.getD h 0)) (homeTop d homes h)

/-- An element comes after a cursor's position: in phase, key, run rank. -/
def Cursor.after (c : Cursor) (e : CaskElem) : Bool :=
  match c.last with
  | none => true
  | some p =>
    let ph := c.mode.phase c.bind.desc e.key
    let was := if c.wrapped then 1 else 0
    decide (was < ph) || (ph == was && (decide (p.key < e.key) ||
      (e.key == p.key && (decide (p.chain < e.chain) || (e.chain == p.chain && decide (p.slot < e.slot))))))

/-- The prefix that a voxel cursor counts by (R155): of a SCAN cask, for which R155 defines none, the key itself (DESIGN CHOICE of
log entry 33), since its LEVEL is 0. -/
def Cursor.prefixOf (c : Cursor) (key : Nat) : Nat :=
  match c.mode with
  | .voxel _ _ p => key / 2 ^ (ckAxes c.bind.desc * (ckLevel c.bind.desc - p))
  | _ => key

/-- Of a voxel cursor, the first element of each prefix that it has not returned from. -/
def firstOfEach (f : Nat → Nat) : Option Nat → List CaskElem → List CaskElem
  | _, [] => []
  | prev, e :: r => if prev = some (f e.key) then firstOfEach f prev r else e :: firstOfEach f (some (f e.key)) r

/-- The elements of homes, in cask order. -/
def Cask.elemsOf (c : Cask) (s : State) (homes : List Nat) : List Nat → Except Met (List CaskElem)
  | [] => .ok []
  | h :: r =>
    match c.elems s h (homes.getD h 0) with
    | .error e => .error e
    | .ok es =>
      match c.elemsOf s homes r with
      | .error e => .error e
      | .ok rest => .ok (es ++ rest)

/-- Of a home's elements, those that a cursor would return next in one phase (R177). -/
def Cursor.upcoming (c : Cursor) (phase : Nat) (es : List CaskElem) : List CaskElem :=
  let ok := es.filter fun e =>
    e.live && c.mode.holds c.bind.desc e.key && c.after e && c.mode.phase c.bind.desc e.key == phase
  match c.mode with
  | .voxel .. => firstOfEach c.prefixOf (c.last.map fun p => c.prefixOf p.key) ok
  | _ => ok

/-- Where a cursor stands after elements that it has returned. -/
def Cursor.past (c : Cursor) (es : List CaskElem) : Cursor :=
  match es.getLast? with
  | none => c
  | some e => { c with last := some { key := e.key, home := e.home, chain := e.chain, slot := e.slot }
                       wrapped := c.mode.phase c.bind.desc e.key == 1 }

/-- The homes that a cursor has still to visit, in cask order: a scan that wraps visits them twice (R174). -/
def Cursor.ahead (c : Cursor) (homes : List Nat) : List CaskPart :=
  let wraps : Bool := match c.mode with
    | .scan _ _ a0 a1 => decide (a1 < a0)
    | _ => false
  let here := if c.wrapped then 1 else 0
  ((if wraps then [0, 1] else [0]).flatMap fun ph => c.homes.map fun h => { phase := ph, home := h, unit := hmUnit (homes.getD h 0) : CaskPart }).filter
    fun q => match c.last with
      | none => true
      | some p => decide (here < q.phase) || (q.phase == here && decide (p.home ≤ q.home))

/-- The words of a filled lane (R176). -/
def filledWords (d : BitVec 512) (cols : List Nat) (u : Nat → Word) (e : CaskElem) (hm : Nat) : List Word :=
  [BitVec.ofNat 32 e.key, BitVec.ofNat 32 (e.key / 2 ^ 32), handleOf hm e.stave e.slot,
    BitVec.ofNat 32 ((if e.moved then 1 else 0) + if e.pmove then 2 else 0)]
  ++ ckPosition d e.key e.off u ++ cols.map fun i => BitVec.ofNat 32 (e.cols.getD i 0)

/-- CKNXT's predicates and count (R176). -/
def NextForm.report (f : NextForm) (b : Bunch) (got : Nat) (done : Bool) : List RegWrite :=
  ((f.lanes.zip (List.range f.lanes.length)).flatMap fun e =>
    [b.write (.p f.pf) e.1 (if e.2 < got then 1 else 0), b.write (.p f.px) e.1 (if done then 1 else 0)])
  ++ [b.write (.k f.kc) 0 (BitVec.ofNat 32 got)]

/-! ### Parts at homes (R19) -/

/-- One part of a split operation, at its home: one indivisible action (R153). -/
def State.caskPart (s : State) (b : Bunch) (w : CaskWait) : Except Met (State × CaskWait) :=
  match w.todo with
  | [] => .ok (s, w)
  | q :: rest =>
    (openCask s b.core b.ctx w.bind.va).bind fun c =>
    match w.job with
    | .count d n => (c.home s q.home).map fun hm => (s, { w with todo := rest, job := .count d (n + hmLive hm) })
    | .next f cur got =>
      (c.home s q.home).bind fun hm => (c.elems s q.home hm).map fun es =>
        let room := min f.count f.lanes.length - got.length
        let more := (cur.upcoming q.phase es).take room
        (s, { w with todo := if more.length = room then [] else rest, job := .next f (cur.past more) (got ++ more.map fun e => (e, hm)) })
    | .opening j cur did => (s.openHomes b.core b.ctx w.bind.desc (· + 1) [q.home]).map fun t => (t, { w with todo := rest, job := .opening j cur (q.home :: did) })

/-- The registers that an operation has still to write. -/
def CaskWait.owed (w : CaskWait) (b : Bunch) : List RegWrite :=
  match w.job with
  | .count d _ => [b.write (.k d) 0 0]
  | .next f _ _ => (f.lanes.take f.count).flatMap (fun l => b.destWrites (.v (BitVec.ofNat 8 f.d)) l (List.replicate (7 + f.cols.length) 0)) ++ f.report b 0 false
  | .opening .. => []

/-- Every part has acted: the result, and what becomes of the cursor. -/
def State.caskEnd (s : State) (id : Nat) (b : Bunch) (w : CaskWait) : Except Met (State × List RegWrite) :=
  match w.job with
  | .count d n => .ok (s, [b.write (.k d) 0 (BitVec.ofNat 32 (min (2 ^ 32 - 1) n))])
  | .opening j cur _ => .ok (s.onBunch id fun q => { q with cursors := Store.insert q.cursors j cur }, [])
  | .next f cur got =>
    let done := decide (got.length < f.count)
    let words := (f.lanes.zip (got.zip (List.range got.length))).flatMap fun e =>
      b.destWrites (.v (BitVec.ofNat 8 f.d)) e.1 (filledWords w.bind.desc f.cols (fun a => (s.freeValue (3 * e.2.2 + a)).setWidth 32) e.2.1.1 e.2.1.2)
    let after := fun (t : State) => (t.usedFree 96, words ++ f.report b got.length done)
    if done then
      (s.openHomes b.core b.ctx w.bind.desc (· - 1) cur.homes).map fun t =>
        after (t.onBunch id fun q => { q with cursors := Store.erase q.cursors f.cursor })
    else .ok (after (s.onBunch id fun q => { q with cursors := Store.insert q.cursors f.cursor cur }))

/-- The homes that a failed opening has counted take it back. -/
def State.caskUndo (s : State) (b : Bunch) (w : CaskWait) : State :=
  match w.job with
  | .opening _ cur did => s.takeOpens b.core b.ctx { cur with homes := did }
  | _ => s

/-- The core sends the next part to the row that homes it. -/
def State.sendPart (s : State) (id entry core : Nat) (w : CaskWait) : State :=
  match w.todo with
  | [] => s
  | q :: _ => { s with cooperQ := reachBank { unit := q.unit, src := core, at_ := s.now, op := .caskPart id entry } s.cooperQ }

/-- Issue of an operation that acts at several homes: the first part acts at once, the others at their rows' units, the split
waiting, so that a fault of any part is the instruction's (log entry 33). -/
def View.inParts (x : View) (s : State) (tok : BitVec 3) (w : CaskWait) : Result :=
  match s.caskPart x.b w with
  | .error e => x.fail e.1 e.2 .engine
  | .ok (t, w1) =>
    if w1.todo.isEmpty then
      match t.caskEnd x.id x.b w1 with
      | .error e => x.fail e.1 e.2 .engine
      | .ok (u, ws) => x.caskDone u tok ws
    else
      let w2 := { w1 with op := t.nextId, lane := lowest x.lanes }
      { s := (t.addOp x tok latCask .waits (w2.owed x.b)).sendPart x.id x.entry x.b.core w2, flow := .wait (.cask w2) true }

/-- A part acts at its unit; the split goes on when it was the last, and takes the fault that it meets. -/
def State.nextPart (s : State) (id e : Nat) (sp : Split) (resume : Option Pc) (w : CaskWait) (b : Bunch) : State :=
  let drop (t : State) : State := t.onBunch id fun q => { q with ops := q.ops.filter fun o => o.id != w.op }
  let fail (m : Met) : State :=
    ((drop (s.caskUndo b w)).onBunch id fun q => q.setSplit e { sp with state := .ready, stallToks := 0 }).takeFault id e
      [{ lane := w.lane, cause := m.1, addr := m.2, kind := .engine }] sp.pc (resume.getD sp.pc) sp.stallToks none sp.notBefore
  match s.caskPart b w with
  | .error m => fail m
  | .ok (t, w1) =>
    if w1.todo.isEmpty then
      match t.caskEnd id b w1 with
      | .error m => fail m
      | .ok (u, ws) => u.onBunch id fun q =>
          Bunch.wake { q with ops := q.ops.map fun (o : TokOp) => if o.id == w.op then { o with writes := ws, job := .ready } else o } e sp resume s.now
    else (t.onBunch id fun q => q.setSplit e { sp with state := .blocked (.cask w1) resume }).sendPart id e b.core w1

/-! ### CKCNT, CKITR, CKNXT -/

def execCkcnt (g : Guard) (d : BitVec 6) (c : BitVec 4) (tok : BitVec 3) : State → Host.Outcome State Fault Refusal :=
  caskOp g [] [.k d.toNat] (fun _ => false) fun x =>
    match x.slot c with
    | none => x.unbound
    | some b =>
      match (x.open x.s b).bind fun k => k.allHomes x.s with
      | .error e => x.fail e.1 e.2 .engine
      | .ok hs =>
        let todo := (List.range hs.length).map fun h => { phase := 0, home := h, unit := hmUnit (hs.getD h 0) : CaskPart }
        x.inParts x.s tok { job := .count d.toNat 0, bind := b, todo, op := 0, lane := 0 }

def execCkitr (m : ItrMode) (g : Guard) (j : BitVec 3) (tok : BitVec 3) : State → Host.Outcome State Fault Refusal :=
  caskOp g (itrReads m) [] (fun x => itrBad m ((itrSlot m).bind x.slot)) fun x =>
    let closed : Except Met State := match Store.find x.b.cursors j.toNat with
      | none => .ok x.s
      | some c => (x.s.openHomes x.b.core x.b.ctx c.bind.desc (· - 1) c.homes).map fun t =>
          t.onBunch x.id fun q => { q with cursors := Store.erase q.cursors j.toNat }
    match x.curMode m with
    | none => match closed with
      | .error e => x.fail e.1 e.2 .engine
      | .ok s1 => x.caskDone s1 tok []
    | some (slot, mode) =>
      match x.slot slot with
      | none => x.unbound
      | some b =>
        match closed.bind fun s1 => (x.open s1 b).bind fun c => (c.allHomes s1).map fun hs => (s1, hs) with
        | .error e => x.fail e.1 e.2 .engine
        | .ok (s1, hs) =>
          let homes := reached b.desc hs mode
          let todo := homes.map fun h => { phase := 0, home := h, unit := hmUnit (hs.getD h 0) : CaskPart }
          match s1.openHomes x.b.core x.b.ctx b.desc (· + 1) homes with
          | .error e => x.fail e.1 e.2 .engine
          | .ok _ => x.inParts s1 tok { job := .opening j.toNat { bind := b, mode, homes } [], bind := b, todo, op := 0, lane := 0 }

def execCknxt (g : Guard) (d : BitVec 8) (j : BitVec 3) (n : BitVec 5) (kc : BitVec 6) (pf px : BitVec 3) (map : BitVec 8) (tok : BitVec 3) :
    State → Host.Outcome State Fault Refusal :=
  let cols := mapCols map
  let count := n.toNat + 1
  let curOf (x : View) : Option Cursor := Store.find x.b.cursors j.toNat
  issue
    { guard := g, roles := vecCopy, uniform := true, spread := true
      writes := vBlock d.toNat (7 + cols.length) ++ [.p pf.toNat, .p px.toNat, .k kc.toNat]
      ill := fun x => decide (x.b.width < count) || mapBad ((curOf x).map (·.bind)) map }
    fun x =>
      if !x.on then { s := x.s }
      else
        let f : NextForm := { cursor := j.toNat, d := d.toNat, count, lanes := lanesOf x.sp.mask, kc := kc.toNat, pf := pf.toNat, px := px.toNat, cols }
        match curOf x with
        | none => x.caskDone x.s tok (f.report x.b 0 true)
        | some cur =>
          match (x.open x.s cur.bind).bind fun c => c.allHomes x.s with
          | .error e => x.fail e.1 e.2 .engine
          | .ok hs => x.inParts x.s tok { job := .next f cur [], bind := cur.bind, todo := cur.ahead hs, op := 0, lane := 0 }

/-! ### Queue launches (R24, R179) and DPST (R345) -/

/-- Offsets of an element's columns in its payload (R179). -/
def payloadAt (d : BitVec 512) : Nat → Nat
  | 0 => 0
  | i + 1 => roundUpTo (payloadAt d i + ckWidth d i) (ckWidth d (i + 1))
/-- The 16 payload bytes as a number. -/
def cutPayload (d : BitVec 512) (cols : List Nat) : Nat :=
  ((List.range (ckNcol d)).foldl (fun x i => x + cols.getD i 0 * 2 ^ (8 * payloadAt d i)) 0) % 2 ^ 128
/-- Columns from 16 payload bytes: those beyond are zero. -/
def uncutPayload (d : BitVec 512) (x : Nat) : List Nat :=
  (List.range (ckNcol d)).map fun i => if payloadAt d i < 16 then getBits x (8 * payloadAt d i) (8 * ckWidth d i) else 0

/-- The homes whose ranges a cellar draws: its own rows', and, in the cellar of entry 0, those of cellars not listed (R24). -/
def drawn (parts : List (Nat × Nat)) (homes : List Nat) (cellar : Nat) : List Nat :=
  let listed := parts.map (·.1)
  (List.range homes.length).filter fun h =>
    let c := hmCellar (homes.getD h 0)
    c == cellar || (!listed.contains c && listed.head? == some cellar)

/-- Remove elements one after another. -/
def Cask.removeAll (c : Cask) (s : State) : List CaskElem → Except Met State
  | [] => .ok s
  | e :: r =>
    match c.remove s e.home e.stave e.slot with
    | .error m => .error m
    | .ok t => c.removeAll t r

/-- Take up to `n` elements for a cellar (R34, R179). -/
def Cask.take (c : Cask) (s : State) (parts : List (Nat × Nat)) (cellar n : Nat) : Except Met (State × List CaskElem) :=
  match c.allHomes s with
  | .error e => .error e
  | .ok hs =>
    match c.elemsOf s hs (drawn parts hs cellar) with
    | .error e => .error e
    | .ok es =>
      let got := (es.filter (·.live)).take n
      (c.removeAll s got).map fun t => (t.occupy (got.map fun e => hmUnit (hs.getD e.home 0)), got)

/-- The ranges that a cellar draws hold no live element, and no insert of the launch into them is in flight (R34, R346). -/
def Cask.drained (c : Cask) (s : State) (launch : Nat) (parts : List (Nat × Nat)) (cellar : Nat) : Except Met Bool :=
  match c.allHomes s with
  | .error e => .error e
  | .ok hs =>
    let ds := drawn parts hs cellar
    (c.elemsOf s hs ds).map fun es =>
      !es.any (·.live) && !s.bunches.any fun b => b.2.launch == launch && b.2.ops.any fun o =>
        o.into.any fun h => h.1 == (ckPool c.d).toNat && ds.contains h.2

/-- The cask of a bunch's launch. -/
def View.launchCask (x : View) : Option CaskBind := (x.s.launch x.b.launch).bind (·.cask)

def execDpst (g : Guard) (d a b : BitVec 8) (tok : BitVec 3) : State → Host.Outcome State Fault Refusal :=
  issue { guard := g, roles := vecCopy, reads := vBlock a.toNat 2 ++ vBlock b.toNat 4, writes := [.v d.toNat], ill := fun x => x.launchCask.isNone } fun x =>
    match x.launchCask with
    | none => { s := x.s }
    | some bind =>
      x.perLane (x.actors false) d tok true fun s l =>
        (x.open s bind).bind fun c => (c.allHomes s).bind fun hs =>
          let pay := leNat ((x.colsFrom b.toNat l 4).flatMap fun w => leBytes w 4)
          c.addNow s hs (x.vPair a.toNat l).toNat 0 (uncutPayload c.d pay)

end Sys2Proof.Machine
end

