-- ==== Sys2Proof/Machine/Fetch.lean ====
section
/-! DEFINITION. Fetching (R65, R71, R229, R232) and choosing what issues (R46). -/

namespace Sys2Proof.Machine

/-! ### Code blocks -/

/-- The 4 KiB block of a code address. -/
def blockVa (a : DWord) : DWord := BitVec.ofNat 64 (a.toNat / 4096 * 4096)

/-- The block of a context that holds a code address on a core, leased to a launch (R229, R232). -/
def Core.blockOf (c : Core) (ctx launch : Nat) (a : DWord) : Option CodeBlock :=
  c.blocks.find? fun k => k.ctx == ctx && k.va == blockVa a && k.users.any fun u => u.1 == launch

/-- Words of a list of bytes, little-endian (R5). -/
def wordsOfBytes (bs : List Byte) : Nat → List Word
  | 0 => []
  | n + 1 => BitVec.ofNat 32 (leNat (bs.take 4)) :: wordsOfBytes (bs.drop 4) n

/-- The 32 words of a bundle in a block. -/
def CodeBlock.bundle (k : CodeBlock) (a : DWord) : List Word := wordsOfBytes (k.bytes.drop (a.toNat % 4096)) 32

/-- The bytes of a block as memory holds them, through the context's translation for fetch (R119), 16 at a time, and the 32-byte
units that are poisoned (R275). -/
def fetchUnits (s : State) (core ctx : Nat) (a : DWord) : Nat → Except Cause (List Byte × List Nat)
  | 0 => .ok ([], [])
  | n + 1 =>
    match locate s core ctx a .fetch with
    | .error e => .error e
    | .ok x =>
      match fetchUnits s core ctx (a + 16) n with
      | .error e => .error e
      | .ok r => .ok (s.bytesAt x.place 16 ++ r.1, if s.poisoned x.place 16 then a.toNat / 32 % 128 :: r.2 else r.2)

def fetchBlock (s : State) (core ctx : Nat) (va : DWord) : Except Cause (List Byte × List Nat) := fetchUnits s core ctx va 256

/-! ### Bundle form (R65, R71) -/

/-- The control word. -/
def bundleCtl (ws : List Word) : DWord := (ws.getD 1 0) ++ (ws.getD 0 0)

/-- The number of the last instruction: the first entry of S0 to S13 that is 15. -/
def lastSlot (ctl : DWord) : Option Nat := (List.range 14).find? fun i => stallEntry ctl i == 15

/-- The words from the n-th instruction on, by the lengths of R51. -/
def skipInstrs : Nat → List Word → Option (List Word)
  | 0, ws => some ws
  | n + 1, ws =>
    match ws with
    | [] => none
    | w :: _ => if formLength w ≤ ws.length then skipInstrs n (ws.drop (formLength w)) else none

/-- The bundle obeys R71. -/
def bundleOk (ws : List Word) : Bool :=
  let ctl := bundleCtl ws
  match lastSlot ctl with
  | none => false
  | some n =>
    ((List.range 14).all fun i => decide (i ≤ n) || stallEntry ctl i == 0) &&
    (match skipInstrs (n + 1) (ws.drop 2) with
      | some rest => rest.all fun w => w == 0
      | none => false)

/-- What a fetch answers: the instruction's words and the bundle's control word, or the trap. -/
inductive Fetched
  | words (ctl : DWord) (ws : List Word)
  | trap (c : Cause) (k : Kind)
deriving DecidableEq, Repr

/-- Fetch the instruction at a place for a bunch, from a block leased to its launch. -/
def fetchAt (s : State) (b : Bunch) (pc : Pc) : Fetched :=
  match (s.core b.core).blockOf b.ctx b.launch pc.bundle with
  | none => .trap .codeAbsent .fetch
  | some k =>
    let ws := k.bundle pc.bundle
    if k.bytes.isEmpty then .trap .codeAbsent .fetch
    else if k.bad.any fun u => u / 4 == pc.bundle.toNat / 128 % 32 then .trap .eccUncorrectable .fetch
    else if !bundleOk ws then .trap .bundleForm .fetch
    else
      match skipInstrs pc.slot (ws.drop 2) with
      | some (w :: r) => .words (bundleCtl ws) (w :: r)
      | _ => .trap .bundleForm .fetch

/-- A leased block whose code could not be fetched when it was leased, or that CCTL.code marked stale (R326), is fetched
again; a fault of that fetch is the instruction's (R119). Outside the leased blocks a translation fault comes before CODE_ABSENT
(R220, R232). -/
def refetchAt (s : State) (b : Bunch) (pc : Pc) : Except Cause State :=
  let c := s.core b.core
  match c.blockOf b.ctx b.launch pc.bundle with
  | none => (locate s b.core b.ctx pc.bundle .fetch).map fun _ => s
  | some k =>
    if k.bytes.isEmpty || k.stale then
      match fetchBlock s b.core b.ctx k.va with
      | .error e => .error e
      | .ok bs => .ok (s.setCore b.core { c with blocks := c.blocks.map fun q => if q = k then { q with bytes := bs.1, bad := bs.2, stale := false, fetched := some s.now } else q })
    else .ok s

/-! ### Choosing what issues (R46, R202) -/

/-- A split that might issue. -/
structure Cand where
  bunch : Nat
  entry : Nat
deriving DecidableEq, Repr

/-- The device issues at all: powered, not fatal, not in a DVFS stall (R299, R305, R306). -/
def State.running (s : State) : Bool := s.power == .active && !s.fatal && s.ready && !s.recovery

/-- A split is Ready now (R45, R66, R67). -/
def State.splitReady (s : State) (b : Bunch) (sp : Split) : Bool :=
  b.slot.isSome && sp.state == .ready && !sp.frozen && decide (sp.notBefore ≤ s.now) && sp.stallToks == 0 && !b.awaits

/-- The quadrant of a bunch, or 4, the sequencer (R13, R14). -/
def Bunch.unit (b : Bunch) : Nat := if b.role == .matrix then 4 else b.slot.getD 0 / 4

/-- The cycles a quadrant leaves between two issues (R46, R306); the sequencer, unit 4, is none. -/
def State.issueGap (s : State) (unit : Nat) : Nat := if s.halved && unit != 4 then 2 else 1

/-- The splits that are Ready in one unit of a core. -/
def State.readyIn (s : State) (core unit : Nat) : List (Cand × Bunch × Split) :=
  s.bunches.flatMap fun e =>
    if e.2.core = core ∧ e.2.unit = unit ∧ s.ctxRuns e.2.ctx then
      e.2.splits.filterMap fun f => if s.splitReady e.2 f.2 then some ({ bunch := e.1, entry := f.1 }, e.2, f.2) else none
    else []

/-- Rank of a role in R46, lower first. -/
def Role.rank : Role → Nat | .copy => 0 | .epilogue => 1 | .vector => 2 | .matrix => 0

/-- The earlier of two candidates: rank, then the cycle since which it is Ready, then table order. -/
def better (f : (Cand × Bunch × Split) → Nat) (x y : Cand × Bunch × Split) : Cand × Bunch × Split :=
  if f y < f x then y else x

def best (f : (Cand × Bunch × Split) → Nat) : List (Cand × Bunch × Split) → Option Cand
  | [] => none
  | x :: r => some (r.foldl (better f) x).1

/-- The choice of R46 in one unit: promoted splits, then role, greedy choice, age. -/
def State.pickIn (s : State) (core unit : Nat) : Option Cand :=
  let last := Store.find (s.core core).quads unit
  let free := match last with
    | some (_, _, t) => decide (t + s.issueGap unit ≤ s.now)
    | none => true
  if !free then none
  else
    let cs := s.readyIn core unit
    let promoted := cs.filter fun x => decide (x.2.2.readyAt + 48 ≤ s.now)
    if !promoted.isEmpty then best (fun x => x.2.2.readyAt) promoted
    else
      let r := cs.foldl (fun m x => min m x.2.1.role.rank) 3
      let cs' := cs.filter fun x => x.2.1.role.rank == r
      match cs'.find? (fun x => !x.2.2.noGreedy && (match last with
        | some (b, e, _) => x.1 == { bunch := b, entry := e }
        | none => false)) with
      | some x => some x.1
      | none => best (fun x => x.2.2.readyAt) cs'

/-- The cores that hold a bunch. -/
def State.busyCores (s : State) : List Nat := (s.bunches.map fun e => e.2.core).eraseDups

/-- The splits that R46 and R202 choose in this cycle, one a unit. -/
def State.issuers (s : State) : List Cand :=
  if s.running && decide (s.stallTo ≤ s.now) then
    s.busyCores.flatMap fun c => (List.range 5).filterMap fun u => s.pickIn c u
  else []

end Sys2Proof.Machine
end

