-- ==== Sys2Proof/Machine/Refill.lean ====
section
/-! DEFINITION. Items: Take, Open and Closed (R34, R276, R281), filling lanes (R27, R32, R387), RFILL, DRAIN (R36, R347), the ends of
their waits, opportunistic fusion (R44), and the retirement of a bunch (R28, R35). -/

namespace Sys2Proof.Machine

/-- An item handed out: %item, the words of v1 to v4 for each lane of its unit, v6.d, and the lanes that are covered (R32). -/
structure Item where
  index   : Word
  words   : List (List Word)
  pair    : DWord
  covered : BitVec 4 := -1
deriving DecidableEq, Repr

/-! ### Take (R34, R276) -/

/-- The first `n` numbers of ranges, and what is left. -/
def takeRanges (n : Nat) : List (Nat × Nat) → List Nat × List (Nat × Nat)
  | [] => ([], [])
  | (lo, hi) :: r =>
    let k := min n (hi - lo)
    let y := takeRanges (n - k) r
    ((List.range k).map (lo + ·) ++ y.1, (if lo + k < hi then [(lo + k, hi)] else []) ++ y.2)
def rangesLeft (rs : List (Nat × Nat)) : Nat := rs.foldl (fun n r => n + (r.2 - r.1)) 0

/-- A range that may be stolen from: of a row share or a cellar share, the share's key, the range. -/
structure Donor where
  row : Bool
  key : Nat
  lo  : Nat
  hi  : Nat
deriving DecidableEq, Repr

def Donor.device (d : Donor) : Nat := (if d.row then d.key / 3 else d.key) / 8
/-- `x` goes before `y`: ranges of the own package, then the larger, then the lower first index (log entry 21). -/
def Donor.before (own : Nat) (x y : Donor) : Bool :=
  if (x.device == own) != (y.device == own) then x.device == own
  else if x.hi - x.lo ≠ y.hi - y.lo then decide (y.hi - y.lo < x.hi - x.lo)
  else decide (x.lo < y.lo)

/-- Every untaken range of a launch. -/
def Launch.donors (l : Launch) : List Donor :=
  (l.shares.flatMap fun e => e.2.map fun r => Donor.mk false e.1 r.1 r.2) ++
    (l.rows.flatMap fun e => e.2.map fun r => Donor.mk true e.1 r.1 r.2)
/-- Untaken items of all shares. -/
def Launch.untaken (l : Launch) : Nat := rangesLeft (l.donors.map fun d => (d.lo, d.hi))

/-- Steal for a row: the upper half, rounded up, of the preferred range becomes its row share (R34). -/
def Launch.steal (l : Launch) (row device : Nat) : Launch :=
  match l.donors with
  | [] => l
  | x :: r =>
    let d := r.foldl (fun m y => if Donor.before device y m then y else m) x
    let k := (d.hi - d.lo + 1) / 2
    let cut (rs : List (Nat × Nat)) : List (Nat × Nat) := rs.flatMap fun q =>
      if q = (d.lo, d.hi) then (if d.lo < d.hi - k then [(d.lo, d.hi - k)] else []) else [q]
    let l1 := if d.row then { l with rows := Store.insert l.rows d.key (cut (Store.get [] l.rows d.key)) }
      else { l with shares := Store.insert l.shares d.key (cut (Store.get [] l.shares d.key)) }
    { l1 with rows := Store.insert l1.rows row [(d.hi - k, d.hi)] }

/-- Take from the cellar share, else from the row share. -/
def Launch.takeOwn (l : Launch) (core n : Nat) : Launch × List Nat :=
  let c := cellarOf core
  let own := Store.get [] l.shares c
  if rangesLeft own ≠ 0 then
    let y := takeRanges n own
    ({ l with shares := Store.insert l.shares c y.2 }, y.1)
  else
    let y := takeRanges n (Store.get [] l.rows (estateRow core))
    ({ l with rows := Store.insert l.rows (estateRow core) y.2 }, y.1)

/-- Take of an index launch. -/
def Launch.takeIndex (l : Launch) (core n : Nat) : Launch × List Nat :=
  let y := l.takeOwn core n
  if y.2.isEmpty && lrSteal l.raw then (l.steal (estateRow core) (core / 144)).takeOwn core n else y

/-- The payload words of a cask element. -/
def caskItem (d : BitVec 512) (e : CaskElem) : Item :=
  let p := cutPayload d e.cols
  { index := BitVec.ofNat 32 e.key, pair := BitVec.ofNat 64 e.key, words := [(List.range 4).map fun i => BitVec.ofNat 32 (p / 2 ^ (32 * i))] }

/-- Source.Take: up to `n` items for a bunch. -/
def State.take (s : State) (b : Bunch) (n : Nat) : Except Met (State × List Item) :=
  match s.launch b.launch with
  | none => .ok (s, [])
  | some l =>
    if l.task || n == 0 then .ok (s, [])
    else if lrQuad l.raw then
      let c := cellarOf b.core
      let q := Store.get [] l.queue c
      .ok (s.setLaunch b.launch { l with queue := Store.insert l.queue c (q.drop n) },
        (q.take n).map fun x => { index := x.index, words := x.words, pair := 0, covered := x.covered })
    else if lrKind l.raw = 1 then
      match l.cask with
      | none => .ok (s, [])
      | some k =>
        (openCask s b.core b.ctx k.va).bind fun c => (c.take s l.parts (cellarOf b.core) n).map fun y => (y.1, y.2.map (caskItem c.d))
    else
      let y := l.takeIndex b.core n
      .ok (s.setLaunch b.launch y.1, y.2.map fun i => { index := BitVec.ofNat 32 i, words := [[0, 0, 0, 0]], pair := 0 })

/-- Some bunch of a launch has an active or helper lane. -/
def State.anyLane (s : State) (l : Nat) : Bool := s.bunches.any fun e => e.2.launch == l && e.2.active ||| e.2.helper != 0

/-- The closes a cellar's raster unit must receive (R281). -/
def Launch.shareOf (l : Launch) (cellar : Nat) : Nat :=
  match l.parts.find? (fun p => p.1 == cellar) with
  | some p => p.2
  | none => 0

/-- Source.Closed (R34, R281, R387). -/
def State.closed (s : State) (b : Bunch) : Except Met Bool :=
  match s.launch b.launch with
  | none => .ok true
  | some l =>
    let c := cellarOf b.core
    if l.task || !lrRefill l.raw then .ok true
    else if lrQuad l.raw then .ok (decide (l.shareOf c ≤ Store.get 0 l.closes c) && (Store.get [] l.queue c).isEmpty)
    else if lrKind l.raw = 1 then
      match l.cask with
      | none => .ok true
      | some k =>
        (openCask s b.core b.ctx k.va).bind fun q => (q.drained s b.launch l.parts c).map fun e => e && !s.anyLane b.launch
    else
      let mine := rangesLeft (Store.get [] l.shares c) + rangesLeft (Store.get [] l.rows (estateRow b.core))
      .ok (mine == 0 && (!lrSteal l.raw || l.untaken == 0))

/-- Open(B) of R34. -/
def State.openFor (s : State) (b : Bunch) : Bool := !b.atBarrier && !b.drained && s.refills b

/-! ### Filling lanes -/

/-- The units that can be given an item: parked lanes, or aligned quads wholly parked (R34). -/
def Bunch.units (b : Bunch) (quad : Bool) : List (List Nat) :=
  if quad then
    ((List.range 8).map fun j => [4 * j, 4 * j + 1, 4 * j + 2, 4 * j + 3]).filter fun u => u.all fun l => b.parked.getLsbD l
  else (lanesOf b.parked).map fun l => [l]

/-- Registers the map gives a lane: number and value (R32). -/
def mapWrites (m : BitVec 6) (it : Item) (j : Nat) : List (Nat × Word) :=
  let w := it.words.getD j []
  (if bit m 0 then [(0, it.index)] else []) ++
  ((List.range 4).flatMap fun i => if bit m (i + 1) then [(i + 1, w.getD i 0)] else []) ++
  (if bit m 5 then [(6, lowHalf it.pair), (7, highHalf it.pair)] else [])

/-- Give lane `l`, the j-th of its unit, an item. -/
def Bunch.fillLane (b : Bunch) (m : BitVec 6) (it : Item) (l j : Nat) : Bunch :=
  let b1 := (List.range 7).foldl (fun c n => c.setP n (laneBit l) 0) { b with v := Store.keep (fun k => k % 32 != l) b.v }
  let b2 := (mapWrites m it j).foldl (fun c w => if w.1 < b.budget then c.setV w.1 l w.2 else c) b1
  { b2 with
    items := Store.put 0 b2.items l it.index
    active := if it.covered.getLsbD j then b2.active ||| laneBit l else b2.active
    helper := if it.covered.getLsbD j then b2.helper else b2.helper ||| laneBit l
    poison := b2.poison.filter fun q => !((q.1 < 256 || 320 ≤ q.1) && q.2 == l) }

/-- %gen of refilled lanes advances (R34). -/
def Bunch.nextGen (b : Bunch) (ls : List Nat) : Bunch := ls.foldl (fun c l => { c with gens := Store.put 0 c.gens l (c.gen l + 1) }) b

/-- Items go to units in order. -/
def Bunch.fillUnits (b : Bunch) (m : BitVec 6) (us : List (List Nat × Item)) : Bunch :=
  us.foldl (fun c u => (u.1.zip (List.range u.1.length)).foldl (fun d e => d.fillLane m u.2 e.1 e.2) c) b

/-- The divergence numbers on a stack. -/
def joinNumbers (st : List StackEntry) : List Nat := st.filterMap fun e => match e with
  | .join n _ _ _ => some n
  | .defer _ _ => none

/-- Lanes join a split, and every JOIN whose number stands on its stack (R387). -/
def Bunch.addLanes (b : Bunch) (e : Nat) (lanes : Mask) : Bunch :=
  match Store.find b.splits e with
  | none => b
  | some sp =>
    let ns := joinNumbers sp.stack
    let widen (q : StackEntry) : StackEntry := match q with
      | .join n rc j a => if ns.contains n then .join n rc (j ||| lanes) a else .join n rc j a
      | .defer pc x => .defer pc x
    let b1 := { b with splits := Store.mapVals (fun _ (q : Split) => { q with stack := q.stack.map widen }) b.splits }
    match Store.find b1.splits e with
    | none => b1
    | some sp1 => b1.setSplit e { sp1 with mask := sp1.mask ||| lanes }

/-- A split executes RFILL: its age and its watchdog trip are forgotten (R49, R50). -/
def Bunch.refreshed (b : Bunch) (e : Nat) : Bunch :=
  match Store.find b.splits e with
  | some sp => b.setSplit e { sp with age := 0, tripped := false }
  | none => b

/-- The fill of RFILL (R34): results of other instructions still in flight into a filled lane leave undefined values (R387). -/
def State.refill (s : State) (id e : Nat) (m : BitVec 6) (quad : Bool) (got : List Item) : State :=
  match Store.find s.bunches id with
  | none => s
  | some b =>
    let us := (b.units quad).zip got
    let ls := us.flatMap (·.1)
    let lm := maskOf ls
    let b1 := ((((b.fillUnits m us).nextGen ls).addLanes e lm).refreshed e)
    let late := b.pends.filter fun p => decide (s.now < p.ready) && (match p.reg with
      | .k _ => false
      | _ => p.lanes &&& lm != 0)
    late.foldl (fun t p => spoilReg t id (p.lanes &&& lm) p.reg) (s.setBunch id b1)

/-- RFILL frees its split; a bunch without a split then retires: no RFILL follows (R34). -/
def State.freeRefill (s : State) (id e : Nat) : State :=
  s.onBunch id fun b =>
    let b1 := b.dropSplit e
    if b1.splits.isEmpty then { b1 with drained := true } else b1

/-- The launch delivers pixel quads. -/
def State.quads (s : State) (b : Bunch) : Bool :=
  match s.launch b.launch with
  | some l => !l.task && lrQuad l.raw
  | none => false

/-- What an RFILL, or the end of its wait, comes to. -/
inductive RefillEnd
  | fails (m : Met)
  | filled (s : State)
  /-- No item, and lanes go on. -/
  | none
  | freed (s : State)
  | waits

/-- RFILL by split `e` of a bunch with mask `mask` (R34). -/
def State.tryRefill (s : State) (id e : Nat) (b : Bunch) (m : BitVec 6) (mask : Mask) : RefillEnd :=
  let q := s.quads b
  match (if s.openFor b then s.take b (b.units q).length else .ok (s, [])) with
  | .error x => .fails x
  | .ok (t, got) =>
    if !got.isEmpty then .filled (t.refill id e m q got)
    else if mask ≠ 0 then .none
    else if b.drained then .freed (s.freeRefill id e)
    else
      match s.closed b with
      | .error x => .fails x
      | .ok true => .freed (s.freeRefill id e)
      | .ok false => .waits

/-- RFILL's position (R31, R387). -/
def View.refillMisplaced (x : View) : Bool :=
  x.sp.pc.slot != 0 ||
  match x.s.launch x.b.launch with
  | some l => !l.task && lrRefill l.raw && x.sp.pc.bundle != lrEntry l.raw + lrRefillOff l.raw
  | none => false

def execRfill (map : BitVec 6) : State → Host.Outcome State Fault Refusal :=
  issue { guard := Guard.always, roles := vecOnly, hnd := .forbidden, ill := View.refillMisplaced } fun x =>
    match x.s.tryRefill x.id x.entry x.b map x.sp.mask with
    | .fails e => faulted x.s (faultAll x.lanes e.1 e.2 .engine)
    | .filled t => { s := t }
    | .none => { s := x.s.onBunch x.id fun b => b.refreshed x.entry }
    | .freed t => { s := t, flow := .placed }
    | .waits => { s := x.s.onBunch x.id fun b => b.refreshed x.entry, flow := .wait (.refill map) true }

/-- DRAIN (R36, R347). -/
def execDrain : State → Host.Outcome State Fault Refusal :=
  issue { guard := Guard.always, roles := vecOnly, hnd := .forbidden } fun x =>
    let t := x.s.setBunch x.id { x.b with drained := true }
    let withdraws := match x.s.launch x.b.launch with
      | some l => !l.task && lrKind l.raw == 1
      | none => false
    if withdraws then
      { s := if x.b.drained then t else t.onLaunch x.b.launch fun l => { l with drains := l.drains + 1 } }
    else
      match x.s.closed x.b with
      | .error e => faulted x.s (faultAll x.lanes e.1 e.2 .engine)
      | .ok true => { s := t }
      | .ok false => { s := x.s, flow := .wait .drain true }

/-! ### The ends of the waits -/

/-- A bunch that is resident in a running context, with no handler at work on split `e` and no future awaited. -/
def State.live (s : State) (id e : Nat) : Option (Bunch × Split) :=
  match Store.find s.bunches id with
  | none => none
  | some b =>
    match Store.find b.splits e with
    | none => none
    | some sp => if b.slot.isSome && !sp.frozen && s.ctxRuns b.ctx && b.futures.isEmpty then some (b, sp) else none

/-- Wake a split at the place where its wait continues. -/
def State.wakeSplit (s : State) (id e : Nat) (resume : Option Pc) : State :=
  match Store.find s.bunches id with
  | none => s
  | some b =>
    match Store.find b.splits e with
    | none => s
    | some sp => s.setBunch id (b.wake e sp resume s.now)

/-- A blocked split faults at its instruction. -/
def State.faultBlocked (s : State) (id e : Nat) (b : Bunch) (sp : Split) (resume : Option Pc) (m : Met) : State :=
  (s.setBunch id (b.setSplit e { sp with state := .ready })).takeFault id e (faultAll sp.mask m.1 m.2 .engine) sp.pc (resume.getD sp.pc)

/-- RFILL_WAIT_END (R34). -/
def execRfillWaitEnd (bunch split : Nat) (s : State) : Host.Outcome State Fault Refusal :=
  match s.live bunch split with
  | none => .refused (.eventNotEnabled "RFILL_WAIT_END")
  | some (b, sp) =>
    match sp.state with
    | .blocked (.refill m) resume =>
      match s.tryRefill bunch split b m sp.mask with
      | .fails e => .next (s.faultBlocked bunch split b sp resume e)
      | .filled t => .next (t.wakeSplit bunch split resume)
      | .freed t => .next (t.onBunch bunch fun c => if c.splits.isEmpty then { c with lastPc := sp.pc } else c)
      | _ => .refused (.eventNotEnabled "RFILL_WAIT_END")
    | _ => .refused (.eventNotEnabled "RFILL_WAIT_END")

/-- DRAIN_WAIT_END (R36). -/
def execDrainWaitEnd (bunch split : Nat) (s : State) : Host.Outcome State Fault Refusal :=
  match s.live bunch split with
  | none => .refused (.eventNotEnabled "DRAIN_WAIT_END")
  | some (b, sp) =>
    match sp.state with
    | .blocked .drain resume =>
      match s.closed b with
      | .error e => .next (s.faultBlocked bunch split b sp resume e)
      | .ok true => .next ((s.onBunch bunch fun c => { c with drained := true }).wakeSplit bunch split resume)
      | .ok false => .refused (.eventNotEnabled "DRAIN_WAIT_END")
    | _ => .refused (.eventNotEnabled "DRAIN_WAIT_END")

/-! ### Opportunistic fusion (R44) -/

/-- Two entries that differ at most in their arrived masks. -/
def StackEntry.alike : StackEntry → StackEntry → Bool
  | .join n rc j _, .join n' rc' j' _ => n == n' && rc == rc' && j == j'
  | .defer pc m, .defer pc' m' => pc == pc' && m == m'
  | _, _ => false
def StackEntry.merge : StackEntry → StackEntry → StackEntry
  | .join n rc j a, .join _ _ _ a' => .join n rc j (a ||| a')
  | e, _ => e

/-- A split is Ready, not Stalled (R45). -/
def Split.ready (sp : Split) (now : Nat) : Bool := sp.state == .ready && decide (sp.notBefore ≤ now) && sp.stallToks == 0

/-- Two splits that may fuse at a cycle. -/
def canFuse (now : Nat) (x y : Split) : Bool :=
  x.ready now && y.ready now && !x.passes && !y.passes && !x.frozen && !y.frozen && x.retry.isNone && y.retry.isNone && x.pc == y.pc && x.pc.slot == 0 &&
    x.stack.length == y.stack.length && (x.stack.zip y.stack).all fun p => p.1.alike p.2

/-- OPPORTUNISTIC_FUSION (R44). The split that is kept has the lower-numbered entry's age counter, WATCHDOG mark and greedy mark,
and counts as Ready since the earlier of the two (DESIGN CHOICE, log entry 39: R44 states none of them). -/
def execOpportunisticFusion (bunch split split' : Nat) (s : State) : Host.Outcome State Fault Refusal :=
  match Store.find s.bunches bunch with
  | none => .refused (.eventNotEnabled "OPPORTUNISTIC_FUSION")
  | some b =>
    match Store.find b.splits split, Store.find b.splits split' with
    | some x, some y =>
      if split < split' && canFuse s.now x y && b.slot.isSome && s.ctxRuns b.ctx then
        let z : Split := { x with
          mask := x.mask ||| y.mask
          stack := (x.stack.zip y.stack).map fun p => p.1.merge p.2
          notBefore := b.pendMax [split, split']
          readyAt := min x.readyAt y.readyAt }
        .next (s.setBunch bunch ((b.dropSplit split').setSplit split z))
      else .refused (.eventNotEnabled "OPPORTUNISTIC_FUSION")
    | _, _ => .refused (.eventNotEnabled "OPPORTUNISTIC_FUSION")

/-! ### Retirement (R28, R35, R229) -/

/-- A launch leaves a core: its blocks lose it as a user, and are free when no other launch shares them. -/
def State.leaveCore (s : State) (core l : Nat) : State :=
  let c := s.core core
  let bs := c.blocks.map fun k => { k with users := k.users.filter fun u => u.1 != l }
  (s.setCore core { c with blocks := bs.filter fun k => !k.users.isEmpty }).onLaunch l fun x =>
    { x with landed := x.landed.filter fun p => p.1 != core }

/-- The team has no bunch left. -/
def State.dropTeam (s : State) (t : Nat) : State :=
  if s.bunches.any fun e => e.2.team == some t then s
  else { s with teams := Store.erase s.teams t, plqs := Store.erase s.plqs (2 * t) }

/-- Remove a bunch that has retired. -/
def State.removeBunch (s : State) (id : Nat) (b : Bunch) : State :=
  let s1 := (s.releases id).closeCursors id
  let s2 := { s1 with bunches := Store.erase s1.bunches id, plqs := Store.erase s1.plqs (2 * id + 1) }
  let s3 := s2.onLaunch b.launch fun l => { l with retired := l.retired + 1 }
  let s4 := match b.team with
    | some t => s3.dropTeam t
    | none => s3
  if s4.bunches.any fun e => e.2.launch == b.launch && e.2.core == b.core then s4 else s4.leaveCore b.core b.launch

/-- A bunch may retire: no split, and nothing outstanding. -/
def State.mayRetire (s : State) (b : Bunch) : Bool :=
  b.splits.isEmpty && b.slot.isSome && s.ctxRuns b.ctx && b.active ||| b.helper == 0 && s.quiet b

def execBunchRetire (bunch : Nat) (s : State) : Host.Outcome State Fault Refusal :=
  match Store.find s.bunches bunch with
  | none => .refused (.eventNotEnabled "BUNCH_RETIRE")
  | some b => if s.mayRetire b then .next (s.removeBunch bunch b) else .refused (.eventNotEnabled "BUNCH_RETIRE")

end Sys2Proof.Machine
end

