-- ==== Sys2Proof/Machine/Lease.lean ====
section
/-! DEFINITION. Code blocks (R229 to R232), segment tables (R230), CFETCH (R231, R327). -/

namespace Sys2Proof.Machine

/-- ENTRY_PC of a launch, or PC of a task. -/
def Launch.entry (l : Launch) : DWord := if l.task then trPc l.raw else lrEntry l.raw

/-- A segment-table entry: the segment's VA and its length in blocks. -/
structure Segment where
  va  : DWord
  len : Nat
deriving DecidableEq, Repr

/-- Entry n of a segment table lies at ENTRY_PC − 16 (n + 1) (R230). -/
def segEntryVa (entry : DWord) (seg : Nat) : DWord := entry - BitVec.ofNat 64 (16 * (seg + 1))

def readSegment (s : State) (core ctx : Nat) (entry : DWord) (seg : Nat) : Except Met Segment :=
  match readRecord s core ctx (segEntryVa entry seg) 2 with
  | .error e => .error e
  | .ok x => .ok { va := BitVec.ofNat 64 x, len := x / 2 ^ 64 % 2 ^ 16 }

/-- The blocks of a segment. -/
def Segment.blocks (g : Segment) : List DWord := (List.range g.len).map fun i => g.va + BitVec.ofNat 64 (4096 * i)

def Core.holds (c : Core) (ctx : Nat) (va : DWord) : Bool := c.blocks.any fun k => k.ctx == ctx && k.va == va
/-- Blocks of a segment that the core does not hold. -/
def Core.missing (c : Core) (ctx : Nat) (g : Segment) : Nat := (g.blocks.filter fun a => !c.holds ctx a).length
/-- Free code blocks of a core. -/
def Core.freeBlocks (c : Core) : Nat := 64 - c.blocks.length

/-- Lease one block to a segment of a launch: shared where the context's code is held, else fetched (R229). A block whose code
cannot be fetched is leased empty, and the fault comes to the instruction that is fetched from it. -/
def State.leaseBlock (s : State) (core ctx l seg : Nat) (at_ : Option Nat) (va : DWord) : State :=
  let c := s.core core
  if c.holds ctx va then
    s.setCore core { c with blocks := c.blocks.map fun k =>
      if k.ctx = ctx ∧ k.va = va ∧ !k.users.contains (l, seg) then { k with users := (l, seg) :: k.users } else k }
  else
    let bytes := match fetchBlock s core ctx va with
      | .ok bs => bs
      | .error _ => ([], [])
    s.setCore core { c with blocks := c.blocks ++ [{ ctx, va, bytes := bytes.1, bad := bytes.2, users := [(l, seg)], fetched := at_ }] }

/-- Lease the blocks of a segment; `at_` is when their fetch completes, none where CFETCH's token says so (R231). -/
def State.leaseSegment (s : State) (core ctx l seg : Nat) (at_ : Option Nat) (g : Segment) : State :=
  g.blocks.foldl (fun t a => t.leaseBlock core ctx l seg at_ a) s

/-! ### CFETCH (R231) -/

/-- Segments of a launch that a live split of it on the core stands in, or whose fetch is in flight. -/
def State.busySegment (s : State) (core l seg : Nat) : Bool :=
  s.bunches.any fun e => e.2.launch == l && e.2.core == core &&
    (e.2.ops.any (fun o => o.lands == some seg) ||
     e.2.splits.any fun f => (s.core core).blocks.any fun k => k.users.contains (l, seg) && k.va == blockVa f.2.pc.bundle && k.ctx == e.2.ctx)

/-- A block that CFETCH of segment `seg` may take: one that only other segments of the launch hold (R231). -/
def State.evictable (s : State) (core l seg : Nat) (k : CodeBlock) : Bool :=
  k.users.all fun u => u.1 == l && u.2 != 0 && u.2 != seg && !s.busySegment core l u.2

/-- Blocks in the order in which their fetches completed, oldest first. -/
def byAge (k : CodeBlock) : List CodeBlock → List CodeBlock
  | [] => [k]
  | x :: r => if k.fetched.getD 0 < x.fetched.getD 0 then k :: x :: r else x :: byAge k r

/-- Take blocks from other segments of the launch, which have then lost them. -/
def State.evict (s : State) (core l : Nat) (ks : List CodeBlock) : State :=
  let c := s.core core
  let segs := ks.flatMap fun k => k.users.map (·.2)
  (s.setCore core { c with blocks := c.blocks.filter fun k => !ks.contains k }).onLaunch l fun x =>
    { x with landed := x.landed.filter fun p => !(p.1 == core && segs.contains p.2) }

/-- CFETCH's action: kD, and the state. -/
def State.cfetch (s : State) (core ctx l seg : Nat) (g : Segment) : State × Word :=
  let c := s.core core
  if g.va = 0 then (s, 2)
  else
    let need := c.missing ctx g - c.freeBlocks
    let old := (c.blocks.filter (s.evictable core l seg)).foldl (fun t k => byAge k t) []
    if old.length < need then (s, 1)
    else ((s.evict core l (old.take need)).leaseSegment core ctx l seg none g, 0)

def execCfetch (g : Guard) (d : BitVec 6) (seg : BitVec 8) (tok : BitVec 3) : State → Host.Outcome State Fault Refusal :=
  issue { guard := g, roles := allRoles, uniform := true, writes := [.k d.toNat] } fun x =>
    if !x.on then { s := x.s }
    else
      match x.s.launch x.b.launch with
      | none => { s := x.s }
      | some l =>
        match readSegment x.s x.b.core x.b.ctx l.entry seg.toNat with
        | .error e => x.fail e.1 e.2 .read
        | .ok sg =>
          let y := x.s.cfetch x.b.core x.b.ctx x.b.launch seg.toNat sg
          let id := y.1.nextId
          let t := y.1.addOp x tok latLoad .ready [x.kWrite d.toNat y.2]
          { s := if y.2 = 0 then t.onBunch x.id fun b =>
              { b with ops := b.ops.map fun o => if o.id == id then { o with lands := some seg.toNat } else o }
            else t }

end Sys2Proof.Machine
end

