-- ==== Sys2Proof/Machine/Rings.lean ====
section
/-! DEFINITION. Host rings (R244 to R247): the post that HPOST, ring-post commands and host-signal nodes make, HPOST and HPOST.flush
(R245, R359), and the coalescing timer (R246). -/

namespace Sys2Proof.Machine

/-- A ring descriptor's fields (R244). -/
def rdBase (d : Nat) : DWord := BitVec.ofNat 64 (d / 2 ^ 204 % 2 ^ 52)
def rdLog2n (d : Nat) : Nat := d / 2 ^ 200 % 16
def rdNcoal (d : Nat) : Nat := d / 2 ^ 192 % 256
def rdTcoal (d : Nat) : Nat := d / 2 ^ 176 % 2 ^ 16
def rdVec (d : Nat) : Nat := d / 2 ^ 165 % 2 ^ 11
def rdHead (d : Nat) : DWord := BitVec.ofNat 64 (d / 2 ^ 113 % 2 ^ 52)
def rdTail (d : Nat) : DWord := BitVec.ofNat 64 (d / 2 ^ 61 % 2 ^ 52)

/-- The VA of a ring's descriptor. -/
def ringVa (c : Context) (r : Nat) : DWord := BitVec.ofNat 64 ((bits c.hringBase 9 43).toNat * 512 + 32 * r)

def readRing (s : State) (core ctx r : Nat) : Except Met Nat := readRecord s core ctx (ringVa (s.ctx ctx) r) 4

def State.ring (s : State) (ctx r : Nat) : Ring := Store.get {} (s.ctx ctx).rings r
def State.setRing (s : State) (ctx r : Nat) (x : Ring) : State :=
  let c := s.ctx ctx
  s.setCtx ctx { c with rings := Store.put {} c.rings r x }

/-- Raise a ring's interrupt: nothing is pending then (R246). -/
def State.raiseRing (s : State) (ctx r d : Nat) : State :=
  (s.setRing ctx r { s.ring ctx r with pending := 0 }).raise (s.ctx ctx).fn (rdVec d)

/-- Write the record, then TAIL; a fault writes nothing further, and TAIL and the pending count stand (R245, R359). -/
def State.writePost (s : State) (core ctx r d : Nat) (record : List Word) : State × Except Met Word :=
  let x := s.ring ctx r
  let slot := rdBase d + BitVec.ofNat 64 (16 * (x.tail.toNat % 2 ^ rdLog2n d))
  match writeVa s core ctx slot (record.flatMap fun w => leBytes w.toNat 4) with
  | .error e => (s, .error (e, slot))
  | .ok t =>
    match writeVa t core ctx (rdTail d) (leBytes (x.tail + 1).toNat 4) with
    | .error e => (t, .error (e, rdTail d))
    | .ok u =>
      let y : Ring := { tail := x.tail + 1, pending := x.pending + 1, since := if x.pending = 0 then u.time else x.since }
      let v := u.setRing ctx r y
      (if max 1 (rdNcoal d) ≤ y.pending then v.raiseRing ctx r d else v, .ok 0)

/-- A post or flush: 0, 1 (FULL) or 2 (disabled), or a fault. -/
def State.post (s : State) (core ctx r : Nat) (record : List Word) (flush : Bool) : State × Except Met Word :=
  match readRing s core ctx r with
  | .error e => (s, .error e)
  | .ok d =>
    if rdLog2n d = 0 then (s.setRing ctx r {}, .ok 2)
    else if flush then (if (s.ring ctx r).pending = 0 then s else s.raiseRing ctx r d, .ok 0)
    else
      match readVa s core ctx (rdHead d) 4 with
      | .error e => (s, .error (e, rdHead d))
      | .ok h =>
        if (s.ring ctx r).tail - BitVec.ofNat 32 h = BitVec.ofNat 32 (2 ^ rdLog2n d) then (s, .ok 1)
        else s.writePost core ctx r d record

/-! ### HPOST (R359) -/

/-- The descriptor is read at issue; the post itself, a release at sys scope, follows (R245, R359). -/
def View.hpost (x : View) (d : BitVec 6) (ring : BitVec 4) (record : List Word) (flush : Bool) (tok : BitVec 3) : Result :=
  if !x.on then { s := x.s }
  else
    match readRing x.s x.b.core x.b.ctx ring.toNat with
    | .error e => x.fail e.1 e.2 .read
    | .ok _ =>
      x.release { s := x.s.addOp x tok latLoad (.unit { job := .post ring.toNat record flush, lane := lowest x.exec }) [x.kWrite d.toNat 0] }

def execHpost (g : Guard) (d : BitVec 6) (ring : BitVec 4) (b : BitVec 6) (tok : BitVec 3) : State → Host.Outcome State Fault Refusal :=
  issue { guard := g, roles := noMatrix, uniform := true, reads := kBlock b.toNat 4, writes := [.k d.toNat], rel := true } fun x =>
    x.hpost d ring ((List.range 4).map fun i => x.kAt (b.toNat + i)) false tok
def execHpostFlush (g : Guard) (d : BitVec 6) (ring : BitVec 4) (tok : BitVec 3) : State → Host.Outcome State Fault Refusal :=
  issue { guard := g, roles := noMatrix, uniform := true, writes := [.k d.toNat], rel := true } fun x => x.hpost d ring [] true tok

/-! ### The coalescing timer (R246, R306) -/

/-- Cycles in a microsecond at a DVFS step (R306). -/
def cyclesPerUs (step : Nat) : Nat :=
  match step with
  | 0 => 2250 | 1 => 2000 | 2 => 1750 | 3 => 1500 | _ => 1200

/-- A microsecond of real time, and what passes in a cycle of a DVFS step (R306). -/
def microsecond : Nat := 126000
def cycleTime (step : Nat) : Nat := microsecond / cyclesPerUs step

/-- The oldest pending record has reached TCOAL, which counts real microseconds. -/
def State.ringDue (s : State) (ctx r : Nat) : Option Nat :=
  let x := s.ring ctx r
  if x.pending = 0 then none
  else
    match readRing s feCore ctx r with
    | .error _ => none
    | .ok d =>
      if rdLog2n d ≠ 0 ∧ rdTcoal d ≠ 0 ∧ x.since + rdTcoal d * microsecond ≤ s.time then some d else none

def execRingCoalesceTimer (ctx ring : Nat) (s : State) : Host.Outcome State Fault Refusal :=
  match s.ringDue ctx ring with
  | some d => .next (s.raiseRing ctx ring d)
  | none => .refused (.eventNotEnabled "RING_COALESCE_TIMER")

end Sys2Proof.Machine
end

