-- ==== Sys2Proof/Machine/Accept.lean ====
section
/-! DEFINITION. What the front end accepts (R18, R222 to R228, R408): launch and task records and their refusal (R23 to R25, R233,
R394), the choice among candidates (R224), queue commands (R225, R226), and the copy agent. -/

namespace Sys2Proof.Machine

/-- Effective priority (R222). -/
def State.effective (s : State) (ctx pri : Nat) : Nat := min pri (bits (s.ctx ctx).pri 0 5).toNat

/-- A counter address: aligned, in the commons window, its cellar present (R225). -/
def counterOk (s : State) (ctx : Nat) (va : DWord) (align : Nat) : Bool :=
  va.toNat % align == 0 && (match locateWindow s ctx va with
    | .ok _ => true
    | .error _ => false)
/-- DONE_PTR: 0, or a counter. -/
def doneOk (s : State) (ctx : Nat) (va : DWord) : Bool := va == 0 || counterOk s ctx va 8

/-- A 64-byte record as the front end reads it (R408). -/
def feRecord (s : State) (ctx : Nat) (va : DWord) : Option (BitVec 512) :=
  if va.toNat % 64 ≠ 0 then none
  else
    match readRecord s feCore ctx va 8 with
    | .ok x => some (BitVec.ofNat 512 x)
    | .error _ => none

/-- The CRC of a record (R227); of one that cannot be read, of no bytes. -/
def digestOf (r : Option (BitVec 512)) : Word :=
  match r with
  | some x => crc32c (leBytes x.toNat 64)
  | none => crc32c []

/-! ### Launch records (R23 to R25) -/

def lrCount (r : BitVec 512) : Role → Nat
  | .vector => fieldOf r 448 5
  | .copy => fieldOf r 457 5
  | .matrix => fieldOf r 466 5
  | .epilogue => fieldOf r 475 5
/-- A role's budget; the matrix role uses no lane registers. -/
def lrBudget (r : BitVec 512) : Role → Nat
  | .vector => 16 * (fieldOf r 453 4 + 1)
  | .copy => 16 * (fieldOf r 462 4 + 1)
  | .matrix => 0
  | .epilogue => 16 * (fieldOf r 480 4 + 1)
def lrCask (r : BitVec 512) : DWord := r.extractLsb' 384 64
def lrHint (r : BitVec 512) : DWord := r.extractLsb' 256 64
def lrPart (r : BitVec 512) : DWord := r.extractLsb' 192 64
def lrArg (r : BitVec 512) : DWord := r.extractLsb' 128 64
def lrMaxTeams (r : BitVec 512) : Nat := fieldOf r 96 14
def lrExtent (r : BitVec 512) : Nat := fieldOf r 64 32

/-- The roles in the order of %bunch (R182). -/
def roleOrder : List Role := [.vector, .copy, .matrix, .epilogue]
/-- Lane registers of one team. -/
def teamRegs (r : BitVec 512) : Nat := roleOrder.foldl (fun n x => n + lrCount r x * lrBudget r x) 0

/-- A code address: a bundle boundary below 2^52. -/
def codeAddrOk (a : DWord) : Bool := bits a 0 7 == 0 && bits a 52 12 == 0

/-- The checks of the record alone (R23, R25, R281). An index launch with EXTENT 0 is refused too: R23 gives the range, R25 lists no
such refusal (DESIGN CHOICE, log entry 42). -/
def launchFieldsOk (r : BitVec 512) : Bool :=
  let vec := lrCount r .vector
  decide (lrPri r ≤ 23) && decide (lrKind r ≤ 1) && fieldOf r 492 7 == 0 && fieldOf r 471 4 == 0 &&
  decide (lrCount r .matrix ≤ 1) && codeAddrOk (lrEntry r) && bits (lrRefillOff r) 0 7 == 0 &&
  decide (1 ≤ teamBunches r ∧ teamBunches r ≤ 16) && decide (teamRegs r ≤ 2048) &&
  (!lrRefill r || decide (1 ≤ vec)) && (!lrQuad r || (lrKind r == 0 && lrRefill r)) &&
  (if lrKind r = 0 then lrCask r == 0 && lrExtent r != 0 else lrExtent r == 0)

/-- The partition vector: cellar and share, in order, or none (R24). -/
def readParts (s : State) (ctx : Nat) (r : BitVec 512) : Option (List (Nat × Nat)) :=
  let n := fieldOf r 484 8 + 1
  if (lrPart r).toNat % 8 ≠ 0 then none
  else
    match readUnits s feCore ctx (lrPart r) 8 n with
    | .error _ => none
    | .ok es => if es.all fun e => e / 2 ^ 32 % 2 ^ 24 == 0 then some (es.map fun e => (e / 2 ^ 56, e % 2 ^ 32)) else none

/-- The checks of the vector (R25). -/
def partsOk (s : State) (r : BitVec 512) (ps : List (Nat × Nat)) : Bool :=
  (ps.map (·.1)).Nodup && ps.all (fun p => s.cellarPresent p.1) &&
  (if lrKind r = 0 then (ps.foldl (fun n p => n + p.2) 0) == lrExtent r else ps.all fun p => p.2 == 0)

/-- Consecutive index ranges (R24). -/
def shareRanges (lo : Nat) : List (Nat × Nat) → Store (List (Nat × Nat)) → Store (List (Nat × Nat))
  | [], t => t
  | (c, n) :: r, t => shareRanges (lo + n) r (if n = 0 then t else Store.insert t c [(lo, lo + n)])

/-- A core on which work may be placed: firmware has not retired it (R64). -/
def State.leasable (s : State) (core : Nat) : Bool :=
  !(core / 144 == s.device && s.retiredUnits.contains (32 + 18 * (cellarOf core % 8) + coreInCellar core))
/-- The cores of the cellars of a partition vector. -/
def coresOf (ps : List (Nat × Nat)) : List Nat := ps.flatMap fun p => (List.range 18).map (18 * p.1 + ·)
def State.leasableIn (s : State) (ps : List (Nat × Nat)) : Nat := ((coresOf ps).filter s.leasable).length
/-- The team count of R26. -/
def State.teamCount (s : State) (r : BitVec 512) (ps : List (Nat × Nat)) : Nat :=
  if lrMaxTeams r = 0 then s.leasableIn ps else lrMaxTeams r

/-- The first 32 bytes of the argument block (R27). -/
def readArgs (s : State) (ctx : Nat) (va : DWord) : Option (List Word) :=
  if va = 0 then some (List.replicate 8 0)
  else
    match readUnits s feCore ctx va 1 32 with
    | .error _ => none
    | .ok bs => some ((List.range 8).map fun i => BitVec.ofNat 32 (unitsNat 1 ((bs.drop (4 * i)).take 4)))

/-- The cask of a queue launch, checked as CKOPN checks it (R25); none: refused. -/
def readLaunchCask (s : State) (ctx : Nat) (r : BitVec 512) : Option (Option CaskBind) :=
  if lrKind r = 0 then some none
  else if (lrCask r).toNat % 64 ≠ 0 then none
  else
    match openCask s feCore ctx (lrCask r) with
    | .error _ => none
    | .ok c =>
      if !caskDescOk c.d then none
      else
        match c.allHomes s with
        | .error _ => none
        | .ok hs => if homesOk hs none then some (some { va := lrCask r, desc := c.d }) else none

/-- A launch record is accepted, or none: refused (R25, R408). -/
def parseLaunch (s : State) (ctx : Nat) (va : DWord) (raw : Option (BitVec 512)) : Option Launch :=
  match raw with
  | none => none
  | some r =>
    if !launchFieldsOk r || !doneOk s ctx (lrDone r) then none
    else
      match readParts s ctx r, readArgs s ctx (lrArg r), readLaunchCask s ctx r with
      | some ps, some args, some cask =>
        if !partsOk s r ps || (lrCoop r && decide (s.leasableIn ps < s.teamCount r ps)) then none
        else some { ctx, task := false, raw := r, va, src := .device, seq := 0, parts := ps, args, cask, wdog := (s.ctx ctx).wdog
                    shares := if lrKind r = 0 ∧ !lrQuad r then shareRanges 0 ps [] else [] }
      | _, _, _ => none

/-! ### Task records (R233, R234, R394) -/

def trMc (r : BitVec 512) : Bool := r.getLsbD 504
def trWidth (r : BitVec 512) : Nat := 4 * 2 ^ fieldOf r 505 2
def trBudget (r : BitVec 512) : Nat := 16 * (fieldOf r 474 4 + 1)
def trDone (r : BitVec 512) : DWord := r.extractLsb' 384 64
def trArg (r : BitVec 512) (i : Nat) : Word := r.extractLsb' (64 + 32 * i) 32
/-- The cores CMASK names, as estate core numbers. -/
def trCores (r : BitVec 512) : List Nat := ((List.range 18).filter fun c => (trMask r).testBit c).map fun c => 18 * trCellar r + c

/-- A task record is accepted, or none: refused. -/
def parseTask (s : State) (ctx : Nat) (va : DWord) (raw : Option (BitVec 512)) : Option Launch :=
  match raw with
  | none => none
  | some r =>
    if decide (23 < trPri r) || fieldOf r 448 26 != 0 || fieldOf r 0 64 != 0 || !codeAddrOk (trPc r) || (trMc r && trMask r == 0) ||
        !s.cellarPresent (trCellar r) || !doneOk s ctx (trDone r) then none
    else some { ctx, task := true, raw := r, va, src := .device, seq := 0, parts := [(trCellar r, 0)], wdog := (s.ctx ctx).wdog
                todo := if trMc r then trCores r else [] }

def parseRecord (s : State) (task : Bool) (ctx : Nat) (va : DWord) (raw : Option (BitVec 512)) : Option Launch :=
  if task then parseTask s ctx va raw else parseLaunch s ctx va raw

/-- PRI of a launch or its task. -/
def Launch.pri (l : Launch) : Nat := if l.task then trPri l.raw else lrPri l.raw

/-! ### Journaled acceptance (R227, R228) -/

def Source.num : Source → Nat
  | .queue q => q
  | .device => 512
  | .depEngine => 513
  | .graph _ _ => 514
  | .pager => 515

/-- Queue an accepted launch or task for placement; `seq` is its journal entry's. -/
def State.enqueue (s : State) (src : Source) (seq : Nat) (x : Launch) : State :=
  { s with launches := Store.insert s.launches s.nextId { x with src, seq, since := s.now }, nextId := s.nextId + 1 }
/-- Journal a launch or task, and queue it for placement unless it is refused. -/
def State.takeIn (s : State) (src : Source) (ctx : Nat) (task : Bool) (ref : DWord) (tag digest : Word) (l : Option Launch) : State :=
  let t := s.jadd src.num ctx (if task then 2 else 1) (if l.isSome then 0 else 3) digest tag ref
  match l with
  | none => t
  | some x => t.enqueue src s.jseq x

/-! ### Candidates (R224) -/

inductive Pick
  | queue (q : Nat)
  /-- The pending-launch queue of an owner. -/
  | pending (owner : Nat)
  | dep (r : DepRec)
  | graph (run node : Nat)
  | upcall (u : Upcall)
deriving DecidableEq, Repr

structure Bid where
  pri  : Nat
  num  : Nat
  pick : Pick
deriving DecidableEq, Repr

/-- The VA of the slot at HEAD (R223). -/
def Queue.slotVa (q : Queue) : DWord := q.base + BitVec.ofNat 64 (64 * (q.head.toNat % 2 ^ q.log2n))

/-- The slot at HEAD, as read. -/
def State.slot (s : State) (q : Queue) : Option (BitVec 512) := feRecord s q.ctx q.slotVa

/-- R226 holds a queue back: a wait, or a FENCE that an earlier command has not passed. -/
def State.heldBack (s : State) (n : Nat) (q : Queue) : Bool :=
  q.wait.isSome || (match s.slot q with
    | some x => x.getLsbD 8 && s.commands.any fun c => c.queue == n
    | none => false)

/-- Work of a context is accepted (R269, R273, R300). -/
def State.accepts (s : State) (ctx : Nat) : Bool := (s.ctx ctx).created && s.ctxRuns ctx

def State.queueBids (s : State) : List Bid :=
  s.queues.filterMap fun e =>
    let q := e.2
    if q.en && q.head != q.tail && q.log2n != 0 && s.accepts q.ctx && !s.heldBack e.1 q then
      some { pri := s.effective q.ctx (min q.pri 23), num := e.1, pick := .queue e.1 }
    else none

/-- The priority of an unread record; one that cannot be read competes at 0. -/
def State.recordPri (s : State) (ctx : Nat) (va : DWord) : Nat :=
  match feRecord s ctx va with
  | some r => s.effective ctx (fieldOf r 507 5)
  | none => 0

/-- Where a pending-launch queue stands in rule 3 of R224: estate core and lowest slot of its team or task. -/
def State.plqPlace (s : State) (owner : Nat) : Nat :=
  let bs := s.bunches.filter fun e => if owner % 2 = 0 then e.2.team == some (owner / 2) else e.1 == owner / 2
  let core := match bs with
    | e :: _ => e.2.core
    | [] => 0
  32 * core + bs.foldl (fun m e => min m (e.2.slot.getD 16)) 16

def PendLaunch.ctx (p : PendLaunch) (s : State) : Nat :=
  match Store.find s.bunches p.bunch with
  | some b => b.ctx
  | none => 64

def State.pendingBids (s : State) : List Bid :=
  s.plqs.filterMap fun e =>
    match e.2 with
    | [] => none
    | p :: _ =>
      let ctx := p.ctx s
      if s.accepts ctx then some { pri := s.effective ctx (fieldOf p.raw 507 5), num := 512, pick := .pending e.1 } else none

/-- Fields of a graph node (R239). -/
def ndType (x : BitVec 512) : Nat := fieldOf x 508 4
def ndPred (x : BitVec 512) : Nat := fieldOf x 500 8
def ndSucc (x : BitVec 512) : Nat := fieldOf x 496 4
def ndRearm (x : BitVec 512) : Nat := fieldOf x 492 4
def ndSuccs (x : BitVec 512) : List Nat := (List.range (ndSucc x)).map fun i => fieldOf x (396 + 12 * i) 12
def ndPayload (x : BitVec 512) : DWord := BitVec.ofNat 64 (fieldOf x 344 52)

/-- PRI of the queue that carried a graph command. -/
def State.graphPri (s : State) (g : GraphRun) : Nat := s.effective g.ctx (min (Store.get {} s.queues g.queue).pri 23)

/-- The PRI at which a fired node competes: that of its record, or of its graph's queue. -/
def State.nodePri (s : State) (g : GraphRun) (node : Nat) (f : Fire) : Nat :=
  if ndType (g.nodes.getD node 0) ≤ 2 then s.effective g.ctx (match f.raw with
    | some r => fieldOf r 507 5
    | none => 0)
  else s.graphPri g

def State.graphBids (s : State) : List Bid :=
  s.graphs.flatMap fun g =>
    if s.accepts g.ctx && !g.waits then
      g.fires.map fun e => { pri := s.nodePri g e.1 e.2, num := 514, pick := .graph g.id e.1 }
    else []

def State.bids (s : State) : List Bid :=
  s.queueBids ++ s.pendingBids
    ++ (s.depRecs.filterMap fun d => if s.accepts d.ctx then some { pri := s.recordPri d.ctx d.va, num := 513, pick := .dep d } else none)
    ++ s.graphBids
    ++ (s.upcalls.filterMap fun u =>
        if s.accepts u.ctx then some { pri := s.effective u.ctx (fieldOf u.raw 507 5), num := 515, pick := .upcall u } else none)

/-- The next number in round-robin order after the last one. -/
def nextAfter (last : Option Nat) (ns : List Nat) : Option Nat :=
  let least (xs : List Nat) : Option Nat := match xs with
    | [] => none
    | x :: r => some (r.foldl min x)
  match last with
  | none => least ns
  | some k =>
    match least (ns.filter (k < ·)) with
    | some n => some n
    | none => least ns

/-- The candidate that R224 chooses: highest level, round-robin by number, and by place within number 512. -/
def State.chosen (s : State) : Option Bid :=
  match s.bids with
  | [] => none
  | b :: r =>
    let top := r.foldl (fun m x => max m x.pri) b.pri
    let level := (b :: r).filter fun x => x.pri == top
    match nextAfter (Store.find s.rr top) (level.map (·.num)) with
    | none => none
    | some n =>
      let mine := level.filter fun x => x.num == n
      if n ≠ 512 then mine.head?
      else
        let place (x : Bid) : Nat := match x.pick with
          | .pending o => s.plqPlace o
          | _ => 0
        match nextAfter (Store.find s.rr512 top) (mine.map place) with
        | none => none
        | some p => mine.find? fun x => place x == p

/-- The front end takes commands at all (R228, R299, R300, R303 to R305). -/
def State.frontEndOn (s : State) : Bool := s.running && !s.journalFull && s.ckptState != 1

/-- The bid that is accepted next, with the round-robin positions after it. -/
def State.acceptNext (s : State) : Option (Bid × State) :=
  if !s.frontEndOn then none
  else s.chosen.map fun b =>
    (b, { s with
      rr := Store.insert s.rr b.pri b.num
      rr512 := match b.pick with
        | .pending o => Store.insert s.rr512 b.pri (s.plqPlace o)
        | _ => s.rr512 })

/-! ### Queue commands (R225, R226) -/

/-- Body fields a kind names: bit positions and widths. -/
def namedBody (kind : Nat) : List (Nat × Nat) :=
  match kind with
  | 1 => [(64, 64)]
  | 2 => [(64, 64)]
  | 3 => [(64, 64), (128, 64), (192, 64), (256, 64)]
  | 4 => [(64, 64), (128, 64)]
  | 5 => [(64, 64), (128, 64), (192, 1)]
  | 6 => [(64, 64)]
  | 7 => [(64, 4), (72, 1), (128, 128)]
  | _ => []

/-- A command slot obeys R225 and R251, as far as the slot itself says. -/
def slotFieldsOk (x : BitVec 512) : Bool :=
  let kind := fieldOf x 0 8
  let rest := (namedBody kind).foldl (fun n f => putBits n f.1 f.2 0) x.toNat
  decide (1 ≤ kind ∧ kind ≤ 7) && fieldOf x 9 23 == 0 && rest / 2 ^ 64 == 0 &&
  (kind != 3 || (fieldOf x 192 64 != 0 && fieldOf x 192 64 % 16 == 0)) &&
  (kind != 7 || !x.getLsbD 72 || fieldOf x 128 128 == 0)

def slotDword (x : BitVec 512) (byte : Nat) : DWord := x.extractLsb' (8 * byte) 64

/-- The counters a slot names are counters. -/
def slotCountersOk (s : State) (ctx : Nat) (x : BitVec 512) : Bool :=
  match fieldOf x 0 8 with
  | 3 => doneOk s ctx (slotDword x 32)
  | 4 => counterOk s ctx (slotDword x 8) 8
  | 5 => counterOk s ctx (slotDword x 8) (if x.getLsbD 192 then 16 else 8)
  | _ => true

/-- A queue's turn: HEAD moves on; the slot, if the command is not refused; the slot's VA, TAG and digest. -/
structure Turn where
  s      : State
  q      : Queue
  slot   : Option (BitVec 512)
  ok     : Bool
  kind   : Nat
  va     : DWord
  tag    : Word
  digest : Word

/-- The kind of the slot at HEAD; a slot that cannot be read, or of no kind, is taken as a launch command, and refused. -/
def State.kindAt (s : State) (q : Queue) : Nat :=
  match s.slot q with
  | some x => let k := fieldOf x 0 8; if 1 ≤ k ∧ k ≤ 7 then k else 1
  | none => 1

/-- The turn of queue `n`, if R224 gives it one now and its command is of a kind. -/
def State.turn (s : State) (n kind : Nat) : Option Turn :=
  match s.acceptNext with
  | none => none
  | some (b, t) =>
    let q := Store.get {} s.queues n
    if b.pick = .queue n ∧ s.kindAt q = kind then
      let x := s.slot q
      some {
        s := { t with queues := Store.insert t.queues n { q with head := q.head + 1 } }
        q, slot := x, va := q.slotVa, digest := digestOf x
        kind := match x with
          | some y => fieldOf y 0 8
          | none => 0
        tag := match x with
          | some y => y.extractLsb' 32 32
          | none => 0
        ok := match x with
          | some y => slotFieldsOk y && slotCountersOk s q.ctx y
          | none => false }
    else none

/-- Journal a command of a queue that is no launch or task: refused, or running. -/
def Turn.journal (t : Turn) (n : Nat) (ok : Bool) : State :=
  let u := t.s.jadd n t.q.ctx t.kind (if ok then 0 else 3) t.digest t.tag t.va
  if ok then
    { u with commands := u.commands ++ [{ seq := t.s.jseq, queue := n, ctx := t.q.ctx, kind := t.kind, ref := 0 }] }
  else u

/-- Accept a launch or task command (R225). -/
def Turn.launch (t : Turn) (n : Nat) (task : Bool) : State :=
  match t.slot, t.ok with
  | some x, true =>
    let ctx := t.q.ctx
    let va := slotDword x 8
    let l := parseRecord t.s task ctx va (feRecord t.s ctx va)
    let u := t.s.takeIn (.queue n) ctx task t.va t.tag t.digest l
    if l.isSome then
      { u with commands := u.commands ++ [{ seq := t.s.jseq, queue := n, ctx, kind := t.kind, ref := t.s.nextId }] }
    else u
  | _, _ => t.journal n false

def execLaunchCommand (q : Nat) (s : State) : Host.Outcome State Fault Refusal :=
  match s.turn q 1 with
  | none => .refused (.eventNotEnabled "LAUNCH_COMMAND")
  | some t => .next (t.launch q false)
def execTaskCommand (q : Nat) (s : State) : Host.Outcome State Fault Refusal :=
  match s.turn q 2 with
  | none => .refused (.eventNotEnabled "TASK_COMMAND")
  | some t => .next (t.launch q true)

/-- Accept a copy for the copy agent. -/
def State.addAgent (s : State) (ctx seq : Nat) (x : BitVec 512) (node : Option (Nat × Nat)) : State :=
  let a : AgentCopy :=
    { id := s.nextId, ctx, seq, src := slotDword x 8, dst := slotDword x 16, len := fieldOf x 192 64, done := slotDword x 32, node }
  { (s.jstate seq 1) with agents := s.agents ++ [a], nextId := s.nextId + 1 }

def execCopyCommand (q : Nat) (s : State) : Host.Outcome State Fault Refusal :=
  match s.turn q 3 with
  | none => .refused (.eventNotEnabled "COPY_COMMAND")
  | some t =>
    match t.slot, t.ok with
    | some x, true => .next ((t.journal q true).addAgent t.q.ctx t.s.jseq x none)
    | _, _ => .next (t.journal q false)

/-- The copy agent moves 16 bytes at a time; a unit that cannot be read or written is left (log entry 23). -/
def agentMove (s : State) (ctx : Nat) (src dst : DWord) : Nat → State
  | 0 => s
  | n + 1 =>
    let t := match readUnits s feCore ctx src 1 16 with
      | .error _ => s
      | .ok bs => (bs.zip (List.range 16)).foldl (fun u e =>
          match writeVa u feCore ctx (dst + BitVec.ofNat 64 e.2) [BitVec.ofNat 8 e.1] with
          | .ok v => v
          | .error _ => u) s
    agentMove t ctx (src + 16) (dst + 16) n

/-- Add to a counter at its bank as the front end (R16), or complete at once where there is no counter. -/
def State.feAdd (s : State) (ctx : Nat) (va x : DWord) (d : Done) : State :=
  if va = 0 then s.completes d
  else
    match locateWindow s ctx va with
    | .ok (.commons c o) => s.toBank c o 18 (.add c o x d)
    | _ => s.completes d

/-- The copy of number `i` has moved its bytes. -/
def AgentCopy.arrived (i : Nat) (a : AgentCopy) : AgentCopy := if a.id = i then { a with moved := true } else a

def execCopyAgentComplete (i : Nat) (s : State) : Host.Outcome State Fault Refusal :=
  match s.agents.find? (fun a => a.id == i) with
  | none => .refused (.eventNotEnabled "COPY_AGENT_COMPLETE")
  | some a =>
    if a.moved || !s.ctxRuns a.ctx then .refused (.eventNotEnabled "COPY_AGENT_COMPLETE")
    else
      let t := agentMove s a.ctx a.src a.dst (a.len / 16)
      let u := { t with agents := t.agents.map (AgentCopy.arrived i) }
      .next (u.feAdd a.ctx a.done 1 (.command a.seq))

def execWaitCommand (q : Nat) (s : State) : Host.Outcome State Fault Refusal :=
  match s.turn q 4 with
  | none => .refused (.eventNotEnabled "WAIT_COMMAND")
  | some t =>
    match t.slot, t.ok with
    | some x, true =>
      let u := (t.journal q true).jstate t.s.jseq 1
      let r := Store.get {} u.queues q
      .next { u with queues := Store.insert u.queues q { r with wait := some (slotDword x 8, slotDword x 16, t.s.jseq) } }
    | _, _ => .next (t.journal q false)

/-- The 64-bit counter at an address, after its bank's earlier operations. -/
def State.counter (s : State) (ctx : Nat) (va : DWord) : Option Nat :=
  match locateWindow s ctx va with
  | .ok p => if s.poisoned p 8 then none else some (s.natAt p 8)
  | .error _ => none

def execWaitSatisfied (q : Nat) (s : State) : Host.Outcome State Fault Refusal :=
  let r := Store.get {} s.queues q
  match r.wait with
  | none => .refused (.eventNotEnabled "WAIT_SATISFIED")
  | some (va, target, seq) =>
    match s.counter r.ctx va with
    | none => .refused (.eventNotEnabled "WAIT_SATISFIED")
    | some n =>
      if target.toNat ≤ n ∧ s.running then .next (({ s with queues := Store.insert s.queues q { r with wait := none } }).completes (.command seq))
      else .refused (.eventNotEnabled "WAIT_SATISFIED")

def execSignalCommand (q : Nat) (s : State) : Host.Outcome State Fault Refusal :=
  match s.turn q 5 with
  | none => .refused (.eventNotEnabled "SIGNAL_COMMAND")
  | some t =>
    match t.slot, t.ok with
    | some x, true =>
      let u := (t.journal q true).jstate t.s.jseq 1
      let done := Done.command t.s.jseq
      match locateWindow u t.q.ctx (slotDword x 8) with
      | .ok (.commons c o) => .next (u.toBank c o 18 (if x.getLsbD 192 then .depd c o t.q.ctx done else .add c o (slotDword x 16) done))
      | _ => .next (u.completes done)
    | _, _ => .next (t.journal q false)

/-- A ring post or flush by a command or a node (R245): STATE 2 where it posts, else 3. What it wrote before a fault stays. -/
def State.postSlot (s : State) (ctx seq : Nat) (x : BitVec 512) : State :=
  let y := s.post feCore ctx (fieldOf x 64 4) ((List.range 4).map fun i => x.extractLsb' (128 + 32 * i) 32) (x.getLsbD 72)
  match y.2 with
  | .ok 0 => y.1.completes (.command seq)
  | _ => { (y.1.jstate seq 3) with commands := y.1.commands.filter fun c => c.seq != seq }

def execRingPostCommand (q : Nat) (s : State) : Host.Outcome State Fault Refusal :=
  match s.turn q 7 with
  | none => .refused (.eventNotEnabled "RING_POST_COMMAND")
  | some t =>
    match t.slot, t.ok with
    | some x, true => .next ((t.journal q true).postSlot t.q.ctx t.s.jseq x)
    | _, _ => .next (t.journal q false)

/-! ### Other acceptances -/

def execPendingLaunchAccept (owner : Nat) (s : State) : Host.Outcome State Fault Refusal :=
  match s.acceptNext with
  | none => .refused (.eventNotEnabled "PENDING_LAUNCH_ACCEPT")
  | some (b, t) =>
    match Store.get [] s.plqs owner with
    | p :: r =>
      if b.pick = .pending owner then
        let ctx := p.ctx s
        let l := parseRecord t p.task ctx p.va (some p.raw)
        let u := { t with plqs := Store.insert t.plqs owner r }.takeIn .device ctx p.task p.va 0 (digestOf (some p.raw)) l
        .next (u.finishOp p.bunch p.op [if l.isSome then BitVec.ofNat 32 (s.jseq % 2 ^ 31) else 0xFFFFFFFF])
      else .refused (.eventNotEnabled "PENDING_LAUNCH_ACCEPT")
    | [] => .refused (.eventNotEnabled "PENDING_LAUNCH_ACCEPT")

def execDependenceRecordAccept (s : State) : Host.Outcome State Fault Refusal :=
  match s.acceptNext with
  | some ({ pick := .dep d, .. }, t) =>
    let raw := feRecord t d.ctx d.va
    .next ({ t with depRecs := t.depRecs.erase d }.takeIn .depEngine d.ctx d.task d.va 0 (digestOf raw) (parseRecord t d.task d.ctx d.va raw))
  | _ => .refused (.eventNotEnabled "DEPENDENCE_RECORD_ACCEPT")

def execPagerUpcallAccept (s : State) : Host.Outcome State Fault Refusal :=
  match s.acceptNext with
  | some ({ pick := .upcall u, .. }, t) =>
    .next ({ t with upcalls := t.upcalls.erase u }.takeIn .pager u.ctx true u.va 0 (digestOf (some u.raw)) (parseTask t u.ctx u.va (some u.raw)))
  | _ => .refused (.eventNotEnabled "PAGER_UPCALL_ACCEPT")

end Sys2Proof.Machine
end

