-- ==== Sys2Proof/Machine/Atomics.lean ====
section
/-! DEFINITION. ATOM, ATOMS, ATOMC (R311 to R314) and RED (R385). -/

namespace Sys2Proof.Machine

/-- Where an atomic acts. -/
inductive AtomSpace | generic | window | scratch
deriving DecidableEq, Repr

/-- The columns of R311: codes 11 and 12 differ for ATOMC and RED. -/
inductive AtomCol | atom | atomc
deriving DecidableEq, Repr

/-- Bytes of the location (R311); .add.v4 covers 16. -/
def atomSize (col : AtomCol) (opc : Nat) : Nat :=
  match opc with
  | 8 => 8 | 9 => 8 | 10 => 8 | 13 => 8 | 14 => 8
  | 12 => match col with
    | .atom => 4
    | .atomc => 16
  | _ => 4
/-- Registers operand B leads (R312). -/
def atomRegs (col : AtomCol) (opc : Nat) : Nat :=
  match opc with
  | 7 => 2
  | 14 => 4
  | _ => atomSize col opc / 4

/-- Apply of R313 on w-bit numbers, cas apart. -/
def atomApply (col : AtomCol) (opc : Nat) (old b : Nat) : Nat :=
  let o : Word := BitVec.ofNat 32 old
  let y : Word := BitVec.ofNat 32 b
  match opc with
  | 0 => (o + y).toNat
  | 1 => min old b
  | 2 => max old b
  | 3 => (o &&& y).toNat
  | 4 => (o ||| y).toNat
  | 5 => (o ^^^ y).toNat
  | 6 => b
  | 8 => (old + b) % 2 ^ 64
  | 9 => min old b
  | 10 => max old b
  | 11 => match col with
    | .atom => (if o.slt y then o else y).toNat
    | .atomc => (fadd32 false o y).1.toNat
  | 12 => match col with
    | .atom => (if o.slt y then y else o).toNat
    | .atomc =>
      leNat ((List.range 4).flatMap fun i => leBytes ((old / 2 ^ (32 * i) % 2 ^ 32 + b / 2 ^ (32 * i) % 2 ^ 32) % 2 ^ 32) 4)
  | 13 => b
  | 15 => if b ≤ old then 0 else old + 1
  | _ => old

/-- What the location becomes: cas and cas.64 compare with the low part of the operand and write the high part; none: a read
only (R313). -/
def atomNew (col : AtomCol) (opc : Nat) (old b : Nat) : Option Nat :=
  match opc with
  | 7 => if old = b % 2 ^ 32 then some (b / 2 ^ 32) else none
  | 14 => if old = b % 2 ^ 64 then some (b / 2 ^ 64) else none
  | _ => some (atomApply col opc old b)

/-- The place of an atomic (R314). -/
def atomPlace (s : State) (x : View) (sp : AtomSpace) (a : DWord) (n lane : Nat) : Except Cause Place :=
  match sp with
  | .generic => placeOf s x.b.core x.b.ctx .generic a .write n lane
  | .window => placeOf s x.b.core x.b.ctx .window a .write n lane
  | .scratch => scratchPlace s x.b a n true

/-- The space of a generic or commons atomic; a scratchpad's is neither. -/
def AtomSpace.space : AtomSpace → Option Space
  | .generic => some .generic
  | .window => some .window
  | .scratch => none

/-- The value an atomic finds: undefined through a stale translation (R121). -/
def atomOld (s : State) (x : View) (sp : AtomSpace) (a : DWord) (p : Place) (n lane : Nat) : Nat :=
  match sp with
  | .generic => if staleAt s x.b.core x.b.ctx .generic a lane then s.natAt (.stale s.freeCount a.toNat) n else s.natAt p n
  | _ => s.natAt p n

/-- One lane's indivisible action: the old value; `lost` as for a store. -/
def atomLane (x : View) (sp : AtomSpace) (col : AtomCol) (opc : Nat) (lost : Option DWord) (a : DWord) (b : Nat) (s : State) (lane : Nat) :
    LaneDone Nat :=
  let n := atomSize col opc
  match atomPlace s x sp a n lane, lost with
  | .error e, _ => .fail e a
  | .ok _, some c => .fail .linkDown c
  | .ok p, none =>
    let t := s.ready_ p
    let old := atomOld t x sp a p n lane
    let u := match atomNew col opc old b with
      | some v => (t.countStore x.b.core x.id p a n).storeAt p (leBytes v n) x.id
      | none => t
    .ok (if sp == .generic then u.fillTlb x.b.core x.b.ctx a else u) old

/-- What holds an atomic back; a scratchpad's is never held. -/
def View.atomHeld (x : View) (sp : AtomSpace) (n : Nat) (a : Nat → DWord) (ls : List Nat) : Option Wait :=
  match sp.space with
  | some q => x.held q .write n a ls true
  | none => none

/-- The words of an old value. -/
def atomWords (col : AtomCol) (opc : Nat) (old : Nat) : List Word :=
  (List.range (atomSize col opc / 4)).map fun i => BitVec.ofNat 32 (old / 2 ^ (32 * i))

/-- The writes a helper lane receives: undefined values (R30). -/
def View.helperWrites (x : View) (d : VK) (n lane : Nat) : List RegWrite :=
  (x.b.destWrites d lane (List.replicate n 0)).map fun w => { w with undef := true }

/-- An atomic that returns the old value (R313). Its address is a pair's in each space (R312); R371 frees LDS and STS alone. -/
def atomOp (sp : AtomSpace) (col : AtomCol) (op : BitVec 4) (ord : AtomOrd) (sc : Scope) (g : Guard) (d base : VK) (off : BitVec 29)
    (b : SrcL) (tok : BitVec 3) : State → Host.Outcome State Fault Refusal :=
  let opc := op.toNat
  let u := d.isK
  let nw := atomSize col opc / 4
  issue { guard := g, roles := noMatrix, uniform := u, reads := base.regs 2 ++ b.regs (atomRegs col opc)
          writes := d.regs nw, acq := ord == .acq || ord == .acqRel, rel := ord == .rel || ord == .acqRel }
    fun x =>
      let ls := x.s.laneOrder (x.actors u)
      let y := overLanes .atomic (fun s l => atomLane x sp col opc (x.lostFault (ord == .rel || ord == .acqRel) sc) (x.addr base off l)
        (x.block b (atomRegs col opc) l) s l) ls x.s
      let hs := if u then [] else lanesOf (x.exec &&& x.b.helper)
      let ws := (y.2.1.flatMap fun e => x.b.destWrites d e.1 (atomWords col opc e.2)) ++ hs.flatMap fun l => x.helperWrites d nw l
      let t := y.1.told x.id y.2.2
      x.unlessHeld (x.atomHeld sp (atomSize col opc) (x.addr base off) ls)
        (if ws.isEmpty then { s := t, faults := y.2.2 } else { s := t.addOp x tok latLoad .ready ws, faults := y.2.2 })

def execAtom (op : BitVec 4) (ord : AtomOrd) (sc : Scope) (g : Guard) (d base : VK) (off : BitVec 29) (b : SrcL) (tok : BitVec 3) :=
  atomOp .generic .atom op ord sc g d base off b tok
def execAtoms (op : BitVec 4) (ord : AtomOrd) (sc : Scope) (g : Guard) (d base : VK) (off : BitVec 29) (b : SrcL) (tok : BitVec 3) :=
  atomOp .scratch .atom op ord sc g d base off b tok
def execAtomc (op : BitVec 4) (ord : AtomOrd) (sc : Scope) (g : Guard) (d base : VK) (off : BitVec 29) (b : SrcL) (tok : BitVec 3) :=
  atomOp .window .atomc op ord sc g d base off b tok

/-- RED (R385): no old value is returned. -/
def execRed (op : BitVec 4) (rel : Bool) (sc : Scope) (g : Guard) (base : VK) (off : BitVec 29) (b : SrcL) (t : TokOpt) :
    State → Host.Outcome State Fault Refusal :=
  let opc := op.toNat
  let u := storeUniform base b
  issue { guard := g, roles := noMatrix, uniform := u, reads := base.regs 2 ++ b.regs (atomRegs .atomc opc), rel }
    fun x =>
      let ls := x.s.laneOrder (x.actors u)
      let y := overLanes .atomic
        (fun s l => atomLane x .generic .atomc opc (x.lostFault rel sc) (x.addr base off l) (x.block b (atomRegs .atomc opc) l) s l) ls x.s
      x.unlessHeld (x.atomHeld .generic (atomSize .atomc opc) (x.addr base off) ls)
        (x.stored t latLoad (y.1.told x.id y.2.2) y.2.2 (!y.2.1.isEmpty))

end Sys2Proof.Machine
end

