-- ==== Sys2Proof/Machine/Bunchwide.lean ====
section
/-! DEFINITION. The bunch-wide and predicate instructions (R37): VOTE (R402), SHFL (R390), BRED and BSCAN (R320 to R322), MATCH
(R375), QDIF (R284), PLOP (R381). -/

namespace Sys2Proof.Machine

/-- The contributors of a reduction or vote: the split's mask for a k destination, else the executing lanes (R321, R402). -/
def View.contributors (x : View) (d : VKP) : Mask :=
  match d with
  | .k _ => x.sp.mask
  | _ => x.exec

/-- Registers a destination of class v, k or p names. -/
def vkpReg : VKP → Reg
  | .v n => .v n.toNat
  | .k n => .k n.toNat
  | .p n => .p n.toNat
def vkpIsK : VKP → Bool
  | .k _ => true
  | _ => false

/-- VOTE's result over contributors and the predicate (R402). -/
def voteFn (op : VoteOp) (c p : Mask) : Word :=
  match op with
  | .any => if c &&& p = 0 then 0 else 1
  | .all => if c &&& ~~~p = 0 then 1 else 0
  | .ballot => c &&& p

/-- VOTE (R402). -/
def execVote (op : VoteOp) (g : Guard) (d : VKP) (a : BitVec 3) : State → Host.Outcome State Fault Refusal :=
  issue { guard := g, roles := noMatrix, uniform := vkpIsK d, reads := [.p a.toNat], writes := [vkpReg d], lat := some 4, wide := vkpIsK d }
    fun x =>
      let r := voteFn op (x.contributors d) (x.b.pAt a.toNat)
      x.answer (match d with
        | .v n => x.setVK (.v n) fun _ => r
        | .k n => x.setVK (.k n) fun _ => r
        | .p n => x.setPred n.toNat fun _ => r != 0)

/-- The lane SHFL reads: none outside WIDTH (R390). -/
def shflLane (op : ShflOp) (lane : Nat) (b : Word) : Option Nat :=
  match op with
  | .idx => some b.toNat
  | .up => if b.toNat ≤ lane then some (lane - b.toNat) else none
  | .down => some (lane + b.toNat)
  | .xor => some (lane ^^^ b.toNat)

/-- SHFL (R390): lanes read their sources as they stood at issue. -/
def execShfl (op : ShflOp) (g : Guard) (d a : BitVec 8) (b : SrcL) : State → Host.Outcome State Fault Refusal :=
  issue { guard := g, roles := noMatrix, reads := .v a.toNat :: b.regs, writes := [.v d.toNat], lat := some 8, wide := true }
    fun x => x.answer (x.setVK (.v d) fun l =>
      match shflLane op l (x.wordL b l) with
      | some j => if j < x.b.width ∧ x.sp.mask.getLsbD j then x.b.vAt a.toNat j else x.b.vAt a.toNat l
      | none => x.b.vAt a.toNat l)

/-- Combine of R320, with flags. -/
def combine (op : RedOp) (a b : Word) : Word × FlagBits :=
  match op with
  | .add => (a + b, 0)
  | .min => (if a.slt b then a else b, 0)
  | .max => (if a.slt b then b else a, 0)
  | .and => (a &&& b, 0)
  | .or => (a ||| b, 0)
  | .xor => (a ^^^ b, 0)
  | .umin => (if a.ult b then a else b, 0)
  | .umax => (if a.ult b then b else a, 0)
  | .fadd => fadd32 false a b
  | .fmin => fmin32 false a b
  | .fmax => fmax32 false a b
/-- The identities of R320. -/
def redIdentity : RedOp → Word
  | .add => 0 | .min => 0x7FFFFFFF | .max => 0x80000000 | .and => 0xFFFFFFFF | .or => 0 | .xor => 0 | .umin => 0xFFFFFFFF
  | .umax => 0 | .fadd => 0x80000000 | .fmin => 0x7F800000 | .fmax => 0xFF800000

/-- One level of the fixed tree of R321. -/
def pairUp (op : RedOp) : List Word → List Word × FlagBits
  | a :: b :: r =>
    let c := combine op a b
    let y := pairUp op r
    (c.1 :: y.1, c.2 ||| y.2)
  | xs => (xs, 0)
/-- `n` levels. -/
def reduceTree (op : RedOp) : Nat → List Word → List Word × FlagBits
  | 0, xs => (xs, 0)
  | n + 1, xs =>
    let y := pairUp op xs
    let z := reduceTree op n y.1
    (z.1, y.2 ||| z.2)

/-- BRED over contributors (R321). -/
def bredFn (op : RedOp) (c : Mask) (f : Nat → Word) : Word × FlagBits :=
  let y := reduceTree op 5 ((List.range 32).map fun i => if c.getLsbD i then f i else redIdentity op)
  (y.1.headD 0, y.2)

def execBred (op : RedOp) (g : Guard) (d : VK) (a : BitVec 8) : State → Host.Outcome State Fault Refusal :=
  issue { guard := g, roles := noMatrix, uniform := d.isK, reads := [.v a.toNat], writes := d.regs, lat := some 12, wide := d.isK }
    fun x =>
      if !x.on then { s := x.s }
      else
        let r := bredFn op (if d.isK then x.sp.mask else x.exec) (x.b.vAt a.toNat)
        let b := x.setVK d fun _ => r.1
        x.answer { b with fpStat := b.fpStat ||| r.2 }

/-- BSCAN (R322): the value for each lane in ascending order. -/
def scanLanes (op : RedOp) (excl : Bool) (f : Nat → Word) : List Nat → Word → List (Nat × Word)
  | [], _ => []
  | l :: r, acc =>
    let n := (combine op acc (f l)).1
    (l, if excl then acc else n) :: scanLanes op excl f r n

def execBscan (op : RedOp) (excl : Bool) (g : Guard) (d a : BitVec 8) : State → Host.Outcome State Fault Refusal :=
  issue { guard := g, roles := noMatrix, reads := [.v a.toNat], writes := [.v d.toNat], lat := some 14 }
    fun x =>
      let vs := scanLanes op excl (x.b.vAt a.toNat) (lanesOf x.exec) (redIdentity op)
      x.answer (x.setVK (.v d) fun l => (vs.lookup l).getD 0)

/-- MATCH (R375). -/
def execMatchl (g : Guard) (d : MatchD) (a : BitVec 8) : State → Host.Outcome State Fault Refusal :=
  let w : Reg := match d with
    | .any n => .v n.toNat
    | .all n => .p n.toNat
  issue { guard := g, roles := noMatrix, reads := [.v a.toNat], writes := [w], lat := some 16 }
    fun x =>
      let v (l : Nat) : Word := x.b.vAt a.toNat l
      x.answer (match d with
        | .any n => x.setVK (.v n) fun l => x.where_ fun j => v j == v l
        | .all n => x.setPred n.toNat fun _ => (lanesOf x.exec).all fun j => v j == v (lowest x.exec))

/-- A[high] − A[low] of a pair (R284). -/
def qdifFn (hi lo : Word) : Word × FlagBits :=
  match Fmt.f32.nans [hi.toNat, lo.toNat] with
  | some r => w2 r
  | none => fadd32 false hi (lo ^^^ 0x80000000)

/-- QDIF (R284, R384): a partner outside the split's mask gives +0. -/
def execQdif (y : Bool) (g : Guard) (d a : BitVec 8) : State → Host.Outcome State Fault Refusal :=
  issue { guard := g, roles := noMatrix, reads := [.v a.toNat], writes := [.v d.toNat], lat := some 6, wide := true }
    fun x =>
      let b := if y then 2 else 1
      x.answer (x.setFlagged (.v d) fun l =>
        let j := l ^^^ b
        if !x.sp.mask.getLsbD j then (0, 0)
        else if j < l then qdifFn (x.b.vAt a.toNat l) (x.b.vAt a.toNat j)
        else qdifFn (x.b.vAt a.toNat j) (x.b.vAt a.toNat l))

/-- PLOP's result (R381). -/
def plopFn (op : PlopOp) (a b : Bool) : Bool :=
  match op with
  | .and => a && b
  | .or => a || b
  | .xor => a != b
  | .andn => a && !b
  | .not => !a
  | .mov => a

def execPlop (op : PlopOp) (g : Guard) (d a : BitVec 3) (b : Option (BitVec 3)) : State → Host.Outcome State Fault Refusal :=
  let br : List Reg := match b with
    | some n => [.p n.toNat]
    | none => []
  issue { guard := g, roles := noMatrix, reads := .p a.toNat :: br, writes := [.p d.toNat], lat := some 2 }
    fun x => x.answer (x.setPred d.toNat fun l =>
      plopFn op ((x.b.pAt a.toNat).getLsbD l) (match b with
        | some n => (x.b.pAt n.toNat).getLsbD l
        | none => false))

end Sys2Proof.Machine
end

