-- ==== Sys2Proof/Machine/Graphs.lean ====
section
/-! DEFINITION. Graphs (R239, R240, R249, R250): graph commands, fired nodes, completions, conditional nodes, and GARM (R241, R357). -/

namespace Sys2Proof.Machine

def State.run (s : State) (id : Nat) : Option GraphRun := s.graphs.find? fun g => g.id == id
def State.setRun (s : State) (g : GraphRun) : State := { s with graphs := s.graphs.map fun x => if x.id = g.id then g else x }

def GraphRun.node (g : GraphRun) (i : Nat) : BitVec 512 := g.nodes.getD i 0
def GraphRun.stateOf (g : GraphRun) (i : Nat) : NodeState := Store.get .armed g.state i
def GraphRun.setState (g : GraphRun) (i : Nat) (x : NodeState) : GraphRun := { g with state := Store.insert g.state i x }
def GraphRun.busy (g : GraphRun) (i : Nat) : Bool := g.stateOf i == .fired || g.stateOf i == .running

/-- Arm a node: it fires at once when it has no predecessor. -/
def GraphRun.arm (g : GraphRun) (i : Nat) : GraphRun :=
  let n := ndPred (g.node i)
  let g1 := { g with rem := Store.insert g.rem i n }
  if n = 0 then g1.setState i .fired else g1
/-- Arm every node: the run begins. -/
def GraphRun.begin (g : GraphRun) : GraphRun := (List.range g.nodes.length).foldl GraphRun.arm { g with waits := false, state := [], fires := [], rem := [], held := [] }

/-- Re-arm a node; of one that runs, the re-arm is held. -/
def GraphRun.rearm (g : GraphRun) (i : Nat) : GraphRun :=
  if g.busy i then (if g.held.contains i then g else { g with held := i :: g.held }) else g.arm i

/-- One predecessor of a node has completed. -/
def GraphRun.drop (g : GraphRun) (i : Nat) : GraphRun :=
  let n := Store.get 0 g.rem i
  let g1 := { g with rem := Store.insert g.rem i (n - 1) }
  if n = 1 then g1.setState i .fired else g1

/-- The successors that a completion releases: a conditional node's exit list only, and only towards it (R240). -/
def nodeExits (x : BitVec 512) : List Nat := if ndType x = 4 then (ndSuccs x).drop (ndRearm x) else ndSuccs x

/-- A node completes: its successors' counts drop where `exits` says so; a held re-arm is applied. -/
def GraphRun.complete (g : GraphRun) (i : Nat) (exits : Bool) : GraphRun :=
  let g1 := g.setState i .done
  let g2 := if exits then (nodeExits (g.node i)).foldl GraphRun.drop g1 else g1
  if g2.held.contains i then ({ g2 with held := g2.held.filter (· != i) }).arm i else g2

/-- Nothing runs, is fired or holds a re-arm. -/
def GraphRun.over (g : GraphRun) : Bool := !g.waits && g.held.isEmpty && !g.state.any fun e => e.2 == .fired || e.2 == .running

/-- A run that is over ends: DONE_PTR, the command's completion; then a run that waited for it begins, and where none of its nodes
fires it is over too. At most `n` runs end. -/
def State.endRuns (s : State) (id : Nat) : Nat → State
  | 0 => s
  | n + 1 =>
    match s.run id with
    | none => s
    | some g =>
      if !g.over then s
      else
        let s1 := ({ s with graphs := s.graphs.filter fun x => x.id != id }).feAdd g.ctx g.done 1 (.command g.seq)
        match s1.graphs.find? (fun x => x.ctx == g.ctx && x.va == g.va && x.waits) with
        | some r => ((s1.setRun r.begin).jstate r.seq 1).endRuns r.id n
        | none => s1
def State.endRun (s : State) (id : Nat) : State := s.endRuns id s.graphs.length

/-- A node completes in its run. -/
def State.nodeDone (s : State) (run node : Nat) (exits : Bool) : State :=
  match s.run run with
  | none => s
  | some g => (s.setRun (g.complete node exits)).endRun run

/-! ### Graph commands -/

/-- A node obeys R239 and R250. -/
def nodeOk (n : Nat) (x : BitVec 512) : Bool :=
  decide (1 ≤ ndType x ∧ ndType x ≤ 5) && decide (ndSucc x ≤ 8) && decide (ndRearm x ≤ ndSucc x) && (ndType x == 4 || ndRearm x == 0) &&
  (ndSuccs x).all (fun j => decide (j < n)) && fieldOf x 0 344 == 0 && (ndType x != 4 || (ndPayload x).toNat % 4 == 0)

/-- Read a graph: its DONE_PTR and nodes, or none: refused. -/
def readGraph (s : State) (ctx : Nat) (va : DWord) : Option (DWord × List (BitVec 512)) :=
  match feRecord s ctx va with
  | none => none
  | some h =>
    let n := fieldOf h 499 13
    let done := h.extractLsb' 384 64
    if n = 0 ∨ 4096 < n ∨ fieldOf h 0 384 ≠ 0 ∨ fieldOf h 448 51 ≠ 0 ∨ !doneOk s ctx done then none
    else
      match readUnits s feCore ctx (va + 64) 8 (8 * n) with
      | .error _ => none
      | .ok ws =>
        let nodes := (List.range n).map fun i => BitVec.ofNat 512 (unitsNat 8 ((ws.drop (8 * i)).take 8))
        if nodes.all (nodeOk n) then some (done, nodes) else none

def execGraphCommand (q : Nat) (s : State) : Host.Outcome State Fault Refusal :=
  match s.turn q 6 with
  | none => .refused (.eventNotEnabled "GRAPH_COMMAND")
  | some t =>
    match t.slot, t.ok with
    | some x, true =>
      let va := slotDword x 8
      match readGraph t.s t.q.ctx va with
      | none => .next (t.journal q false)
      | some (done, nodes) =>
        let u := t.journal q true
        let later := u.graphs.any fun g => g.ctx == t.q.ctx && g.va == va
        let g : GraphRun := { id := u.nextId, ctx := t.q.ctx, va, seq := t.s.jseq, queue := q, done, nodes, waits := true }
        let v := { u with graphs := u.graphs ++ [if later then g else g.begin], nextId := u.nextId + 1 }
        .next (if later then v else (v.jstate t.s.jseq 1).endRun g.id)
    | _, _ => .next (t.journal q false)

/-! ### Fired nodes (R224, R240) -/

/-- The journal's KIND of a node (R227). -/
def nodeKind (x : BitVec 512) : Nat :=
  match ndType x with
  | 4 => 8
  | 5 => 7
  | t => t

/-- A node has fired: its entry is written with STATE 0, and its record or slot is read. -/
def State.fire (s : State) (run node : Nat) : State :=
  match s.run run with
  | none => s
  | some g =>
    let x := g.node node
    let raw := if ndType x = 4 then some x else feRecord s g.ctx (ndPayload x)
    let ref := if ndType x = 4 then g.va + BitVec.ofNat 64 (64 + 64 * node) else ndPayload x
    (s.jadd 514 g.ctx (nodeKind x) 0 (digestOf raw) 0 ref).setRun { g with fires := Store.insert g.fires node { seq := s.jseq, raw } }

/-- Nodes that have fired and have no entry yet. -/
def GraphRun.toFire (g : GraphRun) : List Nat :=
  if g.waits then [] else (g.state.filter fun e => e.2 == .fired && (Store.find g.fires e.1).isNone).map (·.1)

/-- Every node that has fired is journaled; while the journal is full, it waits (R228). -/
def State.fireNodes (s : State) : State :=
  s.graphs.foldl (fun t g => g.toFire.foldl (fun u i => if u.journalFull then u else u.fire g.id i) t) s

/-- The slot of a copy or host-signal node, if it is one of its kind and obeys R225 and R251. -/
def nodeSlot (s : State) (g : GraphRun) (raw : Option (BitVec 512)) (kind : Nat) : Option (BitVec 512) :=
  match raw with
  | some y => if fieldOf y 0 8 = kind ∧ slotFieldsOk y ∧ slotCountersOk s g.ctx y then some y else none
  | none => none

/-- A conditional node acts (R240, R250): a nonzero value re-arms, zero or an unreadable value exits. -/
def State.condition (s : State) (g : GraphRun) (i seq : Nat) : State :=
  let x := g.node i
  match readVa s feCore g.ctx (ndPayload x) 4 with
  | .error _ => (s.jstate seq 3).nodeDone g.id i true
  | .ok 0 => (s.jstate seq 2).nodeDone g.id i true
  | .ok _ => ((s.jstate seq 2).setRun (((ndSuccs x).take (ndRearm x)).foldl GraphRun.rearm g)).nodeDone g.id i false

/-- A fired node of a run is accepted: its payload runs, or is refused (R240). -/
def State.runNode (s : State) (g0 : GraphRun) (i : Nat) (f : Fire) : State :=
  let g := { g0.setState i .running with fires := Store.erase g0.fires i }
  let s1 := s.setRun g
  let x := g.node i
  let refused := (s1.jstate f.seq 3).nodeDone g.id i true
  match ndType x with
  | 4 => s1.condition g i f.seq
  | 3 =>
    match nodeSlot s1 g f.raw 3 with
    | none => refused
    | some y => s1.addAgent g.ctx f.seq y (some (g.id, i))
  | 5 =>
    match nodeSlot s1 g f.raw 7 with
    | none => refused
    | some y => (s1.postSlot g.ctx f.seq y).nodeDone g.id i true
  | t =>
    match parseRecord s1 (t == 2) g.ctx (ndPayload x) f.raw with
    | none => refused
    | some l => s1.enqueue (.graph g.id i) f.seq l

def execGraphRecordAccept (s : State) : Host.Outcome State Fault Refusal :=
  match s.acceptNext with
  | some ({ pick := .graph run node, .. }, t) =>
    match t.run run with
    | some g =>
      match Store.find g.fires node with
      | some f => .next (t.runNode g node f)
      | none => .refused (.eventNotEnabled "GRAPH_RECORD_ACCEPT")
    | none => .refused (.eventNotEnabled "GRAPH_RECORD_ACCEPT")
  | _ => .refused (.eventNotEnabled "GRAPH_RECORD_ACCEPT")

/-- The work of a running node has ended: no launch, task or copy of it is left, and its increment has been made. -/
def State.nodeIdle (s : State) (run node : Nat) : Bool :=
  !(s.launches.any fun e => e.2.src == .graph run node) && !s.agents.any fun a => a.node == some (run, node)

/-- GRAPH_NODE_COMPLETE (R240). -/
def execGraphNodeComplete (run node : Nat) (s : State) : Host.Outcome State Fault Refusal :=
  match s.run run with
  | none => .refused (.eventNotEnabled "GRAPH_NODE_COMPLETE")
  | some g =>
    if g.stateOf node = .running ∧ s.nodeIdle run node then .next (s.nodeDone run node true)
    else .refused (.eventNotEnabled "GRAPH_NODE_COMPLETE")

/-! ### GARM -/

def execGarm (g : Guard) (d a : BitVec 6) (off : BitVec 29) (b : BitVec 6) (tok : BitVec 3) : State → Host.Outcome State Fault Refusal :=
  issue { guard := g, roles := noMatrix, uniform := true, reads := kBlock a.toNat 2 ++ [.k b.toNat], writes := [.k d.toNat], rel := true } fun x =>
    if !x.on then { s := x.s }
    else
      let va := x.kAddr a off
      if va.toNat % 64 ≠ 0 then x.fail .misaligned va .read
      else
        match locate x.s x.b.core x.b.ctx va .read with
        | .error e => x.fail e va .read
        | .ok _ =>
          let n := (x.kAt b.toNat).toNat
          let y : State × Word := match x.s.graphs.find? (fun q => q.ctx == x.b.ctx && q.va == va && !q.waits) with
            | none => (x.s, 1)
            | some q => if q.nodes.length ≤ n then (x.s, 2) else (x.s.setRun (q.rearm n), 0)
          x.release { s := y.1.addOp x tok latLoad .ready [x.kWrite d.toNat y.2] }

end Sys2Proof.Machine
end

