-- ==== Sys2Proof/Machine/Place.lean ====
section
/-! DEFINITION. Leases and placement (R26, R27, R39, R182, R224, R229, R234, R235, R277): teams of launches, bunches of tasks, and
the completion of launches (R28). -/

namespace Sys2Proof.Machine

/-! ### Room on a core -/

/-- The bunches that hold a slot of a core. -/
def State.residents (s : State) (core : Nat) : List Bunch := (s.bunches.filter fun e => e.2.core == core && e.2.slot.isSome).map (·.2)
/-- The free slots of a core, ascending. -/
def State.freeSlots (s : State) (core : Nat) : List Nat := (List.range 16).filter fun n => !(s.residents core).any fun b => b.slot == some n
/-- Lane registers of the resident bunches (R39). -/
def State.usedRegs (s : State) (core : Nat) : Nat := (s.residents core).foldl (fun n b => n + b.budget) 0
def State.roomFor (s : State) (core bunches regs : Nat) : Bool :=
  decide (bunches ≤ (s.freeSlots core).length) && decide (s.usedRegs core + regs ≤ 2048)

/-- Segment 0: of a task, the code at PC (R234); none where its entry cannot be read. -/
def Launch.segment (l : Launch) (s : State) : Segment :=
  match readSegment s feCore l.ctx l.entry 0 with
  | .ok g => if l.task then { g with va := blockVa l.entry } else g
  | .error _ => { va := 0, len := 0 }
/-- Segment 0 has blocks on a core (R229). -/
def State.codeFits (s : State) (core : Nat) (l : Launch) : Bool :=
  decide ((s.core core).missing l.ctx (l.segment s) ≤ (s.core core).freeBlocks)

/-- Some CWAIT of a bunch has found its value, or a split of it goes on. -/
def Bunch.satisfied (b : Bunch) : Bool := b.splits.any fun e => !e.2.frozen && match e.2.state with
  | .ready => true
  | .blocked (.counter _ _ _ (some _) _ _) _ => true
  | _ => false
/-- A saved bunch whose wait is over: it waits for a slot (R243, R266). -/
def State.wantsSlot (s : State) (b : Bunch) : Bool :=
  b.slot.isNone && s.ctxRuns b.ctx && (if b.futures.isEmpty then b.satisfied else s.futuresDone b)
/-- A core is held for a swapped-out bunch (R243). -/
def State.heldCore (s : State) (core : Nat) : Bool := s.bunches.any fun e => e.2.core == core && e.2.team.isSome && s.wantsSlot e.2

/-- Teams on a core. -/
def State.teamsOn (s : State) (core : Nat) : List (Nat × Team) := s.teams.filter fun e => e.2.core == core

/-! ### Whether a launch places a team -/

/-- Exactly N teams are placed (R26, R277). -/
def Launch.total (l : Launch) : Bool := lrCoop l.raw || lrCount l.raw .vector == 0
def State.teamLimit (s : State) (l : Launch) : Nat := s.teamCount l.raw l.parts

/-- The source holds an untaken item for a cellar; of a queue launch, none once every vector bunch placed has drained (log entry
22). -/
def State.hasItem (s : State) (l : Launch) (cellar : Nat) : Bool :=
  if lrQuad l.raw then !(Store.get [] l.queue cellar).isEmpty
  else if lrKind l.raw = 1 then
    if l.teams ≠ 0 ∧ l.teams * lrCount l.raw .vector ≤ l.drains then false
    else
      match l.cask with
      | none => false
      | some k =>
        match openCask s feCore l.ctx k.va with
        | .error _ => false
        | .ok c =>
          match c.take s l.parts cellar 1 with
          | .ok (_, e) => !e.isEmpty
          | .error _ => false
  else
    let rows := [0, 1, 2].foldl (fun n r => n + rangesLeft (Store.get [] l.rows (3 * cellar + r))) 0
    rangesLeft (Store.get [] l.shares cellar) + rows != 0 || (lrSteal l.raw && l.untaken != 0)

/-- Teams of a launch that are resident or saved. -/
def State.teamsLive (s : State) (id : Nat) : Nat := (s.teams.filter fun e => e.2.launch == id).length

/-- A further team is due on a cellar (R26). -/
def State.teamDue (s : State) (id : Nat) (l : Launch) (cellar : Nat) : Bool :=
  l.parts.any (fun p => p.1 == cellar) &&
  (if l.total then decide (l.teams < s.teamLimit l) else decide (s.teamsLive id < s.teamLimit l) && s.hasItem l cellar)

/-- A launch that takes no items and whose MAX_TEAMS is 0 puts one team on each leasable core (R277). -/
def Launch.onePerCore (l : Launch) : Bool := !lrCoop l.raw && lrCount l.raw .vector == 0 && lrMaxTeams l.raw == 0

/-- A core can take a team: room, code, no team of the launch yet, and one matrix bunch at most (log entry 20). -/
def State.coreTakes (s : State) (id : Nat) (l : Launch) (core : Nat) : Bool :=
  s.cellarPresent (cellarOf core) && s.leasable core && !s.heldCore core && s.roomFor core (teamBunches l.raw) (teamRegs l.raw) && s.codeFits core l &&
  !(s.teamsOn core).any (fun e => e.2.launch == id) && !(l.onePerCore && l.hosts.contains core) &&
  (lrCount l.raw .matrix == 0 || !s.bunches.any fun e => e.2.core == core && e.2.role == .matrix)

/-- The cores of a launch's cellars that can take a team. -/
def State.takers (s : State) (id : Nat) (l : Launch) : List Nat :=
  (coresOf l.parts).filter (s.coreTakes id l)

/-- A team of a launch can be placed on a core now; of a cooperative launch, all of them together (R26). -/
def State.teamFits (s : State) (id : Nat) (l : Launch) (core : Nat) : Bool :=
  s.ctxRuns l.ctx && !l.task && !l.closing && s.teamDue id l (cellarOf core) && s.coreTakes id l core &&
  (!lrCoop l.raw || (l.teams == 0 && decide (s.teamLimit l ≤ (s.takers id l).length)))

/-- A bunch of a task can be placed on a core now (R234): after its own saved bunches (R267). -/
def State.taskFits (s : State) (id : Nat) (l : Launch) (core : Nat) : Bool :=
  s.ctxRuns l.ctx && l.task && !l.closing && s.leasable core && !s.heldCore core && cellarOf core == trCellar l.raw && s.roomFor core 1 (trBudget l.raw) && s.codeFits core l &&
  (if trMc l.raw then l.todo.contains core
   else l.placed == 0 && (trMask l.raw == 0 || (trMask l.raw).testBit (coreInCellar core))) &&
  !s.bunches.any fun e => e.2.launch == id && s.wantsSlot e.2

/-- A launch or task goes before another in the order of leases (R224, R229). -/
def State.before (s : State) (x y : Launch) : Bool :=
  let a := s.effective x.ctx x.pri
  let b := s.effective y.ctx y.pri
  decide (b < a) || (a == b && decide (x.seq < y.seq))

/-- A context saved by pre-emption goes before a launch in the order of leases, where a bunch of it returns to the core (R270). -/
def State.resumesBefore (s : State) (l : Launch) (core : Nat) : Bool :=
  s.bunches.any fun e => e.2.core == core && (s.ctx e.2.ctx).preempted == 1 && e.2.home.isSome && match s.launch e.2.launch with
    | some x => s.before x l
    | none => false

/-- Nothing that could be placed on a core goes before a launch. -/
def State.firstFor (s : State) (id : Nat) (l : Launch) (core : Nat) : Bool :=
  s.running && !s.resumesBefore l core &&
  !s.launches.any fun e => e.1 != id && s.before e.2 l && (s.teamFits e.1 e.2 core || s.taskFits e.1 e.2 core)

/-! ### Placing a team -/

/-- What a core keeps of the array for a new matrix bunch: nothing (R204). -/
def Core.freshArray (c : Core) : Core :=
  { c with acc := [], planes := {}, shadow := {}, wAct := 1, wShd := 1, unwaited := 0, unread := [], opReads := [] }

/-- A scratchpad is made ready for a team: its granules are empty and its bytes free values (R9, R112); so is the array of the core,
of a team with a matrix bunch (R204). -/
def State.freshen (s : State) (pad : Nat) (matrix : Bool) : State :=
  let core := padCore pad
  let base := (Place.scratch pad 0).key
  let lo := padOffset pad 0
  let c := s.core core
  let c1 := { c with oldBytes := c.oldBytes.filter fun o => decide (o.off < lo) || decide (lo + 524288 ≤ o.off) }
  let s1 := s.setCore core (if matrix then c1.freshArray else c1)
  { s1.usedFree 1 with
    mem := Store.keep (fun k => decide (k < base) || decide (base + 524288 ≤ k)) s1.mem
    full := Store.keep (fun k => k / 32768 != pad) s1.full
    pads := Store.insert s1.pads pad s1.freeCount }

/-- The k registers of a bunch at its start (R27). -/
def startK (args : List Word) (ptr : DWord) : Store Word :=
  ((args.zip (List.range args.length)) ++ [(lowHalf ptr, 62), (highHalf ptr, 63)]).foldl (fun (t : Store Word) (e : Word × Nat) => Store.put 0 t e.2 e.1) []

/-- The next deadline of a bunch that is placed (R48, R49): none where it has passed. -/
def Launch.deadlineAt (l : Launch) (now : Nat) : Option Nat :=
  let d := (bits l.wdog 32 32).toNat * 65536
  let t := l.dispatched.getD now + d
  if d = 0 ∨ t ≤ now then none else some t

/-- The map of the start fill (R27): with REFILL = 1 that of the RFILL at the refill point, in the code that the core holds or, where
it holds none there, in memory. Where no RFILL can be read there the spec is silent, and the map is that of REFILL = 0 (DESIGN CHOICE,
log entry 42). -/
def State.startMap (s : State) (core id : Nat) (l : Launch) : BitVec 6 :=
  let a := lrEntry l.raw + lrRefillOff l.raw
  let code : Option CodeBlock := match (s.core core).blockOf l.ctx id a with
    | some k => some k
    | none => match fetchBlock s core l.ctx (blockVa a) with
      | .ok x => some { ctx := l.ctx, va := blockVa a, bytes := x.1, bad := x.2, users := [], fetched := some s.now }
      | .error _ => none
  if !lrRefill l.raw then 1
  else
    match code with
    | none => 1
    | some k =>
      match decode ((k.bundle a).drop 2) with
      | .ok (.rfill m) => m
      | _ => 1

/-- The first split of a bunch. -/
def firstSplit (pc : DWord) (m : Mask) (now : Nat) : Split := { pc := { bundle := pc, slot := 0 }, mask := m, notBefore := now + 1, readyAt := now + 1 }

/-- A vector bunch receives its first items and starts; without one, R35 applies (R27). A cask that cannot be read gives none. -/
def State.startFill (s : State) (id : Nat) (b : Bunch) (l : Launch) : State :=
  let q := lrQuad l.raw
  let y := match s.take b (b.units q).length with
    | .ok r => r
    | .error _ => (s, [])
  let us := (b.units q).zip y.2
  let b1 := b.fillUnits (s.startMap b.core b.launch l) us
  let m := b1.active ||| b1.helper
  if m = 0 then (y.1.setBunch id b1).afterLastSplit id
  else y.1.setBunch id { b1 with splits := [(0, firstSplit (lrEntry l.raw) m s.now)] }

/-- A bunch of a team in a slot of its core; its start acquires (R236, R238). -/
def State.placeBunch (s : State) (id : Nat) (l : Launch) (team pad num slot : Nat) (role : Role) : State :=
  let width := if role = .matrix then 1 else lrWidth l.raw
  let b : Bunch :=
    { ctx := l.ctx, launch := id, team := some team, core := padCore pad, pad, slot := some slot, num, role, width
      budget := lrBudget l.raw role
      active := if role = .vector then 0 else firstLanes width, noItems := role != .vector
      k := startK l.args (lrArg l.raw), deadline := l.deadlineAt s.now
      splits := if role = .vector then [] else [(0, firstSplit (lrEntry l.raw) (firstLanes width) s.now)] }
  let n := s.nextId
  let s1 := { s.setBunch n b with nextId := n + 1 }.acquires n
  if role = .vector then s1.startFill n b l else s1

/-- The roles of a team's bunches in the order of %bunch (R182). -/
def teamRoles (r : BitVec 512) : List Role := roleOrder.flatMap fun x => List.replicate (lrCount r x) x

/-- A launch's first bunch is dispatched (R48, R228). -/
def State.dispatch (s : State) (id : Nat) : State :=
  match s.launch id with
  | none => s
  | some l =>
    let s1 := if l.dispatched.isNone then s.jstate l.seq 1 else s
    s1.setLaunch id { l with dispatched := some (l.dispatched.getD s.now), since := s.now }

/-- Place one team. -/
def State.placeTeam (s : State) (id core : Nat) : State :=
  match (s.dispatch id).launch id with
  | none => s
  | some l =>
    let roles := teamRoles l.raw
    let slots := (s.freeSlots core).take roles.length
    let pad := s.freePad core
    let s1 := ((s.dispatch id).freshen pad (lrCount l.raw .matrix != 0)).leaseSegment core l.ctx id 0 (some s.now) (l.segment s)
    let t := s1.nextId
    let s2 := { s1 with teams := Store.insert s1.teams t { launch := id, core, pad, num := l.teams }, nextId := t + 1 }
    let s3 := s2.onLaunch id fun x => { x with teams := x.teams + 1, placed := x.placed + roles.length, hosts := core :: x.hosts }
    ((roles.zip slots).zip (List.range roles.length)).foldl (fun u e => u.placeBunch id l t pad e.2 e.1.2 e.1.1) s3

/-- TEAM_PLACEMENT; a cooperative launch's other teams follow in ascending order of their cores (log entry 24). -/
def execTeamPlacement (launch core : Nat) (s : State) : Host.Outcome State Fault Refusal :=
  match s.launch launch with
  | none => .refused (.eventNotEnabled "TEAM_PLACEMENT")
  | some l =>
    if s.teamFits launch l core && s.firstFor launch l core then
      if lrCoop l.raw then
        let others := ((s.takers launch l).filter (· != core)).take (s.teamLimit l - 1)
        .next ((core :: others).foldl (fun t c => t.placeTeam launch c) s)
      else .next (s.placeTeam launch core)
    else .refused (.eventNotEnabled "TEAM_PLACEMENT")

/-! ### Placing a task bunch (R234, R235) -/

/-- Set bits of a number below bit `n`. -/
def bitsBelow (x n : Nat) : Nat := ((List.range n).filter x.testBit).length

def State.placeTask (s : State) (id core : Nat) : State :=
  match (s.dispatch id).launch id with
  | none => s
  | some l =>
    let mc := trMc l.raw
    let rank := if mc then bitsBelow (trMask l.raw) (coreInCellar core) else 0
    let count := if mc then bitsBelow (trMask l.raw) 18 else 1
    let args := (List.range 8).map (trArg l.raw) ++ [BitVec.ofNat 32 rank, BitVec.ofNat 32 count]
    let width := trWidth l.raw
    let b : Bunch :=
      { ctx := l.ctx, launch := id, team := none, core, slot := (s.freeSlots core).head?, num := 0, role := .vector, width
        budget := trBudget l.raw, active := firstLanes width, noItems := true, k := startK args 0, deadline := l.deadlineAt s.now
        splits := [(0, firstSplit (trPc l.raw) (firstLanes width) s.now)] }
    let s1 := (s.dispatch id).leaseSegment core l.ctx id 0 (some s.now) (l.segment s)
    let s2 := s1.onLaunch id fun x => { x with placed := x.placed + 1, todo := x.todo.filter (· != core) }
    { s2.setBunch s2.nextId b with nextId := s2.nextId + 1 }.acquires s2.nextId

def execTaskPlacement (launch core : Nat) (s : State) : Host.Outcome State Fault Refusal :=
  match s.launch launch with
  | none => .refused (.eventNotEnabled "TASK_PLACEMENT")
  | some l =>
    if s.taskFits launch l core && s.firstFor launch l core then .next (s.placeTask launch core)
    else .refused (.eventNotEnabled "TASK_PLACEMENT")

/-! ### Completion (R28, R127) -/

/-- No further bunch of a launch will be placed. -/
def State.workOver (s : State) (l : Launch) : Bool :=
  if l.task then (if trMc l.raw then l.todo.isEmpty else l.placed != 0)
  else if l.total then decide (s.teamLimit l ≤ l.teams)
  else
    (l.parts.all fun p => !s.hasItem l p.1) &&
      (!lrQuad l.raw || l.parts.all fun p => decide (p.2 ≤ Store.get 0 l.closes p.1))

/-- Expected miss-ratio bands in 64ths (R126). -/
def hintBand (c : Nat) : Nat × Nat :=
  match c with
  | 0 => (56, 64) | 1 => (32, 64) | 2 => (16, 48) | 3 => (8, 32) | 4 => (4, 16) | 5 => (0, 8) | 6 => (0, 4) | _ => (0, 1)

/-- Entry i of a hint list: class and length; none where it cannot be read. -/
def readHint (s : State) (ctx : Nat) (va : DWord) (i : Nat) : Option (BitVec 128) :=
  match readRecord s feCore ctx (va + BitVec.ofNat 64 (16 * i)) 2 with
  | .ok x => some (BitVec.ofNat 128 x)
  | .error _ => none

/-- An access of the launch's context fell into an entry's range while the launch ran; what an engine read may have (R126). -/
def Launch.touchedRange (l : Launch) (e : BitVec 128) : Bool :=
  l.touched.any fun t => t.1 == engineKey || (decide (fieldOf e 76 52 ≤ t.1) && decide (t.1 < fieldOf e 76 52 + fieldOf e 0 64))

/-- Write the report of one range whose counts lie outside its band. How many of the accesses reach the L2, and how many of these
miss, is a free value: none where no access fell into the range (log entry 19). A report that cannot be written is dropped: the spec
is silent (DESIGN CHOICE, log entry 42). -/
def State.reportHint (s : State) (l : Launch) (ctx : Nat) (va : DWord) (i : Nat) (e : BitVec 128) : State :=
  let a := if l.touchedRange e then ((s.freeValue 0).setWidth 32).toNat else 0
  let m := min a ((s.freeValue 1).setWidth 32).toNat
  let cls := fieldOf e 73 3
  let out := decide (m * 64 < (hintBand cls).1 * a) || decide ((hintBand cls).2 * a < m * 64)
  let s1 := s.usedFree 2
  if fieldOf e 64 9 = 0 ∧ 1024 ≤ a ∧ out then
    match writeWords s1 feCore ctx (va + BitVec.ofNat 64 (256 + 16 * i)) [BitVec.ofNat 64 (m * 2 ^ 32 + a), BitVec.ofNat 64 (cls + 256)] with
    | .ok t => t
    | .error _ => s1
  else s1

/-- The entries of a list up to the first of length 0, at most `n`, from entry `i`. The list is read when the launch completes, and an
entry that cannot be read ends it: the spec is silent on both (DESIGN CHOICE, log entry 42). -/
def State.reportHints (s : State) (l : Launch) (ctx : Nat) (va : DWord) (i : Nat) : Nat → State
  | 0 => s
  | n + 1 =>
    match readHint s ctx va i with
    | none => s
    | some e => if fieldOf e 0 64 = 0 then s else (s.reportHint l ctx va i e).reportHints l ctx va (i + 1) n

/-- Hint reports of a launch (R125, R127): HINT_PTR 0 names no list. -/
def State.reports (s : State) (l : Launch) : State :=
  let va := lrHint l.raw
  if l.task || va == 0 || va.toNat % 16 != 0 then s else s.reportHints l l.ctx va 0 16

def Launch.donePtr (l : Launch) : DWord := if l.task then trDone l.raw else lrDone l.raw

def execLaunchComplete (launch : Nat) (s : State) : Host.Outcome State Fault Refusal :=
  match s.launch launch with
  | none => .refused (.eventNotEnabled "LAUNCH_COMPLETE")
  | some l =>
    if s.running && s.ctxRuns l.ctx && !l.closing && l.retired == l.placed && s.workOver l then
      .next ((((s.reports l).onLaunch launch fun x => { x with closing := true })).feAdd l.ctx l.donePtr 1 (.launch launch))
    else .refused (.eventNotEnabled "LAUNCH_COMPLETE")

end Sys2Proof.Machine
end

