-- ==== Sys2Proof/Machine/Tasks.lean ====
section
/-! DEFINITION. Device-side launch and waiting: LNCH, TASK (R236, R373, R394), DEPD (R238, R344), CWAIT (R242, R243, R343), swapping a
bunch out and placing it again (R243, R266), and futures (R264 to R267). -/

namespace Sys2Proof.Machine

/-! ### LNCH and TASK -/

/-- LNCH and TASK, releases at sys scope: the record is read at issue and goes to the pending-launch queue. Where four entries stand there already, it
stands behind them, its token busy and its split Blocked, until the front end accepts one. -/
def View.post (x : View) (task : Bool) (d : BitVec 6) (va : DWord) (tok : BitVec 3) : Result :=
  if !x.on then { s := x.s }
  else
    match x.record va 8 64 with
    | .error e => x.fail e.1 e.2 .read
    | .ok r =>
      let key := x.b.plqKey x.id
      let q := Store.get [] x.s.plqs key
      let p : PendLaunch := { bunch := x.id, op := x.s.nextId, task, va, raw := BitVec.ofNat 512 r, d := d.toNat }
      let t := x.s.addOp x tok latLoad .held [x.kWrite d.toNat 0]
      x.release {
        s := { t with plqs := Store.insert t.plqs key (q ++ [p]) }
        flow := if 4 ≤ q.length then .wait (.launchQueue x.s.nextId) true else .next }

def execLnch (g : Guard) (d a : BitVec 6) (off : BitVec 29) (tok : BitVec 3) : State → Host.Outcome State Fault Refusal :=
  issue { guard := g, roles := noMatrix, hnd := .forbidden, uniform := true, reads := kBlock a.toNat 2, writes := [.k d.toNat], rel := true } fun x =>
    x.post false d (x.kAddr a off) tok
def execTask (g : Guard) (d a : BitVec 6) (off : BitVec 29) (tok : BitVec 3) : State → Host.Outcome State Fault Refusal :=
  issue { guard := g, roles := noMatrix, hnd := .forbidden, uniform := true, reads := kBlock a.toNat 2, writes := [.k d.toNat], rel := true } fun x =>
    x.post true d (x.kAddr a off) tok

/-! ### DEPD -/

def execDepd (g : Guard) (d a : BitVec 6) (off : BitVec 29) (tok : BitVec 3) : State → Host.Outcome State Fault Refusal :=
  issue { guard := g, roles := noMatrix, uniform := true, reads := kBlock a.toNat 2, writes := kBlock d.toNat 2, rel := true } fun x =>
    if !x.on then { s := x.s }
    else
      let va := x.kAddr a off
      x.unlessHeld (x.held .window .write 16 (fun _ => va) [0] true) <|
      match placeOf x.s x.b.core x.b.ctx .window va .write 16 0 with
      | .error e => x.fail e va .atomic
      | .ok p =>
        let t := x.s.ready_ p
        if t.depKind p = 3 then x.fail .pageProtection va .atomic
        else
          let y := (t.countStore x.b.core x.id p va 16).depdAt p x.b.ctx
          let ws := [x.kWrite d.toNat (lowHalf y.2), x.kWrite (d.toNat + 1) (highHalf y.2)]
          x.release { s := y.1.addOp x tok latLoad .ready ws }

/-! ### CWAIT -/

/-- The offsets of a commons place. -/
def Place.commonsAt : Place → Nat × Nat
  | .commons c o => (c, o)
  | _ => (0, 0)

def execCwait (_sc : Scope) (g : Guard) (d a : BitVec 6) (off : BitVec 29) (b : BitVec 6) (tok : BitVec 3) :
    State → Host.Outcome State Fault Refusal :=
  issue { guard := g, roles := noMatrix, hnd := .forbidden, uniform := true, reads := kBlock a.toNat 2 ++ kBlock b.toNat 2
          writes := [.k d.toNat] } fun x =>
    if !x.on then { s := x.s }
    else
      let va := x.kAddr a off
      x.unlessHeld (x.held .window .read 8 (fun _ => va) [0] false) <|
      match placeOf x.s x.b.core x.b.ctx .window va .read 8 0 with
      | .error e => x.fail e va .read
      | .ok p =>
        let t := x.s.ready_ p
        let v := t.natAt p 8
        let target := x.kPair b.toNat
        if target.toNat ≤ v then { s := (t.addOp x tok latLoad .ready [x.kWrite d.toNat (BitVec.ofNat 32 v)]).acquires x.id }
        else
          let c := p.commonsAt
          { s := t.addOp x tok latLoad .waits [x.kWrite d.toNat 0]
            flow := .wait (.counter c.1 c.2 target none ((x.s.ctx x.b.ctx).swapAt x.s.now) t.nextId) true }

/-- CWAIT_SATISFIED (R242, R343): the wait ends with the value that met the target; CWAIT is an acquire. -/
def execCwaitSatisfied (bunch split : Nat) (s : State) : Host.Outcome State Fault Refusal :=
  match Store.find s.bunches bunch with
  | none => .refused (.eventNotEnabled "CWAIT_SATISFIED")
  | some b =>
    match Store.find b.splits split with
    | none => .refused (.eventNotEnabled "CWAIT_SATISFIED")
    | some sp =>
      match sp.state with
      | .blocked (.counter _ _ _ (some v) _ op) resume =>
        if sp.frozen || !s.ctxRuns b.ctx then .refused (.eventNotEnabled "CWAIT_SATISFIED")
        else .next (((s.finishOp bunch op [lowHalf v]).wakeSplit bunch split resume).acquires bunch)
      | _ => .refused (.eventNotEnabled "CWAIT_SATISFIED")

/-! ### Swapping out (R243, R266, R278) -/

/-- SWAPS counts one more, saturating. -/
def Context.countSwap (c : Context) : Context :=
  let n := (bits c.swap 32 32).toNat
  { c with swap := (bits c.swap 0 32).setWidth 64 ||| (BitVec.ofNat 64 (min (n + 1) (2 ^ 32 - 1)) <<< 32) }

/-- Save a bunch to a free record of its context and free its slot; none where no record is free. -/
def State.swapOut (s : State) (id : Nat) : Option State :=
  match Store.find s.bunches id with
  | none => none
  | some b =>
    match s.freeRecord b.ctx with
    | none => none
    | some j => some ((s.drainOps id).saveBunch id j)

/-- Every live split is Blocked or Joining, and one has waited in CWAIT, or the bunch for its futures, for LIMIT × 256 cycles. A
task bunch that had no record at its ERET stays (R266). -/
def State.swapDue (s : State) (b : Bunch) : Bool :=
  let past (t : Nat) : Bool := t != 0 && decide (t ≤ s.now)
  if b.futures.isEmpty then
    !b.splits.isEmpty && (b.splits.all fun e => !e.2.frozen && e.2.state != .ready) &&
    (b.splits.any fun e => match e.2.state with
      | .blocked (.counter _ _ _ _ t _) _ => past t
      | _ => false) && !b.satisfied
  else b.team.isSome && b.awaits && past b.futSwap && !s.futuresDone b

/-- The launch is cooperative. -/
def State.coop (s : State) (b : Bunch) : Bool :=
  match s.launch b.launch with
  | some l => !l.task && lrCoop l.raw
  | none => false

def execCwaitSwapOut (bunch : Nat) (s : State) : Host.Outcome State Fault Refusal :=
  match Store.find s.bunches bunch with
  | none => .refused (.eventNotEnabled "CWAIT_SWAP_OUT")
  | some b =>
    if b.slot.isSome && s.ctxRuns b.ctx && s.swapDue b && !s.coop b && !b.atBarrier then
      match s.swapOut bunch with
      | none => .refused (.eventNotEnabled "CWAIT_SWAP_OUT")
      | some t => .next (t.setCtx b.ctx (t.ctx b.ctx).countSwap)
    else .refused (.eventNotEnabled "CWAIT_SWAP_OUT")

/-! ### Placing a saved bunch (R13, R243, R266) -/

/-- The first instruction of a placed bunch waits under R67. -/
def Bunch.restart (b : Bunch) (now : Nat) : Bunch :=
  { b with splits := Store.mapVals (fun e (sp : Split) => { sp with notBefore := max sp.notBefore (max (now + 1) (b.pendMax [e])), readyAt := max sp.readyAt now }) b.splits }

/-- A saved bunch takes a slot. -/
def State.unsave (s : State) (id slot : Nat) : State :=
  s.onBunch id fun b => { b.restart s.now with slot := some slot, record := none, home := none }

/-- A slot is the first free one of a core, and the budget fits. -/
def State.firstSlot (s : State) (core slot budget : Nat) : Bool :=
  (s.freeSlots core).head? == some slot && decide (s.usedRegs core + budget ≤ 2048)

def execSwappedBunchPlacement (bunch slot : Nat) (s : State) : Host.Outcome State Fault Refusal :=
  match Store.find s.bunches bunch with
  | none => .refused (.eventNotEnabled "SWAPPED_BUNCH_PLACEMENT")
  | some b =>
    if s.running && b.team.isSome && s.wantsSlot b && s.firstSlot b.core slot b.budget then .next (s.unsave bunch slot)
    else .refused (.eventNotEnabled "SWAPPED_BUNCH_PLACEMENT")

/-- A task bunch resumes on a core that its record allows: its launch leaves the old core, and leases its segment 0 on the new. -/
def State.moveTask (s : State) (id core : Nat) (b : Bunch) (l : Launch) : State :=
  if core = b.core then s
  else
    let s1 := s.setBunch id { b with core }
    let s2 := if s1.bunches.any fun e => e.2.launch == b.launch && e.2.core == b.core then s1 else s1.leaveCore b.core b.launch
    s2.leaseSegment core l.ctx b.launch 0 (some s.now) (l.segment s)

def execSavedBunchPlacement (bunch core slot : Nat) (s : State) : Host.Outcome State Fault Refusal :=
  match Store.find s.bunches bunch with
  | none => .refused (.eventNotEnabled "SAVED_BUNCH_PLACEMENT")
  | some b =>
    match s.launch b.launch with
    | none => .refused (.eventNotEnabled "SAVED_BUNCH_PLACEMENT")
    | some l =>
      if s.running && b.team.isNone && s.wantsSlot b && cellarOf core == trCellar l.raw &&
          (trMask l.raw == 0 || (trMask l.raw).testBit (coreInCellar core)) && s.leasable core && s.firstSlot core slot b.budget &&
          (core == b.core || s.codeFits core l) then
        .next ((s.moveTask bunch core b l).unsave bunch slot)
      else .refused (.eventNotEnabled "SAVED_BUNCH_PLACEMENT")

/-! ### Futures (R264, R267) -/

/-- Append a reply to the ring of a pre-empted context (R267, R272). -/
def State.reply (s : State) (ctx n : Nat) (status : DWord) (record : Nat) : State :=
  let va := saveArea (s.ctx ctx)
  let count := match readVa s feCore ctx (va + 0x100) 4 with
    | .ok x => x
    | .error _ => 0
  let entry := leBytes n 2 ++ leBytes status.toNat 1 ++ leBytes 0 5 ++ leBytes record 8
  (s.saveBytes feCore ctx (va + BitVec.ofNat 64 (0x1000 + 16 * (count % 1024))) entry).saveBytes feCore ctx (va + 0x100) (leBytes (count + 1) 4)

/-- The front end acts on the first nonzero STATUS of a future. -/
def State.futureWritten (s : State) (ctx n : Nat) (f : Future) (status : DWord) : State :=
  let c := s.ctx ctx
  let s1 := s.setCtx ctx { c with futures := Store.insert c.futures n { f with seen := status, status := status } }
  if c.preempted = 0 then s1
  else (s1.bunches.filter fun e => e.2.ctx == ctx && (e.2.futures.contains n || e.2.newFuts.contains n)).foldl
    (fun t e => t.reply ctx n status (e.2.record.getD 0)) s1

/-- FUTURE_STATUS_WRITE: the first nonzero value that was written, or one that an agent outside the model writes there now. -/
def execFutureStatusWrite (ctx n : Nat) (status : DWord) (s : State) : Host.Outcome State Fault Refusal :=
  match Store.find (s.ctx ctx).futures n with
  | none => .refused (.eventNotEnabled "FUTURE_STATUS_WRITE")
  | some f =>
    if f.status ≠ 0 ∨ status = 0 ∨ (f.seen ≠ 0 ∧ f.seen ≠ status) then .refused (.eventNotEnabled "FUTURE_STATUS_WRITE")
    else
      let t := if f.seen = 0 then s.writeAt (windowPlace (futOffset (s.ctx ctx) n)) (leBytes status.toNat 8) else s
      .next (t.futureWritten ctx n f status)

end Sys2Proof.Machine
end

