-- ==== Sys2Proof/Machine/System.lean ====
section
/-! DEFINITION. System instructions: CSRR, CSRW (R338 to R340), FINFO (R263, R352), HMAP (R259 to R262, R358), PGUP (R265, R380), ERET
(R258), and the watchdogs (R48 to R50). -/

namespace Sys2Proof.Machine

/-! ### System registers (R339) -/

/-- A context register. -/
def Context.csr (c : Context) (num : Nat) : Option DWord :=
  match num with
  | 0x040 => some c.ctl
  | 0x050 => some c.cmnWin
  | 0x051 => some c.ptRoot
  | 0x052 => some c.layoutTab
  | 0x053 => some c.accPromo
  | 0x054 => some c.swap
  | 0x055 => some c.pri
  | 0x056 => some c.hringBase
  | 0x057 => some c.wdog
  | 0x058 => some c.hndBase
  | 0x059 => some c.poolBase
  | 0x05A => some c.futBase
  | 0x05B => some c.pagerTab
  | 0x05C => some c.saveBase
  | 0x05D => some c.saveCfg
  | _ => none

/-- Replace a context register. -/
def Context.putCsr (c : Context) (num : Nat) (x : DWord) : Context :=
  match num with
  | 0x040 => { c with ctl := x }
  | 0x050 => { c with cmnWin := x }
  | 0x051 => { c with ptRoot := x }
  | 0x052 => { c with layoutTab := x }
  | 0x053 => { c with accPromo := x }
  | 0x054 => { c with swap := x }
  | 0x055 => { c with pri := x }
  | 0x056 => { c with hringBase := x }
  | 0x057 => { c with wdog := x }
  | 0x058 => { c with hndBase := x }
  | 0x059 => { c with poolBase := x }
  | 0x05A => { c with futBase := x }
  | 0x05B => { c with pagerTab := x }
  | 0x05C => { c with saveBase := x }
  | 0x05D => { c with saveCfg := x }
  | _ => c

/-- The bits of a context register that CSRW writes (R339). -/
def csrMask (num : Nat) : DWord :=
  match num with
  | 0x040 => 0x3
  | 0x052 => 0x000FFFFFFFFFFC00
  | 0x053 => 0x7F
  | 0x054 => 0xFFFFFF
  | 0x057 => 0xFFFFFFFF00FFFFFF
  | 0x058 => 0x000FFFFFFFFFFF81
  | _ => 0

/-- The bits that the owning function or system software writes (R114, R116, R222, R254): those of device code, and every field of the
registers that device code only reads. -/
def ownerMask (num : Nat) : DWord :=
  match num with
  | 0x050 => 0x000FFFFE00000001
  | 0x051 => 0xFF0FFFFFFFFFE001
  | 0x055 => 0x1F
  | 0x056 => 0x000FFFFFFFFFFE00
  | 0x059 => 0x00000001FFFFFFC1
  | 0x05A => 0x00000001FFFFC001
  | 0x05B => 0x000FFFFFFFFFF800
  | 0x05C => 0x000FFFFFFFFF0000
  | 0x05D => 0xFFFFFFFF
  | n => csrMask n

/-- Write the bits of a mask; PROMO keeps its value where the new one is no interval (R205). -/
def Context.writeCsr (c : Context) (num : Nat) (mask x : DWord) : Context :=
  match c.csr num with
  | none => c
  | some old =>
    let p := (bits x 0 7).toNat
    if num = 0x053 ∧ (p = 0 ∨ 64 < p) then c else c.putCsr num ((old &&& ~~~mask) ||| (x &&& mask))

/-- A bunch register. -/
def Bunch.csr (b : Bunch) (num : Nat) : Option DWord :=
  if num = 0x041 then some (b.fpStat.setWidth 64)
  else if 0x060 ≤ num ∧ num ≤ 0x067 then some (Store.get 0 b.tokRec (num - 0x060))
  else if 0x068 ≤ num ∧ num ≤ 0x06F then some ((Store.get 0 b.tokCrc (num - 0x068)).setWidth 64)
  else
    match num with
    | 0x070 => some b.fltCause
    | 0x071 => some b.fltAddr
    | 0x072 => some (b.fltMask.setWidth 64)
    | 0x073 => some b.fltPc
    | _ => none

/-- FP_STAT by write-1-to-clear, SKIP of FLT_CAUSE. -/
def Bunch.writeCsr (b : Bunch) (num : Nat) (x : DWord) : Bunch :=
  match num with
  | 0x041 => { b with fpStat := b.fpStat &&& ~~~(bits x 0 4) }
  | 0x070 => { b with fltCause := (b.fltCause &&& ~~~(0x8000 : DWord)) ||| (x &&& 0x8000) }
  | _ => b

/-- An estate port's register (R295). -/
def Port.csr (p : Port) : DWord :=
  let live := p.state = 1 ∨ p.state = 2
  BitVec.ofNat 64 ((if live then p.peerDev * 2 ^ 56 + p.peerPort * 2 ^ 52 + p.lanes * 2 ^ 4 else 0)
    + min p.replays (2 ^ 20 - 1) * 2 ^ 32 + min p.crcErr (2 ^ 16 - 1) * 2 ^ 16 + p.state)

/-- What CSRR reads for a bunch; none: no register has the number. -/
def State.readCsr (s : State) (b : Bunch) (num : Nat) : Option DWord :=
  match (s.ctx b.ctx).csr num with
  | some x => some x
  | none =>
    match b.csr num with
    | some x => some x
    | none => if 0x080 ≤ num ∧ num ≤ 0x08F then some (Store.get {} s.ports (num - 0x080)).csr else none

def execCsrr (g : Guard) (d : BitVec 6) (num : BitVec 12) : State → Host.Outcome State Fault Refusal :=
  issue { guard := g, roles := allRoles, uniform := true, writes := kBlock d.toNat 2, lat := some 24
          ill := fun x => (x.s.readCsr x.b num.toNat).isNone } fun x =>
    x.answer (x.setPair (.k d) fun _ => (x.s.readCsr x.b num.toNat).getD 0)

def execCsrw (g : Guard) (b : SrcL) (num : BitVec 12) : State → Host.Outcome State Fault Refusal :=
  issue { guard := g, roles := noMatrix, uniform := true, reads := b.regs 2, ill := fun x => (x.s.readCsr x.b num.toNat).isNone } fun x =>
    if !x.on then { s := x.s }
    else
      let v := x.dwordL b (lowest x.lanes)
      let c := x.s.ctx x.b.ctx
      let s1 := if (c.csr num.toNat).isSome then x.s.setCtx x.b.ctx (c.writeCsr num.toNat (csrMask num.toNat) v) else x.s
      { s := s1.setBunch x.id (x.b.writeCsr num.toNat v) }

/-! ### FINFO -/

/-- A lane's own fault: none outside FLT_MASK or outside a handler (R352). -/
def View.laneFault (x : View) (lane : Nat) : Option LaneFault :=
  if x.entry < 4 ∨ !x.b.fltMask.getLsbD lane then none else x.b.laneFlt.find? fun f => f.lane == lane

def View.finfo (x : View) (sel lane : Nat) : DWord :=
  match sel with
  | 0 => match x.laneFault lane with
    | some f => f.addr
    | none => 0
  | 1 => match x.laneFault lane with
    | some f => BitVec.ofNat 64 (f.cause.code + f.kind.code * 2 ^ 8)
    | none => 0
  | 2 => BitVec.ofNat 64 (Config.formFactor.toNat + Config.stepping.toNat * 2 ^ 8)
  | 3 => BitVec.ofNat 64 (x.s.device + x.s.devices * 2 ^ 8)
  | _ => BitVec.ofNat 64 x.b.ctx

def execFinfo (g : Guard) (d : VK) (sel : BitVec 8) (tok : BitVec 3) : State → Host.Outcome State Fault Refusal :=
  issue { guard := g, roles := allRoles, uniform := d.isK, writes := d.regs 2, ill := fun _ => decide (4 < sel.toNat) } fun x =>
    let of (l : Nat) : DWord := x.finfo sel.toNat (if d.isK then lowest x.b.fltMask else l)
    if x.exec = 0 then { s := x.s }
    else { s := x.s.addOp x tok latScratch .ready ((lanesOf x.exec).flatMap fun l => x.b.destWrites d l (wordsOf64 (of l))) }

/-! ### HMAP (R260, R261) -/

/-- Where a page's leaf is missing or what stands there. -/
inductive Hole
  | mapped
  | conflict
  /-- The place of the entry to write, and its level: 0, or that of a missing table. -/
  | missing (at_ : Place) (level : Nat)

/-- Bytes and leaves of an HMAP page. -/
def hmapBytes (size : Nat) : Nat := pageBytes size
def hmapLeaves (size : Nat) : Nat := hmapBytes size / 4096

/-- The leaves of a page in its level-0 table: a present one of the same size, of another, or none. -/
def leavesAt (s : State) (tbl : Place) (page size : Nat) : Except Cause Hole :=
  let n := hmapLeaves size
  let es := (List.range n).map fun i => walkEntry s tbl (page + 4096 * i) 0
  let bad := es.findSome? fun e => match e with
    | .error w => if pteP w.entry || w.cause == .eccUncorrectable then some w.cause else none
    | .ok _ => none
  let here := es.filterMap fun e => match e with
    | .ok p => some p
    | .error _ => none
  match bad with
  | some c => .error c
  | none =>
    if here.any fun p => pteSize p == size then .ok .mapped
    else if !here.isEmpty then .ok .conflict
    else .ok (.missing (pteAt tbl page 0) 0)

/-- Descend to a page's leaves from a table of a level (R261). -/
def findHole (s : State) (tbl : Place) (page size : Nat) : Nat → Except Cause Hole
  | 0 => leavesAt s tbl page size
  | l + 1 =>
    match walkEntry s tbl page (l + 1) with
    | .error w => if pteP w.entry || w.cause == .eccUncorrectable then .error w.cause else .ok (.missing (pteAt tbl page (l + 1)) (l + 1))
    | .ok e => if pteLeaf e then .ok .conflict else findHole s (frameAt e) page size l

/-- The pool record's place (R260). -/
def poolPlace (c : Context) : Place := windowPlace ((bits c.poolBase 6 27).toNat * 64)
/-- COUNT and array VA of list i. -/
def State.poolCount (s : State) (c : Context) (i : Nat) : Nat := s.natAt ((poolPlace c).plus (16 * i + 8)) 4
def State.poolArray (s : State) (c : Context) (i : Nat) : DWord := BitVec.ofNat 64 (s.natAt ((poolPlace c).plus (16 * i)) 8)

/-- Take the entry at COUNT − 1 of a list. -/
def State.poolTake (s : State) (core ctx i : Nat) : Except Met (State × DWord) :=
  let c := s.ctx ctx
  let n := s.poolCount c i - 1
  let va := s.poolArray c i + BitVec.ofNat 64 (8 * n)
  match readVa s core ctx va 8 with
  | .error e => .error (e, va)
  | .ok x =>
    if !s.cellarPresent (x / 2 ^ 56) then .error (.pageNotPresent, va)
    else .ok (s.storeAt ((poolPlace c).plus (16 * i + 8)) (leBytes n 4), BitVec.ofNat 64 x)

/-- The device frame that a pool entry gives. -/
def poolFrame (e : DWord) : Place := .dev (bits e 56 8).toNat ((bits e 12 39).toNat * 4096)
/-- HOME and frame number, where a page-table entry has them. -/
def pteFields (e : DWord) : Nat := (bits e 56 8).toNat * 2 ^ 56 + (bits e 12 39).toNat * 2

/-- Zero a range of bytes, and the poison of its units. -/
def State.zero (s : State) (p : Place) (n : Nat) : State :=
  let k := p.key
  { s with
    mem := Store.keep (fun a => decide (a < k) || decide (k + n ≤ a)) s.mem
    poison := s.poison.filter fun u => !(List.range (n / p.unitSize)).any fun i => u == (p.plus (i * p.unitSize)).unit }

/-- The leaf that HMAP writes (R118). -/
def hmapLeaf (m : HmapMods) (frame : DWord) : Nat :=
  pteFields frame + m.cache.toNat * 2 ^ 49 + m.size.toNat * 2 ^ 47 + m.layout.toNat * 2 ^ 45 + (if m.comp then 2 ^ 43 else 0) + 2 ^ 42
    + (if m.w then 2 ^ 41 else 0) + (if m.x then 2 ^ 40 else 0) + 1

/-- Set the tags of a page's frames (R121). -/
def State.tagFrames (s : State) (m : HmapMods) (frame : DWord) : State :=
  let base := (bits frame 56 8).toNat * 2 ^ 39 + (bits frame 12 39).toNat
  let tag : Byte := BitVec.ofNat 8 ((if m.comp then 4 else 0) + m.layout.toNat)
  { s with tags := (List.range (hmapLeaves m.size.toNat)).foldl (fun t i => t.write (base + i) tag) s.tags }

/-- Link new tables down from a missing entry; the place of the page's first leaf. -/
def State.linkTables (s : State) (core ctx page : Nat) (at_ : Place) : Nat → Except Met (State × Place)
  | 0 => .ok (s, at_)
  | l + 1 =>
    match s.poolTake core ctx 3 with
    | .error e => .error e
    | .ok (t, e) =>
      let u := (t.zero (poolFrame e) 8192).writeAt at_ (leBytes (pteFields e + 1) 8)
      u.linkTables core ctx page (pteAt (poolFrame e) page l) l

/-- Map a page whose leaf is missing. -/
def State.mapPage (s : State) (core ctx : Nat) (m : HmapMods) (page : Nat) (at_ : Place) (level : Nat) : Except Met State :=
  match s.linkTables core ctx page at_ level with
  | .error e => .error e
  | .ok (s1, leaf) =>
    match s1.poolTake core ctx m.size.toNat with
    | .error e => .error e
    | .ok (s2, f) =>
      let s3 := (s2.zero (poolFrame f) (hmapBytes m.size.toNat)).tagFrames m f
      .ok ((List.range (hmapLeaves m.size.toNat)).foldl (fun t i => t.writeAt (leaf.plus (8 * i)) (leBytes (hmapLeaf m f) 8)) s3)

/-- One lane of HMAP: D (R261). -/
def hmapLane (x : View) (m : HmapMods) (va : DWord) (s0 : State) : LaneDone Word :=
  let c := s0.ctx x.b.ctx
  let s := s0.ready_ (poolPlace c)
  let size := m.size.toNat
  let page := va.toNat / hmapBytes size * hmapBytes size
  if !bit c.poolBase 0 || !bit c.ptRoot 0 then .ok s 2
  else if 2 ^ 52 ≤ va.toNat then .fail .pageProtection va
  else
    match findHole s (rootTable c.ptRoot) page size 3 with
    | .error e => .fail e va
    | .ok .mapped => .ok s 1
    | .ok .conflict => .ok s 3
    | .ok (.missing p level) =>
      if !s.cellarPresent ((bits c.poolBase 6 27).toNat * 64 / 2 ^ 25) then .fail .pageNotPresent va
      else if s.poisoned (poolPlace c) 64 then .fail .eccUncorrectable va
      else if s.poolCount c 3 < level ∨ s.poolCount c size = 0 then .ok s 2
      else
        match s.mapPage x.b.core x.b.ctx m page p level with
        | .error e => .fail e.1 e.2
        | .ok t => .ok t 0

def execHmap (m : HmapMods) (g : Guard) (d a : VK) (tok : BitVec 3) : State → Host.Outcome State Fault Refusal :=
  issue { guard := g, roles := allRoles, hnd := .only, uniform := d.isK, reads := a.regs 2, writes := d.regs } fun x =>
    let y := overLanes .write (fun s l => hmapLane x m (x.vkPair a l) s) (lanesOf x.exec) x.s
    x.loaded d tok latLoad (y.1, y.2.1.map fun e => (e.1, [e.2]), y.2.2)

/-! ### PGUP (R264, R265) -/

def noPager : Word := 0xFFFFFFFE
def noFuture : Word := 0xFFFFFFFF

/-- The VA of template r. -/
def templateVa (c : Context) (r : Nat) : DWord := BitVec.ofNat 64 ((bits c.pagerTab 11 41).toNat * 2048 + 128 * (r - 1))

/-- PAGER of the entry at which a walk of a page finds P = 0. -/
def State.pagerOf (s : State) (ctx page : Nat) : Except Cause Nat :=
  match walk s ctx page with
  | .ok _ => .ok 0
  | .error w => if w.cause = .eccUncorrectable then .error w.cause else .ok (if pteP w.entry then 0 else ptePager w.entry)

/-- Put an argument into a task template. -/
def putArg (raw : BitVec 512) (i v : Nat) : BitVec 512 := BitVec.ofNat 512 (putBits raw.toNat (64 + 32 * i) 32 v)

/-- The pending future of a page. -/
def Context.futureOf (c : Context) (page : DWord) : Option Nat := (c.futures.find? fun e => e.2.page == page && e.2.status == 0).map (·.1)
def Context.freeFuture (c : Context) : Option Nat := (List.range 1024).find? fun n => (Store.find c.futures n).isNone

/-- Take a future and post its upcall. -/
def State.upcall (s : State) (x : View) (lane n : Nat) (page : DWord) (raw : BitVec 512) (va : DWord) (pager : Nat) : State :=
  let c := s.ctx x.b.ctx
  let f := x.laneFault lane
  let cause := match f with
    | some y => y.cause.code + y.kind.code * 2 ^ 8
    | none => (bits x.b.fltCause 0 8).toNat + (bits x.b.fltCause 8 4).toNat * 2 ^ 8
  let o := futOffset c n
  let args := [n, x.b.ctx, page.toNat % 2 ^ 32, page.toNat / 2 ^ 32, cause, o, 0]
  let filled := (args.zip (List.range 7)).foldl (fun r e => putArg r e.2 e.1) raw
  let s1 := (s.ready_ (windowPlace o)).storeAt (windowPlace o) (leBytes 0 8 ++ leBytes page.toNat 8)
  { s1.setCtx x.b.ctx { c with futures := Store.insert c.futures n { page } } with
    upcalls := s1.upcalls ++ [{ ctx := pager, raw := filled, va }] }

/-- The bunch will wait on a future. -/
def State.awaits (s : State) (id n : Nat) : State :=
  s.onBunch id fun b => if b.newFuts.contains n then b else { b with newFuts := b.newFuts ++ [n] }

/-- One lane of PGUP: D. -/
def pgupLane (x : View) (va : DWord) (lane : Nat) (s : State) : LaneDone Word :=
  let c := s.ctx x.b.ctx
  let page := va &&& ~~~(0xFFF : DWord)
  match s.pagerOf x.b.ctx page.toNat with
  | .error e => .fail e va
  | .ok 0 => .ok s noPager
  | .ok r =>
    let tv := templateVa c r
    match readRecord s x.b.core x.b.ctx tv 8, readVa s x.b.core x.b.ctx (tv + 64) 1 with
    | .error e, _ => .fail e.1 e.2
    | _, .error e => .fail e (tv + 64)
    | .ok raw, .ok pager =>
      let t : BitVec 512 := BitVec.ofNat 512 raw
      if trPc t = 0 then .ok s noPager
      else
        match c.futureOf page with
        | some n => .ok (s.awaits x.id n) (BitVec.ofNat 32 n)
        | none =>
          match (if bit c.futBase 0 then c.freeFuture else none) with
          | none => .ok s noFuture
          | some n =>
            if !s.cellarPresent (futOffset c n / 2 ^ 25) then .fail .pageNotPresent va
            else .ok ((s.upcall x lane n page t tv (pager % 64)).awaits x.id n) (BitVec.ofNat 32 n)

def execPgup (g : Guard) (d a : VK) (tok : BitVec 3) : State → Host.Outcome State Fault Refusal :=
  issue { guard := g, roles := allRoles, hnd := .only, uniform := d.isK, reads := a.regs 2, writes := d.regs } fun x =>
    let y := overLanes .read (fun s l => pgupLane x (x.vkPair a l) l s) (lanesOf x.exec) x.s
    x.loaded d tok latLoad (y.1, y.2.1.map fun e => (e.1, [e.2]), y.2.2)

/-! ### Watchdogs (R48 to R50) -/

/-- AGE_LIMIT × 256 of a launch. -/
def Launch.ageLimit (l : Launch) : Nat := (bits l.wdog 0 24).toNat * 256

def execSplitAgeWatchdog (bunch split : Nat) (s : State) : Host.Outcome State Fault Refusal :=
  match Store.find s.bunches bunch with
  | none => .refused (.eventNotEnabled "SPLIT_AGE_WATCHDOG")
  | some b =>
    match Store.find b.splits split, s.launch b.launch with
    | some sp, some l =>
      if b.slot.isSome && s.ctxRuns b.ctx && !sp.frozen && l.ageLimit != 0 && decide (l.ageLimit ≤ sp.age) then .next (s.trip bunch split)
      else .refused (.eventNotEnabled "SPLIT_AGE_WATCHDOG")
    | _, _ => .refused (.eventNotEnabled "SPLIT_AGE_WATCHDOG")

def execLaunchDeadlineWatchdog (bunch : Nat) (s : State) : Host.Outcome State Fault Refusal :=
  match Store.find s.bunches bunch with
  | none => .refused (.eventNotEnabled "LAUNCH_DEADLINE_WATCHDOG")
  | some b =>
    match b.deadline with
    | none => .refused (.eventNotEnabled "LAUNCH_DEADLINE_WATCHDOG")
    | some t =>
      if b.slot.isSome && s.ctxRuns b.ctx && decide (t ≤ s.now) then
        let b1 := { b with deadline := none }
        if (Store.find b.splits 4).isSome then .next (s.setBunch bunch { b1 with heldTrip := true })
        else
          match b.oldest with
          | none => .next (s.setBunch bunch b1)
          | some (e, _) => .next ((s.setBunch bunch b1).trip bunch e)
      else .refused (.eventNotEnabled "LAUNCH_DEADLINE_WATCHDOG")

/-! ### ERET -/

/-- A task bunch that waits on futures is saved at once, where a record is free (R266). -/
def State.saveWaiting (s : State) (id : Nat) : State :=
  match Store.find s.bunches id with
  | none => s
  | some b =>
    if b.team.isSome || b.futures.isEmpty || s.futuresDone b || (Store.find b.splits 4).isSome then s
    else
      match s.swapOut id with
      | some t => t
      | none => s

def execEret : State → Host.Outcome State Fault Refusal :=
  issue { guard := Guard.always, roles := allRoles, hnd := .only, noGuard := true } fun x =>
    if (Store.find x.b.splits 5).isSome || !x.sp.stack.isEmpty then faulted x.s (faultAll x.lanes .handlerFault 0)
    else { s := ((x.s.eret x.id).heldTrips x.id).saveWaiting x.id, flow := .ended }

end Sys2Proof.Machine
end

