-- ==== Sys2Proof/Machine/Contexts.lean ====
section
/-! DEFINITION. Writes of registers from outside device code (R102, R205, R223, R247, R254), and contexts: creation (R395, R247), stop
requests and reset (R273). -/

namespace Sys2Proof.Machine

/-- The device answers its functions: it is ready and has power (R304). -/
def State.answers (s : State) : Bool := s.ready && !s.recovery && s.power != .d3cold

/-- A context that exists. -/
def State.hasCtx (s : State) (c : Nat) : Bool := decide (c < 64) && (s.ctx c).created

/-- New work ends the idle state (R305). -/
def State.wake (s : State) : State := if s.power = .idle then { s with power := .active, selfRefresh := false } else s

/-! ### Bunch and context registers -/

/-- FP_STAT_CLEAR (R102). -/
def execFpStatClear (bunch : Nat) (bits : BitVec 4) (s : State) : Host.Outcome State Fault Refusal :=
  match Store.find s.bunches bunch with
  | some b => .next (s.setBunch bunch (b.writeCsr 0x041 (bits.setWidth 64)))
  | none => .refused (.eventNotEnabled "FP_STAT_CLEAR")

/-- ACC_PROMO_WRITE (R205). -/
def execAccPromoWrite (ctx : Nat) (x : DWord) (s : State) : Host.Outcome State Fault Refusal :=
  if s.hasCtx ctx then .next (s.setCtx ctx ((s.ctx ctx).writeCsr 0x053 (csrMask 0x053) x))
  else .refused (.eventNotEnabled "ACC_PROMO_WRITE")

/-- A function may write what belongs to a context: the physical function, number 0, or the context's own (R222, R297). -/
def State.mayWrite (s : State) (fn ctx : Nat) : Bool := fn == 0 || fn == (s.ctx ctx).fn

/-- HRING_BASE_WRITE (R247): the context's ring states become zero. Only the physical function or the owning one writes it (R244). -/
def execHringBaseWrite (fn ctx : Nat) (x : DWord) (s : State) : Host.Outcome State Fault Refusal :=
  if s.hasCtx ctx && s.mayWrite fn ctx then
    let c := (s.ctx ctx).writeCsr 0x056 (ownerMask 0x056) x
    .next (s.setCtx ctx { c with rings := [] })
  else .refused (.eventNotEnabled "HRING_BASE_WRITE")

/-- A context register without behaviour of its own. -/
def plainCsr (num : Nat) : Bool := num != 0x053 && num != 0x056 && (Context.csr {} num).isSome

/-! ### Queue registers (R223) -/

/-- Bits 191:128 and 255:192 of a queue's registers. -/
def Queue.word2 (q : Queue) : DWord := BitVec.ofNat 64 ((if q.en then 2 ^ 60 else 0) + q.ctx % 8 * 2 ^ 61)
def Queue.word3 (q : Queue) : DWord := BitVec.ofNat 64 (q.ctx / 8 % 8 + q.pri * 2 ^ 3 + q.log2n * 2 ^ 8 + q.base.toNat * 2 ^ 12)
def Queue.word0 (q : Queue) : DWord := pairOf q.head q.tail

/-- Write a word of a queue's registers; CTX is read-only but to the physical function. -/
def Queue.putWord (q : Queue) (physical : Bool) (w : Nat) (x : DWord) : Queue :=
  match w with
  | 2 => { q with en := bit x 60, ctx := if physical then q.ctx / 8 * 8 + (bits x 61 3).toNat else q.ctx }
  | 3 =>
    { q with ctx := if physical then (bits x 0 3).toNat * 8 + q.ctx % 8 else q.ctx
             pri := min (bits x 3 5).toNat 23, log2n := (bits x 8 4).toNat, base := BitVec.ofNat 64 (bits x 12 52).toNat }
  | _ => q

def State.queue (s : State) (n : Nat) : Queue := Store.get {} s.queues n
/-- Write a word of a queue's registers on behalf of a function that owns it. -/
def State.writeQueue (s : State) (fn num : Nat) (x : DWord) : Option State :=
  let n := num / 4
  let q := s.queue n
  if s.mayWrite fn q.ctx then some { s.wake with queues := Store.insert s.queues n (q.putWord (fn == 0) (num % 4) x) } else none

/-- A place in device memory from a register: home in bits 63:56, physical address in bits 50:0. -/
def regPlace (x : DWord) : Nat := (Place.dev (bits x 56 8).toNat (bits x 0 51).toNat).key

/-- Numbers from here on are those of the frame tags, by their key (R121). -/
def tagRegisters : Nat := 2 ^ 48

/-- Registers of the physical function; the spec gives no numbers (log entry 27). Host software writes frame tags through it (R121). -/
def State.writePhysical (s : State) (num : Nat) (x : DWord) : Option State :=
  if 0x2040 ≤ num ∧ num < 0x2080 then
    let c := s.ctx (num - 0x2040)
    if c.created && decide (x.toNat ≤ 32) then some (s.setCtx (num - 0x2040) { c with fn := x.toNat }) else none
  else if tagRegisters ≤ num then
    if s.ownCellar ((num - tagRegisters) / 2 ^ 39) then some { s with tags := s.tags.write (num - tagRegisters) ((bits x 0 4).setWidth 8) }
    else none
  else
    match num with
    | 0x2000 => some { s with jbase := regPlace x }
    | 0x2001 => if 4096 ≤ x.toNat ∧ x.toNat = 2 ^ Nat.log2 x.toNat then some { s with jsize := x.toNat } else none
    | 0x2002 => some { s with errThresh := x.toNat }
    | 0x2003 => some { s with ebase := regPlace x }
    | 0x2004 => some { s with esize := x.toNat }
    | 0x2005 => some { s with dbase := some (regPlace x) }
    | _ => none

/-- CTX_PRI is set through the physical function alone (R222). -/
def State.mayWriteCsr (s : State) (fn ctx num : Nat) : Bool := if num = 0x055 then fn == 0 else s.mayWrite fn ctx

/-- REGISTER_WRITE of a function (R222, R223, R254, R297): `ctx` 64 names the registers of queues and of the physical function. -/
def execRegisterWrite (fn ctx num : Nat) (x : DWord) (s : State) : Host.Outcome State Fault Refusal :=
  if !s.answers then .refused (.eventNotEnabled "REGISTER_WRITE")
  else if ctx = 64 then
    match (if 0x1000 ≤ num ∧ num < 0x1800 then s.writeQueue fn (num - 0x1000) x else if fn = 0 then s.writePhysical num x else none) with
    | some t => .next t
    | none => .refused (.eventNotEnabled "REGISTER_WRITE")
  else if s.hasCtx ctx && plainCsr num && s.mayWriteCsr fn ctx num then .next (s.setCtx ctx ((s.ctx ctx).writeCsr num (ownerMask num) x))
  else .refused (.eventNotEnabled "REGISTER_WRITE")

/-- QUEUE_DOORBELL of the function that owns the queue's context (R223). -/
def execQueueDoorbell (fn q : Nat) (tail : Word) (s : State) : Host.Outcome State Fault Refusal :=
  if s.answers && decide (q < 512) && s.mayWrite fn (s.queue q).ctx then
    .next { s.wake with queues := Store.insert s.queues q { s.queue q with tail := tail } }
  else .refused (.eventNotEnabled "QUEUE_DOORBELL")

/-! ### Contexts -/

/-- Nothing of an earlier context is left in the TLBs and the hidden cask state. -/
def State.forget (s : State) (ctx : Nat) : State :=
  { s with
    cores := Store.mapVals (fun _ (c : Core) => { c with tlb := c.tlb.filter fun e => e.ctx != ctx }) s.cores
    rowTlb := Store.mapVals (fun _ es => es.filter fun e => e.ctx != ctx) s.rowTlb
    caskHid := s.caskHid.filter fun h => h.ctx != ctx }

/-- The registers of a new context (R114, R116, R222, R254). -/
def newContext (i : CtxInit) : Context :=
  { created := true, fn := i.fn
    cmnWin := i.cmnWin &&& ownerMask 0x050, ptRoot := i.ptRoot &&& ownerMask 0x051, pri := i.pri &&& ownerMask 0x055
    hringBase := i.hringBase &&& ownerMask 0x056, hndBase := i.hndBase &&& ownerMask 0x058, poolBase := i.poolBase &&& ownerMask 0x059
    futBase := i.futBase &&& ownerMask 0x05A, pagerTab := i.pagerTab &&& ownerMask 0x05B, saveBase := i.saveBase &&& ownerMask 0x05C
    saveCfg := i.saveCfg &&& ownerMask 0x05D }

/-- CONTEXT_CREATE (R395). -/
def execContextCreate (ctx : Nat) (c : CtxInit) (s : State) : Host.Outcome State Fault Refusal :=
  if s.answers && decide (ctx < 64) && !(s.ctx ctx).created && decide (c.fn ≤ 32) then .next ((s.forget ctx).setCtx ctx (newContext c))
  else .refused (.eventNotEnabled "CONTEXT_CREATE")

/-- STOP_CONTEXT_REQUEST (R273): REASON 5. -/
def execStopContextRequest (ctx : Nat) (s : State) : Host.Outcome State Fault Refusal :=
  if s.hasCtx ctx then .next (s.stopContext ctx 5 0) else .refused (.eventNotEnabled "STOP_CONTEXT_REQUEST")

/-- CONTEXT_RESET (R273): every register of a stopped context takes its reset value (log entry 28). -/
def execContextReset (ctx : Nat) (s : State) : Host.Outcome State Fault Refusal :=
  let c := s.ctx ctx
  if s.hasCtx ctx && bit c.ctl 7 then .next ((s.forget ctx).setCtx ctx { created := true, fn := c.fn })
  else .refused (.eventNotEnabled "CONTEXT_RESET")

end Sys2Proof.Machine
end

