-- ==== Sys2Proof/Machine/Control.lean ====
section
/-! DEFINITION. Control instructions: branches (R42, R61, R220, R319, R323, R324, R386), EXIT (R33), YIELD (R405), TRAP (R401),
BKPT (R318), JMPF (R232, R367), NOP (R75), WTOK (R404), and words of unassigned opcodes (R72, R77). -/

namespace Sys2Proof.Machine

/-- A branch target: the bundle's address plus 4 × offset (R61). -/
def View.target (x : View) (off : DWord) : DWord := x.sp.pc.bundle + 4 * off
/-- A code address is a bundle boundary. -/
def aligned128 (a : DWord) : Bool := bits a 0 7 == 0

/-- A result that traps every lane. -/
def View.trap (x : View) (c : Cause) (addr : DWord) (k : Kind := .none) : Result := faulted x.s (faultAll x.lanes c addr k)

/-- A uniform branch to a target whose alignment is tested whatever the guard (R61, R319). -/
def View.branch (x : View) (t : DWord) : Result :=
  if !aligned128 t then x.trap .branchAlign t
  else { s := x.s, flow := if x.on then .goto t else .next }

/-- A uniform branch to a register's or saved target, tested only when taken (R61, R220, R386). -/
def View.branchReg (x : View) (t : DWord) : Result :=
  if !x.on then { s := x.s }
  else if !aligned128 t then x.trap .branchAlign t
  else { s := x.s, flow := .goto t }

def execNop : State → Host.Outcome State Fault Refusal :=
  issue { guard := Guard.always, roles := allRoles, noGuard := true } fun x => { s := x.s }

def execBraBase (pg : BitVec 3) (off : BitVec 18) : State → Host.Outcome State Fault Refusal :=
  issue { guard := Guard.base pg, roles := allRoles, uniform := true } fun x => x.branch (x.target (off.signExtend 64))
def execBra (g : Guard) (off : BitVec 32) : State → Host.Outcome State Fault Refusal :=
  issue { guard := g, roles := allRoles, uniform := true } fun x => x.branch (x.target (off.signExtend 64))

/-! ### Divergence (R42, R323) -/

/-- Free table entries a split may take: 0 to 3, or 5 in a handler (R42, R257). -/
def Bunch.freeEntries (b : Bunch) (entry : Nat) : List Nat :=
  (if 4 ≤ entry then [5] else [0, 1, 2, 3]).filter fun e => (Store.find b.splits e).isNone

/-- Give the later groups of a diverging split their own entries, or DEFER entries on its stack (R42, R323): the groups in
order, the entries free, the stack after the JOIN. -/
def Bunch.spread (b : Bunch) (x : View) (child : Split) : List (Pc × Mask) → List Nat → Bunch × List StackEntry
  | [], _ => (b, [])
  | (pc, m) :: r, e :: es => Bunch.spread (arriveIf (b.setSplit e { child with pc, mask := m }) e) x child r es
  | (pc, m) :: r, [] =>
    let y := Bunch.spread b x child r []
    (y.1, .defer pc m :: y.2)

/-- Results in flight of splits that have fused are the issuing split's own, before their entries are used again (R67, R70). -/
def Bunch.inherit (b : Bunch) (e : Nat) : Bunch :=
  let gone (x : Nat) : Bool := (Store.find b.splits x).isNone
  { b with
    pends := b.pends.map fun p => if gone p.entry then { p with entry := e } else p
    ops := b.ops.map fun o => if gone o.entry then { o with entry := e } else o }

/-- Diverge into groups, the first of which the split keeps; `rc` is the reconvergence address. -/
def View.diverge (x : View) (groups : List (Pc × Mask)) (rc : DWord) : Result :=
  match groups with
  | [] => { s := x.s }
  | (pc, m) :: rest =>
    let free := x.b.freeEntries x.entry
    let need := 1 + (rest.length - free.length)
    if 8 < x.sp.stack.length + need then x.trap .splitDepth 0
    else
      let base := StackEntry.join x.b.nextDiv rc x.lanes 0 :: x.sp.stack
      let sp := { x.sp with stack := base }
      let b0 := { x.b.inherit x.entry with nextDiv := x.b.nextDiv + 1 }
      let y := Bunch.spread b0 x { sp.after x x.b true with state := .ready } rest free
      x.answer (y.1.setSplit x.entry { sp with stack := y.2 ++ base, mask := m, pc := pc })

/-- BRA.D (R42). -/
def execBraD (g : Guard) (off : BitVec 32) (rc : BitVec 16) : State → Host.Outcome State Fault Refusal :=
  issue { guard := g, roles := allRoles } fun x =>
    let t := x.target (off.signExtend 64)
    let r := x.target (rc.signExtend 64)
    let n := x.lanes &&& ~~~x.exec
    if !aligned128 t then x.trap .branchAlign t
    else if !aligned128 r then x.trap .branchAlign r
    else if n = 0 then { s := x.s, flow := .goto t }
    else if x.exec = 0 then { s := x.s }
    else { x.diverge [({ bundle := t, slot := 0 }, x.exec), (x.nextPc, n)] r with flow := .placed }

def execBrx (g : Guard) (a : BitVec 6) : State → Host.Outcome State Fault Refusal :=
  issue { guard := g, roles := allRoles, uniform := true, reads := kBlock a.toNat 2 } fun x => x.branchReg (x.kPair a.toNat)

/-- Lanes grouped by where they go, groups in the order of their lowest lanes (R323). -/
def groupLanes (f : Nat → Pc) : List Nat → List (Pc × Mask) → List (Pc × Mask)
  | [], gs => gs
  | l :: r, gs =>
    let pc := f l
    groupLanes f r (if gs.any (fun q => q.1 == pc) then gs.map fun q => if q.1 = pc then (q.1, q.2 ||| laneBit l) else q
      else gs ++ [(pc, laneBit l)])

/-- BRX.D (R323). -/
def execBrxD (g : Guard) (a : BitVec 8) (b : BitVec 6) : State → Host.Outcome State Fault Refusal :=
  issue { guard := g, roles := noMatrix, reads := vBlock a.toNat 2 ++ kBlock b.toNat 2 } fun x =>
    let t (l : Nat) : DWord := x.vPair a.toNat l
    let rc := x.kPair b.toNat
    match (lanesOf x.exec).find? (fun l => !aligned128 (t l)) with
    | some l => x.trap .branchAlign (t l)
    | none =>
      let gs := groupLanes (fun l => if x.exec.getLsbD l then { bundle := t l, slot := 0 } else x.nextPc) (lanesOf x.lanes) []
      match gs with
      | [] => { s := x.s }
      | [(pc, _)] => if pc = x.nextPc then { s := x.s } else { s := x.s, flow := .goto pc.bundle }
      | _ => if !aligned128 rc then x.trap .branchAlign rc else { x.diverge gs rc with flow := .placed }

/-- CALL (R324): k60.d receives the address of the next bundle. -/
def execCall (g : Guard) (off : BitVec 32) : State → Host.Outcome State Fault Refusal :=
  issue { guard := g, roles := allRoles, uniform := true, writes := kBlock 60 2 } fun x =>
    let t := x.target (off.signExtend 64)
    if !aligned128 t then x.trap .branchAlign t
    else if !x.on then { s := x.s }
    else { x.answer (x.setPair (.k 60) fun _ => x.sp.pc.bundle + 128) with flow := .goto t }

def execRet (pg : BitVec 3) : State → Host.Outcome State Fault Refusal :=
  issue { guard := Guard.base pg, roles := allRoles, uniform := true, reads := kBlock 60 2 } fun x => x.branchReg (x.kPair 60)

/-- JMPF (R232, R367): to segment 0 or a landed segment of the launch on this core. -/
def execJmpf (g : Guard) (off : BitVec 32) : State → Host.Outcome State Fault Refusal :=
  issue { guard := g, roles := allRoles, uniform := true } fun x =>
    let t := x.target (off.signExtend 64)
    let landed := match (x.s.core x.b.core).blockOf x.b.ctx x.b.launch t with
      | none => false
      | some k => k.users.any fun u => u.1 == x.b.launch && (u.2 == 0 || match x.s.launch x.b.launch with
        | some l => l.landed.contains (x.b.core, u.2)
        | none => false)
    if !aligned128 t then x.trap .branchAlign t
    else if x.on && !landed then x.trap .codeAbsent t .fetch
    else { s := x.s, flow := if x.on then .goto t else .next }

/-! ### Others -/

/-- EXIT (R33): the executing lanes park and leave every join mask; an emptied split arrives. -/
def View.exit (x : View) : Result :=
  let e := x.exec
  if e = 0 then { s := x.s }
  else
    let b1 := dropFromJoins { x.b with active := x.b.active &&& ~~~e, helper := x.b.helper &&& ~~~e } e
    match Store.find b1.splits x.entry with
    | none => { s := x.s }
    | some sp =>
      let sp1 := { sp with mask := sp.mask &&& ~~~e, tripped := false }
      let b2 := b1.setSplit x.entry sp1
      if sp1.mask = 0 then { s := (x.s.setBunch x.id (arrive b2 x.entry)).checkArrivals x.id, flow := .placed }
      else { s := (x.s.setBunch x.id b2).checkArrivals x.id }

def execExit (pg : BitVec 3) : State → Host.Outcome State Fault Refusal :=
  issue { guard := Guard.base pg, roles := allRoles, hnd := .forbidden } View.exit

def execYield (pg : BitVec 3) : State → Host.Outcome State Fault Refusal :=
  issue { guard := Guard.base pg, roles := allRoles, uniform := true } fun x => { s := x.s, yields := x.on }

/-- The executing lanes trap; none: no effect (R318, R401). -/
def View.trapLanes (x : View) (c : Cause) (addr : DWord) : Result :=
  if x.exec = 0 then { s := x.s } else faulted x.s (faultAll x.exec c addr)
def execTrap (g : Guard) (code : BitVec 32) : State → Host.Outcome State Fault Refusal :=
  issue { guard := g, roles := allRoles } fun x => x.trapLanes .trap (code.setWidth 64)
def execBkpt (pg : BitVec 3) : State → Host.Outcome State Fault Refusal :=
  issue { guard := Guard.base pg, roles := allRoles } fun x => x.trapLanes .bkpt 0

/-- A word of an unassigned opcode traps ILLEGAL_OP, whatever its other fields (R72, R77). -/
def execUnassignedOpcode (_ : Word) : State → Host.Outcome State Fault Refusal :=
  issue { guard := Guard.always, roles := allRoles, noGuard := true, ill := fun _ => true } fun x => { s := x.s }

/-- The tokens WTOK names. -/
def WtokSel.mask : WtokSel → BitVec 8
  | .one t => 1 <<< t.toNat
  | .many m => m

/-- WTOK (R404). -/
def execWtok (g : Guard) (t : WtokSel) : State → Host.Outcome State Fault Refusal :=
  issue { guard := g, roles := allRoles, uniform := true } fun x =>
    let m := WtokSel.mask t
    if !x.on then { s := x.s }
    else
      match x.b.suspendedOn m with
      | some (o, fs) => { s := x.s, faults := fs, waitOps := some [o.id] }
      | none => if (x.b.busyOf m).isEmpty then { s := x.s.sawIdle x.id m } else { s := x.s, flow := .wait (.tokens m) true }

end Sys2Proof.Machine
end

