-- ==== Sys2Proof/Machine/Copy.lean ====
section
/-! DEFINITION. The copy engine: the steps of each copy's walk (R188 to R199, R214), CRC and completion records (R184 to R186, R201),
and routes (R62 to R64). -/

namespace Sys2Proof.Machine

/-! ### Elements -/

/-- An element on its way: its bits, and what converting it reports. -/
structure Carried where
  bits : Nat
  sat  : Bool := false
  fill : Bool := false
  inv  : Bool := false
deriving DecidableEq, Repr

/-- Read and convert a source element, or its fill value (R189, R192). -/
def Engine.fetch (g : Engine) (s : State) (src dst : Desc) (sps : Bool) (codes : BitVec 256) (fill : Nat) (idx : List Int) :
    Except Met Carried :=
  if tdIn src idx then
    let l := some (tdLayout src)
    match readElem (g.rd s l sps) (g.rd s l false) src (tdPos src idx) with
    | .error e => .error e
    | .ok el =>
      let c := convElem (tdFmt src) codes el (tdFmt dst)
      .ok { bits := c.bits, sat := c.sat, inv := c.inv }
  else if tdBounds src = 1 then .ok { bits := fill, fill := true }
  else .error (.tdescBounds, BitVec.ofInt 64 (tdPos src idx))

/-- Note written bytes: BYTES, the CRC stream, granules. -/
def CopyRun.wrote (r : CopyRun) (pad : Nat) (sp : Bool) (a : DWord) (key : Nat) (bs : List Byte) : CopyRun :=
  { r with
    bytes := r.bytes + bs.length
    parts := if r.crcOn then Store.insert r.parts key bs else r.parts
    grans := if sp then r.grans ++ (granKeys pad a.toNat bs.length).filter (fun k => !r.grans.contains k) else r.grans }

/-- Write bytes at a destination address and note them. -/
def Engine.put (g : Engine) (s : State) (r : CopyRun) (layout : Option Nat) (spd : Bool) (a : DWord) (key : Nat) (bs : List Byte) :
    Except Met (State × CopyRun) :=
  match g.wr s layout spd a bs with
  | .error e => .error e
  | .ok t => .ok (t, r.wrote g.pad spd a key bs)

/-- Write an element to a destination index under R192's bounds rules. -/
def Engine.store (g : Engine) (s : State) (r : CopyRun) (dst : Desc) (spd : Bool) (idx : List Int) (key : Nat) (v : Carried) :
    Except Met (State × CopyRun) :=
  let r1 := { r with sat := r.sat || v.sat, fill := r.fill || v.fill }
  let e := tdPos dst idx
  let n := fmtBytes (tdFmt dst)
  if tdIn dst idx then
    match g.put s r1 (some (tdLayout dst)) spd (BitVec.ofInt 64 ((tdBase dst : Int) + e * (n : Int))) key (leBytes v.bits n) with
    | .error m => .error m
    | .ok (t, r2) => .ok (g.invalid t v.inv, r2)
  else if tdBounds dst = 1 then .ok (g.invalid s v.inv, { r1 with supp := true })
  else .error (.tdescBounds, BitVec.ofInt 64 e)

/-! ### CPYA (R191 to R193) -/

/-- Walk-record fields. -/
def wrExtent (w : BitVec 1024) (c : Nat) : Nat := fieldOf w (64 * c + 48) 16
def wrSstep (w : BitVec 1024) (c i : Nat) : Int := (w.extractLsb' (64 * c + 24 + 4 * i) 4).toInt
def wrDstep (w : BitVec 1024) (c i : Nat) : Int := (w.extractLsb' (64 * c + 4 * i) 4).toInt
def wrSorg (w : BitVec 1024) (i : Nat) : Int := (w.extractLsb' (384 + 32 * i) 32).toInt
def wrDorg (w : BitVec 1024) (i : Nat) : Int := (w.extractLsb' (576 + 32 * i) 32).toInt
def wrFill (w : BitVec 1024) : Nat := fieldOf w 768 32
def wrExpCrc (w : BitVec 1024) : Word := w.extractLsb' 800 32
def wrMeta (w : BitVec 1024) : DWord := w.extractLsb' 832 64

def wrTotal (w : BitVec 1024) : Nat := (List.range 6).foldl (fun n c => n * wrExtent w c) 1

/-- Counters of step i, counter 0 fastest. -/
def digits : List Nat → Nat → List Nat
  | [], _ => []
  | e :: r, i => i % e :: digits r (i / e)
def wrCounters (w : BitVec 1024) (i : Nat) : List Nat := digits ((List.range 6).map (wrExtent w)) i

/-- Index vectors at counters. -/
def wrSource (w : BitVec 1024) (n : List Nat) : List Int :=
  (List.range 6).map fun i => (n.zip (List.range 6)).foldl (fun t e => t + e.1 * wrSstep w e.2 i) (wrSorg w i)
def wrDest (w : BitVec 1024) (n : List Nat) : List Int :=
  (List.range 6).map fun i => (n.zip (List.range 6)).foldl (fun t e => t + e.1 * wrDstep w e.2 i) (wrDorg w i)

/-- The kept elements that land on position p of their group, as places 2m or 2m + 1 on the walk line (R193). -/
def keptAt (nib m p : Nat) : List Nat :=
  (if nib % 4 = p then [2 * m] else []) ++ (if nib / 4 % 4 = p then [2 * m + 1] else [])

/-- The values of several kept elements: the last stands. -/
def Engine.fetchAll (g : Engine) (s : State) (src dst : Desc) (sps : Bool) (codes : BitVec 256) (fill : Nat) :
    List (List Int) → Carried → Except Met Carried
  | [], v => .ok v
  | i :: r, v =>
    match g.fetch s src dst sps codes fill i with
    | .error e => .error e
    | .ok x => g.fetchAll s src dst sps codes fill r
        { bits := x.bits, sat := v.sat || x.sat, fill := v.fill || x.fill, inv := v.inv || x.inv }

def affineStep (g : Engine) (s : State) (r : CopyRun) (src dst : Desc) (sps spd x24 : Bool) (w : BitVec 1024) :
    Except Met (State × CopyRun) :=
  let i := r.done
  let n := wrCounters w i
  let value : Except Met Carried :=
    if x24 then
      match g.rd s none false (wrMeta w + BitVec.ofNat 64 (i / 4 / 2)) 1 with
      | .error e => .error e
      | .ok b =>
        let nib := if i / 4 % 2 = 0 then b % 16 else b / 16
        let kept := keptAt nib (n.headD 0 / 4) (n.headD 0 % 4)
        g.fetchAll s src dst sps r.codes (wrFill w) (kept.map fun k => wrSource w (k :: n.tail)) { bits := 0 }
    else g.fetch s src dst sps r.codes (wrFill w) (wrSource w n)
  match value with
  | .error e => .error e
  | .ok v => g.store s r dst spd (wrDest w n) i v

/-! ### CPY, CPYG, CPYS (R188, R194, R195) -/

def laneStep (g : Engine) (s : State) (r : CopyRun) (size : Nat) (srcS dstS : Bool) (l : Nat × DWord × DWord) :
    Except Met (State × CopyRun) :=
  match g.rd s none srcS l.2.1 size with
  | .error e => .error e
  | .ok x => g.put s r none dstS l.2.2 l.1 (leBytes x size)

def gatherStep (g : Engine) (s : State) (r : CopyRun) (src dst : Desc) (sps spd spi : Bool) (list : DWord) (drow : Word) :
    Except Met (State × CopyRun) :=
  let n := tdExtent src 0 + 1
  let j := r.done / n
  let c := r.done % n
  if c = 0 then
    match g.rd s none spi (list + BitVec.ofNat 64 (4 * j)) 4 with
    | .error e => .error e
    | .ok x => .ok (s, { r with reg0 := x })
  else
    match g.fetch s src dst sps r.codes 0 [((c - 1 : Nat) : Int), (BitVec.ofNat 32 r.reg0).toInt] with
    | .error e => .error e
    | .ok v => g.store s r dst spd [((c - 1 : Nat) : Int), drow.toInt + (j : Int)] r.done v

/-- Entries of CPYS: pointers first, then positions. -/
def sparseStep (g : Engine) (s : State) (r : CopyRun) (src dst : Desc) (spd : Bool) (rp ci : DWord) (fr n : Nat) (dci drp : DWord) :
    Except Met (State × CopyRun) :=
  let val (x : Nat) : Int := (BitVec.ofNat 32 x).toInt
  if r.done ≤ n then
    match g.rd s none false (rp + BitVec.ofNat 64 (4 * (fr + r.done))) 4 with
    | .error e => .error e
    | .ok x =>
      if r.done ≠ 0 ∧ val x < val r.reg1 then .error (.tdescBounds, BitVec.ofInt 64 (val x))
      else
        let first := if r.done = 0 then x else r.reg0
        match g.put s { r with reg0 := first, reg1 := x } none spd (drp + BitVec.ofNat 64 (4 * r.done)) r.done
            (leBytes (BitVec.ofInt 32 (val x - val first)).toNat 4) with
        | .error e => .error e
        | .ok y => .ok y
  else
    let t := r.done - n - 1
    let e : Int := val r.reg0 + (t : Int)
    match g.rd s none false (ci + BitVec.ofInt 64 (4 * e)) 4 with
    | .error m => .error m
    | .ok c =>
      match g.put s r none spd (dci + BitVec.ofNat 64 (4 * t)) (2 ^ 33 + t) (leBytes c 4) with
      | .error m => .error m
      | .ok (s1, r1) =>
        match g.fetch s src dst false r.codes 0 [e] with
        | .error m => .error m
        | .ok v => g.store s1 r1 dst spd [(t : Int)] (2 ^ 34 + t) v

/-! ### CPYQ (R196) -/

/-- Every index vector of the first `n` dimensions other than `skip`, with 0 there. -/
def indexLines (d : Desc) (skip : Nat) : Nat → List (List Int)
  | 0 => [[]]
  | n + 1 =>
    (indexLines d skip n).flatMap fun p =>
      if n = skip then [p ++ [0]] else (List.range (tdExtent d n)).map fun (i : Nat) => p ++ [(i : Int)]

/-- A block: the index vector of its first element, and how many elements it has along KDIM. -/
structure Block where
  first : List Int
  count : Nat
deriving DecidableEq, Repr

def insertBlock (d : Desc) (b : Block) : List Block → List Block
  | [] => [b]
  | x :: r => if tdPos d b.first < tdPos d x.first then b :: x :: r else x :: insertBlock d b r

/-- The blocks of a tensor, by the position of their first elements. -/
def quantBlocks (d : Desc) : List Block :=
  let k := tdKdim d
  let n := tdExtent d k
  let all := (indexLines d k (tdRank d)).flatMap fun (p : List Int) =>
    (List.range ((n + 31) / 32)).map fun (i : Nat) => { first := p.set k ((32 * i : Nat) : Int), count := min 32 (n - 32 * i) : Block }
  all.foldl (fun t b => insertBlock d b t) []

/-- The index vector of element j of a block. -/
def Block.at (b : Block) (k j : Nat) : List Int := b.first.set k (b.first.getD k 0 + (j : Int))

/-- The outliers of a block: positions, in ascending order, of the `room` largest beyond T × m; and whether room ran out. -/
def outliers (xs : List Num) (thr : Word) (room : Nat) : List Nat × Bool :=
  match (xs.filter fun x => !x.isNan).mapM mag149, Fmt.f32.num thr.toNat with
  | some ms, .fin false tm te =>
    let sum := ms.foldl (· + ·) 0
    let big (x : Num) : Option Nat := match x, mag149 x with
      | .nan, _ => none
      | _, some a => if tm * 2 ^ (te + 149).toNat * sum < a * 32 * 2 ^ 149 ∧ tm ≠ 0 then some a else none
      | _, none => none
    let cand := (xs.zip (List.range xs.length)).filterMap fun e => (big e.1).map fun a => (a, e.2)
    -- the rank of a candidate: those larger, or as large and before it
    let kept := cand.filter fun c => (cand.filter fun d => decide (c.1 < d.1) || (d.1 == c.1 && decide (d.2 < c.2))).length < min 4 room
    (kept.map (·.2), decide (room < min 4 cand.length))
  | _, _ => ([], false)

/-- The bytes of one BPI plane that hold a block's elements: codes give the bits, others keep theirs. -/
def planeByte (codes : List Nat) (old p i : Nat) : Byte :=
  BitVec.ofNat 8 ((List.range 8).foldl (fun x j =>
    let bit := match codes[8 * i + j]? with
      | some c => c / 2 ^ p % 2
      | none => old / 2 ^ j % 2
    x + bit * 2 ^ j) 0)

/-- Read the 32 values of a block. -/
def readBlock (rd : Nat → Except Met Nat) : Nat → Nat → Except Met (List Nat)
  | 0, _ => .ok []
  | n + 1, j =>
    match rd j with
    | .error e => .error e
    | .ok x =>
      match readBlock rd n (j + 1) with
      | .error e => .error e
      | .ok r => .ok (x :: r)

/-- Write the bytes of a BPI block, plane after plane. -/
def Engine.putPlanes (g : Engine) (dst : Desc) (spd : Bool) (codes : List Nat) (a : Int) (key : Nat) :
    List (Nat × Nat) → State → CopyRun → Except Met (State × CopyRun)
  | [], s, r => .ok (s, r)
  | (p, i) :: rest, s, r =>
    let at_ := BitVec.ofInt 64 (a + ((4 * p + i : Nat) : Int))
    -- a byte whose eight elements are all of the block is written without a read
    match (if 8 * i + 8 ≤ codes.length then .ok 0 else g.rd s (some (tdLayout dst)) spd at_ 1) with
    | .error e => .error e
    | .ok old =>
      match g.put s r (some (tdLayout dst)) spd at_ (key + 4 * p + i) [planeByte codes old (7 - p) i] with
      | .error e => .error e
      | .ok (t, q) => g.putPlanes dst spd codes a key rest t q

/-- Write the codes of a byte format. -/
def Engine.putCodes (g : Engine) (dst : Desc) (spd : Bool) (a : Int) (key : Nat) :
    List Nat → Nat → State → CopyRun → Except Met (State × CopyRun)
  | [], _, s, r => .ok (s, r)
  | c :: rest, j, s, r =>
    match g.put s r (some (tdLayout dst)) spd (BitVec.ofInt 64 (a + (j : Int))) (key + j) (leBytes c 1) with
    | .error e => .error e
    | .ok (t, q) => g.putCodes dst spd a key rest (j + 1) t q

/-- Write side-list entries. -/
def Engine.putSide (g : Engine) (side : DWord) : List (Nat × Nat) → Nat → State → Except Met State
  | [], _, s => .ok s
  | (pos, h) :: rest, n, s =>
    match g.wr s none false (side + BitVec.ofNat 64 (8 + 8 * n)) (leBytes (pos + h * 2 ^ 32) 8) with
    | .error e => .error e
    | .ok t => g.putSide side rest (n + 1) t

/-- One block of CPYQ, or, after the last, the head of the side list. -/
def quantStep (g : Engine) (s : State) (r : CopyRun) (src dst : Desc) (sps spd : Bool) (side : DWord) (cap : Nat) (thr : Word) :
    Except Met (State × CopyRun) :=
  match (quantBlocks dst)[r.done]? with
  | none =>
    match g.wr s none false side (leBytes r.reg0 8) with
    | .error e => .error e
    | .ok t => .ok (t, r)
  | some b =>
    let k := tdKdim dst
    let f := tdFmt dst
    let l := some (tdLayout src)
    let pos := tdPos dst b.first
    match readBlock (fun j => readRaw (g.rd s l sps) src (tdPos src (b.at k j))) b.count 0 with
    | .error e => .error e
    | .ok raws =>
      let xs := raws.map fun x => (codeNum (tdFmt src) 0 x).1
      let (out, full) := outliers xs thr (cap - r.reg0)
      let rest := (xs.zip (List.range xs.length)).filterMap fun e => if out.contains e.2 then none else some e.1
      let e := blockScale f rest
      let q := (xs.zip (List.range xs.length)).map fun x => if out.contains x.2 then (0, false) else quantCode f e x.1
      let halves := out.map fun j =>
        convElem (tdFmt src) 0 { raw := raws.getD j 0, scale := none } 1
      let entries := (out.zip halves).map fun x => ((BitVec.ofInt 32 (pos + (x.1 : Int))).toNat, x.2.bits)
      match g.putSide side entries r.reg0 s with
      | .error m => .error m
      | .ok s1 =>
        let r1 := { r with
          reg0 := r.reg0 + out.length, side := r.side || full
          sat := r.sat || q.any (·.2) || halves.any (·.sat) }
        let key := 512 * r.done
        let codes := q.map (·.1)
        let written :=
          if isBpi f then
            g.putPlanes dst spd codes ((tdBase dst : Int) + pos / 32 * (tdSpl dst * 4 : Nat)) key
              ((List.range (tdSpl dst)).flatMap fun p => (List.range ((b.count + 7) / 8)).map fun i => (p, i)) s1 r1
          else g.putCodes dst spd ((tdBase dst : Int) + pos) key codes 0 s1 r1
        match written with
        | .error m => .error m
        | .ok (s2, r2) =>
          match g.put s2 r2 (some (tdLayout dst)) false (BitVec.ofInt 64 ((tdScale dst : Int) + pos / 32)) (key + 511) (leBytes e 1) with
          | .error m => .error m
          | .ok (s3, r3) => .ok (g.invalid s3 (e == 255), r3)

/-! ### CPYL (R197, R198) -/

/-- A step of a layout program with the view it applies to. -/
inductive LayStep
  | transpose
  | interleave (f : Nat)
  | tile (th tw cols : Nat)
  | stride (s o : Nat)
  | swap (w : Nat)
deriving DecidableEq, Repr

/-- Check a program: its steps in order, with the final rows and columns; none where R198 refuses it. `size`, `dsize`: element
sizes of source and destination. -/
def layParse (size dsize : Nat) : List Word → Nat → Nat → Option (List LayStep × Nat × Nat)
  | [], r, c => some ([], r, c)
  | w :: rest, r, c =>
    let op := (bits w 28 4).toNat
    let par := (bits w 0 28).toNat
    let p0 := par % 256
    let p1 := par / 256 % 256
    let more (st : LayStep) (r' c' : Nat) : Option (List LayStep × Nat × Nat) :=
      (layParse size dsize rest r' c').map fun y => (st :: y.1, y.2)
    match op with
    | 0 => if par = 0 then some ([], r, c) else none
    | 1 => if par = 0 then more .transpose c r else none
    | 2 => if par < 256 ∧ 2 ≤ p0 ∧ r % p0 = 0 then more (.interleave p0) (r / p0) (c * p0) else none
    | 3 =>
      if par < 65536 ∧ p0 ≠ 0 ∧ p1 ≠ 0 ∧ r % p0 = 0 ∧ c % p1 = 0 then more (.tile p0 p1 (c / p1)) (r * c / (p0 * p1)) (p0 * p1) else none
    | 4 => if par < 65536 ∧ 1 ≤ p0 ∧ p1 < r then more (.stride p0 p1) ((r - p1 + p0 - 1) / p0) c else none
    | 5 =>
      if par < 4 ∧ par ≠ 0 ∧ size % 2 ^ par = 0 ∧ size = dsize then more (.swap par) r c else none
    | _ => none

/-- The place of an element of the new view in the old one. -/
def LayStep.back (st : LayStep) (r c : Nat) : Nat × Nat :=
  match st with
  | .transpose => (c, r)
  | .interleave f => (r * f + c % f, c / f)
  | .tile th tw cols => (r / cols * th + c / tw, r % cols * tw + c % tw)
  | .stride s o => (o + r * s, c)
  | .swap _ => (r, c)
def layBack : List LayStep → Nat → Nat → Nat × Nat
  | [], r, c => (r, c)
  | st :: rest, r, c =>
    let y := layBack rest r c
    st.back y.1 y.2

/-- Reverse the bytes of each group of 2^w bytes. -/
def swapGroups (w : Nat) : Nat → List Byte → List Byte
  | 0, _ => []
  | n + 1, bs => (bs.take (2 ^ w)).reverse ++ swapGroups w n (bs.drop (2 ^ w))
def laySwap (st : List LayStep) (bs : List Byte) : List Byte :=
  st.foldl (fun b x => match x with
    | .swap w => swapGroups w (b.length / 2 ^ w) b
    | _ => b) bs

/-- Rows and columns of the source view. -/
def layRows (src : Desc) : Nat := if tdRank src = 1 then 1 else tdExtent src 1

def layoutStep (g : Engine) (s : State) (r : CopyRun) (src dst : Desc) (sps spd : Bool) (prog : List Word) :
    Except Met (State × CopyRun) :=
  match layParse (fmtBytes (tdFmt src)) (fmtBytes (tdFmt dst)) prog (layRows src) (tdExtent src 0) with
  | none => .ok (s, r)
  | some (steps, _, cols) =>
    let row := r.done / cols
    let col := r.done % cols
    let at_ := layBack steps row col
    let e := tdPos src [(at_.2 : Int), (at_.1 : Int)]
    let l := some (tdLayout src)
    match readElem (g.rd s l sps) (g.rd s l false) src e with
    | .error m => .error m
    | .ok el =>
      let raw := leNat (laySwap steps (leBytes el.raw (fmtBytes (tdFmt src))))
      let c := convElem (tdFmt src) r.codes { el with raw := raw } (tdFmt dst)
      g.store s r dst spd [(col : Int), (row : Int)] r.done { bits := c.bits, sat := c.sat, inv := c.inv }

/-! ### CPYX (R199) -/

/-- Where a route leads (R63, R64). -/
inductive Eject
  | core (n : Nat)
  | commons
  | port (n : Nat)
  | illegal
deriving DecidableEq, Repr

def Eject.isCore : Eject → Bool
  | .core _ => true
  | _ => false
/-- The unit an eject names, by the numbers of PORT_RETIRE; commons banks are none. -/
def Eject.units (device : Nat) : Eject → List Nat
  | .core n => [48 + (n - 144 * device)]
  | .port n => [n]
  | _ => []

/-- A place on a walk: a stop of a die's mesh with the heading (0 east, 1 south, 2 west, 3 north), or a ring stop. -/
inductive Stop
  | mesh (die x y h : Nat)
  | ring (n : Nat) (up : Bool)
deriving DecidableEq, Repr

/-- One stop on in the current heading. -/
def Stop.move : Stop → Option Stop
  | .mesh d x y 0 => if x < 8 then some (.mesh d (x + 1) y 0) else none
  | .mesh d x y 1 => if y < 3 then some (.mesh d x (y + 1) 1) else none
  | .mesh d x y 2 => if 0 < x then some (.mesh d (x - 1) y 2) else none
  | .mesh d x y h => if 0 < y then some (.mesh d x (y - 1) h) else none
  | .ring n up => some (.ring ((n + if up then 1 else 23) % 24) up)

/-- A turn other than eject; `link` is the link last climbed. -/
def Stop.turn (st : Stop) (t link : Nat) : Option (Stop × Nat) :=
  let go (x : Stop) : Option (Stop × Nat) := x.move.map fun y => (y, link)
  match st, t with
  | s, 0 => go s
  | .mesh d x y h, 1 => go (.mesh d x y ((h + 3) % 4))
  | .mesh d x y h, 2 => go (.mesh d x y ((h + 1) % 4))
  | .ring n _, 1 => go (.ring n false)
  | .ring n _, 2 => go (.ring n true)
  | .mesh d x y _, 3 => if x = 8 then some (.ring (3 * d) true, y) else none
  | .ring n _, 4 => if n % 3 = 0 then some (.mesh (n / 3) 8 link 2, link) else none
  | _, _ => none

/-- The place an eject names. -/
def Stop.place (device : Nat) : Stop → Eject
  | .mesh d x y _ =>
    if 1 ≤ x ∧ x ≤ 6 ∧ y ≤ 2 then .core (18 * (8 * device + d) + 6 * y + x - 1)
    else if y = 3 ∧ x ≤ 7 then .commons
    else .illegal
  | .ring n _ => if n % 3 = 0 then .illegal else .port (2 * (n / 3) + n % 3 - 1)

/-- The die-to-die link that a turn crosses, by the numbers of PORT_RETIRE. -/
def Stop.crosses : Stop → Nat → Nat → List Nat
  | .mesh d _ y _, 3, _ => [16 + (4 * d + y)]
  | .ring n _, 4, link => [16 + (4 * (n / 3) + link)]
  | _, _, _ => []

/-- Walk the turns of a string: where it ejects, and the links and the unit it meets. -/
def walkTurns (device : Nat) (str : DWord) : Nat → Nat → Stop → Nat → Eject × List Nat
  | 0, _, _, _ => (.illegal, [])
  | n + 1, i, st, link =>
    let t := (bits str (3 * i) 3).toNat
    if t = 5 then (st.place device, (st.place device).units device)
    else
      match st.turn t link with
      | none => (.illegal, [])
      | some (y, l) =>
        let r := walkTurns device str n (i + 1) y l
        (r.1, st.crosses t link ++ r.2)

/-- The string a route operand stands for (R62). -/
def routeString : Route → DWord
  | .short r => r.setWidth 64 ||| 0x8000000000000000
  | .lit x => x

/-- The walk of a core's route string: 21 turns at most; and what it meets that firmware has retired. -/
def routeFrom (s : State) (core : Nat) (r : Route) : Eject × List Nat :=
  let y := walkTurns s.device (routeString r) 21 0 (.mesh (cellarOf core % 8) 0 0 0) 0
  (y.1, y.2.filter s.unitRetired)

/-- The scratchpad of a core that a copy of a launch names: that of the launch's team there, else the core's first that no team
holds (log entry 20). -/
def State.padFor (s : State) (launch core : Nat) : Nat :=
  match s.teams.find? fun t => t.2.launch == launch && t.2.core == core && t.2.saved.isNone with
  | some t => t.2.pad
  | none => s.freePad core

/-- A page homed on another device (R199). -/
def homedAway (s : State) (g : Engine) (a : DWord) : Except Met Bool :=
  match locate s g.core g.ctx a .write with
  | .error e => .error (e, a)
  | .ok x => .ok (!x.window && x.place.device.any (· != s.device))

/-- The port by which a payload leaves: the one its route names, or another where that has gone (R296). -/
def State.payloadPort (s : State) (port d : Nat) : Nat := if s.portGone port then s.portTo d else port

/-- Sixteen bytes of CPYX; payloads are class 4 (R292). -/
def estateStep (g : Engine) (s : State) (r : CopyRun) (sps : Bool) (src dst : DWord) (toPad : Option Nat) (port : Nat) :
    Except Met (State × CopyRun) :=
  let off := BitVec.ofNat 64 (16 * r.done)
  match g.rd s none sps (src + off) 16 with
  | .error e => .error e
  | .ok x =>
    let bs := leBytes x 16
    match toPad with
    | some p =>
      let h : Engine := { g with pad := p }
      h.put s r none true (dst + off) r.done bs
    | none =>
      match homedAway s g (dst + off) with
      | .error e => .error e
      | .ok false => .error (.pageProtection, dst + off)
      | .ok true => if s.carries (s.payloadPort port s.device) 4 then g.put s r none false (dst + off) r.done bs else .error (.linkDown, dst + off)

/-! ### ADRN (R214) -/

/-- An element of a drained row: the value, with its bias. -/
def drainValue (s : State) (g : Engine) (tile row : Nat) (bias : Option (List Word)) (c : Nat) : Word :=
  let t := match Store.find (s.core g.core).acc (accKey tile row c) with
    | some a => a.tile
    | none => 0
  match bias with
  | some b => tileAdd t (b.getD c 0)
  | none => t

def drainStep (g : Engine) (s0 : State) (r : CopyRun) (dst : Desc) (spd : Bool) (tile trow : Nat) (drow dcol : Word)
    (bias : Option (List Word)) : Except Met (State × CopyRun) :=
  let row := trow + r.done / 128
  let c := r.done % 128
  let s1 := if c = 0 then (if r.undef then s0.setCore g.core ((s0.core g.core).forgetTile tile) else s0).settleRow g.core tile row else s0
  let idx (c : Nat) : List Int := [dcol.toInt + (c : Int), drow.toInt + (r.done / 128 : Nat)]
  let f := tdFmt dst
  let y := drainValue s1 g tile row bias
  let bad (c : Nat) : Bool := s0.accPoisoned g.core (accKey tile row c)
  if bad c then .error (.eccUncorrectable, 0)
  else if tdScale dst = 0 then
    let q := convElem 0 0 { raw := (y c).toNat, scale := none } f
    g.store s1 r dst spd (idx c) r.done { bits := q.bits, sat := q.sat, inv := q.inv }
  else if !tdIn dst (idx c) then g.store s1 r dst spd (idx c) r.done { bits := 0 }
  else
    let n := tdPos dst (idx c) / 32
    let mates := (List.range 128).filter fun j => tdIn dst (idx j) && tdPos dst (idx j) / 32 == n
    let e := blockScale f (mates.map fun j => Fmt.f32.num (y j).toNat)
    let q := quantCode f e (Fmt.f32.num (y c).toNat)
    if mates.any bad then .error (.eccUncorrectable, 0)
    else match g.store s1 r dst spd (idx c) r.done { bits := q.1, sat := q.2, inv := e == 255 } with
    | .error m => .error m
    | .ok (s2, r2) =>
      if mates.headD c = c then
        match g.wr s2 (some (tdLayout dst)) spd (BitVec.ofInt 64 ((tdScale dst : Int) + n)) (leBytes e 1) with
        | .error m => .error m
        | .ok s3 => .ok (s3, if spd then { r2 with grans := r2.grans ++ (granKeys g.pad (tdScale dst + n.toNat) 1).filter fun k => !r2.grans.contains k } else r2)
      else .ok (s2, r2)

/-! ### Running a copy (R183 to R186) -/

/-- Steps of a copy. -/
def CopyRun.total (r : CopyRun) : Nat :=
  match r.job with
  | .lanes _ _ _ w => w.length
  | .affine _ _ _ _ _ w => wrTotal w
  | .gather src _ _ _ _ _ n _ => n * (tdExtent src 0 + 1)
  | .sparse _ _ _ _ _ _ n _ _ =>
    n + 1 + ((BitVec.ofNat 32 r.reg1).toInt - (BitVec.ofNat 32 r.reg0).toInt).toNat
  | .quant _ dst _ _ _ _ _ => (quantBlocks dst).length + 1
  | .layout src dst _ _ p =>
    match layParse (fmtBytes (tdFmt src)) (fmtBytes (tdFmt dst)) p (layRows src) (tdExtent src 0) with
    | some (_, rows, cols) => rows * cols
    | none => 0
  | .estate _ _ _ len .. => len / 16
  | .drain _ _ _ _ rows _ _ _ => 128 * rows

/-- The step that a two-step gather is in (R184). -/
def CopyRun.stepNo (r : CopyRun) : BitVec 2 :=
  match r.job with
  | .gather src .. => if r.done % (tdExtent src 0 + 1) = 0 then 1 else 2
  | .sparse _ _ _ _ _ _ n _ _ => if r.done ≤ n then 1 else 2
  | _ => 0

/-- The next step of a copy. -/
def copyStep (g : Engine) (s : State) (r : CopyRun) : Except Met (State × CopyRun) :=
  match r.job with
  | .lanes size a b w =>
    match w[r.done]? with
    | some l => laneStep g s r size a b l
    | none => .ok (s, r)
  | .affine src dst sps spd x24 w => affineStep g s r src dst sps spd x24 w
  | .gather src dst sps spd spi list _ drow => gatherStep g s r src dst sps spd spi list drow
  | .sparse src dst spd rp ci fr n dci drp => sparseStep g s r src dst spd rp ci fr n dci drp
  | .quant src dst sps spd side cap thr => quantStep g s r src dst sps spd side cap thr
  | .layout src dst sps spd p => layoutStep g s r src dst sps spd p
  | .estate sps src dst _ c p _ => estateStep g s r sps src dst c p
  | .drain dst spd t trow _ drow dcol bias => drainStep g s r dst spd t trow drow dcol bias

/-- The lane that a fault of a copy names: CPY's own, else the lowest at issue (R186). -/
def CopyRun.faultLane (r : CopyRun) : Nat :=
  match r.job with
  | .lanes _ _ _ w => ((w[r.done]?).map (·.1)).getD r.lane
  | _ => r.lane

/-- The faults of the lanes that come after the faulting one in a CPY: its mask holds every faulting lane (R186, R255). -/
def CopyRun.laterFaults (g : Engine) (s : State) (r : CopyRun) : List LaneFault :=
  match r.job with
  | .lanes size a b w => (w.drop (r.done + 1)).filterMap fun l =>
    match laneStep g s r size a b l with
    | .ok _ => none
    | .error e => if g.waits s e then none else some { lane := l.1, cause := e.1, addr := e.2, kind := .engine }
  | _ => []

/-- Its route has met what firmware had retired and has not brought back (R64): where the walk led, its destination address. -/
def CopyRun.cutAt (r : CopyRun) (s : State) : Option DWord :=
  match r.job with
  | .estate _ _ dst _ _ _ cut => if cut.any s.unitRetired then some (dst + BitVec.ofNat 64 (16 * r.done)) else none
  | _ => none

/-- The copy is suspended on what it met. -/
def CopyRun.suspend (r : CopyRun) (g : Engine) (s : State) (e : Met) : CopyRun :=
  { r with fstep := r.stepNo, fault := some { lane := r.faultLane, cause := e.1, addr := e.2, kind := .engine }, more := r.laterFaults g s }

/-- At most `n` steps: the copy stops at the element that faults, or that a link holds back. -/
def copyGo (g : Engine) : Nat → State → CopyRun → State × CopyRun
  | 0, s, r => (s, r)
  | n + 1, s, r =>
    if r.fault.isSome || r.total ≤ r.done then (s, r)
    else
      match r.cutAt s, copyStep g s r with
      | some a, _ => (s, r.suspend g s (.linkDown, a))
      | none, .ok (t, q) => copyGo g n t { q with done := r.done + 1 }
      | none, .error e => (s, if g.waits s e then r else r.suspend g s e)

/-- Every step that is left; CPYS learns its number of positions from its pointers. -/
def copyAll (g : Engine) (s : State) (r : CopyRun) : State × CopyRun :=
  let y := copyGo g (r.total - r.done) s r
  copyGo g (y.2.total - y.2.done) y.1 y.2

/-! ### Completion records (R184, R185) -/

def recStatus (x : DWord) : Nat := (bits x 60 4).toNat
/-- Add a copy's outcome to a token's record; FSTEP stays that of the last fault taken. -/
def addRecord (x : DWord) (status : Nat) (r : CopyRun) : DWord :=
  let st := if recStatus x = 0 then status else recStatus x
  let n := min ((bits x 0 48).toNat + r.bytes) (2 ^ 48 - 1)
  let fs := (bits x 54 2).toNat
  let flag (i : Nat) (b : Bool) : Nat := if b || bit x i then 2 ^ i else 0
  BitVec.ofNat 64 (st * 2 ^ 60 + flag 59 r.sat + flag 58 r.fill + flag 57 r.supp + flag 56 r.crcOn + fs * 2 ^ 54 + n)

/-- The CRC of a copy's destination stream. -/
def CopyRun.crcOf (r : CopyRun) : Word := crc32c (r.parts.map (·.2)).flatten

def Bunch.setJob (b : Bunch) (op : Nat) (j : TokJob) : Bunch :=
  { b with ops := b.ops.map fun o => if o.id == op then { o with job := j } else o }

/-- A copy has made every step: full bits, the record, and, of CRC_MISMATCH under .ctrap, a trap that is owed (R186). -/
def State.finishCopy (s : State) (id op : Nat) (tok : BitVec 3) (core : Nat) (r : CopyRun) : State :=
  let s1 := { s with full := r.grans.foldl (fun f k => f.write k 1) s.full }
  let bad := r.chk.any (· != r.crcOf)
  let status := if bad then 1 else if r.side then 2 else 0
  let t := tok.toNat
  let s2 := s1.onBunch id fun b =>
    let b1 := { b with tokRec := Store.put 0 b.tokRec t (addRecord (Store.get 0 b.tokRec t) status r) }
    if r.crcOn && Store.get 0 b.tokCrcOp t == op then { b1 with tokCrc := Store.put 0 b1.tokCrc t r.crcOf } else b1
  let s3 := match r.job with
    | .drain _ _ tile .. => if r.undef then s2.setCore core ((s2.core core).forgetTile tile) else s2
    | _ => s2
  if bad && r.ctrap then s3.onBunch id fun b => b.setJob op (.copy { r with crcTrap := true }) else s3.completeOp id op

/-- A copy stops at a fault: what the steps before it did stands (R186). -/
def State.suspendCopy (s : State) (id op : Nat) (r : CopyRun) : State := s.onBunch id fun b => b.setJob op (.copy r)

/-- A copy in flight that may go on: its bunch is resident, and the engine has taken it (R183). -/
def State.copyOf (s : State) (id op : Nat) : Option (Bunch × TokOp × CopyRun) :=
  match Store.find s.bunches id with
  | none => none
  | some b =>
    match b.ops.find? (fun o => o.id == op) with
    | none => none
    | some o =>
      match o.job with
      | .copy r => if r.queued || r.fault.isSome || r.crcTrap || b.slot.isNone || !s.ctxRuns b.ctx then none else some (b, o, r)
      | _ => none

def Bunch.engine (b : Bunch) (id : Nat) : Engine := { core := b.core, pad := b.pad, ctx := b.ctx, bunch := id }

/-- One step of a copy in flight, between instructions (R150). -/
def State.copyAhead (s : State) (id op : Nat) : State :=
  match s.copyOf id op with
  | none => s
  | some (b, _, r) =>
    let y := copyGo (b.engine id) 1 s r
    if y.2.fault.isSome then s else y.1.onBunch id fun c => c.setJob op (.copy y.2)

/-- A copy has made its every step. -/
def CopyRun.whole (r : CopyRun) : Bool := r.fault.isNone && decide (r.total ≤ r.done)

/-- COPY_COMPLETE (R183): no element that is left faults or is held back. -/
def execCopyComplete (bunch op : Nat) (s : State) : Host.Outcome State Fault Refusal :=
  match s.copyOf bunch op with
  | none => .refused (.eventNotEnabled "COPY_COMPLETE")
  | some (b, o, r) =>
    let y := copyAll (b.engine bunch) s r
    if y.2.whole then .next (y.1.finishCopy bunch op o.tok b.core y.2) else .refused (.eventNotEnabled "COPY_COMPLETE")

/-- COPY_FAULT_SUSPEND of a copy: some element that is left faults. -/
def State.copySuspended (s : State) (bunch op : Nat) : Option State :=
  match s.copyOf bunch op with
  | none => none
  | some (b, _, r) =>
    let y := copyAll (b.engine bunch) s r
    if y.2.fault.isSome then some (y.1.suspendCopy bunch op y.2) else none

end Sys2Proof.Machine
end

