-- ==== Sys2Proof/Machine/Copies.lean ====
section
/-! DEFINITION. The copy instructions as they issue (R183, R187, R335 to R337): faults at issue, the record of the token, and the
copy that the engine then runs. -/

namespace Sys2Proof.Machine

def latCopy : Nat := 855

/-- A copy that issues on an idle token clears the token's record (R185). -/
def View.clearRecord (x : View) (tok : BitVec 3) : State :=
  if x.b.tokBusy tok.toNat then x.s
  else x.s.onBunch x.id fun b =>
    { b with tokRec := Store.erase b.tokRec tok.toNat, tokCrc := Store.erase b.tokCrc tok.toNat, tokCrcOp := Store.erase b.tokCrcOp tok.toNat }

/-- The engine has no room for another copy (R183). -/
def View.copyFull (x : View) : Bool := decide (64 ≤ x.s.copiesOn x.b.core)

/-- Hand a copy to the engine. A full engine leaves the split Blocked until it takes the copy, whose token is busy from issue
(R69, R183). -/
def View.startCopy (x : View) (tok : BitVec 3) (r : CopyRun) : Result :=
  let s1 := x.clearRecord tok
  let s2 := if r.crcOn then s1.onBunch x.id fun b => { b with tokCrcOp := Store.put 0 b.tokCrcOp tok.toNat s1.nextId } else s1
  let full := x.copyFull && !r.job.isDrain
  { s := s2.addOp x tok latCopy (.copy { r with queued := full }) []
    flow := if full then .wait (.copyEngine s2.nextId) true else .next }

/-- A copy's run, as issue leaves it. -/
def View.newCopy (x : View) (job : CopyJob) (crc : Bool) (codes : BitVec 256 := 0) (chk : Option Word := none) (ctrap : Bool := false) : CopyRun :=
  { job, codes, crcOn := crc, chk, ctrap, origin := x.sp.pc, lane := lowest x.sp.mask }

/-- The shared side of the copies whose guard is evaluated once: no effect but a cleared record under a false guard (R337). -/
def copyOp (g : Guard) (tok : BitVec 3) (reads : List Reg) (f : View → Result) : State → Host.Outcome State Fault Refusal :=
  issue { guard := g, roles := [.copy], uniform := true, reads } fun x =>
    if !x.on then { s := x.clearRecord tok } else f x

/-! ### Formats (R189) -/

/-- A destination of a plain copy: byte-sized, unscaled, and E8 only from E8. -/
def copyDestOk (src dst : Desc) : Bool :=
  decide (tdFmt dst ≤ 10) && tdScale dst == 0 && (tdFmt dst != 9 || tdFmt src == 9)
/-- Under SPD or SPS the base is a scratchpad offset. -/
def baseOk (sp : Bool) (d : Desc) : Bool := !sp || decide (tdBase d < 2 ^ 19)

/-- The two descriptors of a copy, if both are written and pass a test. -/
def View.pair? (x : View) (src dst : BitVec 8) (ok : Desc → Desc → Bool) : Option (Desc × Desc) :=
  match x.s.descriptor x.b.ctx x.id src.toNat, x.s.descriptor x.b.ctx x.id dst.toNat with
  | some a, some b => if ok a b then some (a, b) else none
  | _, _ => none

def View.codesOf (x : View) (d : Desc) : BitVec 256 := x.s.codeTable x.b.ctx x.id (tdCtab d)

/-! ### CPY (R188) -/

def CpyDir.srcS : CpyDir → Bool | .s2m => true | .s2s => true | _ => false
def CpyDir.dstS : CpyDir → Bool | .m2s => true | .s2s => true | _ => false
def CpySize.bytes : CpySize → Nat | .b4 => 4 | .b8 => 8 | .b16 => 16

/-- What a lane faults on at issue, in the order of R337. -/
def cpyFault (task srcS dstS : Bool) (n : Nat) (a d : DWord) : Option Met :=
  if task && srcS then some (.pageProtection, a)
  else if task && dstS then some (.pageProtection, d)
  else if a.toNat % n ≠ 0 then some (.misaligned, a)
  else if d.toNat % n ≠ 0 then some (.misaligned, d)
  else if srcS && decide (scratchBytes ≤ a.toNat) then some (.pageProtection, a)
  else if dstS && decide (scratchBytes ≤ d.toNat) then some (.pageProtection, d)
  else none

def execCpy (dir : CpyDir) (sz : CpySize) (crc : Bool) (g : Guard) (d a : BitVec 8) (off : BitVec 29) (tok : BitVec 3) :
    State → Host.Outcome State Fault Refusal :=
  issue { guard := g, roles := noMatrix, reads := vBlock a.toNat 2 ++ vBlock d.toNat 2 } fun x =>
    if x.exec = 0 then { s := x.clearRecord tok }
    else
      let n := CpySize.bytes sz
      let src (l : Nat) : DWord := x.addr (.v a) off l
      let dst (l : Nat) : DWord := x.vPair d.toNat l
      let bad (l : Nat) : Option Met := cpyFault x.b.team.isNone (CpyDir.srcS dir) (CpyDir.dstS dir) n (src l) (dst l)
      let ls := x.s.laneOrder (x.actors false)
      let fs := ls.filterMap fun l => (bad l).map fun e => LaneFault.mk l e.1 e.2 .engine
      let work := (ls.filter fun l => (bad l).isNone).map fun l => (l, src l, dst l)
      if work.isEmpty then (if fs.isEmpty then { s := x.clearRecord tok } else { s := x.s, faults := fs })
      else { x.startCopy tok (x.newCopy (.lanes n (CpyDir.srcS dir) (CpyDir.dstS dir) work) crc) with faults := fs }

/-! ### CPYA (R191, R193) -/

/-- A walk record's own form. -/
def walkOk (w : BitVec 1024) (x24 spd : Bool) : Bool :=
  ((List.range 6).all fun c => wrExtent w c != 0) && fieldOf w 896 128 == 0 &&
  (if x24 then spd && wrExtent w 0 % 4 == 0 else wrMeta w == 0)

def execCpya (m : CpyMods) (spd sps x24 : Bool) (g : Guard) (d a : BitVec 8) (b : BitVec 6) (tok : BitVec 3) :
    State → Host.Outcome State Fault Refusal :=
  copyOp g tok (kBlock b.toNat 2) fun x =>
    let va := x.kPair b.toNat
    match x.pair? a d (fun s t => copyDestOk s t && baseOk sps s && baseOk spd t) with
    | none => x.fail .tdescFormat 0
    | some (src, dst) =>
      match x.record va 16 128 with
      | .error e => x.fail e.1 e.2 .read
      | .ok r =>
        let w : BitVec 1024 := BitVec.ofNat 1024 r
        if !walkOk w x24 spd then x.fail .tdescFormat va
        else if 2 ^ 32 < wrTotal w then x.fail .tdescBounds 0 .engine
        else if (spd || sps) && x.b.team.isNone then x.fail .pageProtection 0 .engine
        else x.startCopy tok (x.newCopy (.affine src dst sps spd x24 w) m.crc (x.codesOf src) (if m.chk then some (wrExpCrc w) else none) m.ctrap)

/-! ### CPYG, CPYS (R194, R195) -/

def execCpyg (crc spd sps spi : Bool) (g : Guard) (d a : BitVec 8) (b : BitVec 6) (tok : BitVec 3) :
    State → Host.Outcome State Fault Refusal :=
  copyOp g tok (kBlock b.toNat 4) fun x =>
    let ok (s t : Desc) : Bool :=
      copyDestOk s t && baseOk sps s && baseOk spd t && tdRank s == 2 && tdRank t == 2 && tdExtent s 0 == tdExtent t 0
    match x.pair? a d ok with
    | none => x.fail .tdescFormat 0
    | some (src, dst) =>
      if (spd || sps || spi) && x.b.team.isNone then x.fail .pageProtection 0 .engine
      else
        let n := (x.kAt (b.toNat + 2)).toNat
        x.startCopy tok (x.newCopy (.gather src dst sps spd spi (x.kPair b.toNat) n (x.kAt (b.toNat + 3))) crc (x.codesOf src))

def execCpys (crc spd : Bool) (g : Guard) (d a : BitVec 8) (b : BitVec 6) (tok : BitVec 3) : State → Host.Outcome State Fault Refusal :=
  copyOp g tok (kBlock b.toNat 10) fun x =>
    match x.pair? a d (fun s t => copyDestOk s t && baseOk spd t && tdRank s == 1 && tdRank t == 1) with
    | none => x.fail .tdescFormat 0
    | some (src, dst) =>
      if spd && x.b.team.isNone then x.fail .pageProtection 0 .engine
      else
        let k (i : Nat) : DWord := x.kPair (b.toNat + i)
        let fr := (x.kAt (b.toNat + 4)).toNat
        let n := (x.kAt (b.toNat + 5)).toNat
        x.startCopy tok (x.newCopy (.sparse src dst spd (k 0) (k 2) fr n (k 6) (k 8)) crc (x.codesOf src))

/-! ### CPYQ (R196) -/

def quantOk (s t : Desc) : Bool :=
  (tdFmt t == 3 || tdFmt t == 4 || isBpi (tdFmt t)) && tdBlk t == 0 && tdScale t != 0 &&
  decide (tdFmt s ≤ 2) && tdRank s == tdRank t && tdKdim s == tdKdim t && (List.range 6).all fun i => tdExtent s i == tdExtent t i

def execCpyq (crc spd sps : Bool) (g : Guard) (d a : BitVec 8) (b : BitVec 6) (tok : BitVec 3) : State → Host.Outcome State Fault Refusal :=
  copyOp g tok (kBlock b.toNat 4) fun x =>
    match x.pair? a d (fun s t => quantOk s t && baseOk sps s && baseOk spd t) with
    | none => x.fail .tdescFormat 0
    | some (src, dst) =>
      if (spd || sps) && x.b.team.isNone then x.fail .pageProtection 0 .engine
      else
        let cap := (x.kAt (b.toNat + 2)).toNat
        x.startCopy tok (x.newCopy (.quant src dst sps spd (x.kPair b.toNat) cap (x.kAt (b.toNat + 3))) crc)

/-! ### CPYL (R197, R198) -/

/-- The program's VA; none where LAYOUT_TAB's BASE is 0. -/
def layoutVa (c : Context) (prog : Nat) : Option DWord :=
  if bits c.layoutTab 10 42 = 0 then none else some (BitVec.ofNat 64 ((bits c.layoutTab 10 42).toNat * 1024 + 64 * prog))

def execCpyl (crc spd sps : Bool) (prog : BitVec 4) (g : Guard) (d a : BitVec 8) (tok : BitVec 3) : State → Host.Outcome State Fault Refusal :=
  copyOp g tok [] fun x =>
    match x.pair? a d (fun s t => copyDestOk s t && baseOk sps s && baseOk spd t && decide (tdRank s ≤ 2)) with
    | none => x.fail .tdescFormat 0
    | some (src, dst) =>
      match layoutVa (x.s.ctx x.b.ctx) prog.toNat with
      | none => x.fail .pageNotPresent (BitVec.ofNat 64 (64 * prog.toNat)) .read
      | some va =>
        match x.record va 8 64 with
        | .error e => x.fail e.1 e.2 .read
        | .ok r =>
          let p := wordsOfBytes (leBytes r 64) 16
          if (layParse (fmtBytes (tdFmt src)) (fmtBytes (tdFmt dst)) p (layRows src) (tdExtent src 0)).isNone then x.fail .tdescFormat va
          else if (spd || sps) && x.b.team.isNone then x.fail .pageProtection 0 .engine
          else x.startCopy tok (x.newCopy (.layout src dst sps spd p) crc (x.codesOf src))

/-! ### CPYX (R199) -/

def execCpyx (m : CpyMods) (sps : Bool) (route : Route) (g : Guard) (d a b : BitVec 6) (tok : BitVec 3) :
    State → Host.Outcome State Fault Refusal :=
  copyOp g tok (kBlock d.toNat 2 ++ kBlock a.toNat 2 ++ kBlock b.toNat (if m.chk then 2 else 1)) fun x =>
    let src := x.kPair a.toNat
    let dst := x.kPair d.toNat
    let len := (x.kAt b.toNat).toNat
    let chk := if m.chk then some (x.kAt (b.toNat + 1)) else none
    let start (c : Option Nat) (p : Nat) (cut : List Nat) : Result :=
      x.startCopy tok (x.newCopy (.estate sps src dst len c p cut) m.crc 0 chk m.ctrap)
    let walk := routeFrom x.s x.b.core route
    if (sps || walk.1.isCore) && x.b.team.isNone then x.fail .pageProtection 0 .engine
    else if len = 0 ∨ len % 16 ≠ 0 then x.fail .misaligned (BitVec.ofNat 64 len) .engine
    else if src.toNat % 16 ≠ 0 then x.fail .misaligned src .engine
    else if dst.toNat % 16 ≠ 0 then x.fail .misaligned dst .engine
    else
      match walk.1 with
      | .core c => start (some (x.s.padFor x.b.launch c)) 0 walk.2
      | .port p => start none p walk.2
      | .commons => x.fail .illegalOp 0
      | .illegal => x.fail .illegalOp 0

end Sys2Proof.Machine
end

