-- ==== Sys2Proof/Machine/Blocks.lean ====
section
/-! DEFINITION. Compressed forms: plane-skip and zigzag deltas, the stored form and the metadata of a BBC-512 block (R123, R124), and
the payloads of an estate port (R200). -/

namespace Sys2Proof.Machine

/-! ### Plane-skip and zigzag -/

/-- Plane b of words: bit j is bit b of word j. -/
def planeOf (ws : List Nat) (b : Nat) : Nat := ws.foldr (fun w n => 2 * n + w / 2 ^ b % 2) 0
/-- The planes that hold a set bit, from 31 down. -/
def planesSet (ws : List Nat) : List Nat := (List.range 32).reverse.filter fun b => planeOf ws b != 0
/-- Plane-skip: a mask of the planes that hold a set bit, then each of these, from 31 down. -/
def planeSkip (ws : List Nat) : List Byte :=
  leBytes ((planesSet ws).foldl (fun m b => m + 2 ^ b) 0) 4 ++ (planesSet ws).flatMap fun b => leBytes (planeOf ws b) (ws.length / 8)

/-- The `n` words of a plane-skip form. -/
def planeWords (n : Nat) (body : List Byte) : List Nat :=
  let set := (List.range 32).reverse.filter (leNat (body.take 4)).testBit
  (List.range n).map fun j =>
    (set.zip (List.range set.length)).foldl (fun w e =>
      if (leNat ((body.drop (4 + n / 8 * e.2)).take (n / 8))).testBit j then w + 2 ^ e.1 else w) 0

/-- The zigzag deltas of words (R123): d0 = w0, dj = wj − wj−1, and z = (d << 1) XOR (d >> 31). -/
def zigzag : Nat → List Nat → List Nat
  | _, [] => []
  | prev, w :: r =>
    let d := (w + 2 ^ 32 - prev) % 2 ^ 32
    (if d < 2 ^ 31 then 2 * d else 2 ^ 33 - 1 - 2 * d) :: zigzag w r
/-- The words of zigzag deltas. -/
def unZigzag : Nat → List Nat → List Nat
  | _, [] => []
  | prev, z :: r =>
    let d := if z % 2 = 0 then z / 2 else 2 ^ 32 - 1 - z / 2
    let w := (prev + d) % 2 ^ 32
    w :: unZigzag w r

/-- Little-endian words of bytes. -/
def wordsIn (n : Nat) (bs : List Byte) : List Nat := (List.range n).map fun j => leNat ((bs.drop (4 * j)).take 4)

/-! ### Blocks of a COMP = 1 page (R123, R124) -/

/-- A block as memory and the L2 hold it: MODE, and the stored bytes. -/
structure BlockForm where
  mode  : Nat
  bytes : List Byte
deriving DecidableEq, Repr

/-- Sectors of 64 bytes. -/
def BlockForm.sectors (f : BlockForm) : Nat := (f.bytes.length + 63) / 64
/-- MODE in bits 1:0, SECT in bits 4:2, the sector count minus 1 (0 also for MODE 1, which has no sector). -/
def BlockForm.metadata (f : BlockForm) : Nat := f.mode + 4 * (f.sectors - 1)

/-- The forms a block may have, in the order in which ties go: MODE 1, 2, 3, 0. -/
def blockForms (bs : List Byte) : List BlockForm :=
  let ws := wordsIn 128 bs
  (if ws.all (· == 0) then [{ mode := 1, bytes := [] }] else [])
    ++ [{ mode := 2, bytes := planeSkip ws }, { mode := 3, bytes := planeSkip (zigzag 0 ws) }, { mode := 0, bytes := bs }]

/-- The memory controller writes a block in the form with the fewest sectors. -/
def blockForm (bs : List Byte) : BlockForm :=
  (blockForms bs).foldr (fun f g => if f.sectors ≤ g.sectors then f else g) { mode := 0, bytes := bs }

/-- Expand a stored block. -/
def BlockForm.expand (f : BlockForm) : List Byte :=
  match f.mode with
  | 0 => f.bytes
  | 1 => List.replicate 512 0
  | 2 => (planeWords 128 f.bytes).flatMap fun w => leBytes w 4
  | _ => (unZigzag 0 (planeWords 128 f.bytes)).flatMap fun w => leBytes w 4

/-- The stored form of the block at an address of a stack, where its frame is one of a COMP = 1 page (R121); none for another
frame. A store expands the block, writes and recompresses it, so that the form follows from the bytes (log entry 11). -/
def State.blockAt (s : State) (home pa : Nat) : Option BlockForm :=
  if (s.tags.read (home * 2 ^ 39 + pa / 4096)).toNat / 4 = 1 then some (blockForm (s.bytesAt (.dev home (pa / 512 * 512)) 512)) else none

/-! ### Payloads of an estate port (R200) -/

/-- The forms of a payload, header byte first, in the order in which ties go: 0x01, 0x02, 0x03, 0x04, 0x00. -/
def payloadForms (bs : List Byte) : List (List Byte) :=
  let ws := wordsIn 64 bs
  (if bs.all (· == 0) then [[1]] else [])
    ++ (match bs with
      | b :: _ => if bs.all (· == b) then [[2, b]] else []
      | [] => [])
    ++ (if bs.length = 256 then [3 :: planeSkip ws, 4 :: planeSkip (zigzag 0 ws)] else [])
    ++ [0 :: bs]
/-- The port chooses the form with the fewest bytes. -/
def packPayload (bs : List Byte) : List Byte :=
  (payloadForms bs).foldr (fun f g => if f.length ≤ g.length then f else g) (0 :: bs)

/-- Expand a payload of L bytes; none for a form that is never sent. -/
def expandPayload (len : Nat) (body : List Byte) : Option (List Byte) :=
  match body with
  | [] => none
  | h :: r =>
    match h.toNat with
    | 0 => if r.length = len then some r else none
    | 1 => if r.isEmpty then some (List.replicate len 0) else none
    | 2 => match r with
      | [b] => some (List.replicate len b)
      | _ => none
    | 3 => if len = 256 then some ((planeWords 64 r).flatMap fun w => leBytes w 4) else none
    | 4 => if len = 256 then some ((unZigzag 0 (planeWords 64 r)).flatMap fun w => leBytes w 4) else none
    | _ => none

end Sys2Proof.Machine
end

