-- ==== Sys2Proof/Machine/Digest.lean ====
section
/-! DEFINITION. SHA-256, with which the boot ROM measures (R303; the function is FIPS 180-4's, log entry 43). -/

namespace Sys2Proof.Machine

/-- The initial hash value. -/
def sha256H : List Word :=
  [0x6a09e667, 0xbb67ae85, 0x3c6ef372, 0xa54ff53a, 0x510e527f, 0x9b05688c, 0x1f83d9ab, 0x5be0cd19]

/-- The round constants. -/
def sha256K : List Word :=
  [0x428a2f98, 0x71374491, 0xb5c0fbcf, 0xe9b5dba5, 0x3956c25b, 0x59f111f1, 0x923f82a4, 0xab1c5ed5,
   0xd807aa98, 0x12835b01, 0x243185be, 0x550c7dc3, 0x72be5d74, 0x80deb1fe, 0x9bdc06a7, 0xc19bf174]
  ++ [0xe49b69c1, 0xefbe4786, 0x0fc19dc6, 0x240ca1cc, 0x2de92c6f, 0x4a7484aa, 0x5cb0a9dc, 0x76f988da,
   0x983e5152, 0xa831c66d, 0xb00327c8, 0xbf597fc7, 0xc6e00bf3, 0xd5a79147, 0x06ca6351, 0x14292967]
  ++ [0x27b70a85, 0x2e1b2138, 0x4d2c6dfc, 0x53380d13, 0x650a7354, 0x766a0abb, 0x81c2c92e, 0x92722c85,
   0xa2bfe8a1, 0xa81a664b, 0xc24b8b70, 0xc76c51a3, 0xd192e819, 0xd6990624, 0xf40e3585, 0x106aa070]
  ++ [0x19a4c116, 0x1e376c08, 0x2748774c, 0x34b0bcb5, 0x391c0cb3, 0x4ed8aa4a, 0x5b9cca4f, 0x682e6ff3,
   0x748f82ee, 0x78a5636f, 0x84c87814, 0x8cc70208, 0x90befffa, 0xa4506ceb, 0xbef9a3f7, 0xc67178f2]

/-- The next word of the message schedule, after sixteen. -/
def sha256Next (w : List Word) : Word :=
  let at_ (i : Nat) : Word := w.getD i 0
  let s0 := (at_ 1).rotateRight 7 ^^^ (at_ 1).rotateRight 18 ^^^ at_ 1 >>> 3
  let s1 := (at_ 14).rotateRight 17 ^^^ (at_ 14).rotateRight 19 ^^^ at_ 14 >>> 10
  at_ 0 + s0 + at_ 9 + s1

/-- One round. -/
def sha256Round (h : List Word) (kw : Word) : List Word :=
  match h with
  | [a, b, c, d, e, f, g, i] =>
    let t1 := i + (e.rotateRight 6 ^^^ e.rotateRight 11 ^^^ e.rotateRight 25) + ((e &&& f) ^^^ (~~~e &&& g)) + kw
    let t2 := (a.rotateRight 2 ^^^ a.rotateRight 13 ^^^ a.rotateRight 22) + ((a &&& b) ^^^ (a &&& c) ^^^ (b &&& c))
    [t1 + t2, a, b, c, d + t1, e, f, g]
  | _ => h

/-- The rounds of a block, with the sixteen schedule words that come next. -/
def sha256Rounds : List Word → List Word → List Word → List Word
  | h, _, [] => h
  | h, w, k :: r => sha256Rounds (sha256Round h (k + w.getD 0 0)) (w.tail ++ [sha256Next w]) r

/-- Hash the 64-byte blocks of a padded message. -/
def sha256Blocks (h : List Word) : Nat → List Nat → List Word
  | 0, _ => h
  | n + 1, bs =>
    let w := (List.range 16).map fun i => BitVec.ofNat 32 (((bs.drop (4 * i)).take 4).foldl (fun x b => 256 * x + b) 0)
    sha256Blocks (List.zipWith (· + ·) h (sha256Rounds h w sha256K)) n (bs.drop 64)

/-- The bytes of a number, the most significant first. -/
def bigBytes (x : Nat) : Nat → List Nat
  | 0 => []
  | n + 1 => x / 256 ^ n % 256 :: bigBytes x n

/-- The 32 bytes of a message's digest. -/
def sha256 (bs : List Nat) : List Nat :=
  let zeros := (119 - bs.length % 64) % 64
  let padded := bs ++ 0x80 :: List.replicate zeros 0 ++ bigBytes (8 * bs.length) 8
  (sha256Blocks sha256H (padded.length / 64) padded).flatMap fun w => bigBytes w.toNat 4

/-- A measurement register, 32 bytes with byte 0 in its lowest bits, extended by a measured message: the digest of the old value and
the message's digest (log entry 43). -/
def extended (reg : Nat) (message : List Nat) : Nat :=
  let le := (List.range 32).map fun i => reg / 256 ^ i % 256
  (sha256 (le ++ sha256 message)).foldr (fun b x => b + 256 * x) 0

end Sys2Proof.Machine
end

