-- ==== Sys2Proof/Machine/Sync.lean ====
section
/-! DEFINITION. FENCE and FENCE.opnd (R133, R143), BAR (R315, R316), MWAIT (R213, R216). -/

namespace Sys2Proof.Machine

/-- Writes that only outstanding commands could tell apart are forgotten: a covered one, unless an uncovered older one of the same
bytes is kept (R143). -/
def pruneOld (kept : List OldWrite) : List OldWrite → List OldWrite
  | [] => kept
  | o :: r =>
    pruneOld (if o.fenced && !kept.any fun q => spansMeet q.off q.old.length o.off o.old.length then kept else kept ++ [o]) r
def Core.prune (c : Core) : Core := if c.commands.isEmpty then { c with oldBytes := pruneOld [] c.oldBytes } else c

/-- The operand path sees what a FENCE.opnd covers (R143): of a bunch, its own writes; of the matrix bunch, every write that the
model has performed (log entry 15). -/
def State.fenceOperands (s : State) (x : View) : State :=
  let c := s.core x.b.core
  let seen := c.oldBytes.map fun o => if x.b.role == .matrix || o.writer == x.id then { o with fenced := true } else o
  s.setCore x.b.core (Core.prune { c with oldBytes := seen })

/-- A fence: the accesses it orders are performed in order already; a release at estate or sys scope reports a lost store. -/
def View.fence (x : View) (sc : Scope) (opnd : Bool) : Result :=
  if !x.on then { s := x.s }
  else
    match x.lostFault true sc with
    | some a => { x.fail .linkDown a with s := x.s.tellLost x.id }
    | none => { s := if opnd then x.s.fenceOperands x else x.s }

def execFence (sc : Scope) (g : Guard) : State → Host.Outcome State Fault Refusal :=
  issue { guard := g, roles := allRoles, uniform := true, acq := true, rel := true } fun x => x.fence sc false
def execFenceOpnd (g : Guard) : State → Host.Outcome State Fault Refusal :=
  issue { guard := g, roles := allRoles, uniform := true, acq := true, rel := true } fun x => x.fence .team true

/-- BAR.arrive (R316). -/
def View.arrive (x : View) (n count : Nat) : State :=
  let a := Store.get {} x.b.bars n
  let a1 : BarArrive := { a with lanes := a.lanes ||| x.sp.mask, reached := true, count := count }
  (x.s.setBunch x.id { x.b with bars := Store.insert x.b.bars n a1 }).checkArrival x.id n

/-- BAR.wait (R316): the split blocks until the barrier releases its bunch. -/
def State.barWait (s : State) (id n : Nat) : Result :=
  match Store.find s.bunches id with
  | some b => if (Store.get {} b.bars n).reached then { s, flow := .wait (.barrier n) true } else { s }
  | none => { s }

/-- The shared side of the three forms: no effect under a false guard, no barrier in a task (R235). -/
def barOp (g : Guard) (acq rel : Bool) (f : View → Result) : State → Host.Outcome State Fault Refusal :=
  issue { guard := g, roles := allRoles, hnd := .guarded, uniform := true, acq, rel } fun x =>
    if !x.on then { s := x.s }
    else if x.b.team.isNone then x.fail .pageProtection 0
    else f x

def execBar (g : Guard) (b : BitVec 4) (n : BitVec 5) : State → Host.Outcome State Fault Refusal :=
  barOp g true true fun x => (x.arrive b.toNat n.toNat).barWait x.id b.toNat
def execBarArrive (g : Guard) (b : BitVec 4) (n : BitVec 5) : State → Host.Outcome State Fault Refusal :=
  barOp g false true fun x => { s := x.arrive b.toNat n.toNat }
def execBarWait (g : Guard) (b : BitVec 4) : State → Host.Outcome State Fault Refusal :=
  barOp g true false fun x => x.s.barWait x.id b.toNat

/-- The array's suspended instruction, as the matrix bunch meets it at a wait point (R216). -/
def View.arrayFault (x : View) : Option LaneFault :=
  if x.b.role == .matrix then
    match (x.s.core x.b.core).mrun with
    | some r => r.fault
    | none => none
  else none

/-- MWAIT (R213): of the matrix role it covers its tiles' MMSs when it completes (R144). -/
def execMwait (g : Guard) (mask : BitVec 5) : State → Host.Outcome State Fault Refusal :=
  issue { guard := g, roles := allRoles, uniform := true } fun x =>
    if !x.on then { s := x.s }
    else
      match x.arrayFault with
      | some f => { s := x.s, faults := [f], waitOps := some [] }
      | none =>
        let c := x.s.core x.b.core
        if c.matrixIdle mask c.mnext then { s := x.s.covered x.b mask c.mnext } else { s := x.s, flow := .wait (.matrix mask c.mnext) true }

end Sys2Proof.Machine
end

