-- ==== Sys2Proof/Machine/Matrix.lean ====
section
/-! DEFINITION. The matrix array and its sequencer: WLD, WSWP, MMS, APRM, ACLR (R202 to R216, R376, R403), ADRN (R214, R215), and the
array's own operations. -/

namespace Sys2Proof.Machine

/-! ### The operand path (R143, R144) -/

/-- Which of its earlier values an operand element at an offset returns: digit `off`, base 16, of choice 37 (log entry 2). -/
def State.operandPick (s : State) (off : Nat) : Nat := if s.choice 37 = 0 then 0 else s.choice 37 / 16 ^ off % 16

/-- The bytes from an offset as they were before a write. -/
def OldWrite.undo (o : OldWrite) (off : Nat) (bs : List Byte) : List Byte :=
  (bs.zip (List.range bs.length)).map fun e =>
    if o.off ≤ off + e.2 ∧ off + e.2 < o.off + o.old.length then o.old.getD (off + e.2 - o.off) e.1 else e.1

/-- What the writes of a list, newest first, replaced in an element: before a covered write nothing may be seen (R143). -/
def olderValues (off : Nat) (bs : List Byte) : List OldWrite → List (List Byte)
  | [] => []
  | o :: r =>
    if !spansMeet o.off o.old.length off bs.length then olderValues off bs r
    else if o.fenced then []
    else o.undo off bs :: olderValues off (o.undo off bs) r

/-- The values, each whole (R130), that the operand path may return for an element of `n` bytes of a scratchpad, newest first. An
element that is read again may return an older value than before: R131 keeps that from the generic path's reads, and R143 lets the
operand path return any value not shut out (DESIGN CHOICE of log entry 15). -/
def State.operandValues (s : State) (pad off n : Nat) : List (List Byte) :=
  let bs := s.bytesAt (.scratch pad off) n
  bs :: olderValues (padOffset pad off) bs (s.core (padCore pad)).oldBytes.reverse

/-- An element that command `num` reads through the operand path; of an MMS it is undefined where it was written while the command
was outstanding (R144). -/
def State.operandElem (s : State) (pad : Nat) (mms : Bool) (num off n : Nat) : Nat :=
  if mms && (s.core (padCore pad)).oldBytes.any fun o => spansMeet o.off o.old.length (padOffset pad off) n && decide (num < o.before) then
    (s.freeValue off).toNat % 2 ^ (8 * n)
  else
    let vs := s.operandValues pad off n
    leNat (vs.getD (min (s.operandPick off) (vs.length - 1)) [])

/-- The array's reader (R207, R209): scratchpad through the operand path, memory through the generic path. -/
def arrayRead (s : State) (g : Engine) (mms : Bool) (num layout : Nat) (sps : Bool) : Reader := fun a n =>
  if sps then
    if a.toNat % n ≠ 0 then .error (.misaligned, a)
    else if scratchBytes < a.toNat + n then .error (.pageProtection, a)
    else if s.poisoned (.scratch g.pad a.toNat) n then .error (.eccUncorrectable, a)
    else .ok (s.operandElem g.pad mms num a.toNat n)
  else g.rd s (some layout) false a n

/-! ### Planes and tiles -/

/-- Replace `n` consecutive keys of a table from `lo` on. -/
def setRange (m : Store α) (lo n : Nat) (new : Store α) : Store α :=
  (m.filter fun e => decide (e.1 < lo)) ++ new ++ m.filter fun e => decide (lo + n ≤ e.1)

/-- Read an element, or nothing where it is clipped. -/
def arrayElem (rd : Reader) (d : Desc) (i j : Int) : Except Met (Option Elem) :=
  if tdIn d [i, j] then (readElem rd rd d (tdPos d [i, j])).map some
  else if tdBounds d = 1 then .ok none
  else .error (.tdescBounds, BitVec.ofInt 64 (tdPos d [i, j]))

/-- Read elements at the indices of a list. -/
def arrayElems (rd : Reader) (d : Desc) : List (Int × Int) → Except Met (List (Option Elem))
  | [] => .ok []
  | (i, j) :: r =>
    match arrayElem rd d i j with
    | .error e => .error e
    | .ok x =>
      match arrayElems rd d r with
      | .error e => .error e
      | .ok y => .ok (x :: y)

/-- A reserved scale code was consumed (R105). -/
def reserved (es : List (Option Elem)) : Bool := es.any fun e => match e with
  | some x => x.scale == some 255
  | none => false

/-- Cell row k of WLD (R207): the shadow set was emptied when the command began, so that rows not loaded hold zero weight. -/
def wldRow (s : State) (g : Engine) (num : Nat) (d : Desc) (sps : Bool) (n0 k0 : Word) (k : Nat) : Except Met State :=
  let w := weightsPer (tdFmt d)
  let cells := (List.range w).flatMap fun s => (List.range 128).map fun c => (c, s)
  match arrayElems (arrayRead s g false num (tdLayout d) sps) d (cells.map fun x => (k0.toInt + (k : Int), n0.toInt + ((128 * x.2 + x.1 : Nat) : Int))) with
  | .error e => .error e
  | .ok es =>
    let at_ (c n : Nat) : Option Elem := (es.getD (128 * n + c) none)
    let new : Store Weight := ((List.range 128).flatMap fun c => (List.range w).map fun n => (c, n)).filterMap fun x => (at_ x.1 x.2).map fun e =>
      ((128 * k + x.1) * 4 + x.2, { code := BitVec.ofNat 16 e.raw, scale := BitVec.ofNat 8 (e.scale.getD 127) })
    let c := s.core g.core
    .ok (g.invalid (s.setCore g.core { c with shadow := { c.shadow with cells := setRange c.shadow.cells (512 * k) 512 new } }) (reserved es))

/-- A weight's value; an unlisted one is zero (R204). -/
def Planes.weight (p : Planes) (f : BitVec 5) (k c s : Nat) : Option Num :=
  (Store.find p.cells ((128 * k + c) * 4 + s)).map fun w =>
    (elemNum f.toNat 0 { raw := w.code.toNat, scale := some w.scale.toNat }).1

/-- The products of an activation row with the weights of slot s of column c: a zero weight gives +0. -/
def products (p : Planes) (f : BitVec 5) (a : List Num) (c s : Nat) : List Num :=
  (a.zip (List.range 128)).map fun x => match p.weight f x.2 c s with
    | some w => x.1.mul w
    | none => .fin false 0 0

/-- Classes of R211. -/
def triSkipped (mode : TriMode) (d : Int) (r g : Nat) : Bool := mode != .plain && decide ((r / 16 * 16 : Nat) + 15 + d < (g / 16 * 16 : Nat))
def triAbove (mode : TriMode) (d : Int) (r g : Nat) : Bool := mode != .plain && decide ((r : Int) + d < g)

/-- What an MMS leaves in an element of row r and global column g; none: undefined. -/
def mmsElem (mode : TriMode) (clr : Bool) (diag konst : Word) (p : Nat) (planes : Planes) (a : List Num) (r c s : Nat) (old : Option Acc) : Option Acc :=
  let g := 128 * s + c
  let forced : Acc := { tile := konst, a26 := 0, passes := 0 }
  if triSkipped mode diag.toInt r g then (if mode = .triFill then some forced else old)
  else if triAbove mode diag.toInt r g then some forced
  else
    match planes.fmt with
    | none => none
    | some f => (if clr then some Acc.zero else old).map fun x => x.pass (products planes f a c s) p

/-- MMS reads, or writes, the element of row r and global column g. -/
def mmsReads (mode : TriMode) (clr : Bool) (d : Int) (r g : Nat) : Bool := !clr && !triSkipped mode d r g && !triAbove mode d r g
def mmsWrites (mode : TriMode) (d : Int) (r g : Nat) : Bool := !triSkipped mode d r g || mode == .triFill

/-- Every sub-tile of a row is skipped: the row is not streamed. -/
def rowSkipped (mode : TriMode) (d : Int) (w r : Nat) : Bool := (List.range (8 * w)).all fun j => triSkipped mode d r (16 * j)

/-- The scratchpad bytes of the elements at the indices of a list, and of their scales, neighbours joined. -/
def operandSpans (pad : Nat) (d : Desc) (idx : List (Int × Int)) : List (Nat × Nat) :=
  let es := (idx.filter fun i => tdIn d [i.1, i.2]).map fun i => tdPos d [i.1, i.2]
  let spans := es.map (fun e => (padOffset pad (elemVa d e).toNat, fmtBytes (tdFmt d)))
    ++ if tdScale d = 0 then [] else es.map fun e => (padOffset pad ((tdScale d : Int) + e / (tdBlock d : Int)).toNat, 1)
  spans.foldr (fun q l => match l with
    | r :: t => if q.1 + q.2 = r.1 then (q.1, q.2 + r.2) :: t else if q = r then l else q :: l
    | [] => [q]) []

/-- Activation row i of MMS (R209). -/
def mmsRow (s : State) (g : Engine) (num : Nat) (d : Desc) (sps : Bool) (mode : TriMode) (clr : Bool) (t w : Nat) (arow k0 diag konst : Word)
    (trow promo i : Nat) : Except Met State :=
  let r := trow + i
  let idx := (List.range 128).map fun (k : Nat) => (k0.toInt + (k : Int), arow.toInt + (i : Int))
  let elem (n : Nat) : Nat := accKey (t + n / 128) r (n % 128)
  if !s.poison.isEmpty && (List.range (128 * w)).any (fun n => mmsReads mode clr diag.toInt r n && s.accPoisoned g.core (elem n)) then
    .error (.eccUncorrectable, 0)
  else
  match (if rowSkipped mode diag.toInt w r then .ok [] else arrayElems (arrayRead s g true num (tdLayout d) sps) d idx) with
  | .error e => .error e
  | .ok es =>
    let a := es.map fun e => match e with
      | some x => (elemNum (tdFmt d) 0 x).1
      | none => .fin false 0 0
    let tileRow (c : Core) (sl : Nat) : Core :=
      let lo := accKey (t + sl) r 0
      let new : Store Acc := (List.range 128).filterMap fun col =>
        (mmsElem mode clr diag konst promo c.planes a r col sl (Store.find c.acc (lo + col))).map fun x => (lo + col, x)
      { c with acc := setRange c.acc lo 128 new }
    let s1 := s.cureAcc g.core fun k => (List.range (128 * w)).any fun n => k == elem n && mmsWrites mode diag.toInt r n
    let c1 := (List.range w).foldl tileRow (s.core g.core)
    let c2 := if sps && !es.isEmpty then
        { c1 with opReads := c1.opReads ++ [{ num, tiles := (List.range w).map (t + ·), row := r, spans := operandSpans g.pad d idx }] }
      else c1
    .ok (g.invalid (s1.setCore g.core c2) (reserved es))

/-- ACLR (R212): every element of a tile. -/
def Core.clearTile (c : Core) (t : Nat) : Core :=
  { c with acc := setRange c.acc (32768 * t) 32768 ((List.range 32768).map fun i => (32768 * t + i, Acc.zero)) }
/-- APRM (R212). -/
def Core.promoteTile (c : Core) (t : Nat) : Core :=
  { c with acc := Store.mapVals (fun k a => if k / 32768 = t then a.promote else a) c.acc }

/-! ### Executing a command -/

/-- Rows of a command. -/
def MatCmd.rows : MatCmd → Nat
  | .wld _ _ _ _ n => n
  | .mms _ _ _ _ _ _ _ _ _ _ n _ _ => n
  | _ => 0

/-- The array works for the bunch that issued a command. -/
def State.arrayEngine (s : State) (core : Nat) (e : MatEntry) : Engine :=
  { core, ctx := e.ctx, bunch := e.bunch, pad := match Store.find s.bunches e.bunch with
      | some b => b.pad
      | none => core }

/-- One row. -/
def matRow (s : State) (core : Nat) (e : MatEntry) (i : Nat) : Except Met State :=
  let g := s.arrayEngine core e
  match e.cmd with
  | .wld d sps n0 k0 _ => wldRow s g e.num d sps n0 k0 i
  | .mms d sps mode clr t w arow k0 diag konst _ trow promo => mmsRow s g e.num d sps mode clr t w arow k0 diag konst trow promo i
  | _ => .ok s

/-- At most `n` rows, up to one that faults or that a link holds back. -/
def matGo (core : Nat) : Nat → State → MatRun → State × MatRun
  | 0, s, r => (s, r)
  | n + 1, s, r =>
    match matRow s core r.entry r.done with
    | .ok t => matGo core n t { r with done := r.done + 1 }
    | .error e =>
      (s, if (s.arrayEngine core r.entry).waits s e then r else { r with fault := some { lane := 0, cause := e.1, addr := e.2, kind := .engine } })

/-- Tiles a command writes. -/
def MatCmd.tiles : MatCmd → List Nat
  | .mms _ _ _ _ t w .. => (List.range w).map (t + ·)
  | .aprm t => [t]
  | .aclr t => [t]
  | _ => []

/-- What a command without rows does, and what one that met an ADRN of its tile leaves (R215). -/
def Core.finishCmd (c : Core) (e : MatEntry) : Core :=
  let c1 := match e.cmd with
    | .wswp => { c with planes := c.shadow, shadow := c.planes }
    | .aprm t => c.promoteTile t
    | .aclr t => c.clearTile t
    | _ => c
  if e.spoil then e.cmd.tiles.foldl Core.forgetTile c1 else c1

/-- A WLD or WSWP that completes covers the reads of the MMSs before it (R144). -/
def Core.covers (c : Core) (e : MatEntry) : Core :=
  let all := { c with unread := Store.keep (fun t => match Store.find c.unread t with
                        | some n => decide (e.num ≤ n)
                        | none => false) c.unread
                      opReads := c.opReads.filter fun r => decide (e.num ≤ r.num) }
  match e.cmd with
  | .wld .. => all
  | .wswp => all
  | _ => c

/-- A command begins: a WLD empties the shadow set, which takes its format (R207, R403). -/
def Core.beginCmd (c : Core) (e : MatEntry) : Core :=
  match e.cmd with
  | .wld d .. => { c with shadow := { fmt := some (BitVec.ofNat 5 (tdFmt d)) } }
  | _ => c

/-- MATRIX_COMMAND_START (R202). -/
def execMatrixCommandStart (core : Nat) (s : State) : Host.Outcome State Fault Refusal :=
  let c := s.core core
  match c.mrun, c.mqueue with
  | none, e :: q => .next (s.setCore core { c.beginCmd e with mqueue := q, mrun := some { entry := e } })
  | _, _ => .refused (.eventNotEnabled "MATRIX_COMMAND_START")

/-- The running command with its remaining rows done. -/
def State.matRest (s : State) (core : Nat) : Option (State × MatRun) :=
  match (s.core core).mrun with
  | none => none
  | some r => if r.fault.isSome then none else some (matGo core (r.entry.cmd.rows - r.done) s r)

/-- MATRIX_COMMAND_COMPLETE (R213). -/
def execMatrixCommandComplete (core : Nat) (s : State) : Host.Outcome State Fault Refusal :=
  match s.matRest core with
  | none => .refused (.eventNotEnabled "MATRIX_COMMAND_COMPLETE")
  | some (t, r) =>
    if r.fault.isSome ∨ r.done < r.entry.cmd.rows then .refused (.eventNotEnabled "MATRIX_COMMAND_COMPLETE")
    else
      let c := ((t.core core).finishCmd r.entry).covers r.entry
      let u := match r.entry.cmd with
        | .aclr n => t.cureAcc core fun k => k / 32768 == n
        | _ => t
      .next ((u.setCore core (Core.prune { c with mrun := none })).usedFree scratchBytes)

/-- MATRIX_FAULT_SUSPEND (R216). -/
def execMatrixFaultSuspend (core : Nat) (s : State) : Host.Outcome State Fault Refusal :=
  match s.matRest core with
  | none => .refused (.eventNotEnabled "MATRIX_FAULT_SUSPEND")
  | some (t, r) =>
    if r.fault.isSome then .next (t.setCore core { t.core core with mrun := some r })
    else .refused (.eventNotEnabled "MATRIX_FAULT_SUSPEND")

/-- One row of the running command, between instructions. -/
def State.matAhead (s : State) (core : Nat) : State :=
  match (s.core core).mrun with
  | none => s
  | some r =>
    if r.fault.isSome || r.entry.cmd.rows ≤ r.done then s
    else
      let y := matGo core 1 s r
      if y.2.fault.isSome then s else y.1.setCore core { y.1.core core with mrun := some y.2 }

/-! ### Issue -/

/-- An ADRN in flight becomes undefined (R215): what it has drained is written again, from an undefined tile. -/
def State.spoilDrain (s : State) (id : Nat) (b : Bunch) (o : TokOp) (ts : List Nat) : State :=
  match o.job with
  | .copy r =>
    match r.job with
    | .drain _ _ t .. =>
      if ts.contains t then
        let y := copyGo (b.engine id) r.done s { r with undef := true, done := 0, fault := none }
        y.1.onBunch id fun q => q.setJob o.id (.copy { r with undef := true, sat := r.sat || y.2.sat })
      else s
    | _ => s
  | _ => s
/-- ADRNs in flight of tiles of a list. -/
def State.spoilDrains (s : State) (core : Nat) (ts : List Nat) : State :=
  s.bunches.foldl (fun t e => if e.2.core = core then e.2.ops.foldl (fun u o => u.spoilDrain e.1 e.2 o ts) t else t) s

/-- An ADRN of a tile of a list is in flight. -/
def State.draining (s : State) (core : Nat) (ts : List Nat) : Bool :=
  s.bunches.any fun e => e.2.core == core && e.2.ops.any fun o => match o.job with
    | .copy r => match r.job with
      | .drain _ _ t .. => ts.contains t
      | _ => false
    | _ => false

/-- An ACLR or APRM of a tile of an MMS whose reads are not covered yet leaves it undefined (R144). -/
def Core.clashes (c : Core) : MatCmd → Bool
  | .aprm t => (Store.find c.unread t).isSome
  | .aclr t => (Store.find c.unread t).isSome
  | _ => false

/-- Put a command in the queue. -/
def View.enqueue (x : View) (cmd : MatCmd) : State :=
  let ts := cmd.tiles
  let met := x.s.draining x.b.core ts
  let spoil := met || (x.s.core x.b.core).clashes cmd
  let s := if met then x.s.spoilDrains x.b.core ts else x.s
  let c := s.core x.b.core
  let e : MatEntry := { num := c.mnext, ctx := x.b.ctx, bunch := x.id, cmd, spoil }
  (s.setCore x.b.core { c with mqueue := c.mqueue ++ [e], mnext := c.mnext + 1 }).touch x.b.ctx engineKey

/-- The shared side of the array's instructions: a full queue holds the sequencer (R202). -/
def matOp (g : Guard) (reads : List Reg) (ill : View → Bool) (meets : Bool) (f : View → Result) : State → Host.Outcome State Fault Refusal :=
  issue { guard := g, roles := [.matrix], uniform := true, reads, ill } fun x =>
    match (if meets then x.arrayFault else none) with
    | some m => { s := x.s, faults := [m], waitOps := some [] }
    | none => if 8 ≤ (x.s.core x.b.core).mqueue.length then { s := x.s, flow := .wait .matrixQueue false } else f x

/-- Operand offsets under SPS. -/
def operandOk (sps : Bool) (d : Desc) : Bool := !sps || (decide (tdBase d < 2 ^ 19) && decide (tdScale d < 2 ^ 19))
def wldOk (sps : Bool) (d : Desc) : Bool :=
  tdRank d == 2 && tdKdim d == 0 && (isBpi (tdFmt d) || tdFmt d == 2) && operandOk sps d
/-- As R207 says it for WLD, K along dimension 0 is KDIM = 0 (log entry 40). -/
def mmsOk (sps : Bool) (d : Desc) : Bool :=
  tdRank d == 2 && tdKdim d == 0 && (tdFmt d == 5 || tdFmt d == 3 || tdFmt d == 4 || tdFmt d == 2) && operandOk sps d

def execWld (sps : Bool) (g : Guard) (xn : BitVec 8) (b : BitVec 6) (krows : BitVec 7) : State → Host.Outcome State Fault Refusal :=
  matOp g (kBlock b.toNat 2) (fun _ => false) true fun x =>
    match x.s.descriptor x.b.ctx x.id xn.toNat with
    | none => x.fail .tdescFormat 0
    | some d =>
      if !wldOk sps d then x.fail .tdescFormat 0
      else
        let s := x.enqueue (.wld d sps (x.kAt b.toNat) (x.kAt (b.toNat + 1)) (krows.toNat + 1))
        { s := s.setCore x.b.core { s.core x.b.core with wShd := weightsPer (tdFmt d) } }

def execWswp (g : Guard) : State → Host.Outcome State Fault Refusal :=
  matOp g [] (fun _ => false) true fun x =>
    let s := x.enqueue .wswp
    let c := s.core x.b.core
    { s := s.setCore x.b.core { c with wAct := c.wShd, wShd := c.wAct } }

def execMms (m : TriMode) (clr sps : Bool) (g : Guard) (t : BitVec 2) (xn : BitVec 8) (b : BitVec 6) (c : Option (BitVec 6))
    (rows : BitVec 8) (promo : BitVec 7) (trow : BitVec 8) : State → Host.Outcome State Fault Refusal :=
  let tri := match c with
    | some n => kBlock n.toNat 2
    | none => []
  matOp g (kBlock b.toNat 2 ++ tri) (fun x => t.toNat % (x.s.core x.b.core).wAct != 0) false fun x =>
    match x.s.descriptor x.b.ctx x.id xn.toNat with
    | none => x.fail .tdescFormat 0
    | some d =>
      if !mmsOk sps d then x.fail .tdescFormat 0
      else
        let w := (x.s.core x.b.core).wAct
        let p := if promo = 0 then (bits (x.s.ctx x.b.ctx).accPromo 0 7).toNat else promo.toNat
        let k (i : Nat) : Word := match c with
          | some n => x.kAt (n.toNat + i)
          | none => 0
        let s := x.enqueue (.mms d sps m clr t.toNat w (x.kAt b.toNat) (x.kAt (b.toNat + 1)) (k 0) (k 1) (rows.toNat + 1) trow.toNat p)
        let y := s.core x.b.core
        let bits := (List.range w).foldl (fun (u : BitVec 4) i => u ||| (1 <<< (t.toNat + i))) y.unwaited
        { s := s.setCore x.b.core { y with unwaited := bits, unread := (List.range w).foldl (fun u i => Store.insert u (t.toNat + i) (y.mnext - 1)) y.unread } }

def execAprm (g : Guard) (t : BitVec 2) : State → Host.Outcome State Fault Refusal :=
  matOp g [] (fun _ => false) false fun x => { s := x.enqueue (.aprm t.toNat) }
def execAclr (g : Guard) (t : BitVec 2) : State → Host.Outcome State Fault Refusal :=
  matOp g [] (fun _ => false) false fun x => { s := x.enqueue (.aclr t.toNat) }

/-! ### ADRN (R214, R215) -/

def adrnOk (spd : Bool) (d : Desc) : Bool :=
  tdRank d == 2 && decide (tdFmt d ≤ 8) &&
  (tdScale d == 0 || ((tdFmt d == 3 || tdFmt d == 4 || tdFmt d == 5 || tdFmt d == 8) && tdBlk d == 0 && tdKdim d == 0)) &&
  operandOk spd d

/-- The 128 bias values. -/
def View.biasAt (x : View) (a : DWord) : Except Met (List Word) :=
  if a.toNat % 4 ≠ 0 then .error (.misaligned, a)
  else (readUnits x.s x.b.core x.b.ctx a 4 128).map fun l => l.map (BitVec.ofNat 32 ·)

/-- The core's array is the team's: it has a matrix bunch (R14). To another team on the core every tile is undefined (R204). -/
def State.ownsArray (s : State) (b : Bunch) : Bool :=
  match s.launch b.launch with
  | some l => fieldOf l.raw 466 5 != 0
  | none => false

def execAdrn (bias spd : Bool) (g : Guard) (xn : BitVec 8) (t : BitVec 2) (b : BitVec 6) (rows trow : BitVec 8) (tok : BitVec 3) :
    State → Host.Outcome State Fault Refusal :=
  issue { guard := g, roles := [.matrix, .epilogue], uniform := true, reads := kBlock b.toNat (if bias then 4 else 2) } fun x =>
    if !x.on then { s := x.clearRecord tok }
    else
      match x.s.descriptor x.b.ctx x.id xn.toNat with
      | none => x.fail .tdescFormat 0
      | some d =>
        if !adrnOk spd d then x.fail .tdescFormat 0
        else
          match (if bias then (x.biasAt (x.kPair (b.toNat + 2))).map some else .ok none) with
          | .error e => x.fail e.1 e.2 .read
          | .ok bs =>
            if spd && x.b.team.isNone then x.fail .pageProtection 0 .engine
            else
              let c := x.s.core x.b.core
              let tile := if x.s.ownsArray x.b then t.toNat else 4
              let names (e : MatEntry) : Bool := e.cmd.tiles.contains tile
              let early := c.unwaited.getLsbD tile || c.commands.any names
              let c1 := { c with
                mqueue := c.mqueue.map fun e => if names e then { e with spoil := true } else e
                mrun := c.mrun.map fun r => if names r.entry then { r with entry := { r.entry with spoil := true } } else r }
              let y := x.startCopy tok { x.newCopy (.drain d spd tile trow.toNat (rows.toNat + 1) (x.kAt b.toNat) (x.kAt (b.toNat + 1)) bs) false with undef := early }
              { y with s := y.s.setCore x.b.core c1 }

end Sys2Proof.Machine
end

