-- ==== Sys2Proof/Machine/Preempt.lean ====
section
/-! DEFINITION. Pre-emption (R217, R268, R269), resuming (R270), checkpoints (R300, R301) and the D3hot and idle states (R305). -/

namespace Sys2Proof.Machine

/-! ### Whether a context can be saved (R268) -/

/-- Bunches of a context that hold a slot. -/
def State.residentsOf (s : State) (ctx : Nat) : List Nat := (s.bunches.filter fun e => e.2.ctx == ctx && e.2.slot.isSome).map (·.1)

/-- Its records can hold every resident team and bunch. -/
def State.savable (s : State) (ctx : Nat) : Bool :=
  let c := s.ctx ctx
  decide ((s.teamsOf ctx).length ≤ saveTeams c) && decide ((s.bunchesOf ctx).length ≤ saveBunches c)

/-- A context that is not saved and not stopped. -/
def State.live_ (s : State) (ctx : Nat) : Bool := s.hasCtx ctx && s.ctxRuns ctx

/-! ### Saving (R269) -/

/-- The array executes queued instructions until none is left or one is suspended (R217). -/
def State.finishArray (s : State) (core : Nat) : Nat → State
  | 0 => s
  | n + 1 =>
    match execMatrixCommandStart core s with
    | .next t => t.finishArray core n
    | _ =>
      match execMatrixCommandComplete core s with
      | .next t => t.finishArray core n
      | _ =>
        match execMatrixFaultSuspend core s with
        | .next t => t
        | _ => s

/-- A team has a matrix bunch. -/
def State.hasArray (s : State) (t : Nat) : Bool := s.bunches.any fun e => e.2.team == some t && e.2.role == .matrix

/-- The lowest team record of a context that no team holds. -/
def State.freeTeamRecord (s : State) (ctx : Nat) : Nat :=
  let used := (s.teamsOf ctx).filterMap fun t => (Store.find s.teams t).bind fun x => x.saved.map (·.record)
  ((List.range (used.length + 1)).find? fun i => !used.contains i).getD 0

/-- Save a team: its scratchpad, granules, array state and queues (R272). -/
def State.putTeam (s : State) (ctx t : Nat) : State :=
  match Store.find s.teams t with
  | none => s
  | some x =>
    let arr := s.hasArray t
    let s1 := if arr then s.finishArray x.core 64 else s
    let i := s1.freeTeamRecord ctx
    let s2 := s1.saveTeam t i
    let c := s2.core x.core
    let base := (Place.scratch x.pad 0).key
    let lo := padOffset x.pad 0
    let here (o : OldWrite) : Bool := decide (lo ≤ o.off) && decide (o.off < lo + scratchBytes)
    let saved : TeamSave :=
      { record := i
        scratch := (Store.keep (fun k => decide (base ≤ k) && decide (k < base + scratchBytes)) s2.mem).map fun e => (e.1 - base, e.2)
        full := (Store.keep (fun k => k / 32768 == x.pad) s2.full).map fun e => (e.1 % 32768, e.2)
        acc := c.acc, planes := c.planes, shadow := c.shadow, wAct := c.wAct, wShd := c.wShd, mqueue := c.mqueue, mrun := c.mrun
        unwaited := c.unwaited, oldBytes := c.oldBytes.filter here, unread := c.unread, opReads := c.opReads
        seed := Store.find s2.pads x.pad }
    let c1 := { c with oldBytes := c.oldBytes.filter fun o => !here o }
    { s2.setCore x.core (if arr then { c1.freshArray with mqueue := [], mrun := none } else c1) with
      mem := Store.keep (fun k => decide (k < base) || decide (base + scratchBytes ≤ k)) s2.mem
      full := Store.keep (fun k => k / 32768 != x.pad) s2.full
      teams := Store.insert s2.teams t { x with saved := some saved } }

/-- A launch's blocks on a core are freed where no other launch shares them; which segments had landed is kept. -/
def State.releaseCode (s : State) (core l : Nat) : State :=
  let c := s.core core
  let bs := c.blocks.map fun k => { k with users := k.users.filter fun u => u.1 != l }
  s.setCore core { c with blocks := bs.filter fun k => !k.users.isEmpty }

/-- Save a resident bunch; it will return to its slot. What is left of its deadline is kept (R269). -/
def State.putBunch (s : State) (id : Nat) : State :=
  match Store.find s.bunches id with
  | none => s
  | some b =>
    match s.freeRecord b.ctx with
    | none => s
    | some j => ((s.saveBunch id j).onBunch id fun x => { x with home := b.slot }).releaseCode b.core b.launch

/-- Stop the clock of the deadlines of a context, or let it run again. -/
def State.pauseDeadlines (s : State) (ctx : Nat) : State :=
  { s with bunches := Store.mapVals (fun _ (b : Bunch) => if b.ctx = ctx then { b with deadline := b.deadline.map (· - s.now) } else b) s.bunches }
def State.resumeDeadlines (s : State) (ctx : Nat) : State :=
  { s with bunches := Store.mapVals (fun _ (b : Bunch) => if b.ctx = ctx then { b with deadline := b.deadline.map (· + s.now) } else b) s.bunches }

/-- Pre-empt a context (R269); `why` as in `Context.preempted`. -/
def State.preempt (s : State) (ctx why : Nat) : State :=
  let bs := s.residentsOf ctx
  let s1 := bs.foldl (fun t i => t.drainOps i) s
  let s2 := (s1.teamsOf ctx).foldl (fun t i => t.putTeam ctx i) s1
  let s3 := bs.foldl (fun t i => t.putBunch i) s2
  let s4 := s3.pauseDeadlines ctx
  s4.setCtx ctx { s4.ctx ctx with preempted := why, since := s.now }

/-- PREEMPT_REQUEST (R268): a context that cannot be saved is not pre-empted. -/
def execPreemptRequest (ctx : Nat) (s : State) : Host.Outcome State Fault Refusal :=
  if s.hasCtx ctx && s.running then .next (if s.ctxRuns ctx && s.savable ctx then s.preempt ctx 1 else s)
  else .refused (.eventNotEnabled "PREEMPT_REQUEST")

/-! ### Waiting for leases (R268) -/

/-- A launch or task still has a team or bunch to place and finds room on none of its cores. -/
def State.starved (s : State) (id : Nat) (l : Launch) : Bool :=
  if l.task then
    (if trMc l.raw then !l.todo.isEmpty else l.placed == 0) && !(List.range 18).any fun i => s.taskFits id l (18 * trCellar l.raw + i)
  else l.parts.any (fun p => s.teamDue id l p.1) && !(s.takers id l).any fun c => s.teamFits id l c

/-- The cores on which it might be placed. -/
def Launch.cores (l : Launch) : List Nat :=
  if l.task then (List.range 18).map (18 * trCellar l.raw + ·) else l.parts.flatMap fun p => (List.range 18).map (18 * p.1 + ·)

/-- A launch of a context whose bunches are resident. -/
def State.holdsLeases (s : State) (ctx core : Nat) : Bool := s.bunches.any fun e => e.2.ctx == ctx && e.2.core == core && e.2.slot.isSome

/-- The highest effective priority of what a context has placed. -/
def State.placedPri (s : State) (ctx : Nat) : Nat :=
  s.launches.foldl (fun m e => if e.2.ctx = ctx ∧ e.2.placed ≠ e.2.retired then max m (s.effective ctx e.2.pri) else m) 0

/-- A launch or task waits for leases that another context holds. -/
def State.leaseWait (s : State) (id : Nat) (l : Launch) : Bool :=
  s.ctxRuns l.ctx && (s.bunches.any fun e => e.2.ctx != l.ctx && e.2.slot.isSome && l.parts.any fun p => p.1 == cellarOf e.2.core) &&
  s.starved id l

/-- Bunches that return to a slot (R270). -/
def State.returning (s : State) (ctx : Nat) : List (Nat × Bunch) := s.bunches.filter fun e => e.2.ctx == ctx && e.2.home.isSome

/-- Higher-priority work has waited 65,536 cycles for leases that the context holds: a launch or task of a context that runs, or the
work of a pre-empted one that waits to resume. -/
def State.outwaited (s : State) (ctx : Nat) : Bool :=
  let higher (x : Launch) : Bool := x.ctx != ctx && decide (s.placedPri ctx < s.effective x.ctx x.pri)
  (s.launches.any fun e => higher e.2 && decide (e.2.since + 65536 ≤ s.now) && s.leaseWait e.1 e.2 && e.2.cores.any (s.holdsLeases ctx))
  || s.ctxs.any fun c => c.2.preempted == 1 && decide (c.2.since + 65536 ≤ s.now) &&
      (s.returning c.1).any fun e => s.holdsLeases ctx e.2.core && match s.launch e.2.launch with
        | some x => higher x
        | none => false

/-- The context has a cooperative launch placed. -/
def State.coopPlaced (s : State) (ctx : Nat) : Bool :=
  s.launches.any fun e => e.2.ctx == ctx && !e.2.task && lrCoop e.2.raw && decide (e.2.retired < e.2.placed)

/-- PREEMPT_TIMEOUT. -/
def execPreemptTimeout (ctx : Nat) (s : State) : Host.Outcome State Fault Refusal :=
  if s.live_ ctx && s.running && s.savable ctx && !s.coopPlaced ctx && s.outwaited ctx then .next (s.preempt ctx 1)
  else .refused (.eventNotEnabled "PREEMPT_TIMEOUT")

/-! ### Resuming (R270) -/

/-- Pairs of core and launch to which code is leased again. -/
def State.leasesFor (s : State) (ctx : Nat) : List (Nat × Nat) := ((s.returning ctx).map fun e => (e.2.core, e.2.launch)).eraseDups

/-- Segments a launch had on a core. -/
def Launch.segmentsOn (l : Launch) (core : Nat) : List Nat := 0 :: ((l.landed.filter fun p => p.1 == core).map (·.2)).filter (· != 0)
def Launch.segmentAt (l : Launch) (s : State) (seg : Nat) : Segment :=
  if seg = 0 then l.segment s
  else
    match readSegment s feCore l.ctx l.entry seg with
    | .ok g => g
    | .error _ => { va := 0, len := 0 }

/-- Blocks that a core has to take for the launches that return to it. -/
def State.blocksNeeded (s : State) (ctx core : Nat) : Nat :=
  ((s.leasesFor ctx).filter fun p => p.1 == core).foldl (fun n p =>
    match s.launch p.2 with
    | some l => (l.segmentsOn core).foldl (fun m g => m + (s.core core).missing ctx (l.segmentAt s g)) n
    | none => n) 0

/-- The slots, budgets and blocks of a context's bunches are free. -/
def State.leasesFree (s : State) (ctx : Nat) : Bool :=
  let bs := s.returning ctx
  let cores := (bs.map fun e => e.2.core).eraseDups
  (bs.all fun e => (s.freeSlots e.2.core).any fun n => e.2.home == some n) &&
  cores.all fun c =>
    decide (s.usedRegs c + (bs.filter fun e => e.2.core == c).foldl (fun n e => n + e.2.budget) 0 ≤ 2048) &&
    decide (s.blocksNeeded ctx c ≤ (s.core c).freeBlocks)

/-- Nothing that could be placed on one of the cores, and no pre-empted context that returns to one, goes before every launch of the
context (R224). -/
def State.resumeFirst (s : State) (ctx : Nat) : Bool :=
  let mine := (s.returning ctx).filterMap fun e => s.launch e.2.launch
  !(s.returning ctx).any fun b =>
    (s.launches.any fun e =>
      e.2.ctx != ctx && mine.all (s.before e.2) && (s.teamFits e.1 e.2 b.2.core || s.taskFits e.1 e.2 b.2.core)) ||
    s.bunches.any fun e =>
      e.2.ctx != ctx && e.2.core == b.2.core && e.2.home.isSome && (s.ctx e.2.ctx).preempted == 1 && match s.launch e.2.launch with
        | some x => mine.all (s.before x)
        | none => false

/-- From when launches and pre-empted contexts have waited for leases, as a cycle ends (R268). -/
def State.noteWaits (s : State) : State :=
  { s with
    launches := Store.mapVals (fun i (l : Launch) => if s.leaseWait i l then l else { l with since := s.now + 1 }) s.launches
    ctxs := Store.mapVals (fun i (c : Context) =>
      if c.preempted == 1 && !s.leasesFree i then c else { c with since := s.now + 1 }) s.ctxs }

/-- Some unit of a range of a record is poisoned. -/
def State.rangePoisoned (s : State) (ctx : Nat) (va : DWord) (n : Nat) : Bool :=
  !s.poison.isEmpty && (List.range (n / 32)).any fun i =>
    match locate s feCore ctx (va + BitVec.ofNat 64 (32 * i)) .read with
    | .ok x => s.poisoned x.place 32
    | .error _ => false

/-- Some record that is restored holds poison (R275). -/
def State.recordsPoisoned (s : State) (ctx : Nat) : Bool :=
  let c := s.ctx ctx
  (s.returning ctx).any (fun e => match e.2.record with
    | some j => s.rangePoisoned ctx (bunchRecordVa c j) 0x9000
    | none => false) ||
  (s.teamsOf ctx).any fun t => match (Store.find s.teams t).bind (·.saved) with
    | some x => s.rangePoisoned ctx (teamRecordVa c x.record) 0x200000
    | none => false

/-- Restore a team to its core. -/
def State.getTeam (s : State) (t : Nat) : State :=
  match Store.find s.teams t with
  | none => s
  | some x =>
    match x.saved with
    | none => s
    | some y =>
      let base := (Place.scratch x.pad 0).key
      let c := s.core x.core
      let c1 := if s.hasArray t then
          { c with acc := y.acc, planes := y.planes, shadow := y.shadow, wAct := y.wAct, wShd := y.wShd, mqueue := y.mqueue
                   mrun := y.mrun, unwaited := y.unwaited, unread := y.unread, opReads := y.opReads }
        else c
      let cleared := Store.keep (fun k => decide (k < base) || decide (base + scratchBytes ≤ k)) s.mem
      { s.setCore x.core { c1 with oldBytes := c1.oldBytes ++ y.oldBytes } with
        mem := y.scratch.foldl (fun m e => m.write (base + e.1) e.2) cleared
        full := y.full.foldl (fun m e => m.write (32768 * x.pad + e.1) e.2) (Store.keep (fun k => k / 32768 != x.pad) s.full)
        pads := match y.seed with
          | some n => Store.insert s.pads x.pad n
          | none => Store.erase s.pads x.pad
        teams := Store.insert s.teams t { x with saved := none } }

/-- Lease a launch's code on a core again. -/
def State.leaseAgain (s : State) (p : Nat × Nat) : State :=
  match s.launch p.2 with
  | none => s
  | some l => (l.segmentsOn p.1).foldl (fun t g => t.leaseSegment p.1 l.ctx p.2 g (some s.now) (l.segmentAt s g)) s

/-- Restore a context: code, teams, bunches; the replies are applied and their count becomes 0. -/
def State.resume (s : State) (ctx : Nat) : State :=
  let bs := s.returning ctx
  let s1 := (s.leasesFor ctx).foldl State.leaseAgain s
  let s2 := (s1.teamsOf ctx).foldl State.getTeam s1
  let s3 := bs.foldl (fun t e => match e.2.home with
    | some n => t.unsave e.1 n
    | none => t) s2
  let s4 := (s3.resumeDeadlines ctx).saveBytes feCore ctx (saveArea (s3.ctx ctx) + 0x100) (leBytes 0 4)
  s4.setCtx ctx { s4.ctx ctx with preempted := 0 }

/-- CONTEXT_RESUME. -/
def execContextResume (ctx : Nat) (s : State) : Host.Outcome State Fault Refusal :=
  if s.running && s.ckptState != 1 && (s.ctx ctx).preempted == 1 && s.leasesFree ctx && s.resumeFirst ctx then
    .next (if s.recordsPoisoned ctx then s.stopContext ctx 4 Cause.eccUncorrectable.code else s.resume ctx)
  else .refused (.eventNotEnabled "CONTEXT_RESUME")

/-! ### Checkpoints and D3hot (R300, R301, R305) -/

/-- The lowest context that has resident teams or bunches and cannot be saved. -/
def State.unsavable (s : State) : Option Nat :=
  (List.range 64).find? fun c => s.live_ c && (!(s.residentsOf c).isEmpty || !(s.teamsOf c).isEmpty) && !s.savable c

/-- Pre-empt every context that runs. -/
def State.preemptAll (s : State) (why : Nat) : State := ((List.range 64).filter s.live_).foldl (fun t c => t.preempt c why) s

/-- Contexts saved for one reason wait for leases. -/
def State.release (s : State) (why : Nat) : State :=
  { s with ctxs := Store.mapVals (fun _ (c : Context) => if c.preempted = why then { c with preempted := 1, since := s.now } else c) s.ctxs }

/-- The device is in D0 and works (R305). -/
def State.inD0 (s : State) : Bool := s.answers && !s.fatal && (s.power == .active || s.power == .idle)

/-- The image of device memory and its frame tags, as they stand, for a tier (R300). -/
def State.takeImage (s : State) (tier : Nat) : Image :=
  { tier, mem := Store.keep (fun k => k / 2 ^ 54 == s.device) s.mem, tags := Store.keep (fun k => k / 2 ^ 42 == s.device) s.tags }

/-- CHECKPOINT_START (R300, R301): to the tier of an estate address. Memory stands as the last pre-emption leaves it. -/
def execCheckpointStart (tier : Nat) (s : State) : Host.Outcome State Fault Refusal :=
  if s.inD0 && s.ckptState != 1 then
    match s.unsavable with
    | some c => .next (({ s with ckptState := 3, ckptCtx := BitVec.ofNat 6 c }).raise 0 3)
    | none =>
      let t := s.preemptAll 2
      .next { t with ckptState := 1, ckptCtx := 0, image := some (t.takeImage tier) }
  else .refused (.eventNotEnabled "CHECKPOINT_START")

def Image.finished (i : Image) : Image := { i with whole := true }

/-- CHECKPOINT_END (R300): the image is whole; it has left in class 7 by the ports that carry it. -/
def execCheckpointEnd (s : State) : Host.Outcome State Fault Refusal :=
  if s.inD0 && s.ckptState == 1 && (List.range 16).any fun p => s.carries p 7 then
    .next (({ s.release 2 with ckptState := 2, image := s.image.map Image.finished }).raise 0 3)
  else .refused (.eventNotEnabled "CHECKPOINT_END")

/-- D3HOT_ENTRY: refused where a context cannot be saved. -/
def execD3hotEntry (s : State) : Host.Outcome State Fault Refusal :=
  if s.inD0 && s.ckptState != 1 then
    match s.unsavable with
    | some c => .next { s with ckptState := 3, ckptCtx := BitVec.ofNat 6 c }
    | none => .next { s.preemptAll 3 with power := .d3hot, selfRefresh := true }
  else .refused (.eventNotEnabled "D3HOT_ENTRY")

/-- D3HOT_EXIT. -/
def execD3hotExit (s : State) : Host.Outcome State Fault Refusal :=
  if s.power == .d3hot then .next { s.release 3 with power := .active, selfRefresh := false } else .refused (.eventNotEnabled "D3HOT_EXIT")

/-- The device has nothing to do. -/
def State.idle (s : State) : Bool :=
  s.bunches.isEmpty && s.launches.isEmpty && s.commands.isEmpty && s.agents.isEmpty && s.graphs.isEmpty && s.depRecs.isEmpty &&
  s.upcalls.isEmpty && s.plqs.all (fun e => e.2.isEmpty) && s.queues.all fun e => !e.2.en || e.2.head == e.2.tail

/-- D0_IDLE_ENTRY. -/
def execD0IdleEntry (s : State) : Host.Outcome State Fault Refusal :=
  if s.running && s.ckptState != 1 && s.idle then .next { s with power := .idle, idleSince := s.time } else .refused (.eventNotEnabled "D0_IDLE_ENTRY")

/-- SELF_REFRESH_TIMER: 1 ms of idling. -/
def execSelfRefreshTimer (s : State) : Host.Outcome State Fault Refusal :=
  if s.power == .idle && !s.selfRefresh && decide (s.idleSince + 1000 * microsecond ≤ s.time) then .next { s with selfRefresh := true }
  else .refused (.eventNotEnabled "SELF_REFRESH_TIMER")

end Sys2Proof.Machine
end

