-- ==== Sys2Proof/Machine/Float.lean ====
section
/-! DEFINITION. The float and conversion instructions (R332, R341, R342, R349 to R351, R353 to R356, R379). -/

namespace Sys2Proof.Machine

/-! ### FTRN (R355, R356) -/

/-- The largest r with r² ≤ m, searching bits below 2^n. -/
def isqrtFrom (m : Nat) : Nat → Nat → Nat
  | 0, r => r
  | n + 1, r => isqrtFrom m n (if (r + 2 ^ n) * (r + 2 ^ n) ≤ m then r + 2 ^ n else r)
def isqrt (m : Nat) : Nat := isqrtFrom m 100 0

/-- Fixed-point values have 160 fraction bits. -/
def fxOne : Int := 2 ^ 160
def fxPi : Int := 4591442807048218921384805199743311128454155024418
def fxLn2 : Int := 1013035739299659071135698605846798551586536899366
def fxMul (a b : Int) : Int := a * b / fxOne
/-- m × 2^e in fixed point, rounded down. -/
def fxOf (neg : Bool) (m : Nat) (e : Int) : Int :=
  let k := e + 160
  let x : Int := if 0 ≤ k then (m * 2 ^ k.toNat : Nat) else (m / 2 ^ (-k).toNat : Nat)
  if neg then -x else x

/-- Taylor series by nesting: 1 + c₁ t (1 + c₂ t (…)), with 1 / c k given. -/
def fxSeries (t : Int) (c : Nat → Int) : Nat → Nat → Int
  | 0, _ => fxOne
  | n + 1, k => fxOne + fxMul t (fxSeries t c n (k + 1)) / c k
def fxExp (t : Int) : Int := fxSeries t (fun k => k) 60 1
def fxSin (t : Int) : Int := fxMul t (fxSeries (-(fxMul t t)) (fun k => (2 * k) * (2 * k + 1)) 60 1)
def fxCos (t : Int) : Int := fxSeries (-(fxMul t t)) (fun k => (2 * k - 1) * (2 * k)) 60 1
/-- The sum of z^(2k+1) / (2k+1). -/
def fxAtanh (z zz : Int) : Nat → Nat → Int
  | 0, _ => 0
  | n + 1, k => z / (2 * k + 1) + fxAtanh (fxMul z zz) zz n (k + 1)
/-- log2 of a number in [1, 2). -/
def fxLog2 (t : Int) : Int :=
  let z := (t - fxOne) * fxOne / (t + fxOne)
  2 * fxAtanh z (fxMul z z) 60 0 * fxOne / fxLn2

/-- |a × 2^e − b × 2^f| ≤ 2^u × k. -/
def closeTo (a : Int) (e : Int) (b : Int) (f : Int) (k : Nat) (u : Int) : Bool :=
  let g := min (min e f) u
  decide ((a * 2 ^ (e - g).toNat - b * 2 ^ (f - g).toNat).natAbs ≤ k * 2 ^ (u - g).toNat)

/-- The implementation's result where it lies within the bound of R356 around y = b × 2^f, else the nearest FP32 value
(log entry 12). -/
def ftrnPick (code : Nat) (ftz : Bool) (x : Nat) (b f : Int) (k : Nat) (u : Int) : Nat :=
  let c := (Config.ftrn code ftz (BitVec.ofNat 32 x)).toNat
  let ok := match Fmt.f32.num c with
    | .fin s m e => closeTo (if s then -(m : Int) else m) e b f k u
    | _ => false
  if ok then c else (Fmt.f32.round .rne (decide (b < 0)) b.natAbs f).1

/-- The last place of a positive value b × 2^f. -/
def ulpOf (b f : Int) : Int := max (-149) ((ilog b.natAbs : Int) + f - 23)

def ftrnRcp (s : Bool) (m : Nat) (e : Int) : Nat × FlagBits :=
  Fmt.f32.round .rne s (2 ^ 80 / m) (-80 - e) false (2 ^ 80 % m != 0)
/-- An even exponent. -/
def evenExp (m : Nat) (e : Int) : Nat × Int := if e % 2 = 0 then (m, e) else (2 * m, e - 1)
def ftrnSqrt (m : Nat) (e : Int) : Nat × FlagBits :=
  let (m1, e1) := evenExp m e
  let r := isqrt (m1 * 2 ^ 60)
  Fmt.f32.round .rne false r ((e1 - 60) / 2) false (r * r != m1 * 2 ^ 60)
def ftrnRsq (ftz : Bool) (x m : Nat) (e : Int) : Nat × FlagBits :=
  let (m1, e1) := evenExp m e
  let b : Int := isqrt (2 ^ 160 / m1)
  let f := -80 - e1 / 2
  (ftrnPick 1 ftz x b f 1 (ulpOf b f), 0)

def ftrnExp2 (ftz : Bool) (x : Nat) (s : Bool) (m : Nat) (e : Int) : Nat × FlagBits :=
  if !s && decide (8 ≤ (ilog m : Int) + e - 0 ∨ 128 * fxOne ≤ fxOf s m e) then (Fmt.f32.top, flagOVF)
  else
    let big := s && decide (8 ≤ (ilog m : Int) + e)
    let fx := fxOf s m e
    let n := fx / fxOne
    let r := fx % fxOne
    if !big && r = 0 && decide (0 ≤ e ∨ m % 2 ^ (-e).toNat = 0) && decide (-149 ≤ n) then Fmt.f32.round .rne false 1 n
    else
      let y : Int := if big then 1 else fxExp (fxMul r fxLn2)
      let f : Int := if big then -300 else n - 160
      let rounded := Fmt.f32.round .rne false y.natAbs f
      if rounded.2 &&& flagOVF != 0 then rounded
      else
        let c := ftrnPick 3 ftz x y f 2 (ulpOf y f)
        let tiny := decide ((ilog y.natAbs : Int) + f < -126)
        (c, if tiny && decide (Fmt.f32.mag c < 2 ^ 23) then flagUNF else 0)

def ftrnLog2 (ftz : Bool) (x m : Nat) (e : Int) : Nat × FlagBits :=
  let k := ilog m
  let n : Int := k + e
  if m = 2 ^ k then (Fmt.f32.round .rne (decide (n < 0)) n.natAbs 0)
  else
    let y := n * fxOne + fxLog2 (fxOf false m (-(k : Int)))
    (ftrnPick 4 ftz x y (-160) 2 (ulpOf y (-160)), 0)

def ftrnSinCos (cos ftz : Bool) (x : Nat) (s : Bool) (m : Nat) (e : Int) : Nat × FlagBits :=
  let code := if cos then 6 else 5
  let small := decide ((ilog m : Int) + e < -60)
  let t := fxOf s m e % (2 * fxPi)
  let y : Int := if cos then fxCos t else if small then (if s then -(m : Int) else m) else fxSin t
  let f : Int := if !cos && small then e else -160
  let near := decide ((fxOf s m e).natAbs ≤ (32 * fxPi).natAbs)
  let c :=
    if near then ftrnPick code ftz x y f 1 (-22)
    else
      let c := (Config.ftrn code ftz (BitVec.ofNat 32 x)).toNat
      if Fmt.f32.isNan c || decide (Fmt.f32.one < Fmt.f32.mag c) then (Fmt.f32.round .rne (decide (y < 0)) y.natAbs f).1 else c
  let tiny := !cos && (decide ((ilog m : Int) + e < -126) || (decide ((ilog m : Int) + e = -126) && m == 2 ^ ilog m))
  (c, if tiny && decide (Fmt.f32.mag c < 2 ^ 23) then flagUNF else 0)

/-- The results of R355 for special operands, and of R356 for others. -/
def ftrnFn (fn : FtrnFn) (ftz : Bool) (a0 : Word) : Word × FlagBits :=
  let a := Fmt.f32.flushIn ftz a0.toNat
  let s := Fmt.f32.neg a
  let inf (neg : Bool) : Nat := Fmt.f32.signBit neg + Fmt.f32.top
  let bad : Nat × FlagBits := (Fmt.f32.qnan, flagINV)
  w2 (match Fmt.f32.nans [a] with
    | some r => r
    | none =>
      match Fmt.f32.num a with
      | .nan => bad
      | .inf _ =>
        match fn with
        | .rcp => (Fmt.f32.signBit s, 0)
        | .rsq => if s then bad else (0, 0)
        | .sqrt => if s then bad else (inf false, 0)
        | .exp2 => if s then (0, 0) else (inf false, 0)
        | .log2 => if s then bad else (inf false, 0)
        | .sin => bad
        | .cos => bad
      | .fin _ 0 _ =>
        match fn with
        | .rcp => (inf s, flagDZ)
        | .rsq => (inf s, flagDZ)
        | .sqrt => (a, 0)
        | .exp2 => (Fmt.f32.one, 0)
        | .log2 => (inf true, flagDZ)
        | .sin => (a, 0)
        | .cos => (Fmt.f32.one, 0)
      | .fin _ m e =>
        Fmt.f32.flushOut ftz (match fn with
          | .rcp => ftrnRcp s m e
          | .rsq => if s then bad else ftrnRsq ftz a m e
          | .sqrt => if s then bad else ftrnSqrt m e
          | .exp2 => ftrnExp2 ftz a s m e
          | .log2 => if s then bad else ftrnLog2 ftz a m e
          | .sin => ftrnSinCos false ftz a s m e
          | .cos => ftrnSinCos true ftz a s m e))

/-! ### Meanings -/

def execFaddBase (sat : Bool) (f : Base2) := falu2 6 f.alu fun z a b => satW sat (fadd32 z a b)
def execFadd (sat : Bool) (f : Alu2) := falu2 6 f fun z a b => satW sat (fadd32 z a b)
def execFmulBase (sat : Bool) (f : Base2) := falu2 6 f.alu fun z a b => satW sat (fmul32 z a b)
def execFmul (sat : Bool) (f : Alu2) := falu2 6 f fun z a b => satW sat (fmul32 z a b)
def execFfma (sat nega negc : Bool) (f : Alu3) := falu3 6 f fun z a b c => satW sat (ffma32 z nega negc a b c)
def execFminBase (f : Base2) := falu2 6 f.alu fmin32
def execFmin (f : Alu2) := falu2 6 f fmin32
def execFmaxBase (f : Base2) := falu2 6 f.alu fmax32
def execFmax (f : Alu2) := falu2 6 f fmax32
def execFtrnRcpBase (f : Base1) := falu1 18 f.alu (ftrnFn .rcp)
def execFtrn (fn : FtrnFn) (f : Alu1) := falu1 18 f (ftrnFn fn)
def execFrnd (rm : RMode) (f : Alu1) := falu1 6 f fun z a => w2 (Fmt.f32.rint rm z a.toNat)
/-- PFMA keeps subnormals whatever FTZ says (R379). -/
def execPfma (bf sat nega negc : Bool) (f : Alu3) := falu3 6 f fun _ a b c => pfmaFn bf sat nega negc a b c

/-- FCMP (R350): a predicate, and INV of a signalling NaN. -/
def execFcmp (c : FCond) (f : Cmp) : State → Host.Outcome State Fault Refusal :=
  issue { guard := f.g, roles := vecEpi, reads := f.a.regs ++ f.b.regs, writes := [.p f.d.toNat], lat := some 6 }
    fun x =>
      let r (l : Nat) : Bool × FlagBits := Fmt.f32.compare c x.ftz (x.word f.a l).toNat (x.wordL f.b l).toNat
      let b := x.setPred f.d.toNat fun l => (r l).1
      x.answer { b with fpStat := (lanesOf x.exec).foldl (fun m l => m ||| (r l).2) b.fpStat }

/-- CVT (R341, R342): A26 faults TDESC_FORMAT (R93). -/
def execCvt (sat : Bool) (src dst : BitVec 5) (rm : RMode) (f : Alu1) : State → Host.Outcome State Fault Refusal :=
  issue { guard := f.g, roles := vecEpi, uniform := f.d.isK, reads := f.a.regs, writes := f.d.regs, lat := some 6 }
    fun x =>
      if src = 10 ∨ dst = 10 then (if x.on then faulted x.s (faultAll x.exec .tdescFormat 0) else { s := x.s })
      else x.answer (x.setFlagged f.d fun l => cvtFn sat src.toNat dst.toNat rm (x.word f.a l))

end Sys2Proof.Machine
end

