-- ==== Sys2Proof/Machine/Raster.lean ====
section
/-! DEFINITION. The raster unit: triangles (R279 to R283), splats (R286), path segments (R287, R288), coverage (R289, R334), and the
instructions that reach it (R290, R384). -/

namespace Sys2Proof.Machine

def latRaster : Nat := 200

/-! ### Exact arithmetic -/

/-- A number rounded to the nearest integer, ties to even. -/
def rneDiv (n : Int) (d : Nat) : Int :=
  let q := n / (d : Int)
  let r := 2 * (n % (d : Int))
  if (d : Int) < r ∨ (r = d ∧ q % 2 = 1) then q + 1 else q

/-- A quotient rounded once to FP32 (R283); 0 is +0. -/
def ratio32 (n d : Int) : Word :=
  let neg := (decide (n < 0)) != (decide (d < 0)) && n != 0
  let q := n.natAbs * 2 ^ 160
  BitVec.ofNat 32 (Fmt.f32.round .rne neg (q / d.natAbs) (-160) false (q % d.natAbs != 0)).1

/-- A coordinate in 256ths (R282): none for a NaN or a magnitude of 2^23 or more. -/
def snap (x : Word) : Option Int :=
  match Fmt.f32.num x.toNat with
  | .fin s m e =>
    let n : Nat := (roundAt .rne s m e (-8)).1
    if 2 ^ 31 ≤ n then none else some (if s then -(n : Int) else n)
  | _ => none

/-- A point in 256ths of a pixel. -/
structure Pt where
  x : Int
  y : Int
deriving DecidableEq, Repr

/-! ### The raster record (R280) -/

def rrTarget (r : BitVec 512) : Word := r.extractLsb' 480 32
def rrWm1 (r : BitVec 512) : Nat := fieldOf r 466 14
def rrHm1 (r : BitVec 512) : Nat := fieldOf r 452 14
def rrCull (r : BitVec 512) : Nat := fieldOf r 450 2
def rrCol (r : BitVec 512) : DWord := BitVec.ofNat 64 (fieldOf r 396 52)
/-- Reserved bits, and bit 31 of TARGET. -/
def rrOk (r : BitVec 512) : Bool := fieldOf r 448 2 == 0 && fieldOf r 0 396 == 0 && !r.getLsbD 511

/-- The record of a raster instruction, read at issue. -/
def View.rasterRecord (x : View) (b : BitVec 6) : Except Met (BitVec 512) :=
  let va := x.kPair b.toNat
  match x.record va 8 64 with
  | .error e => .error e
  | .ok r => if rrOk (BitVec.ofNat 512 r) then .ok (BitVec.ofNat 512 r) else .error (.tdescFormat, va)

/-- Send work to the raster unit of the bunch's cellar (R279). -/
def View.toRaster (x : View) (s : State) (tok : BitVec 3) (job : UnitRun) (ws : List RegWrite) : State :=
  { s.addOp x tok latRaster (.unit job) ws with
    raster := s.raster ++ [{ cellar := cellarOf x.b.core, bunch := x.id, op := s.nextId }] }

/-! ### Triangles (R282, R283) -/

/-- The edge function from s to e at p. -/
def edge (s e p : Pt) : Int := (e.x - s.x) * (p.y - s.y) - (e.y - s.y) * (p.x - s.x)
/-- A top edge or a left edge. -/
def owner (s e : Pt) : Bool := (e.y == s.y && decide (s.x < e.x)) || decide (e.y < s.y)
def inside (s e p : Pt) : Bool := decide (0 < edge s e p) || (edge s e p == 0 && owner s e)
/-- The centre of a pixel. -/
def centre (px py : Nat) : Pt := { x := 256 * (px : Int) + 128, y := 256 * (py : Int) + 128 }

/-- A triangle with its area in the original order. -/
structure Tri where
  v0 : Pt
  v1 : Pt
  v2 : Pt
deriving DecidableEq, Repr

def Tri.area (t : Tri) : Int := (t.v1.x - t.v0.x) * (t.v2.y - t.v0.y) - (t.v2.x - t.v0.x) * (t.v1.y - t.v0.y)
/-- The sample of a pixel is covered; the edges run in the normalised order. -/
def Tri.covers (t : Tri) (p : Pt) : Bool :=
  let b := if 0 < t.area then t.v1 else t.v2
  let c := if 0 < t.area then t.v2 else t.v1
  inside t.v0 b p && inside b c p && inside c t.v0 p

/-- The words of a lane: v1 to v4 (R283). -/
def Tri.words (t : Tri) (prim : Word) (px py : Nat) : List Word :=
  let p := centre px py
  [BitVec.ofNat 32 (px + py * 65536), prim, ratio32 (edge t.v2 t.v0 p) t.area, ratio32 (edge t.v0 t.v1 p) t.area]

/-- The quad at an even pixel; none where no sample is covered. -/
def Tri.quadAt (t : Tri) (wm1 hm1 : Nat) (prim : Word) (qx qy : Nat) : Option Quad :=
  let lanes : List (Nat × Nat) := [(qx, qy), (qx + 1, qy), (qx, qy + 1), (qx + 1, qy + 1)]
  let cov := lanes.map fun p => decide (p.1 ≤ wm1 ∧ p.2 ≤ hm1) && t.covers (centre p.1 p.2)
  if cov.any id then
    some { index := 0
           covered := BitVec.ofNat 4 ((cov.zip [1, 2, 4, 8]).foldl (fun n e => if e.1 then n + e.2 else n) 0)
           words := lanes.map fun p => t.words prim p.1 p.2 }
  else none

/-- Even pixel numbers whose pair meets the span of coordinates from `a` to `b`, within [0, top]. -/
def evens (a b : Int) (top : Nat) : List Nat :=
  let lo := (a / 512).toNat
  let hi := min (b / 512) ((top / 2 : Nat) : Int)
  if hi < 0 then [] else (List.range (hi.toNat + 1 - lo)).map fun i => 2 * (lo + i)

/-- The quads of a triangle, rows from top to bottom, each left to right. -/
def Tri.quads (t : Tri) (wm1 hm1 : Nat) (prim : Word) : List Quad :=
  let xs := evens (min t.v0.x (min t.v1.x t.v2.x)) (max t.v0.x (max t.v1.x t.v2.x)) wm1
  let ys := evens (min t.v0.y (min t.v1.y t.v2.y)) (max t.v0.y (max t.v1.y t.v2.y)) hm1
  ys.flatMap fun qy => xs.filterMap fun qx => t.quadAt wm1 hm1 prim qx qy

/-- CULL discards an area. -/
def culled (cull : Nat) (a : Int) : Bool := a == 0 || (cull % 2 == 1 && decide (a < 0)) || (cull / 2 == 1 && decide (0 < a))

/-- The quads that a PRIM delivers, and INV. -/
def primQuads (r : BitVec 512) (k : Nat → Word) : List Quad × Bool :=
  match snap (k 0), snap (k 1), snap (k 2), snap (k 3), snap (k 4), snap (k 5) with
  | some x0, some y0, some x1, some y1, some x2, some y2 =>
    let t : Tri := { v0 := { x := x0, y := y0 }, v1 := { x := x1, y := y1 }, v2 := { x := x2, y := y2 } }
    (if culled (rrCull r) t.area then [] else t.quads (rrWm1 r) (rrHm1 r) (k 6), false)
  | _, _, _, _, _, _ => ([], true)

def execPrim (g : Guard) (d a b : BitVec 6) (tok : BitVec 3) : State → Host.Outcome State Fault Refusal :=
  issue { guard := g, roles := vecOnly, uniform := true, reads := kBlock a.toNat 7 ++ kBlock b.toNat 2, writes := [.k d.toNat], rel := true } fun x =>
    if !x.on then { s := x.s }
    else
      match x.rasterRecord b with
      | .error e => x.fail e.1 e.2 .read
      | .ok r =>
        let q := primQuads r fun i => x.kAt (a.toNat + i)
        x.release { s := x.toRaster x.s tok { job := .prim (rrTarget r) q.1 q.1.length q.2, lane := lowest x.exec } [x.kWrite d.toNat 0] }

def execPrimClose (g : Guard) (d b : BitVec 6) (tok : BitVec 3) : State → Host.Outcome State Fault Refusal :=
  issue { guard := g, roles := vecOnly, uniform := true, reads := kBlock b.toNat 2, writes := [.k d.toNat] } fun x =>
    if !x.on then { s := x.s }
    else
      match x.rasterRecord b with
      | .error e => x.fail e.1 e.2 .read
      | .ok r => { s := x.toRaster x.s tok { job := .close (rrTarget r), lane := lowest x.exec } [x.kWrite d.toNat 0] }

/-- The pixel launch that TARGET names for a context in a cellar (R281). -/
def State.target (s : State) (ctx cellar : Nat) (seq : Word) : Option (Nat × Launch) :=
  s.launches.find? fun e =>
    e.2.ctx == ctx && !e.2.task && lrQuad e.2.raw && !e.2.closing && e.2.seq % 2 ^ 31 == seq.toNat && e.2.shareOf cellar != 0

/-- Room in a launch's quad queue of a cellar (R281). -/
def Launch.quadRoom (l : Launch) (cellar : Nat) : Nat := 4096 - (Store.get [] l.queue cellar).length
/-- Queue quads; each takes its place in the cellar's queue as its index. -/
def Launch.pushQuads (l : Launch) (cellar : Nat) (qs : List Quad) : Launch :=
  let n := Store.get 0 l.quadNum cellar
  let named := (qs.zip (List.range qs.length)).map fun e => { e.1 with index := BitVec.ofNat 32 (n + e.2) }
  { l with
    queue := Store.insert l.queue cellar (Store.get [] l.queue cellar ++ named)
    quadNum := Store.insert l.quadNum cellar (n + qs.length) }

/-! ### Splats (R286) -/

def fAdd (a b : Word) : Word := BitVec.ofNat 32 (Fmt.f32.add false a.toNat b.toNat).1
def fMul (a b : Word) : Word := BitVec.ofNat 32 (Fmt.f32.mul false a.toNat b.toNat).1
def fSub (a b : Word) : Word := fAdd a (b ^^^ 0x80000000)
def fLess (a b : Word) : Bool := (Fmt.f32.compare .lt false a.toNat b.toNat).1
/-- An FP16 code as FP32. -/
def widen16 (x : Nat) : Word := BitVec.ofNat 32 (toFloat 1 (BitVec.ofNat 32 x) .f32 .rne false).1
/-- A pixel number plus a half. -/
def half32 (p : Nat) : Word := BitVec.ofNat 32 (Fmt.f32.round .rne false (2 * p + 1) (-1)).1

/-- The cask's form (R286). -/
def splatCaskOk (d : BitVec 512) : Bool :=
  ckKind d == 1 && ckLevel d == 32 && ckNcol d == 8 && (List.range 8).map (ckColType d) == [5, 5, 5, 5, 5, 3, 2, 3]

/-- cx, cy, a, b, c, o, R, G, B of an element. -/
def splatWords (e : CaskElem) : List Word :=
  let c (i : Nat) : Nat := e.cols.getD i 0
  (List.range 5).map (fun i => BitVec.ofNat 32 (c i))
    ++ [widen16 (c 5), widen16 (c 6 % 65536), widen16 (c 6 / 65536), widen16 (c 7)]

/-- Blending so far: R, G, B, T, INV, and whether it has stopped. -/
structure Blend where
  r    : Word := 0
  g    : Word := 0
  b    : Word := 0
  t    : Word := 0x3F800000
  inv  : Bool := false
deriving DecidableEq, Repr

def Blend.splat (c : Blend) (px py : Nat) (w : List Word) : Blend :=
  let k (i : Nat) : Word := w.getD i 0
  if fLess c.t 0x3B800000 then c
  else
    let dx := fSub (half32 px) (k 0)
    let dy := fSub (half32 py) (k 1)
    let q := fAdd (fAdd (fMul (fMul (k 2) dx) dx) (fMul (fMul (fMul 0x40000000 (k 3)) dx) dy)) (fMul (fMul (k 4) dy) dy)
    let e := (ftrnFn .exp2 false (fMul (fMul 0xBF000000 q) 0x3FB8AA3B)).1
    let oe := fMul (k 5) e
    if Fmt.f32.isNan oe.toNat then { c with inv := true }
    else
      let alpha := BitVec.ofNat 32 (Fmt.f32.minMax false false 0x3F7D70A4 oe.toNat).1
      if fLess alpha 0x3B808081 then c
      else
        let ta := fMul c.t alpha
        { c with
          r := fAdd c.r (fMul ta (k 6)), g := fAdd c.g (fMul ta (k 7)), b := fAdd c.b (fMul ta (k 8))
          t := fMul c.t (fSub 0x3F800000 alpha) }

/-- A tile's splats, in cask order (R177). -/
def readTile (s : State) (g : Engine) (bind : CaskBind) (t : Nat) : Except Met (List (List Word)) :=
  (openCask s g.core g.ctx bind.va).bind fun c => (c.allHomes s).bind fun hs =>
    let mode := CurMode.range (t * 2 ^ 32) (t * 2 ^ 32 + (2 ^ 32 - 1))
    let cur : Cursor := { bind, mode, homes := reached bind.desc hs mode }
    (c.elemsOf s hs cur.homes).map fun es => (cur.upcoming 0 es).map splatWords

/-- Tiles across a viewport of a width. -/
def tilesAcross (w : Nat) : Nat := (w + 15) / 16

/-- The tiles from k[A] to k[A + 1] that lie in the viewport. -/
def splatTiles (w h lo hi : Nat) : List Nat :=
  (List.range (min (hi + 1) (tilesAcross w * tilesAcross h) - lo)).map (lo + ·)

/-- Pixel j of the i-th tile is stored: its bytes go to COL_VA + 16 (py (WM1 + 1) + px). -/
def splatPixel (g : Engine) (s : State) (r : UnitRun) (w h : Nat) (col : DWord) (tile : Nat) (splats : List (List Word)) (j : Nat) :
    Except Met (State × UnitRun) :=
  let px := tile % tilesAcross w * 16 + j % 16
  let py := tile / tilesAcross w * 16 + j / 16
  if w ≤ px ∨ h ≤ py then .ok (s, r)
  else
    let c := splats.foldl (fun (c : Blend) k => c.splat px py k) {}
    let bytes := [c.r, c.g, c.b, c.t].flatMap fun x => leBytes x.toNat 4
    match g.wr s none false (col + BitVec.ofNat 64 (16 * (py * w + px))) bytes with
    | .error e => .error e
    | .ok t => .ok (g.invalid t c.inv, { r with count := r.count + 1 })

/-- A step: first the tiles are read, then pixels are stored, 256 a tile. -/
def splatStep (g : Engine) (s : State) (r : UnitRun) (bind : CaskBind) (w h : Nat) (col : DWord) (tiles : List Nat)
    (got : List (Nat × List (List Word))) : Except Met (State × UnitRun) :=
  let n := tiles.length
  if r.done < n then
    let t := tiles.getD r.done 0
    (readTile s g bind t).map fun es => (s, { r with job := .splat bind w h col tiles ((t, es) :: got) })
  else
    let i := r.done - n
    let t := tiles.getD (i / 256) 0
    let es := match got.find? fun e => e.1 == t with
      | some e => e.2
      | none => []
    splatPixel g s r w h col t es (i % 256)

/-! ### Path segments (R287, R288) -/

/-- A polynomial with integer coefficients, lowest first, at n / d: numerator and denominator. -/
def polyAt (n : Int) (d : Nat) : List Int → Int × Nat
  | [] => (0, 1)
  | c :: r =>
    let y := polyAt n d r
    (c * ((y.2 * d : Nat) : Int) + n * y.1, y.2 * d)

/-- A coordinate's polynomial from its control points. -/
def bezier : List Int → List Int
  | [a, b] => [a, b - a]
  | [a, b, c] => [a, 2 * (b - a), a - 2 * b + c]
  | [a, b, c, d] => [a, 3 * (b - a), 3 * (a - 2 * b + c), d - 3 * c + 3 * b - a]
  | p => p

def polyDeriv (p : List Int) : List Int := ((p.zip (List.range p.length)).map fun e => e.1 * (e.2 : Int)).drop 1
def polyMul (p q : List Int) : List Int :=
  (List.range (p.length + q.length - 1)).map fun n =>
    (List.range (n + 1)).foldl (fun (t : Int) i => t + p.getD i 0 * q.getD (n - i) 0) 0

/-- A parameter: numerator and denominator. -/
structure Param where
  n : Int
  d : Nat
deriving DecidableEq, Repr

def Param.lt (a b : Param) : Bool := decide (a.n * (b.d : Int) < b.n * (a.d : Int))
def Param.same (a b : Param) : Bool := a.n * (b.d : Int) == b.n * (a.d : Int)
/-- A quotient as a parameter, the denominator positive. -/
def Param.of (n d : Int) : Param := if d < 0 then { n := -n, d := d.natAbs } else { n, d := d.natAbs }
/-- It lies in (0, 1). -/
def Param.interior (a : Param) : Bool := decide (0 < a.n ∧ a.n < a.d)
/-- Place k of 2^20 between two parameters. -/
def Param.between (a b : Param) (k : Nat) : Param :=
  { n := a.n * (b.d : Int) * 2 ^ 20 + (b.n * (a.d : Int) - a.n * (b.d : Int)) * (k : Int), d := a.d * b.d * 2 ^ 20 }

/-- Bisection steps: the lower end of the final bracket, in steps of 2^-20 of the first. -/
def bisect (past : Nat → Bool) : Nat → Nat → Nat
  | 0, lo => lo
  | m + 1, lo => if past (lo + 2 ^ m) then bisect past m lo else bisect past m (lo + 2 ^ m)

def polySign (p : List Int) (t : Param) : Int := (polyAt t.n t.d p).1.sign

/-- The root of a cubic's derivative in a bracket, if there is one. -/
def bracketRoot (f : List Int) (a b : Param) : Option Param :=
  let sa := polySign f a
  let sb := polySign f b
  if sa ≠ 0 ∧ (sa = -sb ∨ (sb = 0 ∧ b.interior)) then
    some (a.between b (bisect (fun k => polySign f (a.between b k) != sa) 20 0))
  else none

/-- The roots in (0, 1) of a coordinate's derivative, at which the segment is split. -/
def splitRoots (f : List Int) : List Param :=
  match f with
  | [b, c] => if c = 0 then [] else [Param.of (-b) c].filter Param.interior
  | [_, b, c] =>
    let turn := if c = 0 then [] else [Param.of (-b) (2 * c)].filter Param.interior
    let ends := { n := 0, d := 1 } :: turn ++ [{ n := 1, d := 1 }]
    (ends.zip ends.tail).filterMap fun e => (bracketRoot f e.1 e.2).filter Param.interior
  | _ => []

def insertParam (t : Param) : List Param → List Param
  | [] => [t]
  | x :: r => if t.same x then x :: r else if t.lt x then t :: x :: r else x :: insertParam t r

/-- Split parameters from 0 to 1. -/
def pieceEnds (x y : List Int) : List Param :=
  (splitRoots (polyDeriv x) ++ splitRoots (polyDeriv y)).foldl (fun l t => insertParam t l) [{ n := 0, d := 1 }, { n := 1, d := 1 }]

/-- A coordinate in multiples of 2^-16. -/
def coord16 (p : List Int) (t : Param) : Int := let y := polyAt t.n t.d p; rneDiv (256 * y.1) y.2

/-- A point on a piece: its place in steps of 2^-20, and its rounded coordinates. -/
structure Mark where
  k : Nat
  x : Int
  y : Int
deriving DecidableEq, Repr

/-- The integers strictly between a coordinate's values at the ends of a piece, in the direction of travel. -/
def linesOf (p : List Int) (a b : Param) : List Int :=
  let u := polyAt a.n a.d p
  let v := polyAt b.n b.d p
  let up := decide (u.1 * (v.2 : Int) < v.1 * (u.2 : Int))
  let lo := if up then u else v
  let hi := if up then v else u
  let first := lo.1 / ((lo.2 * 256 : Nat) : Int) + 1
  let last := -((-hi.1) / ((hi.2 * 256 : Nat) : Int)) - 1
  let ls := (List.range (last + 1 - first).toNat).map fun (i : Nat) => first + (i : Int)
  if up then ls else ls.reverse

/-- Where a piece crosses a line, in steps of 2^-20. -/
def crossing (p : List Int) (a b : Param) (line : Int) : Nat :=
  let side (t : Param) : Int := let y := polyAt t.n t.d p; (y.1 - line * 256 * (y.2 : Int)).sign
  bisect (fun k => side (a.between b k) != side a) 20 0

def insertMark (m : Mark) : List Mark → List Mark
  | [] => [m]
  | x :: r => if m.k < x.k then m :: x :: r else x :: insertMark m r

/-- The marks of a piece: its ends and its crossings, x lines before y lines where both fall on one place. -/
def marksOf (x y : List Int) (a b : Param) : List Mark :=
  let xs := (linesOf x a b).map fun l => let k := crossing x a b l; Mark.mk k (65536 * l) (coord16 y (a.between b k))
  let ys := (linesOf y a b).map fun l => let k := crossing y a b l; Mark.mk k (coord16 x (a.between b k)) (65536 * l)
  let mid := (xs ++ ys).foldl (fun l m => insertMark m l) []
  Mark.mk 0 (coord16 x a) (coord16 y a) :: mid ++ [Mark.mk (2 ^ 20) (coord16 x b) (coord16 y b)]

/-- 60 times the antiderivative of (C − x) y′, for degrees to 5. -/
def areaPoly (x y : List Int) (c : Int) : List Int :=
  let p := polyMul ((256 * (c + 1) - x.headD 0) :: (x.drop 1).map (- ·)) (polyDeriv y)
  0 :: (p.zip (List.range p.length)).map fun e => e.1 * 60 / ((e.2 + 1 : Nat) : Int)

/-- An addition to a pixel: column, row, value. -/
abbrev Contribution := Int × Int × Int

/-- The direction in which a polynomial grows from one parameter to another. -/
def growth (p : List Int) (s t : Param) : Int :=
  let u := polyAt s.n s.d p
  let v := polyAt t.n t.d p
  (v.1 * (u.2 : Int) - u.1 * (v.2 : Int)).sign

/-- The contributions of a sub-piece between two marks of a piece (R288); `w` is the target's width. Its direction is that of its
rounded crossing coordinates, so that covers telescope, or of the curve where these are equal; y′ keeps the curve's sign in it. -/
def subPiece (x y : List Int) (a b : Param) (w : Nat) (m n : Mark) : List Contribution :=
  let c := min m.x n.x / 65536
  let r := min m.y n.y / 65536
  let q := areaPoly x y c
  let s := a.between b m.k
  let t := a.between b n.k
  let u := polyAt s.n s.d q
  let v := polyAt t.n t.d q
  let e := growth y s t
  let d := if n.y = m.y then e else (n.y - m.y).sign
  let area := rneDiv (e * (v.1 * (u.2 : Int) - u.1 * (v.2 : Int))) (60 * (u.2 * v.2))
  let cover := ((n.y - m.y).natAbs : Int)
  let from_ := if c < 0 then 0 else (c + 1).toNat
  if d = 0 then []
  else (if 0 ≤ c then [(c, r, d * area)] else []) ++ (List.range (w - from_)).map fun (i : Nat) => (((from_ + i : Nat) : Int), r, d * cover)

def piece (x y : List Int) (w : Nat) (a b : Param) : List Contribution :=
  let ms := marksOf x y a b
  (ms.zip ms.tail).flatMap fun e => subPiece x y a b w e.1 e.2

/-- The contributions of a segment with control points in 256ths that fall in a target of `w` by `h`. -/
def segment (pts : List Pt) (w h : Nat) : List (Nat × Nat × Word) :=
  let x := bezier (pts.map (·.x))
  let y := bezier (pts.map (·.y))
  let ends := pieceEnds x y
  ((ends.zip ends.tail).flatMap fun e => piece x y w e.1 e.2).filterMap fun c =>
    if 0 ≤ c.1 ∧ c.1 < (w : Int) ∧ 0 ≤ c.2.1 ∧ c.2.1 < (h : Int) then some (c.1.toNat, c.2.1.toNat, BitVec.ofInt 32 c.2.2) else none

/-- The points of a form. -/
def SegKind.points : SegKind → Nat | .line => 2 | .quad => 3 | .cubic => 4

/-- A list of words as points; none where one is out of range. -/
def snapAll : List Word → Option (List Pt)
  | x :: y :: r =>
    match snap x, snap y, snapAll r with
    | some a, some b, some ps => some ({ x := a, y := b } :: ps)
    | _, _, _ => none
  | _ => some []

def execPseg (k : SegKind) (g : Guard) (xt : BitVec 8) (a : BitVec 8) (tok : BitVec 3) : State → Host.Outcome State Fault Refusal :=
  issue { guard := g, roles := vecOnly, reads := vBlock a.toNat 8 } fun x =>
    if x.exec = 0 then { s := x.s }
    else
      match x.s.descriptor x.b.ctx x.id xt.toNat with
      | none => x.fail .tdescFormat 0
      | some d =>
        if tdFmt d ≠ 7 ∨ tdRank d ≠ 2 then x.fail .tdescFormat 0
        else
          let lanes := (lanesOf (x.actors false)).map fun l =>
            (l, snapAll ((List.range (2 * SegKind.points k)).map fun i => x.b.vAt (a.toNat + i) l))
          let adds := lanes.flatMap fun e => match e.2 with
            | some ps => (segment ps (tdExtent d 0) (tdExtent d 1)).map fun c => (e.1, c.1, c.2.1, c.2.2)
            | none => []
          let s1 := if lanes.any fun e => e.2.isNone then x.s.onBunch x.id fun b => { b with fpStat := b.fpStat ||| flagINV } else x.s
          { s := x.toRaster s1 tok { job := .seg d adds, lane := lowest x.exec } [] }

/-- One contribution: an indivisible addition (R288). -/
def segStep (g : Engine) (s : State) (d : Desc) (c : Nat × Nat × Nat × Word) : Except Met State :=
  let a := BitVec.ofInt 64 ((tdBase d : Int) + 4 * tdPos d [(c.2.1 : Int), (c.2.2.1 : Int)])
  match enginePlace s g.core g.pad g.ctx (some (tdLayout d)) false a 4 .write with
  | .error e => .error e
  | .ok p =>
    if s.poisoned p 4 then .error (.eccUncorrectable, a)
    else if s.unreachable g.core p || g.held s false p true then .error (.linkDown, a)
    else .ok ((((s.ready_ p).countStore g.core g.bunch p a 4).addAt p 4 c.2.2.2.toNat).fillTlb g.core g.ctx a)

/-! ### Coverage (R289, R334) -/

/-- The resolved value of an accumulator, in 65,536ths. -/
def resolve (eo : Bool) (n : Word) : Nat :=
  if eo then (n.toInt - 131072 * rneDiv n.toInt 131072).natAbs else min n.toInt.natAbs 65536

/-- v in a destination's format. -/
def coverBits (f v : Nat) : Nat := if f = 8 then (rneDiv (v * 255 : Nat) 65536).toNat else (convNum f (.fin false v (-16)) 0 false).bits

/-- One element of a region, row by row. -/
def coverStep (g : Engine) (s : State) (i : Nat) (src dst : Desc) (eo clr : Bool) (x0 y0 w : Word) : Except Met State :=
  let idx : List Int := [x0.toInt + ((i % w.toNat : Nat) : Int), y0.toInt + ((i / w.toNat : Nat) : Int)]
  let l := some (tdLayout src)
  let a := BitVec.ofInt 64 ((tdBase src : Int) + 4 * tdPos src idx)
  let value : Except Met Nat :=
    if tdIn src idx then g.rd s l false a 4
    else if tdBounds src = 1 then .ok 0
    else .error (.tdescBounds, BitVec.ofInt 64 (tdPos src idx))
  match value with
  | .error e => .error e
  | .ok n =>
    let v : Carried := { bits := coverBits (tdFmt dst) (resolve eo (BitVec.ofNat 32 n)) }
    match g.store s { job := .lanes 0 false false [], origin := { bundle := 0, slot := 0 } } dst false idx i v with
    | .error e => .error e
    | .ok (t, _) => if clr && tdIn src idx then g.wr t l false a (leBytes 0 4) else .ok t

def execCovr (eo clr : Bool) (g : Guard) (d a : BitVec 8) (b : BitVec 6) (tok : BitVec 3) : State → Host.Outcome State Fault Refusal :=
  issue { guard := g, roles := vecOnly, uniform := true, reads := kBlock b.toNat 4 } fun x =>
    if !x.on then { s := x.s }
    else
      match x.s.descriptor x.b.ctx x.id a.toNat, x.s.descriptor x.b.ctx x.id d.toNat with
      | some src, some dst =>
        if tdRank src ≠ 2 ∨ tdRank dst ≠ 2 ∨ tdFmt src ≠ 7 ∨ !(tdFmt dst == 8 || tdFmt dst == 1 || tdFmt dst == 0) then x.fail .tdescFormat 0
        else
          let k (i : Nat) : Word := x.kAt (b.toNat + i)
          { s := x.toRaster x.s tok { job := .cover src dst eo clr (k 0) (k 1) (k 2) (k 3), lane := lowest x.exec } [] }
      | _, _ => x.fail .tdescFormat 0

/-! ### Running the unit's work -/

/-- Steps of a splat, segment or coverage job; the others are one action. -/
def UnitJob.total : UnitJob → Nat
  | .splat _ _ _ _ tiles _ => 257 * tiles.length
  | .seg _ adds => adds.length
  | .cover _ _ _ _ _ _ w h => w.toNat * h.toNat
  | _ => 0

def unitStep (g : Engine) (s : State) (r : UnitRun) : Except Met (State × UnitRun) :=
  match r.job with
  | .splat bind w h col tiles got => splatStep g s r bind w h col tiles got
  | .seg d adds =>
    match adds[r.done]? with
    | some c => (segStep g s d c).map fun t => (t, r)
    | none => .ok (s, r)
  | .cover src dst eo clr x0 y0 w _ => (coverStep g s r.done src dst eo clr x0 y0 w).map fun t => (t, r)
  | _ => .ok (s, r)

/-- The lane that a fault names. -/
def UnitRun.faultLane (r : UnitRun) : Nat :=
  match r.job with
  | .seg _ adds => ((adds[r.done]?).map (·.1)).getD r.lane
  | _ => r.lane

/-- At most `n` steps; the work stops at the element that faults (R186), or that a link holds back. -/
def unitGo (g : Engine) : Nat → State → UnitRun → State × UnitRun
  | 0, s, r => (s, r)
  | n + 1, s, r =>
    if r.fault.isSome || r.job.total ≤ r.done then (s, r)
    else
      match unitStep g s r with
      | .ok (t, q) => unitGo g n t { q with done := r.done + 1 }
      | .error e =>
        (s, if g.waits s e then r else { r with fault := some { lane := r.faultLane, cause := e.1, addr := e.2, kind := .engine } })

def execPrimSplat (g : Guard) (d a b : BitVec 6) (c : BitVec 4) (tok : BitVec 3) : State → Host.Outcome State Fault Refusal :=
  issue { guard := g, roles := vecOnly, uniform := true, reads := kBlock a.toNat 2 ++ kBlock b.toNat 2, writes := [.k d.toNat] } fun x =>
    if !x.on then { s := x.s }
    else
      match x.rasterRecord b with
      | .error e => x.fail e.1 e.2 .read
      | .ok r =>
        match x.s.caskSlot x.b.ctx x.id c.toNat with
        | none => x.fail .caskStale 0 .engine
        | some bind =>
          if !splatCaskOk bind.desc then x.fail .tdescFormat 0
          else
            let w := rrWm1 r + 1
            let h := rrHm1 r + 1
            let tiles := splatTiles w h (x.kAt a.toNat).toNat (x.kAt (a.toNat + 1)).toNat
            let run : UnitRun := { job := .splat bind w h (rrCol r) tiles [], lane := lowest x.exec }
            -- the cask is read at issue
            let y := unitGo (x.b.engine x.id) tiles.length x.s run
            { s := x.toRaster y.1 tok y.2 [x.kWrite d.toNat 0] }

end Sys2Proof.Machine
end

