-- ==== Sys2Proof/Machine/Units.lean ====
section
/-! DEFINITION. Units that work between instructions: token completions (R69), suspensions (R186), the raster unit's order (R279,
R281), blocked full/empty accesses (R113), commons banks (R16), cooper units (R19), row walkers (R119), fence points (R148, R294). -/

namespace Sys2Proof.Machine

/-! ### Work of the raster unit and the ring writer -/

/-- Work that may go on: its context runs, and it is not suspended. That of a bunch that has been swapped out goes on too (log entry
32). -/
def State.unitOf (s : State) (id op : Nat) : Option (Bunch × TokOp × UnitRun) :=
  match Store.find s.bunches id with
  | none => none
  | some b =>
    match b.ops.find? (fun o => o.id == op) with
    | none => none
    | some o =>
      match o.job with
      | .unit r => if r.fault.isSome || !s.ctxRuns b.ctx then none else some (b, o, r)
      | _ => none

/-- An instruction that arrived at a raster unit earlier holds back one of bunch `id` of a context issued by split `entry` (R279). One
of a context that does not run holds back nothing, and a suspended one neither another context nor its own bunch's handler, which may
have to end the suspension (log entry 32). -/
def State.holdsBack (s : State) (ctx id entry : Nat) (e : RasterEntry) : Bool :=
  match Store.find s.bunches e.bunch with
  | none => false
  | some b =>
    match b.ops.find? (fun o => o.id == e.op) with
    | none => false
    | some o => if e.bunch = id then !(o.suspended && decide (4 ≤ entry)) else s.ctxRuns b.ctx && (!o.suspended || b.ctx == ctx)

/-- It is this instruction's turn at its raster unit (R279). -/
def State.rasterTurn (s : State) (ctx id : Nat) (o : TokOp) : Bool :=
  match s.raster.find? (fun e => e.bunch == id && e.op == o.id) with
  | none => true
  | some x => !((s.raster.takeWhile fun e => e != x).filter fun e => e.cellar == x.cellar).any (s.holdsBack ctx id o.entry)

/-- Posts of a bunch to one ring are made in program order (R359). -/
def Bunch.postTurn (b : Bunch) (o : TokOp) (ring : Nat) : Bool :=
  !(b.ops.takeWhile fun q => q.id != o.id).any fun q => !(q.suspended && decide (4 ≤ o.entry)) && match q.job with
    | .unit r => match r.job with
      | .post n _ _ => n == ring
      | _ => false
    | _ => false

/-- How the work of an instruction ends. -/
inductive UnitEnd
  | complete (s : State) (ws : List Word)
  | suspend (s : State) (r : UnitRun)
  /-- The quad queue is full (R281), or a link holds back an access (R291, R292). -/
  | hold

/-- The status for a TARGET that names no such launch (R281). -/
def noTarget : Word := 0xFFFFFFFF

/-- PRIM.close counts (R281, R384). -/
def State.closePrims (s : State) (ctx cellar : Nat) (seq : Word) : State × Word :=
  match s.target ctx cellar seq with
  | none => (s, noTarget)
  | some (n, l) =>
    let c := Store.get 0 l.closes cellar
    if c < l.shareOf cellar then (s.setLaunch n { l with closes := Store.insert l.closes cellar (c + 1) }, 0) else (s, noTarget)

/-- Do an instruction's work. A post that SKIP passes over is not made, and its status is a free value (log entry 18). -/
def State.unitEnd (s : State) (id : Nat) (b : Bunch) (r : UnitRun) : UnitEnd :=
  let cellar := cellarOf b.core
  match r.job with
  | .prim seq quads total inv =>
    match s.target b.ctx cellar seq with
    | none => .complete s [noTarget]
    | some (n, l) =>
      if quads.length ≤ l.quadRoom cellar then
        .complete ((b.engine id).invalid (s.setLaunch n (l.pushQuads cellar quads)) inv) [BitVec.ofNat 32 total]
      else .hold
  | .close seq => let y := s.closePrims b.ctx cellar seq; .complete y.1 [y.2]
  | .post ring record flush =>
    if r.done ≠ 0 then .complete (s.usedFree 1) [(s.freeValue 0).setWidth 32]
    else
      let y := s.post b.core b.ctx ring record flush
      match y.2 with
      | .error e => .suspend y.1 { r with fault := some { lane := r.lane, cause := e.1, addr := e.2, kind := .engine } }
      | .ok w => .complete y.1 [w]
  | _ =>
    let y := unitGo (b.engine id) (r.job.total - r.done) s r
    if y.2.fault.isSome then .suspend y.1 y.2
    else if y.2.job.total ≤ y.2.done then .complete y.1 [BitVec.ofNat 32 y.2.count]
    else .hold

/-- The end of work whose turn it is. -/
def State.unitDone (s : State) (id op : Nat) : Option UnitEnd :=
  match s.unitOf id op with
  | none => none
  | some (b, o, r) =>
    let turn := match r.job with
      | .post n _ _ => b.postTurn o n
      | _ => s.rasterTurn b.ctx id o
    if turn then some (s.unitEnd id b r) else none

/-- TOKEN_COMPLETION (R69): the results are written, and the operation holds its token no longer. -/
def execTokenCompletion (bunch op : Nat) (s : State) : Host.Outcome State Fault Refusal :=
  match Store.find s.bunches bunch with
  | none => .refused (.eventNotEnabled "TOKEN_COMPLETION")
  | some b =>
    match b.ops.find? (fun o => o.id == op) with
    | none => .refused (.eventNotEnabled "TOKEN_COMPLETION")
    | some o =>
      match o.job with
      | .ready => .next (s.completeOp bunch op)
      | .walks ids =>
        if s.walks.any fun w => ids.contains w.id then .refused (.eventNotEnabled "TOKEN_COMPLETION") else .next (s.completeOp bunch op)
      | .unit _ =>
        match s.unitDone bunch op with
        | some (.complete t ws) =>
          let u := (t.finishOp bunch op ws).completeOp bunch op
          .next { u with raster := u.raster.filter fun e => !(e.bunch == bunch && e.op == op) }
        | _ => .refused (.eventNotEnabled "TOKEN_COMPLETION")
      | _ => .refused (.eventNotEnabled "TOKEN_COMPLETION")

/-- COPY_FAULT_SUSPEND (R186): a copy, or the work of a raster or ring instruction, stops at the element that faults. -/
def execCopyFaultSuspend (bunch op : Nat) (s : State) : Host.Outcome State Fault Refusal :=
  match s.copySuspended bunch op with
  | some t => .next t
  | none =>
    match s.unitDone bunch op with
    | some (.suspend t r) => .next (t.onBunch bunch fun b => b.setJob op (.unit r))
    | _ => .refused (.eventNotEnabled "COPY_FAULT_SUSPEND")

/-- The PRIM of a cellar that is being delivered, with room for at least one quad of it. -/
def State.delivering (s : State) (cellar : Nat) : Option (Nat × TokOp × UnitRun × Nat × Launch) :=
  (s.raster.filter fun e => e.cellar == cellar).findSome? fun e =>
    match s.unitOf e.bunch e.op with
    | none => none
    | some (b, o, r) =>
      match r.job with
      | .prim seq quads _ _ =>
        match s.target b.ctx cellar seq with
        | none => none
        | some (n, l) => if s.rasterTurn b.ctx e.bunch o && !quads.isEmpty && l.quadRoom cellar != 0 then some (e.bunch, o, r, n, l) else none
      | _ => none

/-- PRIM_DELIVERY_RESUME (R281): as many quads are queued as there is room for. -/
def execPrimDeliveryResume (cellar : Nat) (s : State) : Host.Outcome State Fault Refusal :=
  match s.delivering cellar with
  | some (id, o, r, n, l) =>
    match r.job with
    | .prim seq quads total inv =>
      let k := l.quadRoom cellar
      let t := s.setLaunch n (l.pushQuads cellar (quads.take k))
      .next (t.onBunch id fun b => b.setJob o.id (.unit { r with job := .prim seq (quads.drop k) total inv }))
    | _ => .refused (.eventNotEnabled "PRIM_DELIVERY_RESUME")
  | none => .refused (.eventNotEnabled "PRIM_DELIVERY_RESUME")

/-! ### Blocked full/empty accesses (R113) -/

/-- A split that waits in an .fe access: its bunch, what waits, and where it goes on. -/
def State.feWaiter (s : State) (id e : Nat) : Option (Bunch × Split × FeWait × Pc) :=
  match s.live id e with
  | none => none
  | some (b, sp) =>
    match sp.state with
    | .blocked (.granules w) (some next) => some (b, sp, w, next)
    | _ => none

/-- The lanes whose granules are in the state awaited: full for a load, empty for a store. -/
def State.feReady (s : State) (b : Bunch) (w : FeWait) : List FeLane :=
  w.work.filter fun q => s.isFull b.pad (q.off / 16) == w.dst.isSome

/-- A bunch in a lower slot of the same team can perform on one of the granules (R113). -/
def State.feYields (s : State) (id : Nat) (b : Bunch) (ls : List FeLane) : Bool :=
  s.bunches.any fun x => x.1 != id && x.2.pad == b.pad && x.2.team.isSome && decide (x.2.slot.getD 16 < b.slot.getD 16) &&
    x.2.splits.any fun f => match s.feWaiter x.1 f.1 with
      | some (c, _, w, _) => (s.feReady c w).any fun q => ls.any fun r => r.off / 16 == q.off / 16
      | none => false

/-- Register writes are added to an operation; once its last lane has performed it waits no longer. -/
def Bunch.feWrites (b : Bunch) (op : Option Nat) (ws : List RegWrite) (last : Bool) : Bunch :=
  { b with ops := b.ops.map fun (o : TokOp) =>
      if some o.id == op then { o with writes := o.writes ++ ws, job := if last then .ready else o.job } else o }

/-- The end of an .fe access (R113): the split goes on, an acquire where it loads; or it takes the faults that were held back. -/
def State.feEnd (s : State) (id e : Nat) (sp : Split) (w : FeWait) (next : Pc) (fs : List LaneFault) : State :=
  if fs.isEmpty then
    let t := s.onBunch id fun b => b.wake e { sp with heldFaults := [] } (some next) s.now
    if w.dst.isSome then t.acquires id else t
  else
    (s.onBunch id fun b => b.setSplit e { sp with state := .ready, stallToks := 0, heldFaults := [] }).takeFault id e fs sp.pc next
      sp.stallToks none sp.notBefore

/-- The lanes that can perform do so; the split waits on for the others. -/
def State.fePerform (s : State) (id e : Nat) (b : Bunch) (sp : Split) (w : FeWait) (next : Pc) : State :=
  let ready := s.feReady b w
  let order := match w.dst with
    | some _ => ready
    | none => (s.laneOrder (maskOf (ready.map (·.lane)))).flatMap fun l => ready.filter fun q => q.lane == l
  let y := s.feDo b id w order
  let left := w.work.filter fun q => !ready.contains q
  let fs := sp.heldFaults ++ y.faults
  let t := y.s.onBunch id fun q => q.feWrites w.op y.writes left.isEmpty
  if left.isEmpty then t.feEnd id e sp w next fs
  else t.onBunch id fun q => q.setSplit e { sp with state := .blocked (.granules { w with work := left }) (some next), heldFaults := fs }

/-- FE_WAIT_END (R113): a blocked access performs in the lanes that can, unless a lower slot goes first. -/
def execFeWaitEnd (bunch split : Nat) (s : State) : Host.Outcome State Fault Refusal :=
  match s.feWaiter bunch split with
  | none => .refused (.eventNotEnabled "FE_WAIT_END")
  | some (b, sp, w, next) =>
    if (s.feReady b w).isEmpty || s.feYields bunch b (s.feReady b w) then .refused (.eventNotEnabled "FE_WAIT_END")
    else .next (s.fePerform bunch split b sp w next)

/-! ### Banks, cooper units, walkers, fence points -/

/-- The oldest operation that reached a bank before this cycle. -/
def State.bankNext (s : State) (unit : Nat) : Option UnitReq := s.bankQ.find? fun r => r.unit == unit && decide (r.at_ < s.now)

/-- COMMONS_BANK_OPERATION (R16). -/
def execCommonsBankOperation (cellar bank : Nat) (s : State) : Host.Outcome State Fault Refusal :=
  match s.bankNext (64 * cellar + bank) with
  | none => .refused (.eventNotEnabled "COMMONS_BANK_OPERATION")
  | some r => .next (({ s with bankQ := s.bankQ.erase r }).bankAct r)

/-- An insert from another device: an atomic action at its home; one that faults there changes nothing (R19, R180). -/
def State.caskInsert (s : State) (ctx : Nat) (desc key offset : DWord) (cols : List Word) : State :=
  match (openCask s feCore ctx desc).bind fun c => (c.allHomes s).bind fun hs => c.addNow s hs key.toNat offset.toNat (cols.map (·.toNat)) with
  | .ok d => d.s
  | .error _ => s

/-- A split that waits for a part of its cask operation. -/
def State.caskWaiter (s : State) (id e : Nat) : Option (Bunch × Split × CaskWait × Option Pc) :=
  match s.live id e with
  | none => none
  | some (b, sp) =>
    match sp.state with
    | .blocked (.cask w) resume => some (b, sp, w, resume)
    | _ => none

/-- A unit can execute a request now: one insert or remove a clock (R19), and a part of a split that is live. -/
def State.cooperCan (s : State) (r : UnitReq) : Bool :=
  match r.op with
  | .caskPart id e => (s.caskWaiter id e).isSome
  | _ => decide (Store.get 0 s.cooperTo r.unit ≤ s.now)

/-- COOPER_OPERATION (R19): the first request that the row's unit can execute. -/
def execCooperOperation (cellar row : Nat) (s : State) : Host.Outcome State Fault Refusal :=
  match s.cooperQ.find? (fun r => r.unit == 3 * cellar + row && s.cooperCan r) with
  | none => .refused (.eventNotEnabled "COOPER_OPERATION")
  | some r =>
    let t := { s with cooperQ := s.cooperQ.erase r }
    match r.op with
    | .caskInsert ctx desc key offset cols => .next ((t.caskInsert ctx desc key offset cols).occupy [r.unit])
    | .caskPart id e =>
      match t.caskWaiter id e with
      | some (b, sp, w, resume) => .next (t.nextPart id e sp resume w b)
      | none => .next t
    | _ => .next t

/-- The walks of a row that are in flight: the first 64 (R15). -/
def State.inFlight (s : State) (row : Nat) : List Walk := (s.walks.filter fun w => estateRow w.core == row).take 64

/-- PAGE_WALK (R15, R119): a walk of the core that its row's walker has in flight ends, and what it read goes to the TLBs. -/
def execPageWalk (core : Nat) (s : State) : Host.Outcome State Fault Refusal :=
  match (s.inFlight (estateRow core)).find? fun w => w.core == core with
  | none => .refused (.eventNotEnabled "PAGE_WALK")
  | some w => .next (({ s with walks := s.walks.erase w }).fillTlb w.core w.ctx w.va)

/-- The point's downstream can acknowledge: the base die, or a port that is up (R148, R291). -/
def State.acks (s : State) (f : FenceCount) : Bool := f.point == 16 || ((s.port f.point).state == 2 && !s.portGone f.point)

/-- FENCE_POINT_ACK (R148): every store of the source that a fence point has passed on is acknowledged. -/
def execFencePointAck (source : Nat) (s : State) : Host.Outcome State Fault Refusal :=
  match s.fence.find? fun f => f.src == source && s.acks f with
  | some f => .next { s with fence := s.fence.erase f }
  | none => .refused (.eventNotEnabled "FENCE_POINT_ACK")

/-- The splits of a bunch whose store waits at a fence point that has a counter free. -/
def State.counterFreed (s : State) (id : Nat) : List (Nat × Split × Option Pc) :=
  match Store.find s.bunches id with
  | none => []
  | some b => b.splits.filterMap fun e =>
      match e.2.state with
      | .blocked (.port p none) resume => if s.fenceRoom p id then some (e.1, e.2, resume) else none
      | _ => none

/-- FENCE_COUNTER_FREE (R294): a store of the source that waited for a counter issues. -/
def execFenceCounterFree (source : Nat) (s : State) : Host.Outcome State Fault Refusal :=
  match s.counterFreed source with
  | [] => .refused (.eventNotEnabled "FENCE_COUNTER_FREE")
  | (e, sp, resume) :: _ => .next (s.onBunch source fun b => b.wake e sp resume s.now)

end Sys2Proof.Machine
end

