-- ==== Sys2Proof/Machine/Integrity.lean ====
section
/-! DEFINITION. Integrity (R74, R275, R298, R299), power and temperature (R305, R306), boot and attestation (R303, R304), estate links
(R291, R292, R295, R296), and what other agents do to the device (R200, R292, R297). -/

namespace Sys2Proof.Machine

/-! ### Error log (R298) -/

/-- A record's 32 bytes: four 64-bit numbers (log entry 29). -/
def ErrRec.bytes (e : ErrRec) : List Byte := leBytes e.seq 8 ++ leBytes e.unit 8 ++ leBytes e.loc 8 ++ leBytes e.syndrome 8

/-- Add a record to the log, and to its ring in device memory. -/
def State.logError (s : State) (corrected : Bool) (unit loc syndrome : Nat) : State :=
  let e : ErrRec := { seq := s.errLog.length, corrected, unit, loc, syndrome }
  let t := if s.esize = 0 then s else { s with mem := s.mem.writeBytes (s.ebase + 32 * (e.seq % s.esize)) e.bytes }
  { t with errLog := t.errLog ++ [e] }

/-- A corrected error: vector 2 when their count reaches the threshold (R297). -/
def State.corrected (s : State) (unit loc syndrome : Nat) : State :=
  let t := s.logError true unit loc syndrome
  if t.errThresh ≠ 0 ∧ (t.errLog.filter (·.corrected)).length = t.errThresh then t.raise 0 2 else t

/-- CORRECTED_ERROR. -/
def execCorrectedError (unit loc syndrome : Nat) (s : State) : Host.Outcome State Fault Refusal :=
  if s.answers && !s.fatal then .next (s.corrected unit loc syndrome) else .refused (.eventNotEnabled "CORRECTED_ERROR")

/-- Unit and location of a poisoned unit, as the log gives them (log entry 29). -/
def poisonLoc : PoisonUnit → Nat × Nat
  | .mem h a => (h, a)
  | .commons c o => (512 + c, o)
  | .granule c g => (1024 + c, g)
  | .reg b l n => (8192 + b, 32 * n + l)
  | .acc c t r col => (16384 + c, accKey t r col)

/-- POISON_ERROR (R275). -/
def execPoisonError (u : PoisonUnit) (s : State) : Host.Outcome State Fault Refusal :=
  if !s.answers || s.fatal then .refused (.eventNotEnabled "POISON_ERROR")
  else
    let t := s.logError false (poisonLoc u).1 (poisonLoc u).2 0
    match u with
    | .reg b l n =>
      match Store.find s.bunches b with
      | none => .refused (.eventNotEnabled "POISON_ERROR")
      | some x => .next (if x.poison.contains (n, l) then t else t.setBunch b { x with poison := (n, l) :: x.poison })
    | _ => .next (if s.poison.contains u then t else { t with poison := u :: t.poison })

/-- CODE_PARITY_REFETCH (R74): a block whose code cannot be fetched again is left empty. -/
def execCodeParityRefetch (core block : Nat) (s : State) : Host.Outcome State Fault Refusal :=
  let c := s.core core
  match c.blocks[block]? with
  | none => .refused (.eventNotEnabled "CODE_PARITY_REFETCH")
  | some k =>
    let bytes := match fetchBlock s core k.ctx k.va with
      | .ok bs => bs
      | .error _ => ([], [])
    let t := s.setCore core { c with blocks := c.blocks.set block { k with bytes := bytes.1, bad := bytes.2, stale := false, fetched := some s.now } }
    .next (t.corrected (1024 + core) block 0)

/-! ### Fatal errors (R299) -/

/-- Context registers of the dump, in the order of their numbers. -/
def dumpCsrs : List Nat := 0x040 :: (List.range 14).map (0x050 + ·)

/-- The newest `n` entries of a list. -/
def newest (n : Nat) (xs : List α) : List α := xs.drop (xs.length - n)

/-- The 32 bytes of a queue's registers, and the 256 bytes that the dump holds of a context. -/
def Queue.bytes (q : Queue) : List Byte := leBytes q.word0.toNat 8 ++ leBytes 0 8 ++ leBytes q.word2.toNat 8 ++ leBytes q.word3.toNat 8
def Context.bytes (c : Context) : List Byte := padTo 256 (dumpCsrs.map fun n => leBytes ((c.csr n).getD 0).toNat 8).flatten

/-- The dump's parts with their offsets: every queue and every context. -/
def State.dumpParts (s : State) : List (Nat × List Byte) :=
  [(0, padTo 4096 (s.dump.map fun n => leBytes n 8).flatten),
   (0x1000, ((List.range 512).map fun n => (s.queue n).bytes).flatten),
   (0x5000, ((List.range 64).map fun n => (s.ctx n).bytes).flatten)]
  ++ [(0x100000, ((newest 524288 s.journal).map JEntry.bytes).flatten), (0x1100000, ((newest 524288 s.errLog).map ErrRec.bytes).flatten)]

/-- Write the dump into its region, where one is reserved. -/
def State.writeDump (s : State) : State :=
  match s.dbase with
  | none => s
  | some k => { s with mem := s.dumpParts.foldl (fun m p => m.writeBytes (k + p.1) p.2) s.mem }

/-- A fatal error: every context stops, the dump is written, vector 1 is raised. -/
def State.fatalError (s : State) (cause cellar unit : Nat) : State :=
  let s1 := ((List.range 64).filter fun c => (s.ctx c).created).foldl (fun t c => t.stopContext c 5 0) s
  let s2 := s1.jset (fun e => decide (e.state ≤ 1)) 4
  let s3 := { s2 with fatal := true, dump := [cause, cellar, unit, s.now, s.fwVersion, if s.ckptState = 1 then 1 else 0]
                      ckptState := if s.ckptState = 1 then 0 else s.ckptState }
  s3.writeDump.raise 0 1

/-- FATAL_ERROR. -/
def execFatalError (cause cellar unit : Nat) (s : State) : Host.Outcome State Fault Refusal :=
  if s.answers && !s.fatal then .next (s.fatalError cause cellar unit) else .refused (.eventNotEnabled "FATAL_ERROR")

/-! ### Temperature and power (R306) -/

/-- The cause number of a thermal trip in the dump (log entry 29). -/
def thermalCause : Nat := 115

/-- THERMAL_TRIP: the junction has reached 115 °C. -/
def execThermalTrip (cellar : Nat) (s : State) : Host.Outcome State Fault Refusal :=
  if s.answers && !s.fatal then .next (({ s with celsius := max s.celsius 115 }).fatalError thermalCause cellar 0)
  else .refused (.eventNotEnabled "THERMAL_TRIP")

/-- The next DVFS step: slower over the cap or at the limit of 105 °C; else faster, or as it is, as choice 39 says. -/
def State.nextStep (s : State) (watts celsius : Nat) : Nat :=
  if s.cap < watts ∨ 105 ≤ celsius then min (s.dvfs + 1) 4
  else if s.choice 39 = 1 then s.dvfs
  else s.dvfs - 1

/-- DVFS_MEASUREMENT: what firmware measures, management can read over I3C (R297). -/
def execDvfsMeasurement (watts celsius : Nat) (s : State) : Host.Outcome State Fault Refusal :=
  if !s.answers || s.fatal || s.power == .d3hot then .refused (.eventNotEnabled "DVFS_MEASUREMENT")
  else if 115 ≤ celsius then .next (({ s with watts, celsius }).fatalError thermalCause 0 0)
  else
    let n := s.nextStep watts celsius
    .next { s with watts, celsius, dvfs := n, halved := n == 4 || decide (105 ≤ celsius)
                   stallTo := if n = s.dvfs then s.stallTo else s.now + 2 * cyclesPerUs n }

/-- POWER_CAP_SET: the cap lies in [400, 1600] W. Before the ready report and in recovery the device takes no setting (R303, R304). -/
def execPowerCapSet (watts : Nat) (s : State) : Host.Outcome State Fault Refusal :=
  if 400 ≤ watts ∧ watts ≤ 1600 ∧ s.answers then .next { s with cap := watts } else .refused (.eventNotEnabled "POWER_CAP_SET")

/-! ### Boot, reset and attestation (R303 to R305) -/

/-- Host memory, which neither reset nor loss of power touches. -/
def hostMem (m : Memory) : Memory := Store.keep (fun k => k / 2 ^ 51 == 256) m

/-- The measurements of a boot (R303): stage i extends register i mod 7, and the fuse state register 7 (log entry 43). -/
def bootMeasures (stages : List (List Nat)) : List Nat :=
  let zero : List Nat := List.replicate 8 0
  let m := (stages.zip (List.range stages.length)).foldl (fun m e => m.modify (e.2 % 7) fun r => extended r e.1) zero
  m.modify 7 fun r => extended r Config.fuses

/-- The device boots an image: it is measured, the identity key is derived from the first measurement and signs the attestation key's
certificate, and the device reports ready (R303, R304). -/
def State.boot (s : State) : State :=
  let m := bootMeasures s.flash
  let key := Config.identityKey (m.headD 0)
  { s with measures := m, identity := key, cert := Config.certificate key, recovery := false, ready := true }

/-- Device memory, where the device's number changes. -/
def rehome (old new : Nat) (m : Memory) : Memory :=
  if old = new then m
  else (Store.keep (fun k => k / 2 ^ 54 == old) m).foldl (fun t e => t.write (e.1 - old * 2 ^ 54 + new * 2 ^ 54) e.2)
    (Store.keep (fun k => k / 2 ^ 54 != old) m)

/-- What the model keeps over a reset: its own counters and inputs, the fused counter, the flash, and the image on a tier. -/
def State.over (s : State) (mem : Memory) : State :=
  { State.reset with
    now := s.now, time := s.time, choices := s.choices, inputs := s.inputs, freeCount := s.freeCount, nextId := s.nextId, mem
    fwVersion := s.fwVersion, rollback := s.rollback, flash := s.flash, image := s.image }

/-- DEVICE_RESET (R304): estate firmware assigns the device's number at link-up; 0 of 1 outside any estate (R12). The flash's image
passes unless its version is below the anti-rollback counter, or, as choice 39 says, its signature fails; then the device is in
recovery. -/
def execDeviceReset (device devices : Nat) (s : State) : Host.Outcome State Fault Refusal :=
  if device < devices ∧ devices ≤ 32 then
    let mem := if s.power = .d3cold then hostMem s.mem else rehome s.device device s.mem
    let t := { s.over mem with device, devices }
    .next (if s.choice 39 = 1 ∨ s.fwVersion < s.rollback then { t with recovery := true, ready := false } else t.boot)
  else .refused (.eventNotEnabled "DEVICE_RESET")

/-- D3COLD_ENTRY (R305): clocks, memory and context state are lost. -/
def execD3coldEntry (s : State) : Host.Outcome State Fault Refusal :=
  if s.power = .d3cold then .refused (.eventNotEnabled "D3COLD_ENTRY")
  else .next { s.over (hostMem s.mem) with power := .d3cold, ready := false }

/-- RECOVERY_IMAGE_LOAD (R303): an image that fails a check is not run. -/
def execRecoveryImageLoad (version : Nat) (signed : Bool) (stages : List (List Nat)) (s : State) : Host.Outcome State Fault Refusal :=
  if !s.recovery then .refused (.eventNotEnabled "RECOVERY_IMAGE_LOAD")
  else if signed && decide (s.rollback ≤ version) then .next ({ s with fwVersion := version, flash := stages }).boot
  else .next s

/-- Bytes 0 to 299 of a quote. -/
def State.quoteBody (s : State) (nonce : Nat) : List Byte :=
  leBytes nonce 32 ++ (s.measures.map fun m => leBytes m 32).flatten ++ leBytes s.fwVersion 4 ++ leBytes s.rollback 4
    ++ leBytes (Config.formFactor.toNat + Config.stepping.toNat * 2 ^ 8) 4

/-- QUOTE_REQUEST (R303): the body and its signature of 17,088 bytes. -/
def execQuoteRequest (nonce : Nat) (s : State) : Host.Outcome State Fault Refusal :=
  if s.answers then
    let body := (s.quoteBody nonce).map BitVec.toNat
    .next { s with quotes := s.quotes ++ [body ++ (leBytes (Config.signature body) 17088).map BitVec.toNat] }
  else .refused (.eventNotEnabled "QUOTE_REQUEST")

/-! ### Estate links (R291, R292, R295, R296) -/

/-- The replay streak of a port reaches 64: it retrains (R291). -/
def Port.replay (p : Port) : Port :=
  let q := { p with replays := p.replays + 1, crcErr := p.crcErr + 1, streak := p.streak + 1 }
  if 64 ≤ q.streak then { q with state := 1, streak := 0 } else q

/-- A die-to-die link that is in use: link l of die d is number 16 + 4 d + l (R298). -/
def State.dieLink (s : State) (n : Nat) : Bool := decide (16 ≤ n) && decide (n < 48) && !s.unitRetired n

/-- FLIT_REPLAY of an estate port, or of a die-to-die link: after 64 replays in a row it retrains (R291, R298). -/
def execFlitReplay (port : Nat) (s : State) : Host.Outcome State Fault Refusal :=
  let p := s.port port
  if (port < 16 ∧ p.state = 2) ∨ (s.dieLink port ∧ p.state ≠ 1) then .next (s.setPort port p.replay)
  else .refused (.eventNotEnabled "FLIT_REPLAY")

/-- LINK_XOFF and LINK_XON: the peer's signals for a class (R292). -/
def execLinkXoff (port cls : Nat) (s : State) : Host.Outcome State Fault Refusal :=
  let p := s.port port
  if port < 16 ∧ cls < 8 ∧ p.state = 2 ∧ !p.xoff.getLsbD cls then .next (s.setPort port { p with xoff := p.xoff ||| (1 <<< cls) })
  else .refused (.eventNotEnabled "LINK_XOFF")
def execLinkXon (port cls : Nat) (s : State) : Host.Outcome State Fault Refusal :=
  let p := s.port port
  if port < 16 ∧ cls < 8 ∧ p.state = 2 ∧ p.xoff.getLsbD cls then .next (s.setPort port { p with xoff := p.xoff &&& ~~~((1 : BitVec 8) <<< cls) })
  else .refused (.eventNotEnabled "LINK_XON")

/-- PORT_LANE_LOSS: the port retrains with the lanes it has, or is down from now on (R291, R296). -/
def execPortLaneLoss (port lanes : Nat) (s : State) : Host.Outcome State Fault Refusal :=
  let p := s.port port
  if port < 16 ∧ (p.state = 1 ∨ p.state = 2) ∧ lanes < p.lanes then
    .next (s.setPort port { p with lanes, state := if lanes = 0 then 0 else 1, downAt := s.time })
  else .refused (.eventNotEnabled "PORT_LANE_LOSS")

/-- PORT_TRAINING_COMPLETE: the port is up and sends its replay buffer again; losses that have been reported are over (R296). So does
a die-to-die link that retrained. -/
def execPortTrainingComplete (port lanes peerDev peerPort : Nat) (s : State) : Host.Outcome State Fault Refusal :=
  let p := s.port port
  if port < 16 ∧ p.state < 2 ∧ 1 ≤ lanes ∧ lanes ≤ 8 ∧ peerDev < 256 ∧ peerPort < 16 then
    let t := s.setPort port { p with lanes, peerDev, peerPort, state := 2, streak := 0, xoff := 0 }
    .next { t with retiredLinks := t.retiredLinks.filter (· != port), lost := t.lost.filter fun l => !l.told }
  else if s.dieLink port ∧ p.state = 1 then .next (s.setPort port { p with state := 0, streak := 0 })
  else .refused (.eventNotEnabled "PORT_TRAINING_COMPLETE")

/-- The stores of a fence counter have no route left (R296, R298): a port's where no port is left, the base die's where the die that
they came from or go to is cut off. -/
def State.lostAt (s : State) (f : FenceCount) : Bool :=
  if f.point < 16 then s.noRoute
  else
    match Store.find s.bunches f.src with
    | none => false
    | some b => s.dieCut (cellarOf b.core % 8) || match locate s b.core b.ctx f.va .write with
        | .ok x => s.placeCut x.place
        | .error _ => false

/-- The stores that still count against a fence point and have no route left are lost (R296); each of their bytes holds its old value or
the stored one, as choice 42 says. -/
def State.loseStores (s : State) : State :=
  let gone := s.fence.filter s.lostAt
  let olds := gone.flatMap (·.olds)
  { s with lost := s.lost ++ gone.map fun f => LostStore.mk f.src f.va false
           fence := s.fence.filter fun f => !s.lostAt f
           mem := (olds.zip (List.range olds.length)).foldl (fun m e => if (s.choice 42).testBit e.2 then m.write e.1.1 e.1.2 else m) s.mem }

/-- PORT_DOWN_TIMEOUT: the port has been down for 10 ms (R296). -/
def execPortDownTimeout (port : Nat) (s : State) : Host.Outcome State Fault Refusal :=
  let p := s.port port
  if port < 16 ∧ p.state = 0 ∧ !s.retiredLinks.contains port ∧ p.downAt + 10000 * microsecond ≤ s.time then
    .next ({ s with retiredLinks := port :: s.retiredLinks }).loseStores
  else .refused (.eventNotEnabled "PORT_DOWN_TIMEOUT")

/-- PORT_RETIRE: firmware retires a port, or, by the numbers from 16 on, a die-to-die link or a core (R64, R296; log entry 36). -/
def execPortRetire (port : Nat) (s : State) : Host.Outcome State Fault Refusal :=
  if port < 192 ∧ !s.unitRetired port then
    .next (if port < 16 then s.setPort port { s.port port with state := 3 } else { s with retiredUnits := (port - 16) :: s.retiredUnits }).loseStores
  else .refused (.eventNotEnabled "PORT_RETIRE")

/-! ### Other agents -/

/-- The end of an access. -/
def extEnd : ExtAccess → Nat
  | .read a n => a + n
  | .write a bs => a + bs.length
  | .add a _ => a + 4
  | .depd a _ => a + 16
/-- The start of an access. -/
def extStart : ExtAccess → Nat
  | .read a _ => a
  | .write a _ => a
  | .add a _ => a
  | .depd a _ => a
/-- Bytes of a memory stack (R10). -/
def stackBytes : Nat := 96 * 2 ^ 30

/-- A host write while a checkpoint runs: each 32-byte unit that it touches is in the image with its old or its new contents, as choice
41 says (R300). -/
def State.imageWrite (s : State) (home : Nat) : ExtAccess → State
  | .write a bs =>
    let unit (i : Nat) : Nat := (a + i) / 32 - a / 32
    { s with image := s.image.map fun m =>
        Image.mk m.tier ((bs.zip (List.range bs.length)).foldl (fun t e =>
          if (s.choice 41).testBit (unit e.2) then t.write ((Place.dev home (a + e.2)).key) e.1 else t) m.mem) m.tags m.whole }
  | _ => s

/-- HOST_CXL_MEM_ACCESS (R297): device memory of this device, or, as home 256, the host's own memory (log entry 30). A fatal error
bars commands only (R299). -/
def execHostCxlMemAccess (home : Nat) (acc : ExtAccess) (s : State) : Host.Outcome State Fault Refusal :=
  if home = 256 ∧ extEnd acc ≤ 2 ^ 51 then .next (s.extAt .host acc)
  else if s.answers && s.ownCellar home && s.power != .d3hot && decide (extEnd acc ≤ stackBytes) then
    let t := s.extAt (.dev home) acc
    .next (if s.ckptState = 1 then t.imageWrite home acc else t)
  else .refused (.eventNotEnabled "HOST_CXL_MEM_ACCESS")

/-- The row whose cooper unit an insert reaches: its home's (R19, R159). -/
def State.insertRow (s : State) (ctx : Nat) (desc key : DWord) : Option Nat :=
  match (openCask s feCore ctx desc).bind fun c => c.allHomes s with
  | .ok hs =>
    let h := hs.getD (homeOf hs key.toNat) 0
    some (3 * hmCellar h + hmRow h)
  | .error _ => none

/-- A port has delivered a flit: its replay streak ends (R291). -/
def State.delivered (s : State) (port : Nat) : State := s.setPort port { s.port port with streak := 0 }

/-- GARM of another device on a graph that runs here (R241). -/
def State.rearmRun (s : State) (ctx : Nat) (va : DWord) (node : Nat) : State :=
  match s.graphs.find? fun q => q.ctx == ctx && q.va == va && !q.waits with
  | some q => if q.nodes.length ≤ node then s else s.setRun (q.rearm node)
  | none => s

/-- ESTATE_INBOUND_REQUEST (R114, R200, R291, R292): by a port that is up. -/
def execEstateInboundRequest (port : Nat) (r : Inbound) (s : State) : Host.Outcome State Fault Refusal :=
  let none_ : Host.Outcome State Fault Refusal := .refused (.eventNotEnabled "ESTATE_INBOUND_REQUEST")
  let t := s.delivered port
  if !s.answers || s.fatal || s.power == .d3hot || decide (16 ≤ port) || (s.port port).state != 2 then none_
  else
    match r with
    | .mem home acc => if s.ownCellar home && decide (extEnd acc ≤ stackBytes) then .next (t.extAt (.dev home) acc) else none_
    | .commons cellar acc =>
      if s.ownCellar cellar && decide (extEnd acc ≤ 2 ^ 25) then .next (t.toBank cellar (extStart acc) 19 (.ext cellar acc)) else none_
    | .caskInsert ctx desc key offset cols =>
      match s.insertRow ctx desc key with
      | some unit =>
        if s.ownCellar (unit / 3) then
          .next { t with cooperQ := reachBank { unit, src := feCore, at_ := t.now, op := .caskInsert ctx desc key offset cols } t.cooperQ }
        else none_
      | none => none_
    | .payload home addr len body =>
      match expandPayload len body with
      | some bs => if s.ownCellar home && decide (addr + len ≤ stackBytes) then .next (t.writeAt (.dev home addr) bs) else none_
      | none => none_
    | .record ctx task va => if s.hasCtx ctx then .next { t.wake with depRecs := t.depRecs ++ [{ ctx, task, va }] } else none_
    | .rearm ctx va node => if s.hasCtx ctx then .next (t.rearmRun ctx va node) else none_
    | .upcall ctx raw va => if s.hasCtx ctx then .next { t.wake with upcalls := t.upcalls ++ [{ ctx, raw, va }] } else none_

end Sys2Proof.Machine
end

