-- ==== Sys2Proof/Machine/Events.lean ====
section
/-! DEFINITION. The operations that the device's agents may do next by themselves, each with a Bool that says whether it is due: a due
one comes before the next cycle unless the choices say otherwise (log entry 2). -/

namespace Sys2Proof.Machine

/-- An event whose condition holds is due. -/
def State.due (s : State) (i : Instr) (f : State → Host.Outcome State Fault Refusal) : List (Bool × Instr) :=
  match f s with
  | .next _ => [(true, i)]
  | _ => []

/-- An event that may happen at any time its condition holds. -/
def State.maybe (s : State) (i : Instr) (f : State → Host.Outcome State Fault Refusal) : List (Bool × Instr) :=
  match f s with
  | .next _ => [(false, i)]
  | _ => []

/-! ### Bunches -/

/-- The end of a token operation: due once its nominal latency is over. -/
def State.opEvents (s : State) (id : Nat) (o : TokOp) : List (Bool × Instr) :=
  let late := decide (o.due ≤ s.now)
  let pick (xs : List (Bool × Instr)) : List (Bool × Instr) := xs.map fun e => (late, e.2)
  match o.job with
  | .ready => [(late, .tokenCompletion id o.id)]
  | .held => []
  | .walks _ => pick (s.due (.tokenCompletion id o.id) (execTokenCompletion id o.id))
  | .waits => []
  | .copy _ => pick (s.due (.copyComplete id o.id) (execCopyComplete id o.id) ++ s.due (.copyFaultSuspend id o.id) (execCopyFaultSuspend id o.id))
  | .unit _ => pick (s.due (.tokenCompletion id o.id) (execTokenCompletion id o.id) ++ s.due (.copyFaultSuspend id o.id) (execCopyFaultSuspend id o.id))

/-- What may end a split's wait. -/
def State.splitEvents (s : State) (id e : Nat) (sp : Split) : List (Bool × Instr) :=
  (match sp.state with
    | .blocked (.refill _) _ => s.due (.rfillWaitEnd id e) (execRfillWaitEnd id e)
    | .blocked .drain _ => s.due (.drainWaitEnd id e) (execDrainWaitEnd id e)
    | .blocked (.granules _) _ => s.due (.feWaitEnd id e) (execFeWaitEnd id e)
    | .blocked (.counter ..) _ => s.due (.cwaitSatisfied id e) (execCwaitSatisfied id e)
    | _ => []) ++ s.due (.splitAgeWatchdog id e) (execSplitAgeWatchdog id e)

def State.fusions (s : State) (id : Nat) (b : Bunch) : List (Bool × Instr) :=
  b.splits.flatMap fun e => b.splits.flatMap fun f =>
    if e.1 < f.1 then s.maybe (.opportunisticFusion id e.1 f.1) (execOpportunisticFusion id e.1 f.1) else []

/-- Placement of a saved bunch: the first free slot of a core. -/
def State.savedEvents (s : State) (id : Nat) (b : Bunch) : List (Bool × Instr) :=
  if !s.wantsSlot b then []
  else if b.team.isSome then
    (s.freeSlots b.core).head?.toList.flatMap fun n => s.due (.swappedBunchPlacement id n) (execSwappedBunchPlacement id n)
  else
    match s.launch b.launch with
    | none => []
    | some l => (List.range 18).flatMap fun i =>
      let c := 18 * trCellar l.raw + i
      (s.freeSlots c).head?.toList.flatMap fun n => s.due (.savedBunchPlacement id c n) (execSavedBunchPlacement id c n)

def State.bunchEvents (s : State) (id : Nat) (b : Bunch) : List (Bool × Instr) :=
  (b.ops.flatMap (s.opEvents id)) ++ (b.splits.flatMap fun e => s.splitEvents id e.1 e.2) ++ s.savedEvents id b
    ++ s.due (.launchDeadlineWatchdog id) (execLaunchDeadlineWatchdog id) ++ s.due (.bunchRetire id) (execBunchRetire id)
    ++ s.due (.cwaitSwapOut id) (execCwaitSwapOut id) ++ s.fusions id b

/-! ### The front end -/

/-- The command a queue's turn brings. -/
def commandOf (q kind : Nat) : Instr :=
  match kind with
  | 2 => .taskCommand q
  | 3 => .copyCommand q
  | 4 => .waitCommand q
  | 5 => .signalCommand q
  | 6 => .graphCommand q
  | 7 => .ringPostCommand q
  | _ => .launchCommand q

/-- The one acceptance that R224 chooses. -/
def State.acceptEvents (s : State) : List (Bool × Instr) :=
  match s.acceptNext with
  | none => []
  | some (b, _) =>
    match b.pick with
    | .queue q => [(true, commandOf q (s.kindAt (Store.get {} s.queues q)))]
    | .pending o => [(true, .pendingLaunchAccept o)]
    | .dep _ => [(true, .dependenceRecordAccept)]
    | .graph _ _ => [(true, .graphRecordAccept)]
    | .upcall _ => [(true, .pagerUpcallAccept)]

def State.launchEvents (s : State) (id : Nat) (l : Launch) : List (Bool × Instr) :=
  (l.cores.flatMap fun c =>
    if l.task then s.due (.taskPlacement id c) (execTaskPlacement id c) else s.due (.teamPlacement id c) (execTeamPlacement id c))
  ++ s.due (.launchComplete id) (execLaunchComplete id)

def State.frontEvents (s : State) : List (Bool × Instr) :=
  s.acceptEvents
  ++ (s.queues.flatMap fun e => if e.2.wait.isSome then s.due (.waitSatisfied e.1) (execWaitSatisfied e.1) else [])
  ++ (s.agents.flatMap fun a => s.due (.copyAgentComplete a.id) (execCopyAgentComplete a.id))
  ++ (s.launches.flatMap fun e => s.launchEvents e.1 e.2)
  ++ (s.graphs.flatMap fun g => g.state.flatMap fun e => s.due (.graphNodeComplete g.id e.1) (execGraphNodeComplete g.id e.1))

/-! ### Contexts -/

def State.ctxEvents (s : State) (n : Nat) (c : Context) : List (Bool × Instr) :=
  (c.rings.flatMap fun e => s.due (.ringCoalesceTimer n e.1) (execRingCoalesceTimer n e.1))
  ++ (c.futures.flatMap fun e =>
      if e.2.status = 0 ∧ e.2.seen ≠ 0 then [(true, .futureStatusWrite n e.1 e.2.seen)] else [])
  ++ s.due (.preemptTimeout n) (execPreemptTimeout n) ++ s.due (.contextResume n) (execContextResume n)

/-! ### Units -/

def State.arrayEvents (s : State) (core : Nat) : List (Bool × Instr) :=
  s.due (.matrixCommandStart core) (execMatrixCommandStart core) ++ s.due (.matrixCommandComplete core) (execMatrixCommandComplete core)
    ++ s.due (.matrixFaultSuspend core) (execMatrixFaultSuspend core)

def State.unitEvents (s : State) : List (Bool × Instr) :=
  (s.cores.flatMap fun e => if e.2.mrun.isSome || !e.2.mqueue.isEmpty then s.arrayEvents e.1 else [])
  ++ ((s.bankQ.map (·.unit)).eraseDups.flatMap fun u => s.due (.commonsBankOperation (u / 64) (u % 64)) (execCommonsBankOperation (u / 64) (u % 64)))
  ++ ((s.cooperQ.map (·.unit)).eraseDups.flatMap fun u => s.due (.cooperOperation (u / 3) (u % 3)) (execCooperOperation (u / 3) (u % 3)))
  ++ ((s.walks.map (·.core)).eraseDups.flatMap fun c => s.due (.pageWalk c) (execPageWalk c))
  ++ (s.bunches.flatMap fun e => s.due (.fenceCounterFree e.1) (execFenceCounterFree e.1))
  ++ ((s.fence.map (·.src)).eraseDups.flatMap fun n => s.maybe (.fencePointAck n) (execFencePointAck n))
  ++ ((s.raster.map (·.cellar)).eraseDups.flatMap fun c => s.due (.primDeliveryResume c) (execPrimDeliveryResume c))
  ++ (s.ports.flatMap fun e => s.due (.portDownTimeout e.1) (execPortDownTimeout e.1))
  ++ s.due .selfRefreshTimer execSelfRefreshTimer ++ s.maybe .checkpointEnd execCheckpointEnd ++ s.maybe .d0IdleEntry execD0IdleEntry

/-- Every operation that may come next. -/
def State.events (s : State) : List (Bool × Instr) :=
  (s.bunches.flatMap fun e => s.bunchEvents e.1 e.2) ++ s.unitEvents ++ s.frontEvents ++ s.ctxs.flatMap fun e => s.ctxEvents e.1 e.2

/-! ### Engines between instructions -/

/-- An engine that may go a step ahead: a copy, or the array of a core. -/
inductive Ahead
  | copy (bunch op : Nat)
  | array (core : Nat)
deriving DecidableEq, Repr

def State.engines (s : State) : List Ahead :=
  (s.bunches.flatMap fun e => e.2.ops.filterMap fun o => o.copy?.map fun _ => .copy e.1 o.id)
    ++ s.cores.filterMap fun e => if e.2.mrun.isSome then some (.array e.1) else none

/-- One step of the engine that choice 36 names, 0 for none (R150). -/
def State.engineAhead (s : State) : State :=
  if s.choice 36 = 0 then s
  else
    match s.engines[(s.choice 36 - 1) % max 1 s.engines.length]? with
    | some (.copy b o) => s.copyAhead b o
    | some (.array c) => s.matAhead c
    | none => s

end Sys2Proof.Machine
end

