-- ==== Sys2Proof/Machine/Integer.lean ====
section
/-! DEFINITION. The integer and address instructions (R317, R330 to R333, R360 to R366, R372, R374, R377, R378, R382, R388, R389). -/

namespace Sys2Proof.Machine

/-! ### Arithmetic -/

/-- Clamp to INT32 (R361). -/
def clampS (x : Int) : Word := BitVec.ofInt 32 (max (-2 ^ 31) (min (2 ^ 31 - 1) x))
/-- Clamp to UINT32 (R361). -/
def clampU (x : Int) : Word := BitVec.ofInt 32 (max 0 (min (2 ^ 32 - 1) x))

def addOp (m : AddMode) (a b : Word) : Word :=
  match m with
  | .wrap => a + b
  | .sat => clampS (a.toInt + b.toInt)
  | .usat => clampU ((a.toNat : Int) + b.toNat)
def subOp (m : AddMode) (a b : Word) : Word :=
  match m with
  | .wrap => a - b
  | .sat => clampS (a.toInt - b.toInt)
  | .usat => clampU ((a.toNat : Int) - b.toNat)
/-- The reading of a base word's M as .sat. -/
def satMode (sat : Bool) : AddMode := if sat then .sat else .wrap

/-- Bits 63:32 of the exact product (R366). -/
def mulHigh (u : Bool) (a b : Word) : Word :=
  if u then BitVec.ofNat 32 (a.toNat * b.toNat / 2 ^ 32) else BitVec.ofInt 32 (a.toInt * b.toInt / 2 ^ 32)
def minOp (u : Bool) (a b : Word) : Word := if (if u then a.ult b else a.slt b) then a else b
def maxOp (u : Bool) (a b : Word) : Word := if (if u then a.ult b else a.slt b) then b else a
/-- |A| mod 2^32; 0x8000_0000 gives 0x7FFF_FFFF under .sat (R360). -/
def absOp (sat : Bool) (a : Word) : Word :=
  if sat && a == 0x80000000 then 0x7FFFFFFF else if a.msb then -a else a
def lopFn (op : LopOp) (a b : Word) : Word :=
  match op with
  | .and => a &&& b
  | .or => a ||| b
  | .xor => a ^^^ b
  | .andn => a &&& ~~~b
  | .not => ~~~a
/-- SHF (R389): n = B AND 63. -/
def shfFn (op : ShfOp) (a b c : Word) : Word :=
  let n := (b &&& 63).toNat
  match op with
  | .l => a <<< n
  | .r => a >>> n
  | .ra => a.sshiftRight n
  | .f => lowHalf (pairOf a c >>> n)
/-- A field of WIDTH = wm1 + 1 bits at POS (R317). -/
def bfxFn (s : Bool) (pos wm1 : BitVec 5) (a : Word) : Word :=
  let w := wm1.toNat + 1
  let x := (a >>> pos.toNat).setWidth w
  if s then x.signExtend 32 else x.setWidth 32
def bfiFn (pos wm1 : BitVec 5) (a b : Word) : Word :=
  let m : Word := BitVec.ofNat 32 ((2 ^ (wm1.toNat + 1) - 1) * 2 ^ pos.toNat)
  (a &&& ~~~m) ||| ((b <<< pos.toNat) &&& m)
def popcFn (a : Word) : Word := BitVec.ofNat 32 (laneCount a)
/-- Zero bits above the highest set bit; 32 for 0 (R333). -/
def clzFn (a : Word) : Word :=
  match ((List.range 32).find? fun i => a.getLsbD (31 - i)) with
  | some i => BitVec.ofNat 32 i
  | none => 32
/-- LEA (R372). -/
def leaFn (s : Bool) (shift : Nat) (a : DWord) (b : Word) : DWord :=
  a + ((if s then b.signExtend 64 else b.setWidth 64) <<< shift)
def icmpFn (c : ICond) (u : Bool) (a b : Word) : Bool :=
  match c with
  | .eq => a == b
  | .ne => a != b
  | .lt => if u then a.ult b else a.slt b
  | .le => if u then a.ule b else a.sle b
  | .gt => if u then b.ult a else b.slt a
  | .ge => if u then b.ule a else b.sle a
/-- A byte read as INT8 or UINT8. -/
def byteInt (u : Bool) (w : Word) (i : Nat) : Int :=
  let x : BitVec 8 := bits w (8 * i) 8
  if u then x.toNat else x.toInt
/-- IDP4 (R363). -/
def idp4Fn (ua ub sat : Bool) (a b c : Word) : Word :=
  let s := (List.range 4).foldl (fun t i => t + byteInt ua a i * byteInt ub b i) c.toInt
  if sat then clampS s else BitVec.ofInt 32 s
/-- IMAD.wide (R364). -/
def madWide (u : Bool) (a b : Word) (c : DWord) : DWord :=
  (if u then BitVec.ofNat 64 (a.toNat * b.toNat) else BitVec.ofInt 64 (a.toInt * b.toInt)) + c

/-! ### Meanings -/

def execIaddBase (sat : Bool) (f : Base2) := alu2 allRoles 4 f.alu (addOp (satMode sat))
def execIadd (m : AddMode) (f : Alu2) := alu2 allRoles 4 f (addOp m)
def execIsubBase (sat : Bool) (f : Base2) := alu2 allRoles 4 f.alu (subOp (satMode sat))
def execIsub (m : AddMode) (f : Alu2) := alu2 allRoles 4 f (subOp m)
def execImulBase (f : Base2) := alu2 allRoles 6 f.alu (· * ·)
def execImul (f : Alu2) := alu2 allRoles 6 f (· * ·)
def execImulhBase (u : Bool) (f : Base2) := alu2 allRoles 6 f.alu (mulHigh u)
def execImulh (u : Bool) (f : Alu2) := alu2 allRoles 6 f (mulHigh u)
def execIminBase (f : Base2) := alu2 allRoles 4 f.alu (minOp false)
def execImin (u : Bool) (f : Alu2) := alu2 allRoles 4 f (minOp u)
def execImaxBase (f : Base2) := alu2 allRoles 4 f.alu (maxOp false)
def execImax (u : Bool) (f : Alu2) := alu2 allRoles 4 f (maxOp u)
def execIabsBase (sat : Bool) (f : Base1) := alu1 allRoles 4 f.alu (absOp sat)
def execIabs (sat : Bool) (f : Alu1) := alu1 allRoles 4 f (absOp sat)
/-- M selects .or (R54, R374). -/
def execLopBase (or : Bool) (f : Base2) := alu2 allRoles 4 f.alu (lopFn (if or then .or else .and))
/-- .not has no operand B (R374). -/
def execLop (op : LopOp) (g : Guard) (d : VK) (a : Src) (b : Option SrcL) :=
  alu2 allRoles 4 { g, d, a, b := b.getD (.src (.imm 0)) } (lopFn op)
/-- M selects .r (R54, R389). -/
def execShfBase (r : Bool) (f : Base2) := alu2 allRoles 4 f.alu fun a b => shfFn (if r then .r else .l) a b 0
def execShf (op : ShfOp) (g : Guard) (d : VK) (a : Src) (b : SrcL) (c : Option Src) :=
  alu3 allRoles 4 { g, d, a, b, c := c.getD (.imm 0) } (shfFn op)
def execBfx (s : Bool) (pos wm1 : BitVec 5) (f : Alu1) := alu1 allRoles 4 f (bfxFn s pos wm1)
def execBfi (pos wm1 : BitVec 5) (g : Guard) (d : VK) (a b : Src) :=
  alu2 allRoles 4 { g, d, a, b := .src b } (bfiFn pos wm1)
def execPopcBase (f : Base1) := alu1 allRoles 4 f.alu popcFn
def execPopc (f : Alu1) := alu1 allRoles 4 f popcFn
def execClzBase (f : Base1) := alu1 allRoles 4 f.alu clzFn
def execClz (f : Alu1) := alu1 allRoles 4 f clzFn
def execIcmp (c : ICond) (u : Bool) (f : Cmp) := cmp2 allRoles 4 f (icmpFn c u)
def execIdp4 (ua ub sat : Bool) (f : Alu3) := alu3 allRoles 8 f (idp4Fn ua ub sat)

/-- Under .wide the destination and C are pairs (R331, R364). -/
def execImad (m : MadMode) (f : Alu3) : State → Host.Outcome State Fault Refusal :=
  match m with
  | .low => alu3 allRoles 6 f fun a b c => a * b + c
  | _ =>
    issue { guard := f.g, roles := allRoles, uniform := f.d.isK, reads := f.a.regs ++ f.b.regs ++ f.c.regs 2
            writes := f.d.regs 2, lat := some 6 }
      fun x => x.answer (x.setPair f.d fun l => madWide (m == .wideU) (x.word f.a l) (x.wordL f.b l) (x.dword f.c l))

/-- LEA (R372): D and A are pairs. -/
def leaOp (s : Bool) (shift : Nat) (g : Guard) (d a : VK) (b : SrcL) : State → Host.Outcome State Fault Refusal :=
  issue { guard := g, roles := allRoles, uniform := d.isK, reads := a.regs 2 ++ b.regs, writes := d.regs 2, lat := some 4 }
    fun x => x.answer (x.setPair d fun l => leaFn s shift (x.vkPair a l) (x.wordL b l))
def execLeaBase (s : Bool) (f : Base2) :=
  leaOp s 0 (Guard.base f.pg) (.v (f.d.setWidth 8)) (.v (f.a.setWidth 8)) f.b.srcL
def execLea (s : Bool) (shift : BitVec 3) (g : Guard) (d a : VK) (b : SrcL) := leaOp s shift.toNat g d a b

/-- MOV (R377). -/
def movOp (wide : Bool) (g : Guard) (d : VK) (b : SrcL) : State → Host.Outcome State Fault Refusal :=
  let n := if wide then 2 else 1
  issue { guard := g, roles := allRoles, uniform := d.isK, reads := b.regs n, writes := d.regs n, lat := some 4 }
    fun x => x.answer (if wide then x.setPair d (x.dwordL b) else x.setVK d (x.wordL b))
def execMovBase (wide : Bool) (pg : BitVec 3) (d : BitVec 6) (b : BaseB) :=
  movOp wide (Guard.base pg) (.v (d.setWidth 8)) b.srcL
def execMov (wide : Bool) (g : Guard) (d : VK) (b : SrcL) := movOp wide g d b

/-- SEL (R388). -/
def execSel (wide : Bool) (g : Guard) (d : VK) (a : Src) (b : SrcL) (c : SelCond) : State → Host.Outcome State Fault Refusal :=
  let n := if wide then 2 else 1
  let cr : Reg := match c with
    | .p n => .p n.toNat
    | .k n => .k n.toNat
  issue { guard := g, roles := allRoles, uniform := d.isK, reads := a.regs n ++ b.regs n ++ [cr], writes := d.regs n, lat := some 4 }
    fun x =>
      let cond (l : Nat) : Bool := match c with
        | .p n => (x.b.pAt n.toNat).getLsbD l
        | .k n => x.kAt n.toNat != 0
      x.answer (if wide then x.setPair d fun l => if cond l then x.dword a l else x.dwordL b l
        else x.setVK d fun l => if cond l then x.word a l else x.wordL b l)

/-- MOVK (R378): one lane's value, by default the lowest lane's; a lane at or above WIDTH gives 0. -/
def execMovk (g : Guard) (d : BitVec 6) (a : BitVec 8) (lane : Option LaneNo) : State → Host.Outcome State Fault Refusal :=
  let lr : List Reg := match lane with
    | some (.k n) => [.k n.toNat]
    | _ => []
  let from_ (x : View) : Option Nat := match lane with
    | none => none
    | some (.k n) => some (x.kAt n.toNat).toNat
    | some (.imm n) => some n.toNat
  issue { guard := g, roles := noMatrix, uniform := true, reads := .v a.toNat :: lr, writes := [.k d.toNat], lat := some 4
          lane := from_ }
    fun x =>
      let l := (from_ x).getD (lowest x.lanes)
      x.answer (x.setVK (.k d) fun _ => if l < x.b.width then x.b.vAt a.toNat l else 0)

end Sys2Proof.Machine
end

