-- ==== Sys2Proof/Machine/Dispatch.lean ====
section
/-! DEFINITION. One arm per constructor of Instr: a direct call of its meaning. -/

namespace Sys2Proof.Machine

/-- The effect of an instruction or device operation. -/
def exec (i : Instr) (s : State) : Host.Outcome State Fault Refusal :=
  match i with
  | .nop => Sys2Proof.Machine.execNop s
  | .braBase pg off => Sys2Proof.Machine.execBraBase pg off s
  | .bra g off => Sys2Proof.Machine.execBra g off s
  | .braD g off rc => Sys2Proof.Machine.execBraD g off rc s
  | .brx g a => Sys2Proof.Machine.execBrx g a s
  | .brxD g a b => Sys2Proof.Machine.execBrxD g a b s
  | .call g off => Sys2Proof.Machine.execCall g off s
  | .ret pg => Sys2Proof.Machine.execRet pg s
  | .exit pg => Sys2Proof.Machine.execExit pg s
  | .rfill map => Sys2Proof.Machine.execRfill map s
  | .drain => Sys2Proof.Machine.execDrain s
  | .yield pg => Sys2Proof.Machine.execYield pg s
  | .trap g code => Sys2Proof.Machine.execTrap g code s
  | .bkpt pg => Sys2Proof.Machine.execBkpt pg s
  | .cfetch g d seg tok => Sys2Proof.Machine.execCfetch g d seg tok s
  | .jmpf g off => Sys2Proof.Machine.execJmpf g off s
  | .eret => Sys2Proof.Machine.execEret s
  | .iaddBase sat f => Sys2Proof.Machine.execIaddBase sat f s
  | .iadd m f => Sys2Proof.Machine.execIadd m f s
  | .isubBase sat f => Sys2Proof.Machine.execIsubBase sat f s
  | .isub m f => Sys2Proof.Machine.execIsub m f s
  | .imulBase f => Sys2Proof.Machine.execImulBase f s
  | .imul f => Sys2Proof.Machine.execImul f s
  | .imulhBase u f => Sys2Proof.Machine.execImulhBase u f s
  | .imulh u f => Sys2Proof.Machine.execImulh u f s
  | .imad m f => Sys2Proof.Machine.execImad m f s
  | .iminBase f => Sys2Proof.Machine.execIminBase f s
  | .imin u f => Sys2Proof.Machine.execImin u f s
  | .imaxBase f => Sys2Proof.Machine.execImaxBase f s
  | .imax u f => Sys2Proof.Machine.execImax u f s
  | .iabsBase sat f => Sys2Proof.Machine.execIabsBase sat f s
  | .iabs sat f => Sys2Proof.Machine.execIabs sat f s
  | .lopBase or f => Sys2Proof.Machine.execLopBase or f s
  | .lop op g d a b => Sys2Proof.Machine.execLop op g d a b s
  | .shfBase r f => Sys2Proof.Machine.execShfBase r f s
  | .shf op g d a b c => Sys2Proof.Machine.execShf op g d a b c s
  | .bfx sgn pos wm1 f => Sys2Proof.Machine.execBfx sgn pos wm1 f s
  | .bfi pos wm1 g d a b => Sys2Proof.Machine.execBfi pos wm1 g d a b s
  | .popcBase f => Sys2Proof.Machine.execPopcBase f s
  | .popc f => Sys2Proof.Machine.execPopc f s
  | .clzBase f => Sys2Proof.Machine.execClzBase f s
  | .clz f => Sys2Proof.Machine.execClz f s
  | .leaBase sgn f => Sys2Proof.Machine.execLeaBase sgn f s
  | .lea sgn shift g d a b => Sys2Proof.Machine.execLea sgn shift g d a b s
  | .icmp c u f => Sys2Proof.Machine.execIcmp c u f s
  | .sel wide g d a b c => Sys2Proof.Machine.execSel wide g d a b c s
  | .movBase wide pg d b => Sys2Proof.Machine.execMovBase wide pg d b s
  | .mov wide g d b => Sys2Proof.Machine.execMov wide g d b s
  | .movk g d a lane => Sys2Proof.Machine.execMovk g d a lane s
  | .faddBase sat f => Sys2Proof.Machine.execFaddBase sat f s
  | .fadd sat f => Sys2Proof.Machine.execFadd sat f s
  | .fmulBase sat f => Sys2Proof.Machine.execFmulBase sat f s
  | .fmul sat f => Sys2Proof.Machine.execFmul sat f s
  | .ffma sat nega negc f => Sys2Proof.Machine.execFfma sat nega negc f s
  | .fminBase f => Sys2Proof.Machine.execFminBase f s
  | .fmin f => Sys2Proof.Machine.execFmin f s
  | .fmaxBase f => Sys2Proof.Machine.execFmaxBase f s
  | .fmax f => Sys2Proof.Machine.execFmax f s
  | .fcmp c f => Sys2Proof.Machine.execFcmp c f s
  | .ftrnRcpBase f => Sys2Proof.Machine.execFtrnRcpBase f s
  | .ftrn fn f => Sys2Proof.Machine.execFtrn fn f s
  | .pfma bf sat nega negc f => Sys2Proof.Machine.execPfma bf sat nega negc f s
  | .idp4 ua ub sat f => Sys2Proof.Machine.execIdp4 ua ub sat f s
  | .cvt sat src dst rm f => Sys2Proof.Machine.execCvt sat src dst rm f s
  | .frnd rm f => Sys2Proof.Machine.execFrnd rm f s
  | .vote op g d a => Sys2Proof.Machine.execVote op g d a s
  | .shfl op g d a b => Sys2Proof.Machine.execShfl op g d a b s
  | .bred op g d a => Sys2Proof.Machine.execBred op g d a s
  | .bscan op excl g d a => Sys2Proof.Machine.execBscan op excl g d a s
  | .matchl g d a => Sys2Proof.Machine.execMatchl g d a s
  | .qdif y g d a => Sys2Proof.Machine.execQdif y g d a s
  | .plop op g d a b => Sys2Proof.Machine.execPlop op g d a b s
  | .ld g sz acq sc d base off tok => Sys2Proof.Machine.execLd g sz acq sc d base off tok s
  | .st g sz rel sc base off b t => Sys2Proof.Machine.execSt g sz rel sc base off b t s
  | .lds g sz m d base off tok => Sys2Proof.Machine.execLds g sz m d base off tok s
  | .sts g sz m base off b t => Sys2Proof.Machine.execSts g sz m base off b t s
  | .ldc g sz acq sc d base off tok => Sys2Proof.Machine.execLdc g sz acq sc d base off tok s
  | .stc g sz rel sc base off b t => Sys2Proof.Machine.execStc g sz rel sc base off b t s
  | .ldk g sz acq sc d base off tok => Sys2Proof.Machine.execLdk g sz acq sc d base off tok s
  | .tld s32 g d x b fill tok => Sys2Proof.Machine.execTld s32 g d x b fill tok s
  | .pref l1 g base off t => Sys2Proof.Machine.execPref l1 g base off t s
  | .cctl op sc g a len off tok => Sys2Proof.Machine.execCctl op sc g a len off tok s
  | .atom op ord sc g d base off b tok => Sys2Proof.Machine.execAtom op ord sc g d base off b tok s
  | .atoms op ord sc g d base off b tok => Sys2Proof.Machine.execAtoms op ord sc g d base off b tok s
  | .atomc op ord sc g d base off b tok => Sys2Proof.Machine.execAtomc op ord sc g d base off b tok s
  | .red op rel sc g base off b t => Sys2Proof.Machine.execRed op rel sc g base off b t s
  | .fence sc g => Sys2Proof.Machine.execFence sc g s
  | .fenceOpnd g => Sys2Proof.Machine.execFenceOpnd g s
  | .bar g b n => Sys2Proof.Machine.execBar g b n s
  | .barArrive g b n => Sys2Proof.Machine.execBarArrive g b n s
  | .barWait g b => Sys2Proof.Machine.execBarWait g b s
  | .wtok g t => Sys2Proof.Machine.execWtok g t s
  | .mwait g mask => Sys2Proof.Machine.execMwait g mask s
  | .cpy dir sz crc g d a off tok => Sys2Proof.Machine.execCpy dir sz crc g d a off tok s
  | .cpya m spd sps x24 g d a b tok => Sys2Proof.Machine.execCpya m spd sps x24 g d a b tok s
  | .cpyg crc spd sps spi g d a b tok => Sys2Proof.Machine.execCpyg crc spd sps spi g d a b tok s
  | .cpys crc spd g d a b tok => Sys2Proof.Machine.execCpys crc spd g d a b tok s
  | .cpyq crc spd sps g d a b tok => Sys2Proof.Machine.execCpyq crc spd sps g d a b tok s
  | .cpyl crc spd sps prog g d a tok => Sys2Proof.Machine.execCpyl crc spd sps prog g d a tok s
  | .cpyx m sps route g d a b tok => Sys2Proof.Machine.execCpyx m sps route g d a b tok s
  | .wld sps g x b krows => Sys2Proof.Machine.execWld sps g x b krows s
  | .wswp g => Sys2Proof.Machine.execWswp g s
  | .mms m clr sps g t x b c rows promo trow => Sys2Proof.Machine.execMms m clr sps g t x b c rows promo trow s
  | .aprm g t => Sys2Proof.Machine.execAprm g t s
  | .aclr g t => Sys2Proof.Machine.execAclr g t s
  | .adrn bias spd g x t b rows trow tok => Sys2Proof.Machine.execAdrn bias spd g x t b rows trow tok s
  | .tdsc g x a off tok => Sys2Proof.Machine.execTdsc g x a off tok s
  | .tcod g tbl a off tok => Sys2Proof.Machine.execTcod g tbl a off tok s
  | .tsyn g => Sys2Proof.Machine.execTsyn g s
  | .tqry g d x sel tok => Sys2Proof.Machine.execTqry g d x sel tok s
  | .ckopn g c a off tok => Sys2Proof.Machine.execCkopn g c a off tok s
  | .ckcls g c tok => Sys2Proof.Machine.execCkcls g c tok s
  | .ckrak g d c tok => Sys2Proof.Machine.execCkrak g d c tok s
  | .ckcnt g d c tok => Sys2Proof.Machine.execCkcnt g d c tok s
  | .ckins now g d c b tok => Sys2Proof.Machine.execCkins now g d c b tok s
  | .ckrem g d c b tok => Sys2Proof.Machine.execCkrem g d c b tok s
  | .ckmov now g d c b tok => Sys2Proof.Machine.execCkmov now g d c b tok s
  | .ckitr m g j tok => Sys2Proof.Machine.execCkitr m g j tok s
  | .cknxt g d j n kc pf px map tok => Sys2Proof.Machine.execCknxt g d j n kc pf px map tok s
  | .ckpay g d c b map tok => Sys2Proof.Machine.execCkpay g d c b map tok s
  | .ckwr g d c b map tok => Sys2Proof.Machine.execCkwr g d c b map tok s
  | .dpst g d a b tok => Sys2Proof.Machine.execDpst g d a b tok s
  | .lnch g d a off tok => Sys2Proof.Machine.execLnch g d a off tok s
  | .task g d a off tok => Sys2Proof.Machine.execTask g d a off tok s
  | .depd g d a off tok => Sys2Proof.Machine.execDepd g d a off tok s
  | .cwait sc g d a off b tok => Sys2Proof.Machine.execCwait sc g d a off b tok s
  | .garm g d a off b tok => Sys2Proof.Machine.execGarm g d a off b tok s
  | .hpost g d ring b tok => Sys2Proof.Machine.execHpost g d ring b tok s
  | .hpostFlush g d ring tok => Sys2Proof.Machine.execHpostFlush g d ring tok s
  | .prim g d a b tok => Sys2Proof.Machine.execPrim g d a b tok s
  | .primSplat g d a b c tok => Sys2Proof.Machine.execPrimSplat g d a b c tok s
  | .primClose g d b tok => Sys2Proof.Machine.execPrimClose g d b tok s
  | .pseg k g x a tok => Sys2Proof.Machine.execPseg k g x a tok s
  | .covr eo clr g d a b tok => Sys2Proof.Machine.execCovr eo clr g d a b tok s
  | .csrr g d num => Sys2Proof.Machine.execCsrr g d num s
  | .csrw g b num => Sys2Proof.Machine.execCsrw g b num s
  | .hmap m g d a tok => Sys2Proof.Machine.execHmap m g d a tok s
  | .pgup g d a tok => Sys2Proof.Machine.execPgup g d a tok s
  | .finfo g d sel tok => Sys2Proof.Machine.execFinfo g d sel tok s
  | .fpStatClear bunch bits => Sys2Proof.Machine.execFpStatClear bunch bits s
  | .accPromoWrite ctx x => Sys2Proof.Machine.execAccPromoWrite ctx x s
  | .registerWrite fn ctx num x => Sys2Proof.Machine.execRegisterWrite fn ctx num x s
  | .queueDoorbell fn q tail => Sys2Proof.Machine.execQueueDoorbell fn q tail s
  | .hringBaseWrite fn ctx x => Sys2Proof.Machine.execHringBaseWrite fn ctx x s
  | .launchCommand q => Sys2Proof.Machine.execLaunchCommand q s
  | .taskCommand q => Sys2Proof.Machine.execTaskCommand q s
  | .copyCommand q => Sys2Proof.Machine.execCopyCommand q s
  | .copyAgentComplete idx => Sys2Proof.Machine.execCopyAgentComplete idx s
  | .waitCommand q => Sys2Proof.Machine.execWaitCommand q s
  | .waitSatisfied q => Sys2Proof.Machine.execWaitSatisfied q s
  | .signalCommand q => Sys2Proof.Machine.execSignalCommand q s
  | .graphCommand q => Sys2Proof.Machine.execGraphCommand q s
  | .ringPostCommand q => Sys2Proof.Machine.execRingPostCommand q s
  | .pendingLaunchAccept owner => Sys2Proof.Machine.execPendingLaunchAccept owner s
  | .dependenceRecordAccept => Sys2Proof.Machine.execDependenceRecordAccept s
  | .graphRecordAccept => Sys2Proof.Machine.execGraphRecordAccept s
  | .pagerUpcallAccept => Sys2Proof.Machine.execPagerUpcallAccept s
  | .teamPlacement launch core => Sys2Proof.Machine.execTeamPlacement launch core s
  | .taskPlacement launch core => Sys2Proof.Machine.execTaskPlacement launch core s
  | .bunchRetire bunch => Sys2Proof.Machine.execBunchRetire bunch s
  | .launchComplete launch => Sys2Proof.Machine.execLaunchComplete launch s
  | .rfillWaitEnd bunch split => Sys2Proof.Machine.execRfillWaitEnd bunch split s
  | .drainWaitEnd bunch split => Sys2Proof.Machine.execDrainWaitEnd bunch split s
  | .opportunisticFusion bunch split split' => Sys2Proof.Machine.execOpportunisticFusion bunch split split' s
  | .feWaitEnd bunch split => Sys2Proof.Machine.execFeWaitEnd bunch split s
  | .tokenCompletion bunch op => Sys2Proof.Machine.execTokenCompletion bunch op s
  | .copyComplete bunch op => Sys2Proof.Machine.execCopyComplete bunch op s
  | .copyFaultSuspend bunch op => Sys2Proof.Machine.execCopyFaultSuspend bunch op s
  | .stopContextRequest ctx => Sys2Proof.Machine.execStopContextRequest ctx s
  | .contextCreate ctx c => Sys2Proof.Machine.execContextCreate ctx c s
  | .contextReset ctx => Sys2Proof.Machine.execContextReset ctx s
  | .splitAgeWatchdog bunch split => Sys2Proof.Machine.execSplitAgeWatchdog bunch split s
  | .launchDeadlineWatchdog bunch => Sys2Proof.Machine.execLaunchDeadlineWatchdog bunch s
  | .cwaitSatisfied bunch split => Sys2Proof.Machine.execCwaitSatisfied bunch split s
  | .cwaitSwapOut bunch => Sys2Proof.Machine.execCwaitSwapOut bunch s
  | .swappedBunchPlacement bunch slot => Sys2Proof.Machine.execSwappedBunchPlacement bunch slot s
  | .futureStatusWrite ctx n status => Sys2Proof.Machine.execFutureStatusWrite ctx n status s
  | .savedBunchPlacement bunch core slot => Sys2Proof.Machine.execSavedBunchPlacement bunch core slot s
  | .preemptRequest ctx => Sys2Proof.Machine.execPreemptRequest ctx s
  | .preemptTimeout ctx => Sys2Proof.Machine.execPreemptTimeout ctx s
  | .contextResume ctx => Sys2Proof.Machine.execContextResume ctx s
  | .graphNodeComplete run node => Sys2Proof.Machine.execGraphNodeComplete run node s
  | .ringCoalesceTimer ctx ring => Sys2Proof.Machine.execRingCoalesceTimer ctx ring s
  | .commonsBankOperation cellar bank => Sys2Proof.Machine.execCommonsBankOperation cellar bank s
  | .cooperOperation cellar row => Sys2Proof.Machine.execCooperOperation cellar row s
  | .pageWalk core => Sys2Proof.Machine.execPageWalk core s
  | .fencePointAck source => Sys2Proof.Machine.execFencePointAck source s
  | .fenceCounterFree source => Sys2Proof.Machine.execFenceCounterFree source s
  | .matrixCommandStart core => Sys2Proof.Machine.execMatrixCommandStart core s
  | .matrixCommandComplete core => Sys2Proof.Machine.execMatrixCommandComplete core s
  | .matrixFaultSuspend core => Sys2Proof.Machine.execMatrixFaultSuspend core s
  | .primDeliveryResume cellar => Sys2Proof.Machine.execPrimDeliveryResume cellar s
  | .codeParityRefetch core block => Sys2Proof.Machine.execCodeParityRefetch core block s
  | .poisonError u => Sys2Proof.Machine.execPoisonError u s
  | .correctedError unit loc syndrome => Sys2Proof.Machine.execCorrectedError unit loc syndrome s
  | .fatalError cause cellar unit => Sys2Proof.Machine.execFatalError cause cellar unit s
  | .thermalTrip cellar => Sys2Proof.Machine.execThermalTrip cellar s
  | .dvfsMeasurement watts celsius => Sys2Proof.Machine.execDvfsMeasurement watts celsius s
  | .powerCapSet watts => Sys2Proof.Machine.execPowerCapSet watts s
  | .flitReplay port => Sys2Proof.Machine.execFlitReplay port s
  | .linkXoff port cls => Sys2Proof.Machine.execLinkXoff port cls s
  | .linkXon port cls => Sys2Proof.Machine.execLinkXon port cls s
  | .portDownTimeout port => Sys2Proof.Machine.execPortDownTimeout port s
  | .portRetire port => Sys2Proof.Machine.execPortRetire port s
  | .checkpointStart tier => Sys2Proof.Machine.execCheckpointStart tier s
  | .checkpointEnd => Sys2Proof.Machine.execCheckpointEnd s
  | .d3hotEntry => Sys2Proof.Machine.execD3hotEntry s
  | .d3hotExit => Sys2Proof.Machine.execD3hotExit s
  | .selfRefreshTimer => Sys2Proof.Machine.execSelfRefreshTimer s
  | .deviceReset device devices => Sys2Proof.Machine.execDeviceReset device devices s
  | .recoveryImageLoad version signed stages => Sys2Proof.Machine.execRecoveryImageLoad version signed stages s
  | .quoteRequest nonce => Sys2Proof.Machine.execQuoteRequest nonce s
  | .unassignedOpcode w => Sys2Proof.Machine.execUnassignedOpcode w s
  | .portLaneLoss port lanes => Sys2Proof.Machine.execPortLaneLoss port lanes s
  | .portTrainingComplete port lanes peerDev peerPort => Sys2Proof.Machine.execPortTrainingComplete port lanes peerDev peerPort s
  | .hostCxlMemAccess home acc => Sys2Proof.Machine.execHostCxlMemAccess home acc s
  | .estateInboundRequest port r => Sys2Proof.Machine.execEstateInboundRequest port r s
  | .d3coldEntry => Sys2Proof.Machine.execD3coldEntry s
  | .d0IdleEntry => Sys2Proof.Machine.execD0IdleEntry s

end Sys2Proof.Machine
end

