-- ==== Sys2Proof/Machine/Moves.lean ====
section
/-! DEFINITION. The moves a device may make next: issuing an instruction, an operation of one of its agents, or a cycle going
by; fetching for a candidate; and the smallest program around one instruction. -/

namespace Sys2Proof.Machine

inductive Move
  | issue (c : Cand)
  | event (i : Instr)
  | tick
deriving DecidableEq, Repr

/-- A cycle goes by: split ages count (R49), and a split that is not Ready in it has not waited to issue (R46). -/
def Bunch.grow (b : Bunch) (now : Nat) (ready : Split → Bool) : Bunch :=
  let waitsFor (sp : Split) (m : Mask) : Bool :=
    sp.state == .joining && !sp.frozen && (match sp.stack with
      | .join _ _ j _ :: _ => j &&& m != 0
      | _ => false)
  { b with splits := Store.mapVals (fun e (sp : Split) =>
      let mine := sp.stack.foldl (fun m x => match x with
        | .defer _ d => m ||| d
        | .join .. => m) sp.mask
      let sp1 := if ready sp || decide (now < sp.readyAt) then sp else { sp with readyAt := sp.readyAt + 1 }
      if !sp.frozen && b.slot.isSome && b.splits.any (fun f => f.1 != e && waitsFor f.2 mine) then { sp1 with age := sp.age + 1 }
      else sp1) b.splits }

/-- The device issues in this cycle. -/
def State.issues (s : State) : Bool := s.running && decide (s.stallTo ≤ s.now)

/-- What R302 promises to do in finite time: units with a Ready split issue, and operations that are due, acknowledgements of fence
points and the end of a checkpoint come. -/
def State.owes (s : State) : List Owed :=
  (if s.issues then s.busyCores.flatMap fun c => (List.range 5).filterMap fun u =>
    if (s.readyIn c u).isEmpty then none else some (.issue c u) else [])
  ++ s.events.filterMap fun e =>
    match e.2 with
    | .fencePointAck _ => some (.event e.2)
    | .checkpointEnd => some (.event e.2)
    | i => if e.1 then some (.event i) else none

/-- For how many cycles something has been owed. -/
def State.owedFor (s : State) (k : Owed) : Nat :=
  match s.owed.find? fun e => e.1 == k with
  | some e => e.2
  | none => 0

/-- A cycle goes by. -/
def State.tick (s0 : State) : State :=
  let s := s0.engineAhead
  let t := { s.noteWaits with owed := s.owes.map fun k => (k, s.owedFor k + 1) }
  { t with now := s.now + 1, time := s.time + cycleTime s.dvfs, bunches := Store.mapVals (fun _ (b : Bunch) =>
    b.grow s.now fun sp => s.ctxRuns b.ctx && s.splitReady b sp) s.bunches }

/-- Nothing happens without an outside event: after a fatal error, in recovery, or without power (R299, R303, R305). -/
def State.halted (s : State) : Bool := s.fatal || s.recovery || s.power == .d3hot || s.power == .d3cold

/-- The moves that may come next, the first by default: issue, operations that are due, a cycle, operations that are not. -/
def State.moves (s : State) : List Move :=
  let es := s.events
  s.issuers.map .issue ++ (es.filter (·.1)).map (fun e => .event e.2) ++ [.tick]
    ++ (es.filter fun e => !e.1).map fun e => .event e.2

/-- What the device owes by a move. -/
def State.debt (s : State) : Move → Option Owed
  | .issue c => (Store.find s.bunches c.bunch).map fun b => .issue b.core b.unit
  | .event i => some (.event i)
  | .tick => none

/-- A move is made: it is owed no longer. -/
def State.paid (s : State) (m : Move) : State := { s with owed := s.owed.filter fun e => some e.1 != s.debt m }

/-- The moves that have been owed for all the cycles that the device may leave them undone (R302; log entry 2). -/
def State.overdue (s : State) : List Move :=
  (s.owed.filter fun e => decide (Config.patience ≤ e.2)).flatMap fun e => s.moves.filter fun m => s.debt m == some e.1

/-- The next move: no cycle goes by while one is overdue. -/
def State.nextMove (s : State) : Move :=
  match s.moves.getD (s.choice 0 % s.moves.length) .tick with
  | .tick => s.overdue.getD (s.choice 0 % s.overdue.length) .tick
  | m => m

/-! ### Fetching -/

inductive Fetch
  /-- The state after a trap of the fetch has been taken, or after a split has passed over an instruction (R258). -/
  | trap (t : State)
  | words (t : State) (ctl : DWord) (ws : List Word)
deriving DecidableEq, Repr

/-- A split traps before its instruction is known: where SKIP leads is known once the bundle can be read (`Split.passes`). -/
def State.fetchTrap (s : State) (c : Cand) (b : Bunch) (sp : Split) (cause : Cause) (k : Kind) : State :=
  (s.setBunch c.bunch b).takeFault c.bunch c.entry
    (faultAll sp.lanes cause sp.pc.bundle k) sp.pc sp.pc

/-- The place after an instruction whose bundle has this control word (R65, R66). -/
def pcAfter (ctl : DWord) (pc : Pc) : Pc :=
  if stallEntry ctl pc.slot = 15 then { bundle := pc.bundle + 128, slot := 0 } else { pc with slot := pc.slot + 1 }

/-- Tokens that an entry of 13 after an instruction waits on (R66). -/
def toksAfter (ctl : DWord) (pc : Pc) : BitVec 8 := if stallEntry ctl pc.slot = 13 then bits ctl 56 8 else 0

/-- The cycle before which the instruction after one that issues now does not issue (R66). -/
def State.notBeforeAfter (s : State) (ctl : DWord) (pc : Pc) : Nat :=
  s.now + 1 + (if stallEntry ctl pc.slot ≤ 12 then stallEntry ctl pc.slot else 0)

/-- A split passes over the instruction it stands at (R253, R258). -/
def State.passOver (s : State) (c : Cand) (b : Bunch) (sp : Split) (ctl : DWord) : State :=
  s.setBunch c.bunch (arriveIf (b.setSplit c.entry { sp with
    pc := pcAfter ctl sp.pc, passes := false, retry := none, heldFaults := [], stallToks := toksAfter ctl sp.pc
    notBefore := max sp.notBefore (s.notBeforeAfter ctl sp.pc) }) c.entry)

/-- Fetch for a candidate. -/
def fetchFor (s : State) (c : Cand) : Fetch :=
  match Store.find s.bunches c.bunch with
  | none => .trap s
  | some b =>
    match Store.find b.splits c.entry with
    | none => .trap s
    | some sp =>
      match refetchAt s b sp.pc with
      | .error e => .trap (s.fetchTrap c b sp e .fetch)
      | .ok t =>
        match fetchAt t b sp.pc with
        | .trap e k => .trap (t.fetchTrap c b sp e k)
        | .words ctl ws => if sp.passes then .trap (t.passOver c b sp ctl) else .words t ctl ws

/-- The instruction of words, if they are legal (R72). -/
def decodeOr (ws : List Word) : Option Instr :=
  match decode ws with
  | .ok i => some i
  | .error _ => none

/-- An illegal word traps (R72). Its length is known, so a handler may skip it (R258), with the wait of an entry of 13. -/
def State.illegal (s : State) (c : Cand) (ctl : DWord) : State :=
  match Store.find s.bunches c.bunch with
  | none => s
  | some b =>
    match Store.find b.splits c.entry with
    | none => s
    | some sp =>
      s.takeFault c.bunch c.entry (faultAll sp.lanes .illegalOp 0 .none) sp.pc (pcAfter ctl sp.pc) (toksAfter ctl sp.pc) none
        (s.notBeforeAfter ctl sp.pc)

/-! ### Around a move -/

/-- What a step adds after its move: waits that have ended, graph nodes that fire, and choices used up (log entry 2). -/
def State.after (s : State) : State := { s.settle.fireNodes with choices := s.choices.drop 43 }

/-- The state in which the instruction of a candidate is executed. -/
def State.forIssue (s : State) (c : Cand) (ctl : DWord) : State :=
  { s with issuer := some { bunch := c.bunch, entry := c.entry, ctl } }

/-- An event whose condition does not hold does not occur: the cycle goes by. -/
def orTick (s : State) : Host.Outcome State Fault Refusal → Host.Outcome State Fault Refusal
  | .refused (.eventNotEnabled _) => .next s.tick
  | r => r

/-- Add what follows a move. -/
def settled : Host.Outcome State Fault Refusal → Host.Outcome State Fault Refusal
  | .next s => .next s.after
  | .fault r => .fault r
  | .refused r => .refused r

/-! ### Placing an instruction -/

/-- The bytes of a bundle with `n` NOPs and then one instruction, the last. -/
def bundleBytes (n : Nat) (ws : List Word) : List Byte :=
  leBytes (15 * 16 ^ n) 8 ++ ((List.replicate n (0 : Word) ++ ws).map fun w => leBytes w.toNat 4).flatten

/-- Replace `n` bytes at an offset. -/
def spliceBytes (old : List Byte) (off : Nat) (new : List Byte) : List Byte :=
  let padded := old ++ List.replicate (off - old.length) 0
  padded.take off ++ new ++ padded.drop (off + new.length)

/-- A bunch of one vector split with all lanes, on core 0, in a launch of context 0, with one block of code at address 0. -/
def State.smallest (s : State) (ws : List Word) : State :=
  let l := s.nextId
  let code : CodeBlock := { ctx := 0, va := 0, bytes := bundleBytes 0 ws, users := [(l, 0)], fetched := s.now }
  let b : Bunch :=
    { ctx := 0, launch := l, team := some (l + 1), core := 0, slot := some 0, num := 0, role := .vector, width := 32, budget := 256
      active := firstLanes 32
      splits := [(0, { pc := { bundle := 0, slot := 0 }, mask := firstLanes 32, notBefore := s.now, readyAt := s.now })] }
  let c := s.core 0
  { s with
    nextId := s.nextId + 3
    launches := Store.insert s.launches l { ctx := 0, task := false, raw := 0, va := 0, src := .device, seq := 0, placed := 1 }
    teams := Store.insert s.teams (l + 1) { launch := l, core := 0, num := 0 }
    bunches := Store.insert s.bunches (l + 2) b
    cores := Store.insert s.cores 0 { c with blocks := code :: c.blocks } }

/-- Put words where the next step fetches: at the place of the split that issues next, after NOPs in its bundle; where nothing
would issue, in the smallest program. -/
def State.placeWords (s0 : State) (ws : List Word) : State :=
  let s := { s0 with inputs := [], choices := [] }
  match s.issuers with
  | c :: _ =>
    match Store.find s.bunches c.bunch with
    | none => s.smallest ws
    | some b =>
      match Store.find b.splits c.entry with
      | none => s.smallest ws
      | some sp =>
        let x := s.core b.core
        match x.blockOf b.ctx b.launch sp.pc.bundle with
        | none => s.smallest ws
        | some k =>
          let k' := { k with bytes := spliceBytes k.bytes (sp.pc.bundle.toNat % 4096) (spliceBytes (List.replicate 128 0) 0 (bundleBytes sp.pc.slot ws)) }
          s.setCore b.core { x with blocks := x.blocks.map fun q => if q = k then k' else q }
  | [] => s.smallest ws

end Sys2Proof.Machine
end

