-- ==== Sys2Proof/Machine/Step.lean ====
section
/-! DEFINITION. One step of the machine: an event that has arrived from outside, or one of the moves the device may make next;
and the placing of one instruction where the next step issues it. -/

namespace Sys2Proof.Machine

/-- One move. -/
def runMove (s : State) : Move → Host.Outcome State Fault Refusal
  | .tick => .next s.tick
  | .event i => exec i s
  | .issue c =>
    match fetchFor s c with
    | .trap t => .next t
    | .words t ctl ws =>
      match decodeOr ws with
      | some i => exec i (t.forIssue c ctl)
      | none => .next (t.illegal c ctl)

/-- One step. An event from outside that the state does not allow does not occur. -/
def step (s : State) : Host.Outcome State Fault Refusal :=
  match s.inputs with
  | i :: r =>
    let t := { s with inputs := r }
    settled (orTick t (exec i t))
  | [] =>
    if s.halted then .fault .halted
    else
      let t := { s with choices := s.choices.tail }
      settled (orTick t (runMove (t.paid s.nextMove) s.nextMove))

/-! ### Placing an instruction -/

/-- `s` with an instruction where the next step issues it. -/
def State.withFetchWord (s : State) (nbits w : Nat) : State := s.placeWords (wordsOf (w % 2 ^ nbits) 5)

end Sys2Proof.Machine
end

