-- ==== Sys2Proof/Safety.lean ====
section
/-! DEFINITION. What counts as a safe run, in the terms the statements use: when a split can issue an instruction, what an
instruction leaves unchanged, and the canonical form of the sparse tables. -/

namespace Sys2Proof.Machine

/-! ### Tables -/

/-- The tables of bytes keep their canonical form. -/
def State.MemOk (s : State) : Prop := Memory.wf s.mem = true ∧ Memory.wf s.full = true ∧ Memory.wf s.tags = true

/-! ### When an instruction runs -/

/-- No earlier result of a register is outstanding (R70): no fixed-latency result is still to be written, and no
token-covered operation is going to write it. p7 holds a constant (R57). -/
def Bunch.quiet (b : Bunch) (now : Nat) (r : Reg) : Prop :=
  r = .p 7 ∨ ((∀ p ∈ b.pends, p.reg = r → p.ready ≤ now) ∧ ∀ o ∈ b.ops, ∀ w ∈ o.writes, w.reg ≠ r)

/-- The lanes in which an instruction with guard `g` executes: those whose guard holds; for a uniform instruction the lowest
lane, if the guard holds there (R53). -/
def View.guarded (x : View) (g : Guard) (uniform : Bool) : Mask :=
  if uniform then (if (x.b.guardMask g).getLsbD (lowest x.lanes) then laneBit (lowest x.lanes) else 0)
  else x.lanes &&& x.b.guardMask g

/-- The split that `State.issuer` names can issue an instruction that uses the registers `rs`, and executes it in the lanes
`x.exec`: its role may issue it (R40), its lane registers lie below the budget (R39), none of them has a result outstanding
(R70), and none is poisoned (R275). In the matrix role only unguarded instructions over k registers issue (R14). -/
structure Runs (s : State) (x : View) (g : Guard) (uniform : Bool) (roles : List Role) (rs : List Reg) : Prop where
  issuing : s.issuing = some { x with exec := x.lanes }
  exec    : x.exec = x.guarded g uniform
  role    : x.b.role ∈ roles
  matrix  : x.b.role = .matrix → g = Guard.always ∧ ∀ r ∈ rs, ∃ n, r = .k n
  budget  : ∀ n, .v n ∈ rs → n < x.b.budget
  quiet   : ∀ r ∈ .p g.pg.toNat :: rs, x.b.quiet s.now r
  clean   : x.b.poison = []

/-! ### What follows an instruction -/

/-- `t` is `u` after the bunch `id` has moved on: nothing differs but its splits, its pending results, the record of where its
last split ended, and its core's note of what issued last. -/
structure MovedOn (u t : State) (id : Nat) : Prop where
  state  : t = { u with bunches := t.bunches, cores := t.cores }
  others : ∀ i, i ≠ id → Store.find t.bunches i = Store.find u.bunches i
  bunch  : ∃ b b', Store.find u.bunches id = some b ∧ Store.find t.bunches id = some b' ∧
    b' = { b with splits := b'.splits, pends := b'.pends, poison := b'.poison, lastPc := b'.lastPc }
  cores  : ∀ c, t.core c = { u.core c with quads := (t.core c).quads }

/-- The instruction executes: its own effect leaves `u`, and its bunch moves on. -/
def Acts (i : Instr) (s : State) (x : View) (u : State) : Prop := ∃ t, exec i s = .next t ∧ MovedOn u t x.id

/-- The instruction's effect leaves `u`, and its lanes take the faults `fs` (R255, R256). -/
def Traps (i : Instr) (s : State) (x : View) (u : State) (fs : List LaneFault) : Prop :=
  exec i s = .next ((u.noteIssue x).takeFault x.id x.entry fs x.sp.pc x.nextPc x.stallToks none x.after)

/-- The split's topmost JOIN reconverges at a place (R43). -/
def View.reconverges (x : View) (pc : Pc) : Prop := ∃ n rc j a, topJoin x.sp.stack = some (n, rc, j, a) ∧ pc = { bundle := rc, slot := 0 }

/-- Splits of the bunch that stand JOINING on the JOIN `n`, by entry, with their arrived masks (R43). -/
def Bunch.joiners (b : Bunch) (n : Nat) (e : Nat) (a : Mask) : Prop :=
  ∃ sp rc j r, Store.find b.splits e = some sp ∧ sp.state = .joining ∧ sp.stack = .join n rc j a :: r

/-- R43: the Ready split has reached the reconvergence address of its topmost JOIN. A DEFER above it is popped: the split goes on with
the deferred lanes, its own having arrived. Else it stands JOINING while lanes of the join mask have yet to arrive; with the last of them
the lowest entry of those that stand there goes on at that address with all of them, one stack entry fewer, and the others are freed. -/
def Reconverged (x : View) (t : State) : Prop :=
  x.sp.state = .ready → Store.sortedFrom 0 x.b.splits = true →
  (∀ pc m r, x.sp.stack = .defer pc m :: r → (∀ n rc j a, topJoin r = some (n, rc, j, a) → pc ≠ { bundle := rc, slot := 0 }) →
    ∃ b sp, Store.find t.bunches x.id = some b ∧ Store.find b.splits x.entry = some sp ∧ sp.pc = pc ∧ sp.mask = m ∧ sp.state = .ready ∧
      sp.stack = orArrived x.sp.mask r) ∧
  ∀ n rc j a r, x.sp.stack = .join n rc j a :: r → ∀ u : Mask,
    (∀ l, u.getLsbD l = true ↔ (a ||| x.sp.mask).getLsbD l = true ∨ ∃ e m, x.b.joiners n e m ∧ m.getLsbD l = true) →
    (j &&& ~~~u ≠ 0 → ∃ b sp, Store.find t.bunches x.id = some b ∧ Store.find b.splits x.entry = some sp ∧ sp.state = .joining ∧
      sp.mask = x.sp.mask ∧ sp.stack = .join n rc j (a ||| x.sp.mask) :: r) ∧
    ∀ e sp, j &&& ~~~u = 0 → u &&& j ≠ 0 → e = x.entry ∨ (∃ m, x.b.joiners n e m) → e ≤ x.entry → (∀ i m, x.b.joiners n i m → e ≤ i) →
      Store.find x.b.splits e = some sp → (∀ n' rc' j' a', topJoin sp.stack.tail = some (n', rc', j', a') → rc' ≠ rc) →
      ∃ b sp', Store.find t.bunches x.id = some b ∧ Store.find b.splits e = some sp' ∧ sp'.pc = { bundle := rc, slot := 0 } ∧
        sp'.mask = u &&& j ∧ sp'.state = .ready ∧ sp'.stack = sp.stack.tail ∧
        ∀ i, i ≠ e → i = x.entry ∨ (∃ m, x.b.joiners n i m) → Store.find b.splits i = none

/-- The split goes on at `pc` with its mask and stack, or reconverges there. -/
def GoesOn (x : View) (t : State) (pc : Pc) : Prop :=
  (¬ x.reconverges pc → ∃ b sp, Store.find t.bunches x.id = some b ∧ Store.find b.splits x.entry = some sp ∧ sp.pc = pc ∧
    sp.mask = x.sp.mask ∧ sp.state = x.sp.state ∧ sp.stack = x.sp.stack) ∧
  (x.reconverges pc → Reconverged x t)

/-- The issuing split after its executing lanes have exited (R33): they leave its mask and every join mask. -/
def View.emptied (x : View) : View :=
  let b := dropFromJoins { x.b with active := x.b.active &&& ~~~x.exec, helper := x.b.helper &&& ~~~x.exec } x.exec
  { x with b, sp := match Store.find b.splits x.entry with
    | some sp => { sp with mask := sp.mask &&& ~~~x.exec }
    | none => x.sp }

/-- A code address at which a bundle can stand. -/
def onBundle (a : DWord) : Prop := a.toNat % 128 = 0

/-- A truth value as 0 or 1. -/
def asWord (b : Bool) : Word := if b then 1 else 0

/-- The value of a register in a lane; a predicate as 0 or 1. -/
def Bunch.reg (b : Bunch) : Reg → Nat → Word
  | .v n, l => b.vAt n l
  | .k n, _ => b.kAt n
  | .p n, l => asWord ((b.pAt n).getLsbD l)

/-- `t` is `s` after the issuing split's instruction: FP_STAT is `stat`, register `r` has the value `w r l` in lane `l` where
that is some value and is unchanged elsewhere, and nothing else differs but that the bunch has moved on. -/
def Wrote (s : State) (x : View) (t : State) (stat : BitVec 4) (w : Reg → Nat → Option Word) : Prop :=
  ∃ b : Bunch, MovedOn (s.setBunch x.id b) t x.id ∧ b = { x.b with v := b.v, k := b.k, p := b.p, fpStat := stat } ∧
    ∀ r l, l < 32 → b.reg r l = (w r l).getD (x.b.reg r l)

/-- A 32-bit result in a destination: in each executing lane, or once (R308, R309). -/
def View.one (x : View) (d : VK) (f : Nat → Word) : Reg → Nat → Option Word
  | .v n, l => if d = .v (BitVec.ofNat 8 n) ∧ n < 256 ∧ x.exec.getLsbD l = true then some (f l) else none
  | .k n, _ => if d = .k (BitVec.ofNat 6 n) ∧ n < 64 ∧ x.exec ≠ 0 then some (f (lowest x.lanes)) else none
  | .p _, _ => none

/-- A 64-bit result in a register pair: bits 31:0 in the named register, bits 63:32 in the next (R5). -/
def View.pair (x : View) (d : VK) (f : Nat → DWord) : Reg → Nat → Option Word
  | .v n, l =>
    if x.exec.getLsbD l = true then
      match d with
      | .v m => if n = m.toNat + 1 then some (highHalf (f l)) else if n = m.toNat then some (lowHalf (f l)) else none
      | .k _ => none
    else none
  | .k n, _ =>
    if x.exec ≠ 0 then
      match d with
      | .k m =>
        if n = m.toNat + 1 then some (highHalf (f (lowest x.lanes)))
        else if n = m.toNat then some (lowHalf (f (lowest x.lanes))) else none
      | .v _ => none
    else none
  | .p _, _ => none

/-- FP_STAT after an instruction with a 32-bit result: the flags of the lanes that execute are ORed into it (R102). -/
def View.sticky (x : View) (d : VK) (f : Nat → BitVec 4) : BitVec 4 :=
  (match d with
    | .v _ => lanesOf x.exec
    | .k _ => if x.exec = 0 then [] else [lowest x.lanes]).foldl (fun m l => m ||| f l) x.b.fpStat

/-- A predicate in the executing lanes; p7 discards it (R57, R308). -/
def View.pred (x : View) (d : BitVec 3) (f : Nat → Bool) : Reg → Nat → Option Word
  | .p n, l => if n = d.toNat ∧ n ≠ 7 ∧ x.exec.getLsbD l = true then some (asWord (f l)) else none
  | _, _ => none

/-! ### What the instructions compute, in the spec's words -/

/-- R361: the exact sum or difference, wrapped or clamped. -/
def sumRule (sub : Bool) (m : AddMode) (a b r : Word) : Prop :=
  match m with
  | .wrap => r.toNat = ((if sub then a.toNat + 2 ^ 32 - b.toNat else a.toNat + b.toNat)) % 2 ^ 32
  | .sat => r.toInt = max (-2 ^ 31) (min (2 ^ 31 - 1) (if sub then a.toInt - b.toInt else a.toInt + b.toInt))
  | .usat => (r.toNat : Int) = max 0 (min (2 ^ 32 - 1) (if sub then (a.toNat : Int) - b.toNat else a.toNat + b.toNat))

/-- R366: bits 63:32 of the exact product. -/
def highRule (u : Bool) (a b r : Word) : Prop :=
  if u then r.toNat = a.toNat * b.toNat / 2 ^ 32 else r.toInt = a.toInt * b.toInt / 2 ^ 32

/-- R364: the exact product plus C, modulo 2^64. -/
def wideRule (u : Bool) (a b : Word) (c r : DWord) : Prop :=
  (r.toNat : Int) = ((if u then (a.toNat : Int) * b.toNat else a.toInt * b.toInt) + c.toNat) % 2 ^ 64

/-- R365: the smaller, or the larger. -/
def pickRule (large u : Bool) (a b r : Word) : Prop :=
  let x (w : Word) : Int := if u then w.toNat else w.toInt
  x r = if large then max (x a) (x b) else min (x a) (x b)

/-- R360: |A| mod 2^32, which for the most negative number under .sat is the largest. -/
def absRule (sat : Bool) (a r : Word) : Prop :=
  r.toNat = if sat ∧ a.toInt = -2 ^ 31 then 2 ^ 31 - 1 else a.toInt.natAbs

/-- R374, bit by bit. -/
def logicRule (op : LopOp) (a b r : Word) : Prop :=
  ∀ i, i < 32 → r.getLsbD i = match op with
    | .and => a.getLsbD i && b.getLsbD i
    | .or => a.getLsbD i || b.getLsbD i
    | .xor => a.getLsbD i != b.getLsbD i
    | .andn => a.getLsbD i && !b.getLsbD i
    | .not => !a.getLsbD i

/-- R389, with n = B AND 63. -/
def shiftRule (op : ShfOp) (a b c r : Word) : Prop :=
  let n := b.toNat % 64
  match op with
  | .l => r.toNat = a.toNat * 2 ^ n % 2 ^ 32
  | .r => r.toNat = a.toNat / 2 ^ n
  | .ra => r.toInt = a.toInt / 2 ^ n
  | .f => r.toNat = (c.toNat * 2 ^ 32 + a.toNat) / 2 ^ n % 2 ^ 32

/-- R317: the field of WIDTH bits at POS, zero- or sign-extended. -/
def extractRule (s : Bool) (pos width : Nat) (a r : Word) : Prop :=
  let f := a.toNat / 2 ^ pos % 2 ^ width
  (if s then r.toInt else r.toNat) = if s ∧ 2 ^ (width - 1) ≤ f then (f : Int) - 2 ^ width else f

/-- R317: the low WIDTH bits of B replace the field of A at POS. -/
def insertRule (pos width : Nat) (a b r : Word) : Prop :=
  ∀ i, i < 32 → r.getLsbD i = if pos ≤ i ∧ i < pos + width then b.getLsbD (i - pos) else a.getLsbD i

/-- R382: how many bits are set. -/
def countRule (a r : Word) : Prop := r.toNat = ((List.range 32).filter fun i => a.getLsbD i).length

/-- R333: the zero bits above the highest set bit. -/
def leadingRule (a r : Word) : Prop :=
  (a = 0 ∧ r = 32) ∨ (r.toNat < 32 ∧ a.getLsbD (31 - r.toNat) = true ∧ ∀ i, 31 - r.toNat < i → a.getLsbD i = false)

/-- R363: byte `i` of a word as INT8 or UINT8, and the exact sum. -/
def byteOf (u : Bool) (w : Word) (i : Nat) : Int :=
  let x := w.toNat / 2 ^ (8 * i) % 256
  if u ∨ x < 128 then x else (x : Int) - 256
def dotRule (ua ub sat : Bool) (a b c r : Word) : Prop :=
  let s := c.toInt + byteOf ua a 0 * byteOf ub b 0 + byteOf ua a 1 * byteOf ub b 1 + byteOf ua a 2 * byteOf ub b 2
    + byteOf ua a 3 * byteOf ub b 3
  if sat then r.toInt = max (-2 ^ 31) (min (2 ^ 31 - 1) s) else (r.toNat : Int) = s % 2 ^ 32

/-- R372. -/
def leaRule (s : Bool) (shift : Nat) (a : DWord) (b : Word) (r : DWord) : Prop :=
  (r.toNat : Int) = (a.toNat + (if s then b.toInt else b.toNat) * 2 ^ shift) % 2 ^ 64

/-- R362: the condition, on INT32 or UINT32. -/
def condRule (c : ICond) (u : Bool) (a b : Word) : Prop :=
  let x (w : Word) : Int := if u then w.toNat else w.toInt
  match c with
  | .eq => x a = x b
  | .ne => x a ≠ x b
  | .lt => x a < x b
  | .le => x a ≤ x b
  | .gt => x a > x b
  | .ge => x a ≥ x b

/-! ### Instructions that write one result -/

/-- Wherever a split can issue the one-source instruction `i` (R331), it executes and moves on, its destination holds a result
that `rule` relates to the source, and nothing else changes. -/
def Computes1 (i : Instr) (roles : List Role) (f : Alu1) (rule : Word → Word → Prop) : Prop :=
  ∀ s x, Runs s x f.g f.d.isK roles (f.a.regs ++ f.d.regs) →
    ∃ t v, exec i s = .next t ∧ Wrote s x t x.b.fpStat (x.one f.d v) ∧ ∀ l, rule (x.word f.a l) (v l)

/-- The same of two sources. -/
def Computes2 (i : Instr) (roles : List Role) (f : Alu2) (rule : Word → Word → Word → Prop) : Prop :=
  ∀ s x, Runs s x f.g f.d.isK roles (f.a.regs ++ f.b.regs ++ f.d.regs) →
    ∃ t v, exec i s = .next t ∧ Wrote s x t x.b.fpStat (x.one f.d v) ∧ ∀ l, rule (x.word f.a l) (x.wordL f.b l) (v l)

/-- The same of three sources. -/
def Computes3 (i : Instr) (roles : List Role) (f : Alu3) (rule : Word → Word → Word → Word → Prop) : Prop :=
  ∀ s x, Runs s x f.g f.d.isK roles (f.a.regs ++ f.b.regs ++ f.c.regs ++ f.d.regs) →
    ∃ t v, exec i s = .next t ∧ Wrote s x t x.b.fpStat (x.one f.d v) ∧
      ∀ l, rule (x.word f.a l) (x.wordL f.b l) (x.word f.c l) (v l)

/-- The same of float instructions: `op`, of FTZ and the sources, gives the result and the flags (R92, R102). -/
def Floats1 (i : Instr) (f : Alu1) (op : Bool → Word → Word × BitVec 4) : Prop :=
  ∀ s x, Runs s x f.g f.d.isK vecEpi (f.a.regs ++ f.d.regs) →
    ∃ t, exec i s = .next t ∧ Wrote s x t (x.sticky f.d fun l => (op x.ftz (x.word f.a l)).2)
      (x.one f.d fun l => (op x.ftz (x.word f.a l)).1)
def Floats2 (i : Instr) (f : Alu2) (op : Bool → Word → Word → Word × BitVec 4) : Prop :=
  ∀ s x, Runs s x f.g f.d.isK vecEpi (f.a.regs ++ f.b.regs ++ f.d.regs) →
    ∃ t, exec i s = .next t ∧ Wrote s x t (x.sticky f.d fun l => (op x.ftz (x.word f.a l) (x.wordL f.b l)).2)
      (x.one f.d fun l => (op x.ftz (x.word f.a l) (x.wordL f.b l)).1)
def Floats3 (i : Instr) (f : Alu3) (op : Bool → Word → Word → Word → Word × BitVec 4) : Prop :=
  ∀ s x, Runs s x f.g f.d.isK vecEpi (f.a.regs ++ f.b.regs ++ f.c.regs ++ f.d.regs) →
    ∃ t, exec i s = .next t ∧
      Wrote s x t (x.sticky f.d fun l => (op x.ftz (x.word f.a l) (x.wordL f.b l) (x.word f.c l)).2)
        (x.one f.d fun l => (op x.ftz (x.word f.a l) (x.wordL f.b l) (x.word f.c l)).1)

/-- FP32 words (R91): a NaN, a signalling one, a finite one, and what that stands for in units of 2^-149. -/
abbrev f32Nan (w : Word) : Prop := 0x7F800000 < w.toNat % 2 ^ 31
abbrev f32Signals (w : Word) : Prop := f32Nan w ∧ w.getLsbD 22 = false
abbrev f32Finite (w : Word) : Prop := w.toNat % 2 ^ 31 < 0x7F800000
def f32Val (w : Word) : Int :=
  let e := w.toNat / 2 ^ 23 % 256
  let m : Nat := if e = 0 then w.toNat % 2 ^ 23 else (w.toNat % 2 ^ 23 + 2 ^ 23) * 2 ^ (e - 1)
  if w.getLsbD 31 then -(m : Int) else m

/-- R101, R102: `r` is the exact value n × 2^-k, in units of 2^-149, rounded once to FP32, the nearest and the even one of two, with its
flags; an overflow gives infinity and OVF, an inexact result below the normal numbers UNF; `neg`: the sign of an exact zero. -/
def nearestRule (n : Int) (k : Nat) (neg : Bool) (r : Word) (flags : BitVec 4) : Prop :=
  let off (w : Word) : Nat := (f32Val w * 2 ^ k - n).natAbs
  if (2 ^ 25 - 1) * 2 ^ (253 + k) ≤ 2 * n.natAbs then r = (if n < 0 then 0xFF800000 else 0x7F800000) ∧ flags = 4
  else f32Finite r ∧ (∀ w, f32Finite w → off r ≤ off w) ∧ (∀ w, f32Finite w → off w = off r → f32Val w ≠ f32Val r → r.getLsbD 0 = false) ∧
    r.getLsbD 31 = (if n = 0 then neg else decide (n < 0)) ∧
    flags = if n.natAbs < 2 ^ (23 + k) ∧ f32Val r * 2 ^ k ≠ n ∧ (f32Val r).natAbs < 2 ^ 23 then 8 else 0

/-- R103: an operation with a NaN operand gives the first, quieted, and INV for a signalling one; an invalid one 0x7FC00000 and INV. -/
def nanRule (a b r : Word) (flags : BitVec 4) : Prop :=
  (f32Nan a → r = a ||| 0x00400000) ∧ (¬ f32Nan a → f32Nan b → r = b ||| 0x00400000) ∧
  (f32Nan a ∨ f32Nan b → (f32Signals a ∨ f32Signals b → flags = 1) ∧ (¬ f32Signals a → ¬ f32Signals b → flags = 0))
abbrev f32Inf (w : Word) : Prop := w.toNat % 2 ^ 31 = 0x7F800000

/-- The condition of SEL (R388). -/
def View.selHolds (x : View) (c : SelCond) (l : Nat) : Bool :=
  match c with
  | .p n => (x.b.pAt n.toNat).getLsbD l
  | .k n => x.b.kAt n.toNat != 0
/-- The register that condition reads. -/
def selReg : SelCond → Reg
  | .p n => .p n.toNat
  | .k n => .k n.toNat

/-! ### Bunch-wide instructions -/

/-- A 32-bit result in a v or k destination, or its truth (not 0) in a predicate. -/
def View.vkp (x : View) (d : VKP) (r : Word) : Reg → Nat → Option Word :=
  match d with
  | .v n => x.one (.v n) fun _ => r
  | .k n => x.one (.k n) fun _ => r
  | .p n => x.pred n fun _ => r != 0

/-- R402, over the contributors `c`. -/
def voteRule (op : VoteOp) (c p : Mask) (r : Word) : Prop :=
  match op with
  | .any => r = 1 ∧ (∃ l, l < 32 ∧ c.getLsbD l = true ∧ p.getLsbD l = true) ∨ r = 0 ∧ ∀ l, c.getLsbD l = true → p.getLsbD l = false
  | .all => r = 1 ∧ (∀ l, c.getLsbD l = true → p.getLsbD l = true) ∨ r = 0 ∧ ∃ l, l < 32 ∧ c.getLsbD l = true ∧ p.getLsbD l = false
  | .ballot => ∀ l, r.getLsbD l = (c.getLsbD l && p.getLsbD l)

/-- R390: the lane that lane `l` reads, as a number that may lie outside the bunch. -/
def shflFrom (op : ShflOp) (l : Nat) (b : Word) : Int :=
  match op with
  | .idx => b.toNat
  | .up => (l : Int) - b.toNat
  | .down => l + b.toNat
  | .xor => (l ^^^ b.toNat : Nat)
/-- R390: that lane's A where it exists and is in the split's mask, else the lane's own. -/
def View.shuffled (x : View) (op : ShflOp) (a : BitVec 8) (b : SrcL) (l : Nat) : Word :=
  let j := shflFrom op l (x.wordL b l)
  if 0 ≤ j ∧ j < x.b.width ∧ x.sp.mask.getLsbD j.toNat = true then x.b.vAt a.toNat j.toNat else x.b.vAt a.toNat l

/-- R322: the combination, from the identity on, of the values of the executing lanes below `l`, and of `l` itself unless
.excl. -/
def View.scanned (x : View) (op : RedOp) (excl : Bool) (a : BitVec 8) (l : Nat) : Word :=
  ((lanesOf x.exec).filter fun j => if excl then decide (j < l) else decide (j ≤ l)).foldl
    (fun m j => (combine op m (x.b.vAt a.toNat j)).1) (redIdentity op)

/-- R381. -/
def plopRule (op : PlopOp) (a b r : Bool) : Prop :=
  r = match op with
    | .and => a && b
    | .or => a || b
    | .xor => a != b
    | .andn => a && !b
    | .not => !a
    | .mov => a

/-! ### Control -/

/-- R32: what the refill map leaves in register `n` of a lane that is the j-th of its unit. -/
def mapRule (map : BitVec 6) (it : Item) (j n : Nat) : Word :=
  match n with
  | 0 => if map.getLsbD 0 then it.index else 0
  | 6 => if map.getLsbD 5 then it.pair.setWidth 32 else 0
  | 7 => if map.getLsbD 5 then (it.pair >>> 32).setWidth 32 else 0
  | n => if 1 ≤ n ∧ n ≤ 4 ∧ map.getLsbD n = true then (it.words.getD j []).getD (n - 1) 0 else 0

/-- A code address lies in a block leased to the split's launch on its core, of segment 0 or one that has landed there (R232,
R367). -/
def hasLanded (s : State) (x : View) (a : DWord) : Prop :=
  ∃ k, (s.core x.b.core).blockOf x.b.ctx x.b.launch a = some k ∧ ∃ seg, (x.b.launch, seg) ∈ k.users ∧
    (seg = 0 ∨ ∃ l, s.launch x.b.launch = some l ∧ (x.b.core, seg) ∈ l.landed)

/-- `t` follows `s` with the split's lanes in groups by where they go (R42, R323): the issuing split keeps the first group; the next
ones get the free table entries; those for which none is left are deferred, and the JOIN holds every lane. -/
def Diverged (s : State) (x : View) (t : State) (groups : List (Pc × Mask)) (rc : DWord) : Prop :=
  let base := StackEntry.join x.b.nextDiv rc x.lanes 0 :: x.sp.stack
  let free := x.b.freeEntries x.entry
  MovedOn (s.setBunch x.id { x.b with nextDiv := x.b.nextDiv + 1 }) t x.id ∧
  ∀ pc m rest, groups = (pc, m) :: rest → (∀ g ∈ groups, g.1 ≠ { bundle := rc, slot := 0 }) →
    ∃ b sp, Store.find t.bunches x.id = some b ∧ Store.find b.splits x.entry = some sp ∧ sp.pc = pc ∧ sp.mask = m ∧
      sp.stack = ((rest.drop free.length).map fun (g : Pc × Mask) => StackEntry.defer g.1 g.2) ++ base ∧
      ∀ (i e : Nat) (g : Pc × Mask), free[i]? = some e → rest[i]? = some g →
        ∃ c, Store.find b.splits e = some c ∧ c.pc = g.1 ∧ c.mask = g.2 ∧ c.stack = base ∧ c.state = .ready

/-- Stack entries that a divergence into `n` groups needs (R42). -/
def View.depthAfter (x : View) (n : Nat) : Nat := x.sp.stack.length + 1 + (n - 1 - (x.b.freeEntries x.entry).length)

/-- The split is Blocked, and goes on at `resume` (none: issues its instruction again) when its wait ends (R45). -/
def BlockedOn (x : View) (t : State) (w : Wait) (resume : Option Pc) : Prop :=
  ∃ b sp, Store.find t.bunches x.id = some b ∧ Store.find b.splits x.entry = some sp ∧ sp.state = .blocked w resume ∧
    sp.mask = x.sp.mask ∧ sp.pc = x.sp.pc

/-! ### Exceptions -/

/-- The fault of the lowest faulting lane (R255). -/
def LowestOf (f : LaneFault) (fs : List LaneFault) : Prop := f ∈ fs ∧ ∀ g ∈ fs, f.lane ≤ g.lane

/-- R256: the bunch `b` of a fault taken by the split of entry `e`, whose mask was `m`, in its handler: the fault registers (R253), the
Shadow, the frozen splits and the handler split; `old` is the bunch before, and `hnd` the handler's address. -/
structure InHandler (old b : Bunch) (e : Nat) (m : Mask) (fs : List LaneFault) (pc : Pc) (hnd : DWord) : Prop where
  cause  : ∀ f, LowestOf f fs → (∀ g ∈ fs, g.lane = f.lane → g = f) →
    b.fltCause = BitVec.ofNat 64 (f.cause.code + f.kind.code * 2 ^ 8 + e * 2 ^ 12) ∧ b.fltAddr = f.addr
  mask   : ∀ l, l < 32 → (b.fltMask.getLsbD l = true ↔ ∃ f ∈ fs, f.lane = l)
  pc     : b.fltPc = pc.bundle + BitVec.ofNat 64 pc.slot
  frozen : ∀ i, i < 4 → ∀ sp, Store.find old.splits i = some sp → Store.find b.splits i = some { sp with frozen := true }
  split  : ∃ h, Store.find b.splits 4 = some h ∧ h.pc = { bundle := hnd, slot := 0 } ∧ h.stack = [] ∧ h.frozen = false ∧
    (old.owes = false → h.state = .ready) ∧
    h.mask = (if b.fltMask &&& m = 0 then laneBit (lowest m) else b.fltMask &&& m) ∧ b.shMask = h.mask
  shadow : ∀ l, b.shMask.getLsbD l = true → ∀ n, n < 8 → Store.get 0 b.shV (32 * n + l) = old.vAt n l
  preds  : ∀ n, n < 7 → Store.get 0 b.shP n = old.pAt n
  unis   : ∀ n, n < 16 → Store.get 0 b.shK (48 + n) = old.kAt (48 + n)
  rest   : b = { old with
    splits := b.splits, fltCause := b.fltCause, fltAddr := b.fltAddr, fltMask := b.fltMask, fltPc := b.fltPc
    laneFlt := fs, fltNext := b.fltNext, fltStall := b.fltStall, fltAfter := b.fltAfter, fltWait := b.fltWait, fltOps := b.fltOps
    tokRec := b.tokRec, shMask := b.shMask, shV := b.shV, shP := b.shP, shK := b.shK }

/-! ### Memory -/

/-- The instruction's effect leaves `u`; where no lane faults it then moves on, an acquire or a release as said (R141, R142); else it
takes the exception (R255). -/
def Ends (i : Instr) (s : State) (x : View) (u : State) (fs : List LaneFault) (acq rel : Bool := false) : Prop :=
  if fs = [] then Acts i s x (u.ordered x acq rel) else Traps i s x u fs

/-- The instruction has no effect yet: its split waits, and then issues it again. -/
def Held (i : Instr) (s : State) (x : View) (w : Wait) : Prop := ∃ t, exec i s = .next t ∧ MovedOn s t x.id ∧ BlockedOn x t w none

/-- The places at which lanes that act in turn, and do not fault, access memory. -/
def placesIn (f : State → Nat → LaneDone α) (place : State → Nat → Except Cause Place) : List Nat → State → List Place
  | [], _ => []
  | l :: r, s =>
    match f s l with
    | .ok t _ => (match place s l with
      | .ok p => [p]
      | .error _ => []) ++ placesIn f place r t
    | .fail .. => placesIn f place r s

/-- The byte at a place. -/
def State.byteAt (s : State) (p : Place) : Byte := (s.bytesAt p 1).headD 0

/-- Every byte outside `n` bytes at each of the places reads as before, of device and host memory, the commons and the scratchpads. -/
def KeepsOutside (s t : State) (ps : List Place) (n : Nat) : Prop :=
  t.pads = s.pads ∧ ∀ k, (∀ p ∈ ps, k < p.key ∨ p.key + n ≤ k) → t.mem.read k = s.mem.read k

/-- Little-endian: byte `i` of a number is the byte at `p` + i (R5). -/
def ReadsAs (s : State) (p : Place) (n v : Nat) : Prop := ∀ i, i < n → v / 2 ^ (8 * i) % 256 = (s.byteAt (p.plus i)).toNat

/-- The bytes at a place are those of a list. -/
def HoldsBytes (s : State) (p : Place) (bs : List Byte) : Prop := ∀ i, i < bs.length → some (s.byteAt (p.plus i)) = bs[i]?

/-- `u` differs from `s` in what the TLBs hold and in the counts of accesses for reuse hints (R119, R126), and in how many free values
have been used, alone. -/
def OnlyTlbs (s u : State) : Prop :=
  u = { s with cores := u.cores, rowTlb := u.rowTlb, launches := u.launches, freeCount := u.freeCount } ∧
  (∀ c, u.core c = { s.core c with tlb := (u.core c).tlb }) ∧
  ∀ i, (s.launch i = none → u.launch i = none) ∧ ∀ l, s.launch i = some l → ∃ m, u.launch i = some m ∧ m = { l with touched := m.touched }

/-- Nothing watches the commons, and no operation waits at a bank: an access there has no effect but its own (R16, R242, R267). -/
def State.still (s : State) : Prop := s.bankQ = [] ∧ s.counting = false ∧ ∀ e ∈ s.ctxs, e.2.futures = []

/-- The registers that a load's value fills (R368): words little-endian, bytes and halves zero- or sign-extended. -/
def loadRule (sz : LoadSize) (v : Nat) (ws : List Word) : Prop :=
  match sz with
  | .w32 => ws = [BitVec.ofNat 32 v]
  | .u8 => ∃ w, ws = [w] ∧ w.toNat = v % 2 ^ 8
  | .u16 => ∃ w, ws = [w] ∧ w.toNat = v % 2 ^ 16
  | .s8 => ∃ w, ws = [w] ∧ w.toInt = if v % 2 ^ 8 < 2 ^ 7 then (v % 2 ^ 8 : Int) else v % 2 ^ 8 - 2 ^ 8
  | .s16 => ∃ w, ws = [w] ∧ w.toInt = if v % 2 ^ 16 < 2 ^ 15 then (v % 2 ^ 16 : Int) else v % 2 ^ 16 - 2 ^ 16
  | .d64 => ws.length = 2 ∧ ∀ i, i < 2 → (ws.getD i 0).toNat = v / 2 ^ (32 * i) % 2 ^ 32
  | .q128 => ws.length = 4 ∧ ∀ i, i < 4 → (ws.getD i 0).toNat = v / 2 ^ (32 * i) % 2 ^ 32

/-- The loads of the executing lanes in turn, from addresses `a`. -/
def View.loadLanes (x : View) (sp : Space) (n : Nat) (a : Nat → DWord) (s : State) : State × List (Nat × Nat) × List LaneFault :=
  overLanes .read (fun s l => loadLane x sp n (a l) s l) (lanesOf x.exec) s
def View.scratchLoads (x : View) (n : Nat) (a : Nat → DWord) (s : State) : State × List (Nat × Nat) × List LaneFault :=
  overLanes .read (fun s l => ldsLane x n (a l) s l) (lanesOf x.exec) s
/-- The state after a load: an operation on its token that will write the lanes' values, if a lane performed. -/
def View.afterLoad (x : View) (sz : LoadSize) (d : VK) (tok : BitVec 3) (lat : Nat) (u : State) (vs : List (Nat × Nat)) : State :=
  if vs.isEmpty then u else u.addOp x tok lat .ready (vs.flatMap fun e => x.b.destWrites d e.1 (sz.extend e.2))

/-- The stores of the acting lanes in turn; `lost`: the lost store that each then reports (R296). -/
def View.storeLanes (x : View) (sp : Space) (u : Bool) (lost : Option DWord) (a : Nat → DWord) (bs : Nat → List Byte) (s : State) :
    State × List (Nat × Unit) × List LaneFault :=
  overLanes .write (fun s l => storeLane x sp lost (a l) (bs l) s l) (x.s.laneOrder (x.actors u)) s
def View.scratchStores (x : View) (u : Bool) (a : Nat → DWord) (bs : Nat → List Byte) (s : State) :
    State × List (Nat × Unit) × List LaneFault :=
  overLanes .write (fun s l => stsLane x (a l) (bs l) s l) (x.s.laneOrder (x.actors u)) s
/-- The state after an instruction with an optional token: an operation on the token it names, if a lane performed. -/
def View.afterStore (x : View) (t : TokOpt) (lat : Nat) (u : State) (performed : Bool) : State :=
  if t.te && performed then u.addOp x t.tok lat .ready [] else u

/-- A lane of an .fe access: its offset, and what it stores. -/
def feLane (a : Nat → DWord) (data : Nat → List Byte) (l : Nat) : FeLane := { lane := l, off := (a l).toNat, data := data l }
/-- The faults that a waiting .fe access holds back (R113). -/
def KeptBack (x : View) (t : State) (fs : List LaneFault) : Prop :=
  ∃ b sp, Store.find t.bunches x.id = some b ∧ Store.find b.splits x.entry = some sp ∧ sp.heldFaults = fs

/-- Atomics of the acting lanes in turn. -/
def View.atomLanes (x : View) (u : Bool) (sp : AtomSpace) (col : AtomCol) (opc : Nat) (lost : Option DWord) (a : Nat → DWord) (b : Nat → Nat)
    (s : State) : State × List (Nat × Nat) × List LaneFault :=
  overLanes .atomic (fun s l => atomLane x sp col opc lost (a l) (b l) s l) (x.s.laneOrder (x.actors u)) s
/-- The state after an atomic that returns the old values: an operation that will write them, and undefined values in the helper lanes
(R30). -/
def View.afterAtom (x : View) (col : AtomCol) (opc : Nat) (d : VK) (tok : BitVec 3) (u : State) (vs : List (Nat × Nat)) : State :=
  let hs := if d.isK then [] else lanesOf (x.exec &&& x.b.helper)
  let ws := (vs.flatMap fun e => x.b.destWrites d e.1 (atomWords col opc e.2)) ++
    hs.flatMap fun l => x.helperWrites d (atomSize col opc / 4) l
  if ws.isEmpty then u else u.addOp x tok latLoad .ready ws

/-- R313: what the location becomes, of `n`-byte numbers: the table's operations; none: it is left as it is. -/
def atomRule (col : AtomCol) (opc old b : Nat) (new : Option Nat) : Prop :=
  match opc with
  | 0 => new = some ((old + b) % 2 ^ 32)
  | 1 => new = some (min old b)
  | 2 => new = some (max old b)
  | 3 => new = some (old &&& b)
  | 4 => new = some (old ||| b)
  | 5 => new = some (old ^^^ b)
  | 6 => new = some b
  | 7 => new = if old = b % 2 ^ 32 then some (b / 2 ^ 32) else none
  | 8 => new = some ((old + b) % 2 ^ 64)
  | 9 => new = some (min old b)
  | 10 => new = some (max old b)
  | 11 => col = .atom → ∃ r, new = some r ∧ r < 2 ^ 32 ∧ (BitVec.ofNat 32 r).toInt = min (BitVec.ofNat 32 old).toInt (BitVec.ofNat 32 b).toInt
  | 12 => col = .atom → ∃ r, new = some r ∧ r < 2 ^ 32 ∧ (BitVec.ofNat 32 r).toInt = max (BitVec.ofNat 32 old).toInt (BitVec.ofNat 32 b).toInt
  | 13 => new = some b
  | 14 => new = if old = b % 2 ^ 64 then some (b / 2 ^ 64) else none
  | 15 => new = some (if b ≤ old then 0 else old + 1)
  | _ => True

/-- The addresses for which PREF begins walks: of executing lanes, aligned, outside the window, on a page that may be cached and that no
TLB of the core covers (R383). -/
def View.prefWalks (x : View) (base : VK) (off : BitVec 29) : List DWord :=
  ((lanesOf x.exec).map (x.addr base off)).filter fun a => prefAsks x a && (x.s.tlbLeaves x.b.core x.b.ctx a.toNat).isEmpty

/-- TLD's index of a lane: RANK registers from B on, signed (R400). -/
def View.tldIndex (x : View) (d : Desc) (b : VK) (l : Nat) : List Int :=
  (List.range 6).map fun i =>
    if i < tdRank d then (match b with
      | .v n => (x.b.vAt (n.toNat + i) l).toInt
      | .k n => (x.kAt (n.toNat + i)).toInt) else 0
/-- The lanes of a TLD in turn, and the state it leaves: flags ORed into FP_STAT, and the operation that will write the words. -/
def View.tldLanes (x : View) (s32 : Bool) (d : Desc) (fill : Word) (b : VK) (s : State) :
    State × List (Nat × Word × BitVec 4) × List LaneFault :=
  overLanes .read (tldLane x s32 d fill (x.tldIndex d b)) (lanesOf x.exec) s
/-- What holds a TLD back: an access of a lane whose element lies in the tensor. -/
def View.tldHeld (x : View) (d : Desc) (b : VK) : Option Wait :=
  x.held .generic .read 1 (fun l => elemVa d (tdPos d (x.tldIndex d b l)))
    ((lanesOf x.exec).filter fun l => tdIn d (x.tldIndex d b l)) false
def View.afterTld (x : View) (d : VK) (tok : BitVec 3) (u : State) (vs : List (Nat × Word × BitVec 4)) : State :=
  let u1 := u.onBunch x.id fun b => { b with fpStat := vs.foldl (fun m e => m ||| e.2.2) b.fpStat }
  if vs.isEmpty then u1 else u1.addOp x tok latLoad .ready (vs.flatMap fun e => x.b.destWrites d e.1 [e.2.1])

/-- The bunch has reached barrier `n`, which has yet to release it (R316). -/
def State.barReached (s : State) (id n : Nat) : Bool :=
  match Store.find s.bunches id with
  | some b => (Store.get {} b.bars n).reached
  | none => false

/-- The tokens that WTOK names. -/
def wtokMask (t : WtokSel) : BitVec 8 :=
  match t with
  | .one n => 1 <<< n.toNat
  | .many m => m

/-! ### Copies and the matrix array -/

/-- The copies whose guard is evaluated once, with guard, token and the registers they read. -/
inductive CopyForm : Instr → Guard → BitVec 3 → List Reg → Prop
  | cpya m spd sps x24 g d a b tok : CopyForm (.cpya m spd sps x24 g d a b tok) g tok (kBlock b.toNat 2)
  | cpyg crc spd sps spi g d a b tok : CopyForm (.cpyg crc spd sps spi g d a b tok) g tok (kBlock b.toNat 4)
  | cpys crc spd g d a b tok : CopyForm (.cpys crc spd g d a b tok) g tok (kBlock b.toNat 10)
  | cpyq crc spd sps g d a b tok : CopyForm (.cpyq crc spd sps g d a b tok) g tok (kBlock b.toNat 4)
  | cpyl crc spd sps prog g d a tok : CopyForm (.cpyl crc spd sps prog g d a tok) g tok []
  | cpyx m sps route g d a b tok : CopyForm (.cpyx m sps route g d a b tok) g tok
      (kBlock d.toNat 2 ++ kBlock a.toNat 2 ++ kBlock b.toNat (if m.chk then 2 else 1))

/-- The copy issues: its operation holds the token, as the run `r`; a full engine leaves the split Blocked until it takes the copy. -/
def Copies (i : Instr) (s : State) (x : View) (tok : BitVec 3) (r : CopyRun) : Prop :=
  (s.copiesOn x.b.core < 64 → Acts i s x (x.startCopy tok r).s) ∧
  (64 ≤ s.copiesOn x.b.core → ∃ t, exec i s = .next t ∧ MovedOn (x.startCopy tok r).s t x.id ∧
    BlockedOn x t (.copyEngine s.nextId) (some x.nextPc))

/-- An engine's read, or write, of `n` bytes at `a` reaches the place `p`: nothing faults, holds it back, or waits at its bank. -/
def Engine.reads (g : Engine) (s : State) (l : Option Nat) (sp : Bool) (a : DWord) (n : Nat) (p : Place) : Prop :=
  enginePlace s g.core g.pad g.ctx l sp a n .read = .ok p ∧ s.poisoned p n = false ∧ s.unreachable g.core p = false ∧
    s.linksIdle = true ∧ s.still
def Engine.writes (g : Engine) (s : State) (l : Option Nat) (sp : Bool) (a : DWord) (n : Nat) (q : Place) : Prop :=
  enginePlace s g.core g.pad g.ctx l sp a n .write = .ok q ∧ s.unreachable g.core q = false ∧ s.linksIdle = true ∧ s.still

/-- A step of a copy writes the bytes `bs` at a place and counts them; nothing else of memory changes. -/
def Puts (y : Except Met (State × CopyRun)) (s : State) (r : CopyRun) (q : Place) (bs : List Byte) : Prop :=
  ∃ t r', y = .ok (t, r') ∧ HoldsBytes t q bs ∧ KeepsOutside s t [q] bs.length ∧ r'.bytes = r.bytes + bs.length

/-- The address of the element at a position, of a byte-sized format (R99). -/
def elemAt (d : Desc) (idx : List Int) : DWord := BitVec.ofInt 64 ((tdBase d : Int) + tdPos d idx * (fmtBytes (tdFmt d) : Nat))
/-- A byte-sized format that a plain copy reads or writes, without a block scale. -/
def plainFmt (d : Desc) : Prop := tdFmt d < 10 ∧ tdScale d = 0

/-- R192: the element at the index vector `i` of the source goes, converted, to `j` of the destination; the bounds rules of each side. -/
def Carries (y : Except Met (State × CopyRun)) (g : Engine) (s : State) (r : CopyRun) (src dst : Desc) (sps spd : Bool) (fill : Nat)
    (i j : List Int) : Prop :=
  ∀ n m, n = fmtBytes (tdFmt src) → m = fmtBytes (tdFmt dst) → plainFmt src → plainFmt dst →
  (∀ p q, tdIn src i = true → tdIn dst j = true → g.reads s (some (tdLayout src)) sps (elemAt src i) n p →
    g.writes s (some (tdLayout dst)) spd (elemAt dst j) m q →
    Puts y s r q (leBytes (convElem (tdFmt src) r.codes { raw := s.natAt p n, scale := none } (tdFmt dst)).bits m)) ∧
  (∀ q, tdIn src i = false → tdBounds src = 1 → tdIn dst j = true → g.writes s (some (tdLayout dst)) spd (elemAt dst j) m q →
    Puts y s r q (leBytes fill m)) ∧
  (∀ p, tdIn src i = true → g.reads s (some (tdLayout src)) sps (elemAt src i) n p → tdIn dst j = false → tdBounds dst = 1 →
    ∃ t r', y = .ok (t, r') ∧ t.mem = s.mem ∧ r'.supp = true ∧ r'.bytes = r.bytes) ∧
  (tdIn src i = false → tdBounds src ≠ 1 → y = .error (.tdescBounds, BitVec.ofInt 64 (tdPos src i))) ∧
  ∀ p, tdIn src i = true → g.reads s (some (tdLayout src)) sps (elemAt src i) n p → tdIn dst j = false → tdBounds dst ≠ 1 →
    y = .error (.tdescBounds, BitVec.ofInt 64 (tdPos dst j))

/-- R101, R189: the number n × 2^-k to INT8, the nearest integer, the even one of two, held to the range; SAT where it is outside. -/
def toInt8Rule (k : Nat) (n : Int) (c : Nat) (sat : Bool) : Prop :=
  let r := (BitVec.ofNat 8 c).toInt
  let off (m : Int) : Nat := (m * 2 ^ k - n).natAbs
  c < 256 ∧ (sat = true ↔ 255 * 2 ^ k ≤ 2 * n ∨ 2 * n < -257 * 2 ^ k) ∧ (255 * 2 ^ k ≤ 2 * n → r = 127) ∧
  (2 * n < -257 * 2 ^ k → r = -128) ∧
  (sat = false → ∀ m : Int, off r ≤ off m ∧ (off m = off r → m ≠ r → r % 2 = 0))

/-- R101, R189: FP32 to BF16, the upper half rounded to the nearest, the even one of two; an overflow gives the largest finite and SAT. -/
def toBf16Rule (w : Word) (c : Conv) : Prop :=
  ∀ up, up = (w.toNat % 2 ^ 31 + 0x7FFF + w.toNat / 2 ^ 16 % 2) / 2 ^ 16 →
    c.bits = w.toNat / 2 ^ 31 * 2 ^ 15 + min up 0x7F7F ∧ (c.sat = true ↔ 0x7F80 ≤ up) ∧ c.inv = false

/-- R196: the scale code of FP32 values whose largest magnitude is `m`, in units of 2^-149, under the bound `top` of the format. -/
def scaleRule (top m e : Nat) : Prop := if m = 0 then e = 0 else m ≤ top * 2 ^ (e + 22) ∧ ∀ d, d < e → top * 2 ^ (d + 22) < m

/-- MMS's registers of the triangular form (R211). -/
def triRegs (c : Option (BitVec 6)) : List Reg :=
  match c with
  | some n => kBlock n.toNat 2
  | none => []
/-- DIAG and the constant of the triangular form; 0 without it. -/
def View.triWord (x : View) (c : Option (BitVec 6)) (i : Nat) : Word :=
  match c with
  | some n => x.kAt (n.toNat + i)
  | none => 0

/-- The instructions of the array, with the registers they read. -/
inductive ArrayForm : Instr → List Reg → Prop
  | wld sps xn b krows : ArrayForm (.wld sps Guard.always xn b krows) (kBlock b.toNat 2)
  | wswp : ArrayForm (.wswp Guard.always) []
  | mms m clr sps t xn b c rows promo trow : ArrayForm (.mms m clr sps Guard.always t xn b c rows promo trow)
      (kBlock b.toNat 2 ++ triRegs c)
  | aprm t : ArrayForm (.aprm Guard.always t) []
  | aclr t : ArrayForm (.aclr Guard.always t) []

/-- A tile addition (R106): the FP32 sum, nearest and even, subnormals kept. -/
def tileRule (a b r : Word) : Prop :=
  f32Finite a → f32Finite b → ∃ flags, nearestRule (f32Val a + f32Val b) 0 (a.getLsbD 31 && b.getLsbD 31) r flags

/-- RoundA26RNE of the exact value n × 2^-k in units of 2^-149 (R106, R93): the nearest A26 value, the even one of two; infinity from
2^128 on, zero of the exact sum's sign below 2^-126, and +0 of an exact zero. -/
def a26Rule (n : Int) (k : Nat) (r : Nat) : Prop :=
  let val (x : Nat) : Int := f32Val (BitVec.ofNat 32 (x * 64))
  let off (x : Nat) : Nat := (val x * 2 ^ k - n).natAbs
  let normal (x : Nat) : Prop := x < 2 ^ 26 ∧ 0 < x / 2 ^ 17 % 256 ∧ x / 2 ^ 17 % 256 < 255
  if n = 0 then r = 0
  else if (2 ^ 19 - 1) * 2 ^ (258 + k) ≤ n.natAbs then r = (if n < 0 then 2 ^ 25 else 0) + 255 * 2 ^ 17
  else if n.natAbs < (2 ^ 19 - 1) * 2 ^ (4 + k) then r = if n < 0 then 2 ^ 25 else 0
  else normal r ∧ (∀ x, normal x → off r ≤ off x ∧ (off x = off r → x ≠ r → r % 2 = 0))

/-- R106: the window sum of finite products, each v × 2^e. -/
def windowRule (ps : List (Int × Int)) (r : Num) : Prop :=
  let scaled (v k : Int) : Int := if 0 ≤ k then v * 2 ^ k.toNat else v / 2 ^ (-k).toNat
  ((∀ p ∈ ps, p.1 = 0) → r = .fin false 0 0) ∧
  ∀ top : Int, (∃ p ∈ ps, p.1 ≠ 0 ∧ top = (Nat.log2 p.1.natAbs : Int) + p.2) →
    (∀ p ∈ ps, p.1 ≠ 0 → (Nat.log2 p.1.natAbs : Int) + p.2 ≤ top) → ∀ w : Int, w = (ps.map fun p => scaled p.1 (38 - top + p.2)).sum →
    r = .fin (decide (w < 0)) w.natAbs (top - 38)

/-- A number with sign. -/
def signed (v e : Int) : Num := .fin (decide (v < 0)) v.natAbs e

/-! ### Casks -/

/-- `u` differs from `s` in memory, and in what hangs on it, alone. -/
def OnlyMemory (s u : State) : Prop :=
  u = { s with mem := u.mem, poison := u.poison, cores := u.cores, caskHid := u.caskHid } ∧ u.pads = s.pads

/-- A per-lane cask instruction: an unbound slot is CASK_STALE in the executing lanes, with the lane's handle where the instruction has
one; else the lanes act on the cask in ascending order, one that faults without effect, a handle whose stave no pool has among them
(R164, R168, R180, R252, R255, R328); while a row's unit that it needs has inserts or removes of earlier clocks to execute, it waits (R19). -/
def ActsOnCask (i : Instr) (s : State) (x : View) (slot : BitVec 4) (lanes : Mask) (d : BitVec 8) (tok : BitVec 3) (handle : Option (BitVec 8))
    (f : Cask → List Nat → State → Nat → Except Met CaskDone) : Prop :=
  ∀ hd, hd = (fun l => match handle with
    | some r => x.b.vAt r.toNat l
    | none => (0 : Word)) →
  (x.slot slot = none → Traps i s x s ((lanesOf x.exec).map fun l =>
    { lane := l, cause := .caskStale, addr := (hd l).setWidth 64, kind := .engine })) ∧
  ∀ b r, x.slot slot = some b → r = (x.perLane lanes d tok false fun t l =>
      if handle.isSome && decide (ckPoolN b.desc ≤ hdStave (hd l)) then .error (.caskStale, (hd l).setWidth 64)
      else (x.open t b).bind fun c => (c.allHomes t).bind fun hs => f c hs t l) →
    ((∀ n, Store.get 0 s.cooperTo n ≤ s.now) → Ends i s x r.s r.faults) ∧
    ∀ n, r.flow = .wait (.cooper n) false → Held i s x (.cooper n)

/-- What one lane of CKINS does (R169). -/
def View.ckins (x : View) (now : Bool) (b : BitVec 8) (n : Nat) (c : Cask) (hs : List Nat) (t : State) (l : Nat) : Except Met CaskDone :=
  let key := (x.vPair b.toNat l).toNat
  let off := (x.vPair (b.toNat + 2) l).toNat
  let cols := x.colsFrom (b.toNat + 4) l n
  if now then c.addNow t hs key off cols
  else if !ckKeyOk c.d key then .ok { s := t, words := [0xFFFFFFF4] }
  else (c.insertNext t hs key off cols false).map fun p =>
    { s := p.s, words := [0xFFFFFFF0], acts := [hmUnit (hs.getD (homeOf hs key) 0)] }

/-- CKREM (R170). -/
def View.ckrem (x : View) (b : BitVec 8) (c : Cask) (hs : List Nat) (t : State) (l : Nat) : Except Met CaskDone :=
  (c.byHandle t hs (x.b.vAt b.toNat l)).bind fun n =>
    if n.elem.live then (c.remove t n.h n.elem.stave n.elem.slot).map fun u => { s := u, words := [0xFFFFFFF0], acts := [hmUnit n.hm] }
    else .ok { s := t, words := [0xFFFFFFF2] }

/-- CKPAY (R172). -/
def View.ckpay (x : View) (b map : BitVec 8) (c : Cask) (hs : List Nat) (t : State) (l : Nat) : Except Met CaskDone :=
  (c.byHandle t hs (x.b.vAt b.toNat l)).map fun n =>
    { s := t, words := (mapCols map).map fun i => BitVec.ofNat 32 (n.elem.cols.getD i 0) }

/-- CKWR (R172): the element's columns, and those of its pending copy. -/
def View.ckwr (x : View) (b map : BitVec 8) (c : Cask) (hs : List Nat) (t : State) (l : Nat) : Except Met CaskDone :=
  (c.byHandle t hs (x.b.vAt b.toNat l)).bind fun n =>
    let vals := (mapCols map).zip (x.colsFrom (b.toNat + 1) l (mapCols map).length)
    (c.putCols t n.elem.stave n.elem.slot vals).bind fun u =>
      match (if n.elem.pmove then c.copyOf u n.elem.stave n.elem.slot else none) with
      | none => .ok { s := u, words := [0xFFFFFFF0] }
      | some p => (c.putCols u p.1 p.2 vals).map fun v => { s := v, words := [0xFFFFFFF0] }

/-- DPST (R345): an insert of the payload's columns into the launch's cask. -/
def View.dpst (x : View) (a b : BitVec 8) (c : Cask) (hs : List Nat) (t : State) (l : Nat) : Except Met CaskDone :=
  c.addNow t hs (x.vPair a.toNat l).toNat 0 (uncutPayload c.d (leNat ((x.colsFrom b.toNat l 4).flatMap fun w => leBytes w 4)))

/-- The state after a cursor, if there is one, has closed, its homes' counts taken back (R175). -/
def State.withoutCursor (s : State) (x : View) (j : Nat) : Except Met State :=
  match Store.find x.b.cursors j with
  | none => .ok s
  | some c => (s.openHomes x.b.core x.b.ctx c.bind.desc (· - 1) c.homes).map fun t =>
      t.onBunch x.id fun q => { q with cursors := Store.erase q.cursors j }

/-- The parts of an operation over all homes of a cask, each at the unit of its home's row (R19). -/
def allParts (hs : List Nat) : List CaskPart :=
  (List.range hs.length).map fun h => { phase := 0, home := h, unit := hmUnit (hs.getD h 0) }

/-- An operation whose first part leaves it with more to do holds its token and waits, and the next part is at its unit (R19). -/
def SentOn (i : Instr) (s : State) (x : View) (tok : BitVec 3) (u : State) (w : CaskWait) : Prop :=
  ∀ v, v = { w with op := u.nextId, lane := lowest x.lanes } →
    ∃ t, exec i s = .next t ∧ MovedOn ((u.addOp x tok latCask .waits (v.owed x.b)).sendPart x.id x.entry x.b.core v) t x.id ∧
      BlockedOn x t (.cask v) (some x.nextPc)

/-! ### Launching and waiting -/

/-- An instruction that is a release at sys scope leaves `u`: where a store of its bunch was lost it reports that instead (R236, R296). -/
def Releases (i : Instr) (s : State) (x : View) (u : State) : Prop :=
  (x.lostFault true .sys = none → Acts i s x (u.ordered x false true)) ∧
  ∀ a, x.lostFault true .sys = some a → Traps i s x (s.tellLost x.id) (faultAll x.exec .linkDown a)

/-! ### Checks before execution (R73) -/

/-- One result of one, two or three sources (R331). -/
def asks1 (roles : List Role) (f : Alu1) : Attr := { guard := f.g, roles, uniform := f.d.isK, reads := f.a.regs, writes := f.d.regs }
def asks2 (roles : List Role) (f : Alu2) : Attr :=
  { guard := f.g, roles, uniform := f.d.isK, reads := f.a.regs ++ f.b.regs, writes := f.d.regs }
def asks3 (roles : List Role) (f : Alu3) : Attr :=
  { guard := f.g, roles, uniform := f.d.isK, reads := f.a.regs ++ f.b.regs ++ f.c.regs, writes := f.d.regs }
def asksCmp (roles : List Role) (f : Cmp) : Attr := { guard := f.g, roles, reads := f.a.regs ++ f.b.regs, writes := [.p f.d.toNat] }
/-- An instruction that acts in lanes, one whose guard is evaluated once, and one that is either (R53). -/
def inLanes (g : Guard) (roles : List Role) (reads : List Reg) (writes : List Reg := []) : Attr := { guard := g, roles, reads, writes }
def once (g : Guard) (roles : List Role) (reads : List Reg) (writes : List Reg := []) : Attr :=
  { guard := g, roles, uniform := true, reads, writes }
def either (g : Guard) (roles : List Role) (u : Bool) (reads : List Reg) (writes : List Reg := []) : Attr :=
  { guard := g, roles, uniform := u, reads, writes }

/-- What an instruction asks of the split that issues it: its guard and whether that is evaluated once (R53), the roles that may issue it
(R40, R406), whether a handler may (R257), the registers it reads and writes (R39, R70) and the lanes in which it does (R37, R176, R378),
and when its operands make it ILLEGAL_OP; `s`, whose descriptors say how many registers CKINS and TLD read. An operation of the device's
agents asks nothing. -/
def asks (s : State) (i : Instr) : Option Attr :=
  match i with
  | .nop => some (inLanes Guard.always allRoles [])
  | .braBase pg _ => some (once (Guard.base pg) allRoles [])
  | .bra g _ => some (once g allRoles [])
  | .braD g _ _ => some (inLanes g allRoles [])
  | .brx g a => some (once g allRoles (kBlock a.toNat 2))
  | .brxD g a b => some (inLanes g noMatrix (vBlock a.toNat 2 ++ kBlock b.toNat 2))
  | .call g _ => some (once g allRoles [] (kBlock 60 2))
  | .ret pg => some (once (Guard.base pg) allRoles (kBlock 60 2))
  | .exit pg => some { inLanes (Guard.base pg) allRoles [] with hnd := .forbidden }
  | .rfill _ => some { inLanes Guard.always vecOnly [] with hnd := .forbidden, ill := View.refillMisplaced }
  | .drain => some { inLanes Guard.always vecOnly [] with hnd := .forbidden }
  | .yield pg => some (once (Guard.base pg) allRoles [])
  | .trap g _ => some (inLanes g allRoles [])
  | .bkpt pg => some (inLanes (Guard.base pg) allRoles [])
  | .cfetch g d _ _ => some (once g allRoles [] [.k d.toNat])
  | .jmpf g _ => some (once g allRoles [])
  | .eret => some { inLanes Guard.always allRoles [] with hnd := .only }
  | .iaddBase _ f | .isubBase _ f | .imulBase f | .imulhBase _ f | .iminBase f | .imaxBase f | .lopBase _ f | .shfBase _ f =>
    some (asks2 allRoles f.alu)
  | .iadd _ f | .isub _ f | .imul f | .imulh _ f | .imin _ f | .imax _ f => some (asks2 allRoles f)
  | .imad m f => some (match m with
    | .low => asks3 allRoles f
    | .wide | .wideU => either f.g allRoles f.d.isK (f.a.regs ++ f.b.regs ++ f.c.regs 2) (f.d.regs 2))
  | .iabsBase _ f | .popcBase f | .clzBase f => some (asks1 allRoles f.alu)
  | .iabs _ f | .bfx _ _ _ f | .popc f | .clz f => some (asks1 allRoles f)
  | .lop _ g d a b => some (asks2 allRoles { g, d, a, b := b.getD (.src (.imm 0)) })
  | .shf _ g d a b c => some (asks3 allRoles { g, d, a, b, c := c.getD (.imm 0) })
  | .bfi _ _ g d a b => some (asks2 allRoles { g, d, a, b := .src b })
  | .leaBase _ f => some (inLanes (Guard.base f.pg) allRoles (vBlock f.a.toNat 2 ++ f.b.srcL.regs) (vBlock f.d.toNat 2))
  | .lea _ _ g d a b => some (either g allRoles d.isK (a.regs 2 ++ b.regs) (d.regs 2))
  | .icmp _ _ f => some (asksCmp allRoles f)
  | .sel w g d a b c => some (either g allRoles d.isK (a.regs (if w then 2 else 1) ++ b.regs (if w then 2 else 1) ++ [selReg c])
      (d.regs (if w then 2 else 1)))
  | .movBase w pg d b => some (inLanes (Guard.base pg) allRoles (b.srcL.regs (if w then 2 else 1)) (vBlock d.toNat (if w then 2 else 1)))
  | .mov w g d b => some (either g allRoles d.isK (b.regs (if w then 2 else 1)) (d.regs (if w then 2 else 1)))
  | .movk g d a lane => some (match lane with
    | none => once g noMatrix [.v a.toNat] [.k d.toNat]
    | some (.imm n) => { once g noMatrix [.v a.toNat] [.k d.toNat] with lane := fun _ => some n.toNat }
    | some (.k n) => { once g noMatrix [.v a.toNat, .k n.toNat] [.k d.toNat] with lane := fun x => some (x.kAt n.toNat).toNat })
  | .faddBase _ f | .fmulBase _ f | .fminBase f | .fmaxBase f => some (asks2 vecEpi f.alu)
  | .fadd _ f | .fmul _ f | .fmin f | .fmax f => some (asks2 vecEpi f)
  | .ffma _ _ _ f | .pfma _ _ _ _ f => some (asks3 vecEpi f)
  | .idp4 _ _ _ f => some (asks3 allRoles f)
  | .fcmp _ f => some (asksCmp vecEpi f)
  | .ftrnRcpBase f => some (asks1 vecEpi f.alu)
  | .ftrn _ f | .cvt _ _ _ _ f | .frnd _ f => some (asks1 vecEpi f)
  | .vote _ g d a => some (match d with
    | .v n => inLanes g noMatrix [.p a.toNat] [.v n.toNat]
    | .p n => inLanes g noMatrix [.p a.toNat] [.p n.toNat]
    | .k n => { once g noMatrix [.p a.toNat] [.k n.toNat] with wide := true })
  | .shfl _ g d a b => some { inLanes g noMatrix (.v a.toNat :: b.regs) [.v d.toNat] with wide := true }
  | .bred _ g d a => some { either g noMatrix d.isK [.v a.toNat] d.regs with wide := d.isK }
  | .bscan _ _ g d a => some (inLanes g noMatrix [.v a.toNat] [.v d.toNat])
  | .matchl g d a => some (inLanes g noMatrix [.v a.toNat] (match d with
    | .any n => [.v n.toNat]
    | .all n => [.p n.toNat]))
  | .qdif _ g d a => some { inLanes g noMatrix [.v a.toNat] [.v d.toNat] with wide := true }
  | .plop _ g d a b => some (inLanes g noMatrix (.p a.toNat :: (match b with
    | some n => [.p n.toNat]
    | none => [])) [.p d.toNat])
  | .ld g sz _ _ d base _ _ | .ldc g sz _ _ d base _ _ => some (either g noMatrix d.isK (base.regs 2) (d.regs sz.regs))
  | .st g sz _ _ base _ b _ | .stc g sz _ _ base _ b _ => some (either g noMatrix (base.isK && !b.isV) (base.regs 2 ++ b.regs sz.regs))
  | .lds g sz _ d base _ _ => some (either g allRoles d.isK base.regs (d.regs sz.regs))
  | .sts g sz _ base _ b _ => some (either g allRoles (base.isK && !b.isV) (base.regs ++ b.regs sz.regs))
  | .ldk g sz _ _ d base _ _ => some (once g allRoles (kBlock base.toNat 2) (kBlock d.toNat sz.regs))
  | .tld _ g d xn b _ _ =>
    let rank := ((s.issuing.bind fun x => s.descriptor x.b.ctx x.id xn.toNat).map tdRank).getD 1
    some { either g noMatrix d.isK (b.regs rank) d.regs with ill := fun _ => match b with
      | .v _ => false
      | .k n => decide (64 < n.toNat + rank) }
  | .pref _ g base _ _ => some (inLanes g noMatrix (base.regs 2))
  | .cctl _ _ g a len _ _ => some (once g noMatrix (kBlock a.toNat 2 ++ len.regs))
  | .atom op _ _ g d base _ b _ => some (either g noMatrix d.isK (base.regs 2 ++ b.regs (atomRegs .atom op.toNat)) (d.regs (atomSize .atom op.toNat / 4)))
  | .atoms op _ _ g d base _ b _ => some (either g noMatrix d.isK (base.regs 2 ++ b.regs (atomRegs .atom op.toNat)) (d.regs (atomSize .atom op.toNat / 4)))
  | .atomc op _ _ g d base _ b _ =>
    some (either g noMatrix d.isK (base.regs 2 ++ b.regs (atomRegs .atomc op.toNat)) (d.regs (atomSize .atomc op.toNat / 4)))
  | .red op _ _ g base _ b _ => some (either g noMatrix (base.isK && !b.isV) (base.regs 2 ++ b.regs (atomRegs .atomc op.toNat)))
  | .fence _ g => some (once g allRoles [])
  | .fenceOpnd g => some (once g allRoles [])
  | .bar g _ _ | .barArrive g _ _ | .barWait g _ => some { once g allRoles [] with hnd := .guarded }
  | .wtok g _ | .mwait g _ | .tsyn g => some (once g allRoles [])
  | .cpy _ _ _ g d a _ _ => some (inLanes g noMatrix (vBlock a.toNat 2 ++ vBlock d.toNat 2))
  | .cpya _ _ _ _ g _ _ b _ => some (once g [.copy] (kBlock b.toNat 2))
  | .cpyg _ _ _ _ g _ _ b _ => some (once g [.copy] (kBlock b.toNat 4))
  | .cpys _ _ g _ _ b _ => some (once g [.copy] (kBlock b.toNat 10))
  | .cpyq _ _ _ g _ _ b _ => some (once g [.copy] (kBlock b.toNat 4))
  | .cpyl _ _ _ _ g _ _ _ => some (once g [.copy] [])
  | .cpyx m _ _ g d a b _ => some (once g [.copy] (kBlock d.toNat 2 ++ kBlock a.toNat 2 ++ kBlock b.toNat (if m.chk then 2 else 1)))
  | .wld _ g _ b _ => some (once g [.matrix] (kBlock b.toNat 2))
  | .wswp g | .aprm g _ | .aclr g _ => some (once g [.matrix] [])
  | .mms _ _ _ g t _ b c _ _ _ => some { once g [.matrix] (kBlock b.toNat 2 ++ match c with
      | some n => kBlock n.toNat 2
      | none => []) with ill := fun x => t.toNat % (x.s.core x.b.core).wAct != 0 }
  | .adrn bias _ g _ _ b _ _ _ => some (once g [.matrix, .epilogue] (kBlock b.toNat (if bias then 4 else 2)))
  | .tdsc g _ a _ _ | .tcod g _ a _ _ => some (once g [.copy] (kBlock a.toNat 2))
  | .tqry g d _ sel _ => some (once g allRoles [] (kBlock d.toNat (if sel = 8 ∨ sel = 9 then 2 else 1)))
  | .ckopn g _ a _ _ => some (once g vecCopy (kBlock a.toNat 2))
  | .ckcls g _ _ => some (once g vecCopy [])
  | .ckrak g d _ _ | .ckcnt g d _ _ => some (once g vecCopy [] [.k d.toNat])
  | .ckins _ g d c b _ => some (inLanes g vecCopy (vBlock b.toNat (4 + ncolOf (s.slotNow c))) [.v d.toNat])
  | .ckrem g d _ b _ => some (inLanes g vecCopy [.v b.toNat] [.v d.toNat])
  | .ckmov _ g d _ b _ => some (inLanes g vecCopy (.v b.toNat :: vBlock (b.toNat + 2) 4) [.v d.toNat])
  | .ckitr m g _ _ => some { once g vecCopy (itrReads m) with ill := fun x => itrBad m ((itrSlot m).bind x.slot) }
  | .cknxt g d j n kc pf px map _ =>
    some { once g vecCopy [] (vBlock d.toNat (7 + (mapCols map).length) ++ [.p pf.toNat, .p px.toNat, .k kc.toNat]) with
      spread := true, ill := fun x => decide (x.b.width < n.toNat + 1) || mapBad ((Store.find x.b.cursors j.toNat).map (·.bind)) map }
  | .ckpay g d c b map _ =>
    some { inLanes g vecCopy [.v b.toNat] (vBlock d.toNat (mapCols map).length) with ill := fun _ => mapBad (s.slotNow c) map }
  | .ckwr g d c b map _ =>
    some { inLanes g vecCopy (vBlock b.toNat (1 + (mapCols map).length)) [.v d.toNat] with ill := fun _ => mapBad (s.slotNow c) map }
  | .dpst g d a b _ => some { inLanes g vecCopy (vBlock a.toNat 2 ++ vBlock b.toNat 4) [.v d.toNat] with ill := fun x => x.launchCask.isNone }
  | .lnch g d a _ _ | .task g d a _ _ => some { once g noMatrix (kBlock a.toNat 2) [.k d.toNat] with hnd := .forbidden }
  | .depd g d a _ _ => some (once g noMatrix (kBlock a.toNat 2) (kBlock d.toNat 2))
  | .cwait _ g d a _ b _ => some { once g noMatrix (kBlock a.toNat 2 ++ kBlock b.toNat 2) [.k d.toNat] with hnd := .forbidden }
  | .garm g d a _ b _ => some (once g noMatrix (kBlock a.toNat 2 ++ [.k b.toNat]) [.k d.toNat])
  | .hpost g d _ b _ => some (once g noMatrix (kBlock b.toNat 4) [.k d.toNat])
  | .hpostFlush g d _ _ => some (once g noMatrix [] [.k d.toNat])
  | .prim g d a b _ => some (once g vecOnly (kBlock a.toNat 7 ++ kBlock b.toNat 2) [.k d.toNat])
  | .primSplat g d a b _ _ => some (once g vecOnly (kBlock a.toNat 2 ++ kBlock b.toNat 2) [.k d.toNat])
  | .primClose g d b _ => some (once g vecOnly (kBlock b.toNat 2) [.k d.toNat])
  | .pseg _ g _ a _ => some (inLanes g vecOnly (vBlock a.toNat 8))
  | .covr _ _ g _ _ b _ => some (once g vecOnly (kBlock b.toNat 4))
  | .csrr g d num => some { once g allRoles [] (kBlock d.toNat 2) with ill := fun x => (x.s.readCsr x.b num.toNat).isNone }
  | .csrw g b num => some { once g noMatrix (b.regs 2) with ill := fun x => (x.s.readCsr x.b num.toNat).isNone }
  | .hmap _ g d a _ | .pgup g d a _ => some { either g allRoles d.isK (a.regs 2) d.regs with hnd := .only }
  | .finfo g d sel _ => some { either g allRoles d.isK [] (d.regs 2) with ill := fun _ => decide (4 < sel.toNat) }
  | .unassignedOpcode _ => some { inLanes Guard.always allRoles [] with ill := fun _ => true }
  | .fpStatClear _ _ | .accPromoWrite _ _ | .registerWrite _ _ _ _ | .queueDoorbell _ _ _ | .hringBaseWrite _ _ _ | .launchCommand _
  | .taskCommand _ | .copyCommand _ | .copyAgentComplete _ | .waitCommand _ | .waitSatisfied _ | .signalCommand _ | .graphCommand _
  | .ringPostCommand _ | .pendingLaunchAccept _ | .dependenceRecordAccept | .graphRecordAccept | .pagerUpcallAccept | .teamPlacement _ _
  | .taskPlacement _ _ | .bunchRetire _ | .launchComplete _ | .rfillWaitEnd _ _ | .drainWaitEnd _ _ | .opportunisticFusion _ _ _
  | .feWaitEnd _ _ | .tokenCompletion _ _ | .copyComplete _ _ | .copyFaultSuspend _ _ | .stopContextRequest _ | .contextCreate _ _
  | .contextReset _ | .splitAgeWatchdog _ _ | .launchDeadlineWatchdog _ | .cwaitSatisfied _ _ | .cwaitSwapOut _
  | .swappedBunchPlacement _ _ | .futureStatusWrite _ _ _ | .savedBunchPlacement _ _ _ | .preemptRequest _ | .preemptTimeout _
  | .contextResume _ | .graphNodeComplete _ _ | .ringCoalesceTimer _ _ | .commonsBankOperation _ _ | .cooperOperation _ _ | .pageWalk _
  | .fencePointAck _ | .fenceCounterFree _ | .matrixCommandStart _ | .matrixCommandComplete _ | .matrixFaultSuspend _
  | .primDeliveryResume _ | .codeParityRefetch _ _ | .poisonError _ | .correctedError _ _ _ | .fatalError _ _ _ | .thermalTrip _
  | .dvfsMeasurement _ _ | .powerCapSet _ | .flitReplay _ | .linkXoff _ _ | .linkXon _ _ | .portDownTimeout _ | .portRetire _
  | .checkpointStart _ | .checkpointEnd | .d3hotEntry | .d3hotExit | .selfRefreshTimer | .deviceReset _ _ | .recoveryImageLoad _ _ _
  | .quoteRequest _ | .portLaneLoss _ _ | .portTrainingComplete _ _ _ _ | .hostCxlMemAccess _ _ | .estateInboundRequest _ _
  | .d3coldEntry | .d0IdleEntry => none

/-- The split that `State.issuer` names comes to an instruction that asks `a`, whose guard has no result outstanding. -/
structure Comes (s : State) (x : View) (a : Attr) : Prop where
  issuing : s.issuing = some { x with exec := x.lanes }
  exec    : x.exec = x.guarded a.guard a.uniform
  guard   : x.b.quiet s.now (.p a.guard.pg.toNat)

/-- Its operands are such that it is no ILLEGAL_OP: lane registers below the budget (R39). -/
def View.legal (x : View) (a : Attr) : Prop :=
  (x.b.role = .matrix ∨ ∀ n, .v n ∈ a.reads ++ a.writes → n < x.b.budget) ∧ a.ill x = false

/-- The bunch's role may issue it (R40); in the matrix role unguarded and over k registers alone (R14, R53). -/
def View.roleMay (x : View) (a : Attr) : Prop :=
  x.b.role ∈ a.roles ∧ (x.b.role = .matrix → a.guard = Guard.always ∧ ∀ r ∈ a.reads ++ a.writes, ∃ n, r = .k n)

/-- A handler may issue it there, and one that only a handler may issue stands in one (R257). -/
def View.handlerMay (x : View) (a : Attr) : Prop :=
  (a.hnd = .only → 4 ≤ x.entry) ∧ (a.hnd = .forbidden ∨ a.hnd = .guarded ∧ x.exec ≠ 0 → x.entry < 4)

/-- An access of a register in the lanes `m` reaches lane `l` of it; a k register has one value for the bunch. -/
def touches (m : Mask) (r : Reg) (l : Nat) : Prop :=
  match r with
  | .k _ => m ≠ 0 ∧ l = 0
  | _ => m.getLsbD l = true

/-- R70: an access in the lanes `m` reads register `r`, or writes it, before an earlier result that it overlaps is written, of fixed
latency or of an operation under way; a k register of another split reads old or new (R67). -/
def View.tooEarly (x : View) (now : Nat) (m : Mask) (write : Bool) (r : Reg) : Prop :=
  r ≠ .p 7 ∧
  ((∃ p ∈ x.b.pends, p.reg = r ∧ now < p.ready ∧ (∃ l, l < 32 ∧ touches m r l ∧ p.lanes.getLsbD l = true) ∧
    (write = true ∨ p.entry = x.entry ∨ ∀ n, r ≠ .k n)) ∨
  ∃ o ∈ x.b.ops, ∃ w ∈ o.writes, w.reg = r ∧ touches m r w.lane ∧ (write = true ∨ o.entry = x.entry ∨ ∀ n, r ≠ .k n))

/-- The registers that hold poison in a lane (R275). -/
def Bunch.holdsPoison (b : Bunch) (r : Reg) (l : Nat) : Prop :=
  match r with
  | .v n => (n, l) ∈ b.poison
  | .k n => (256 + n, 0) ∈ b.poison
  | .p n => (320 + n, l) ∈ b.poison

/-- Uniform instructions that do nothing where their guard is false (R53), with their roles and registers. -/
inductive NoEffect : Instr → Guard → List Role → List Reg → Prop
  | fence sc g : NoEffect (.fence sc g) g allRoles []
  | fenceOpnd g : NoEffect (.fenceOpnd g) g allRoles []
  | bar g b n : NoEffect (.bar g b n) g allRoles []
  | barArrive g b n : NoEffect (.barArrive g b n) g allRoles []
  | barWait g b : NoEffect (.barWait g b) g allRoles []
  | wtok g t : NoEffect (.wtok g t) g allRoles []
  | mwait g m : NoEffect (.mwait g m) g allRoles []
  | tdsc g xd a off tok : NoEffect (.tdsc g xd a off tok) g [.copy] (kBlock a.toNat 2)
  | tcod g tbl a off tok : NoEffect (.tcod g tbl a off tok) g [.copy] (kBlock a.toNat 2)
  | tsyn g : NoEffect (.tsyn g) g allRoles []
  | cctl op sc g a len off tok : NoEffect (.cctl op sc g a len off tok) g noMatrix (kBlock a.toNat 2 ++ len.regs)
  | cfetch g d seg tok : NoEffect (.cfetch g d seg tok) g allRoles [.k d.toNat]
  | ckopn g c a off tok : NoEffect (.ckopn g c a off tok) g vecCopy (kBlock a.toNat 2)
  | ckcls g c tok : NoEffect (.ckcls g c tok) g vecCopy []
  | ckrak g d c tok : NoEffect (.ckrak g d c tok) g vecCopy [.k d.toNat]
  | ckcnt g d c tok : NoEffect (.ckcnt g d c tok) g vecCopy [.k d.toNat]
  | lnch g d a off tok : NoEffect (.lnch g d a off tok) g noMatrix (kBlock a.toNat 2 ++ [.k d.toNat])
  | task g d a off tok : NoEffect (.task g d a off tok) g noMatrix (kBlock a.toNat 2 ++ [.k d.toNat])
  | depd g d a off tok : NoEffect (.depd g d a off tok) g noMatrix (kBlock a.toNat 2 ++ kBlock d.toNat 2)
  | cwait sc g d a off b tok : NoEffect (.cwait sc g d a off b tok) g noMatrix (kBlock a.toNat 2 ++ kBlock b.toNat 2 ++ [.k d.toNat])
  | garm g d a off b tok : NoEffect (.garm g d a off b tok) g noMatrix (kBlock a.toNat 2 ++ [.k b.toNat] ++ [.k d.toNat])
  | hpost g d ring b tok : NoEffect (.hpost g d ring b tok) g noMatrix (kBlock b.toNat 4 ++ [.k d.toNat])
  | prim g d a b tok : NoEffect (.prim g d a b tok) g vecOnly (kBlock a.toNat 7 ++ kBlock b.toNat 2 ++ [.k d.toNat])
  | covr eo clr g d a b tok : NoEffect (.covr eo clr g d a b tok) g vecOnly (kBlock b.toNat 4)
  | csrw g b num : NoEffect (.csrw g b num) g noMatrix (b.regs 2)

/-! ### Operations of the device's agents -/

/-- `t` differs from `s` in context `c` alone. -/
def OnlyContext (s t : State) (c : Nat) : Prop := t = { s with ctxs := t.ctxs } ∧ ∀ n, n ≠ c → t.ctx n = s.ctx n

/-- One entry has been added to the journal, with the next number (R227, R228). -/
structure Logs (s u : State) (e : JEntry) : Prop where
  seq  : e.seq = s.jseq
  next : u.jseq = s.jseq + 1
  size : u.journal.length = s.journal.length + 1
  last : u.journal.getLast? = some e

/-- The journal entry of a queue's turn, and its HEAD one further (R223, R227). -/
def Journals (s u : State) (q : Nat) (t : Turn) (st : Nat) : Prop :=
  Logs s u { seq := s.jseq, source := q, ctx := t.q.ctx, kind := t.kind, state := st, digest := t.digest, tag := t.tag, ref := t.va } ∧
  (Store.get {} u.queues q).head = t.q.head + 1

/-- The journal after the entries with number `seq` have taken a state (R227). -/
def State.journalAt (s : State) (seq st : Nat) : List JEntry := s.journal.map fun e => if e.seq = seq then { e with state := st } else e

/-- A launch or task as it enters the launches, or none. -/
def State.entered (s : State) (src : Source) (l : Option Launch) : Store Launch :=
  match l with
  | some y => Store.insert s.launches s.nextId { y with src, seq := s.jseq, since := s.now }
  | none => s.launches

/-- An operation of a bunch has its results and waits for TOKEN_COMPLETION. -/
def Delivered (s u : State) (bunch op : Nat) (ws : List Word) : Prop :=
  ∀ b o, Store.find s.bunches bunch = some b → o ∈ b.ops → o.id = op → ∃ c, Store.find u.bunches bunch = some c ∧
    { o.setWords ws with job := TokJob.ready } ∈ c.ops

/-- `u` differs from `s` in one bunch, which is `b`. -/
def OnlyBunch (s u : State) (id : Nat) (b : Bunch) : Prop := u = { s with bunches := u.bunches } ∧ Store.find u.bunches id = some b ∧
  ∀ i, i ≠ id → Store.find u.bunches i = Store.find s.bunches i

/-- A write of a completing operation takes effect: neither spoiled (R70) nor into a lane that was filled since (R34). -/
def RegWrite.counts (w : RegWrite) (b : Bunch) : Prop := w.undef = false ∧ w.drop = false ∧ w.lane < 32 ∧
  ((∃ n, w.reg = .k n) ∨ b.gen w.lane = w.gen) ∧ w.reg ≠ .p 7

/-- What a register holds after that write. -/
def RegWrite.word (w : RegWrite) : Word :=
  match w.reg with
  | .p _ => asWord (w.val != 0)
  | _ => w.val

/-- `u` is `v` after the stores that have no route left are lost (R296): their fence counters are gone, the first release of each source
will be told, and each of their bytes is as it was before the store or as stored (log entry 36). -/
structure Loses (v u : State) : Prop where
  state : u = { v with lost := u.lost, fence := u.fence, mem := u.mem }
  fence : u.fence = v.fence.filter fun f => !v.lostAt f
  told  : u.lost = v.lost ++ (v.fence.filter v.lostAt).map fun f => { src := f.src, va := f.va }
  bytes : ∀ k, u.mem.read k = v.mem.read k ∨ ∃ f ∈ v.fence, v.lostAt f = true ∧ (k, u.mem.read k) ∈ f.olds

/-- Two writes are of the same register word. -/
def RegWrite.meets (w v : RegWrite) : Prop := w.reg = v.reg ∧ ((∃ n, w.reg = .k n) ∨ w.lane = v.lane)

end Sys2Proof.Machine
end

