-- ==== Sys2Proof/Certificates/Slice0/Obligations.lean ====
section
/-! DEFINITION. The statements for the provers. Those on an instruction say where it executes, what it writes and that nothing
else changes (`Wrote`, `MovedOn`). -/

section
open Sys2Proof Sys2Proof.Machine

/-! ### Integer instructions -/

/-- R361, R372: IADD and ISUB in every form; LEA adds to a 64-bit pair, so the carry crosses into the high half. -/
def Obligations.IntegerSums : Prop :=
  ((∀ sat f, Computes2 (.iaddBase sat f) allRoles f.alu (sumRule false (satMode sat))) ∧
  (∀ m f, Computes2 (.iadd m f) allRoles f (sumRule false m)) ∧
  (∀ sat f, Computes2 (.isubBase sat f) allRoles f.alu (sumRule true (satMode sat))) ∧
  (∀ m f, Computes2 (.isub m f) allRoles f (sumRule true m))) ∧
  ((∀ sgn f s x, Runs s x f.alu.g false allRoles (vBlock f.a.toNat 2 ++ f.alu.b.regs ++ vBlock f.d.toNat 2) →
    ∃ t v, exec (.leaBase sgn f) s = .next t ∧ Wrote s x t x.b.fpStat (x.pair f.alu.d v) ∧
      ∀ l, leaRule sgn 0 (x.vPair f.a.toNat l) (x.wordL f.alu.b l) (v l)) ∧
  ∀ sgn shift g d a b s x, Runs s x g d.isK allRoles (a.regs 2 ++ b.regs ++ d.regs 2) →
    ∃ t v, exec (.lea sgn shift g d a b) s = .next t ∧ Wrote s x t x.b.fpStat (x.pair d v) ∧
      ∀ l, leaRule sgn shift.toNat (x.vkPair a l) (x.wordL b l) (v l))

/-- R366, R364: IMUL, IMULH and IMAD; under .wide the result fills a pair. -/
def Obligations.IntegerProducts : Prop :=
  (∀ f, Computes2 (.imulBase f) allRoles f.alu fun a b r => r.toNat = a.toNat * b.toNat % 2 ^ 32) ∧
  (∀ f, Computes2 (.imul f) allRoles f fun a b r => r.toNat = a.toNat * b.toNat % 2 ^ 32) ∧
  (∀ u f, Computes2 (.imulhBase u f) allRoles f.alu (highRule u)) ∧
  (∀ u f, Computes2 (.imulh u f) allRoles f (highRule u)) ∧
  (∀ f, Computes3 (.imad .low f) allRoles f fun a b c r => r.toNat = (a.toNat * b.toNat + c.toNat) % 2 ^ 32) ∧
  ∀ u f s x, Runs s x f.g f.d.isK allRoles (f.a.regs ++ f.b.regs ++ f.c.regs 2 ++ f.d.regs 2) →
    ∃ t v, exec (.imad (if u then .wideU else .wide) f) s = .next t ∧ Wrote s x t x.b.fpStat (x.pair f.d v) ∧
      ∀ l, wideRule u (x.word f.a l) (x.wordL f.b l) (x.dword f.c l) (v l)

/-- R365, R360, R362: IMIN, IMAX and IABS; ICMP's predicate, lane by lane, which p7 discards (R57). -/
def Obligations.IntegerOrder : Prop :=
  ((∀ f, Computes2 (.iminBase f) allRoles f.alu (pickRule false false)) ∧
  (∀ u f, Computes2 (.imin u f) allRoles f (pickRule false u)) ∧
  (∀ f, Computes2 (.imaxBase f) allRoles f.alu (pickRule true false)) ∧
  (∀ u f, Computes2 (.imax u f) allRoles f (pickRule true u)) ∧
  (∀ sat f, Computes1 (.iabsBase sat f) allRoles f.alu (absRule sat)) ∧
  (∀ sat f, Computes1 (.iabs sat f) allRoles f (absRule sat))) ∧
  (∀ c u f s x, Runs s x f.g false allRoles (f.a.regs ++ f.b.regs ++ [.p f.d.toNat]) →
    ∃ t p, exec (.icmp c u f) s = .next t ∧ Wrote s x t x.b.fpStat (x.pred f.d p) ∧
      ∀ l, p l = true ↔ condRule c u (x.word f.a l) (x.wordL f.b l))

/-- R374, R389: LOP and SHF; .not has no operand B, and only .f an operand C. -/
def Obligations.LogicAndShifts : Prop :=
  (∀ o f, Computes2 (.lopBase o f) allRoles f.alu (logicRule (if o then .or else .and))) ∧
  (∀ op g d a b, Computes2 (.lop op g d a (some b)) allRoles { g, d, a, b } (logicRule op)) ∧
  (∀ g d a, Computes1 (.lop .not g d a none) allRoles { g, d, a } fun a r => logicRule .not a 0 r) ∧
  (∀ r f, Computes2 (.shfBase r f) allRoles f.alu fun a b y => shiftRule (if r then .r else .l) a b 0 y) ∧
  (∀ op g d a b, op ≠ .f → Computes2 (.shf op g d a b none) allRoles { g, d, a, b } fun a b y => shiftRule op a b 0 y) ∧
  (∀ op g d a b c, Computes3 (.shf op g d a b (some c)) allRoles { g, d, a, b, c } (shiftRule op))

/-- R317, R382, R333, R363: bit fields, bit counts and the byte dot product. -/
def Obligations.BitFields : Prop :=
  (∀ s pos wm1 f, Computes1 (.bfx s pos wm1 f) allRoles f (extractRule s pos.toNat (wm1.toNat + 1))) ∧
  (∀ pos wm1 g d a b, Computes2 (.bfi pos wm1 g d a b) allRoles { g, d, a, b := .src b } (insertRule pos.toNat (wm1.toNat + 1))) ∧
  (∀ f, Computes1 (.popcBase f) allRoles f.alu countRule) ∧ (∀ f, Computes1 (.popc f) allRoles f countRule) ∧
  (∀ f, Computes1 (.clzBase f) allRoles f.alu leadingRule) ∧ (∀ f, Computes1 (.clz f) allRoles f leadingRule) ∧
  (∀ ua ub sat f, Computes3 (.idp4 ua ub sat f) allRoles f (dotRule ua ub sat))

/-- R377, R378, R388: moves and selection, of words and of pairs. -/
def Obligations.Moves : Prop :=
  (∀ pg d b s x, Runs s x { pn := false, pg } false allRoles (b.srcL.regs ++ [.v d.toNat]) →
    ∃ t, exec (.movBase false pg d b) s = .next t ∧ Wrote s x t x.b.fpStat (x.one (.v (d.setWidth 8)) (x.wordL b.srcL))) ∧
  (∀ pg d b s x, Runs s x { pn := false, pg } false allRoles (b.srcL.regs 2 ++ vBlock d.toNat 2) →
    ∃ t, exec (.movBase true pg d b) s = .next t ∧ Wrote s x t x.b.fpStat (x.pair (.v (d.setWidth 8)) (x.dwordL b.srcL))) ∧
  (∀ g d b s x, Runs s x g d.isK allRoles (b.regs ++ d.regs) →
    ∃ t, exec (.mov false g d b) s = .next t ∧ Wrote s x t x.b.fpStat (x.one d (x.wordL b))) ∧
  (∀ g d b s x, Runs s x g d.isK allRoles (b.regs 2 ++ d.regs 2) →
    ∃ t, exec (.mov true g d b) s = .next t ∧ Wrote s x t x.b.fpStat (x.pair d (x.dwordL b))) ∧
  (∀ g d a s x, Runs s x g true noMatrix [.v a.toNat, .k d.toNat] →
    ∃ t, exec (.movk g d a none) s = .next t ∧ Wrote s x t x.b.fpStat
      (x.one (.k d) fun _ => if lowest x.lanes < x.b.width then x.b.vAt a.toNat (lowest x.lanes) else 0)) ∧
  (∀ g d a n s x, Runs s x g true noMatrix [.v a.toNat, .k n.toNat, .k d.toNat] →
    ∃ t, exec (.movk g d a (some (.k n))) s = .next t ∧ Wrote s x t x.b.fpStat
      (x.one (.k d) fun _ => if (x.b.kAt n.toNat).toNat < x.b.width then x.b.vAt a.toNat (x.b.kAt n.toNat).toNat else 0)) ∧
  (∀ g d a n s x, Runs s x g true noMatrix [.v a.toNat, .k d.toNat] →
    ∃ t, exec (.movk g d a (some (.imm n))) s = .next t ∧ Wrote s x t x.b.fpStat
      (x.one (.k d) fun _ => if n.toNat < x.b.width then x.b.vAt a.toNat n.toNat else 0)) ∧
  (∀ g d a b c s x, Runs s x g d.isK allRoles (a.regs ++ b.regs ++ [selReg c] ++ d.regs) →
    ∃ t, exec (.sel false g d a b c) s = .next t ∧ Wrote s x t x.b.fpStat
      (x.one d fun l => if x.selHolds c l then x.word a l else x.wordL b l)) ∧
  (∀ g d a b c s x, Runs s x g d.isK allRoles (a.regs 2 ++ b.regs 2 ++ [selReg c] ++ d.regs 2) →
    ∃ t, exec (.sel true g d a b c) s = .next t ∧ Wrote s x t x.b.fpStat
      (x.pair d fun l => if x.selHolds c l then x.dword a l else x.dwordL b l))

/-! ### Float instructions -/

/-- R349 to R354, R379: the float arithmetic executes with the result and flags of its rounding functions, FTZ from CTX_CTL but
for PFMA, and the flags of the executing lanes are ORed into FP_STAT (R102). -/
def Obligations.FloatArithmetic : Prop :=
  (∀ sat f, Floats2 (.faddBase sat f) f.alu fun z a b => satW sat (fadd32 z a b)) ∧
  (∀ sat f, Floats2 (.fadd sat f) f fun z a b => satW sat (fadd32 z a b)) ∧
  (∀ sat f, Floats2 (.fmulBase sat f) f.alu fun z a b => satW sat (fmul32 z a b)) ∧
  (∀ sat f, Floats2 (.fmul sat f) f fun z a b => satW sat (fmul32 z a b)) ∧
  (∀ sat na nc f, Floats3 (.ffma sat na nc f) f fun z a b c => satW sat (ffma32 z na nc a b c)) ∧
  (∀ f, Floats2 (.fminBase f) f.alu fmin32) ∧ (∀ f, Floats2 (.fmin f) f fmin32) ∧
  (∀ f, Floats2 (.fmaxBase f) f.alu fmax32) ∧ (∀ f, Floats2 (.fmax f) f fmax32) ∧
  (∀ bf sat na nc f, Floats3 (.pfma bf sat na nc f) f fun _ a b c => pfmaFn bf sat na nc a b c) ∧
  ∀ c f s x, Runs s x f.g false vecEpi (f.a.regs ++ f.b.regs ++ [.p f.d.toNat]) →
    ∃ t, exec (.fcmp c f) s = .next t ∧
      Wrote s x t ((lanesOf x.exec).foldl (fun m l =>
          m ||| (Fmt.f32.compare c x.ftz (x.word f.a l).toNat (x.wordL f.b l).toNat).2) x.b.fpStat)
        (x.pred f.d fun l => (Fmt.f32.compare c x.ftz (x.word f.a l).toNat (x.wordL f.b l).toNat).1)

/-- R355, R341, R354: FTRN, CVT and FRND; CVT to or from A26 (code 10) traps TDESC_FORMAT (R93). And what rounding is, of FADD and FMUL
(R101 to R103, R349): the nearest FP32 number to the exact sum or product, the even one of two; overflow, underflow, NaNs and invalid
operations, with their flags; .sat clamps to [0, 1], a NaN giving 0. -/
def Obligations.FloatFunctions : Prop :=
  (∀ f, Floats1 (.ftrnRcpBase f) f.alu (ftrnFn .rcp)) ∧ (∀ fn f, Floats1 (.ftrn fn f) f (ftrnFn fn)) ∧
  (∀ rm f, Floats1 (.frnd rm f) f fun z a => w2 (Fmt.f32.rint rm z a.toNat)) ∧
  (∀ sat src dst rm f, src ≠ 10 → dst ≠ 10 → Floats1 (.cvt sat src dst rm f) f fun _ a => cvtFn sat src.toNat dst.toNat rm a) ∧
  (∀ sat src dst rm f s x, src = 10 ∨ dst = 10 → Runs s x f.g f.d.isK vecEpi (f.a.regs ++ f.d.regs) → x.exec ≠ 0 →
    Traps (.cvt sat src dst rm f) s x s (faultAll x.exec .tdescFormat 0)) ∧
  (∀ a b r fl, fadd32 false a b = (r, fl) → nanRule a b r fl ∧
    (f32Finite a → f32Finite b → nearestRule (f32Val a + f32Val b) 0 (a.getLsbD 31 && b.getLsbD 31) r fl) ∧
    (f32Inf a → f32Finite b → r = a ∧ fl = 0) ∧ (f32Finite a → f32Inf b → r = b ∧ fl = 0) ∧
    (f32Inf a → f32Inf b → if a = b then r = a ∧ fl = 0 else r = 0x7FC00000 ∧ fl = 1)) ∧
  (∀ a b r fl, fmul32 false a b = (r, fl) → nanRule a b r fl ∧
    (f32Finite a → f32Finite b → nearestRule (f32Val a * f32Val b) 149 (a.getLsbD 31 != b.getLsbD 31) r fl) ∧
    ((f32Inf a ∧ ¬ f32Nan b) ∨ (f32Inf b ∧ ¬ f32Nan a) → if (f32Finite a ∧ f32Val a = 0) ∨ (f32Finite b ∧ f32Val b = 0) then
      r = 0x7FC00000 ∧ fl = 1 else r = (if a.getLsbD 31 = b.getLsbD 31 then 0x7F800000 else 0xFF800000) ∧ fl = 0)) ∧
  ∀ r fl, satW false (r, fl) = (r, fl) ∧ satW true (r, fl) = (if f32Nan r ∨ r.getLsbD 31 = true then 0
    else if 0x3F800000 ≤ r.toNat then 0x3F800000 else r, fl)

/-! ### Bunch-wide instructions -/

/-- R402, R390, R375, R381: votes, shuffles, matches and predicate logic. -/
def Obligations.VotesAndShuffles : Prop :=
  (∀ op g d a s x, Runs s x g (vkpIsK d) noMatrix [.p a.toNat, vkpReg d] →
    ∃ t r, exec (.vote op g d a) s = .next t ∧ Wrote s x t x.b.fpStat (x.vkp d r) ∧
      (x.exec ≠ 0 → voteRule op (if vkpIsK d then x.sp.mask else x.exec) (x.b.pAt a.toNat) r)) ∧
  (∀ op g d a b s x, Runs s x g false noMatrix (.v a.toNat :: b.regs ++ [.v d.toNat]) →
    ∃ t, exec (.shfl op g d a b) s = .next t ∧ Wrote s x t x.b.fpStat (x.one (.v d) (x.shuffled op a b))) ∧
  (∀ g d a s x, Runs s x g false noMatrix [.v a.toNat, .v d.toNat] →
    ∃ t v, exec (.matchl g (.any d) a) s = .next t ∧ Wrote s x t x.b.fpStat (x.one (.v d) v) ∧
      ∀ l j, l < 32 → j < 32 → (v l).getLsbD j = (x.exec.getLsbD j && (x.b.vAt a.toNat j == x.b.vAt a.toNat l))) ∧
  (∀ g d a s x, Runs s x g false noMatrix [.v a.toNat, .p d.toNat] →
    ∃ t p, exec (.matchl g (.all d) a) s = .next t ∧ Wrote s x t x.b.fpStat (x.pred d fun _ => p) ∧
      (p = true ↔ ∀ l j, x.exec.getLsbD l = true → x.exec.getLsbD j = true → x.b.vAt a.toNat l = x.b.vAt a.toNat j)) ∧
  (∀ op g d a b s x, Runs s x g false noMatrix [.p a.toNat, .p b.toNat, .p d.toNat] →
    ∃ t p, exec (.plop op g d a (some b)) s = .next t ∧ Wrote s x t x.b.fpStat (x.pred d p) ∧
      ∀ l, plopRule op ((x.b.pAt a.toNat).getLsbD l) ((x.b.pAt b.toNat).getLsbD l) (p l)) ∧
  (∀ op g d a s x, Runs s x g false noMatrix [.p a.toNat, .p d.toNat] →
    ∃ t p, exec (.plop op g d a none) s = .next t ∧ Wrote s x t x.b.fpStat (x.pred d p) ∧
      ∀ l, plopRule op ((x.b.pAt a.toNat).getLsbD l) false (p l))

/-- R320 to R322, R284: reductions over the contributors by the fixed tree (for .add, their sum), scans, and quad
differences. -/
def Obligations.Reductions : Prop :=
  (∀ op g d a s x, Runs s x g d.isK noMatrix ([.v a.toNat] ++ d.regs) →
    ∃ t, exec (.bred op g d a) s = .next t ∧
      Wrote s x t (if x.exec = 0 then x.b.fpStat else x.b.fpStat ||| (bredFn op (if d.isK then x.sp.mask else x.exec) (x.b.vAt a.toNat)).2)
        (x.one d fun _ => (bredFn op (if d.isK then x.sp.mask else x.exec) (x.b.vAt a.toNat)).1)) ∧
  (∀ (c : Mask) f, (bredFn .add c f).1 = (lanesOf c).foldl (fun m l => m + f l) 0) ∧
  (∀ op excl g d a s x, Runs s x g false noMatrix [.v a.toNat, .v d.toNat] →
    ∃ t, exec (.bscan op excl g d a) s = .next t ∧ Wrote s x t x.b.fpStat (x.one (.v d) (x.scanned op excl a))) ∧
  ∀ y g d a s x, Runs s x g false noMatrix [.v a.toNat, .v d.toNat] →
    ∃ t, exec (.qdif y g d a) s = .next t ∧ ∀ q : Nat → Word × BitVec 4,
      (∀ l, q l = let j := l ^^^ (if y then 2 else 1)
        if x.sp.mask.getLsbD j = false then (0, 0) else qdifFn (x.b.vAt a.toNat (max l j)) (x.b.vAt a.toNat (min l j))) →
      Wrote s x t (x.sticky (.v d) fun l => (q l).2) (x.one (.v d) fun l => (q l).1)

/-! ### Control -/

/-- R61, R319, R386, R324, R232: NOP and the uniform branches: the split goes on at the target in the executing case, else at
the next instruction; a target off a bundle traps BRANCH_ALIGN, tested by BRA and CALL whatever the guard. -/
def Obligations.Branches : Prop :=
  (∀ s x, Runs s x Guard.always false allRoles [] → ∃ t, exec .nop s = .next t ∧ MovedOn s t x.id ∧ GoesOn x t x.nextPc) ∧
  (∀ pg off s x, Runs s x { pn := false, pg } true allRoles [] →
    (onBundle (x.sp.pc.bundle + 4 * off.signExtend 64) → ∃ t, exec (.braBase pg off) s = .next t ∧ MovedOn s t x.id ∧
      GoesOn x t (if x.exec = 0 then x.nextPc else { bundle := x.sp.pc.bundle + 4 * off.signExtend 64, slot := 0 })) ∧
    (¬ onBundle (x.sp.pc.bundle + 4 * off.signExtend 64) →
      Traps (.braBase pg off) s x s (faultAll x.lanes .branchAlign (x.sp.pc.bundle + 4 * off.signExtend 64)))) ∧
  (∀ g off s x, Runs s x g true allRoles [] →
    (onBundle (x.sp.pc.bundle + 4 * off.signExtend 64) → ∃ t, exec (.bra g off) s = .next t ∧ MovedOn s t x.id ∧
      GoesOn x t (if x.exec = 0 then x.nextPc else { bundle := x.sp.pc.bundle + 4 * off.signExtend 64, slot := 0 })) ∧
    (¬ onBundle (x.sp.pc.bundle + 4 * off.signExtend 64) →
      Traps (.bra g off) s x s (faultAll x.lanes .branchAlign (x.sp.pc.bundle + 4 * off.signExtend 64)))) ∧
  (∀ g a s x, Runs s x g true allRoles (kBlock a.toNat 2) →
    (x.exec = 0 ∨ onBundle (x.kPair a.toNat) → ∃ t, exec (.brx g a) s = .next t ∧ MovedOn s t x.id ∧
      GoesOn x t (if x.exec = 0 then x.nextPc else { bundle := x.kPair a.toNat, slot := 0 })) ∧
    (x.exec ≠ 0 → ¬ onBundle (x.kPair a.toNat) → Traps (.brx g a) s x s (faultAll x.lanes .branchAlign (x.kPair a.toNat)))) ∧
  (∀ pg s x, Runs s x { pn := false, pg } true allRoles (kBlock 60 2) →
    (x.exec = 0 ∨ onBundle (x.kPair 60) → ∃ t, exec (.ret pg) s = .next t ∧ MovedOn s t x.id ∧
      GoesOn x t (if x.exec = 0 then x.nextPc else { bundle := x.kPair 60, slot := 0 })) ∧
    (x.exec ≠ 0 → ¬ onBundle (x.kPair 60) → Traps (.ret pg) s x s (faultAll x.lanes .branchAlign (x.kPair 60)))) ∧
  (∀ g off s x, Runs s x g true allRoles (kBlock 60 2) →
    (onBundle (x.sp.pc.bundle + 4 * off.signExtend 64) → ∃ t, exec (.call g off) s = .next t ∧
      Wrote s x t x.b.fpStat (x.pair (.k 60) fun _ => x.sp.pc.bundle + 128) ∧
      GoesOn x t (if x.exec = 0 then x.nextPc else { bundle := x.sp.pc.bundle + 4 * off.signExtend 64, slot := 0 })) ∧
    (¬ onBundle (x.sp.pc.bundle + 4 * off.signExtend 64) →
      Traps (.call g off) s x s (faultAll x.lanes .branchAlign (x.sp.pc.bundle + 4 * off.signExtend 64)))) ∧
  ∀ g off s x, Runs s x g true allRoles [] → onBundle (x.sp.pc.bundle + 4 * off.signExtend 64) →
    (x.exec = 0 ∨ hasLanded s x (x.sp.pc.bundle + 4 * off.signExtend 64) → ∃ t, exec (.jmpf g off) s = .next t ∧ MovedOn s t x.id ∧
      GoesOn x t (if x.exec = 0 then x.nextPc else { bundle := x.sp.pc.bundle + 4 * off.signExtend 64, slot := 0 })) ∧
    (x.exec ≠ 0 → ¬ hasLanded s x (x.sp.pc.bundle + 4 * off.signExtend 64) →
      Traps (.jmpf g off) s x s (faultAll x.lanes .codeAbsent (x.sp.pc.bundle + 4 * off.signExtend 64) .fetch))

/-- R42, R323: BRA.D and BRX.D: one way, or a divergence whose groups are the executing lanes by target and the others at the
next instruction; SPLIT_DEPTH where the stack has no room; BRANCH_ALIGN for a target or reconvergence address off a bundle. -/
def Obligations.Divergence : Prop :=
  (∀ g off ro s x, Runs s x g false allRoles [] → ∀ tgt rc, tgt = x.sp.pc.bundle + 4 * off.signExtend 64 →
    rc = x.sp.pc.bundle + 4 * ro.signExtend 64 →
    (¬ onBundle tgt → Traps (.braD g off ro) s x s (faultAll x.lanes .branchAlign tgt)) ∧
    (onBundle tgt → ¬ onBundle rc → Traps (.braD g off ro) s x s (faultAll x.lanes .branchAlign rc)) ∧
    (onBundle tgt → onBundle rc →
      (x.exec = x.lanes → ∃ t, exec (.braD g off ro) s = .next t ∧ MovedOn s t x.id ∧ GoesOn x t { bundle := tgt, slot := 0 }) ∧
      (x.exec = 0 → x.exec ≠ x.lanes → ∃ t, exec (.braD g off ro) s = .next t ∧ MovedOn s t x.id ∧ GoesOn x t x.nextPc) ∧
      (x.exec ≠ 0 → x.exec ≠ x.lanes → x.depthAfter 2 ≤ 8 → ∃ t, exec (.braD g off ro) s = .next t ∧
        Diverged s x t [({ bundle := tgt, slot := 0 }, x.exec), (x.nextPc, x.lanes &&& ~~~x.exec)] rc) ∧
      (x.exec ≠ 0 → x.exec ≠ x.lanes → 8 < x.depthAfter 2 → Traps (.braD g off ro) s x s (faultAll x.lanes .splitDepth 0)))) ∧
  ∀ g a b s x, Runs s x g false noMatrix (vBlock a.toNat 2 ++ kBlock b.toNat 2) →
    (∀ l, l < 32 → x.exec.getLsbD l = true → onBundle (x.vPair a.toNat l)) →
    ∀ gs, gs = groupLanes (fun l => if x.exec.getLsbD l then { bundle := x.vPair a.toNat l, slot := 0 } else x.nextPc)
      (lanesOf x.lanes) [] →
    (∀ pc m, gs = [(pc, m)] → ∃ t, exec (.brxD g a b) s = .next t ∧ MovedOn s t x.id ∧ GoesOn x t pc) ∧
    (2 ≤ gs.length → ¬ onBundle (x.kPair b.toNat) → Traps (.brxD g a b) s x s (faultAll x.lanes .branchAlign (x.kPair b.toNat))) ∧
    (2 ≤ gs.length → onBundle (x.kPair b.toNat) → x.depthAfter gs.length ≤ 8 → ∃ t, exec (.brxD g a b) s = .next t ∧
      Diverged s x t gs (x.kPair b.toNat)) ∧
    (2 ≤ gs.length → onBundle (x.kPair b.toNat) → 8 < x.depthAfter gs.length →
      Traps (.brxD g a b) s x s (faultAll x.lanes .splitDepth 0))

/-- R33, R405: EXIT parks the executing lanes for good: no register changes; where lanes remain, the split goes on with them. YIELD
loses the greedy choice. Where none remain, the split arrives: it reconverges (R43), or without a stack it is free, and a bunch left
without a split gets one with an empty mask at the refill point while it may still refill (R35). -/
def Obligations.ExitAndYield : Prop :=
  (∀ pg s x, Runs s x { pn := false, pg } false allRoles [] → x.entry < 4 → ∃ t b, exec (.exit pg) s = .next t ∧
    t = { s with bunches := t.bunches, cores := t.cores, teams := t.teams } ∧
    (∀ c, t.core c = { s.core c with quads := (t.core c).quads }) ∧
    (∀ i c, i ≠ x.id → Store.find s.bunches i = some c → ∃ c', Store.find t.bunches i = some c' ∧ c' = { c with bars := c'.bars }) ∧
    Store.find t.bunches x.id = some b ∧
    b = { x.b with
      active := x.b.active &&& ~~~x.exec, helper := x.b.helper &&& ~~~x.exec
      splits := b.splits, bars := b.bars, pends := b.pends, poison := b.poison, lastPc := b.lastPc } ∧
    (x.sp.mask &&& ~~~x.exec ≠ 0 → ¬ x.reconverges x.nextPc →
      ∃ sp, Store.find b.splits x.entry = some sp ∧ sp.mask = x.sp.mask &&& ~~~x.exec ∧ sp.pc = x.nextPc) ∧
    (x.sp.mask &&& ~~~x.exec = 0 → x.exec ≠ 0 → Reconverged x.emptied t ∧
      (x.sp.stack = [] → (∀ i, i ≠ x.entry → Store.find x.b.splits i = none) →
        (s.refills x.b = true → x.b.drained = false → ∀ l, s.launch x.b.launch = some l → ∃ sp, b.splits = [(0, sp)] ∧ sp.mask = 0 ∧
          sp.stack = [] ∧ sp.pc = { bundle := lrEntry l.raw + lrRefillOff l.raw, slot := 0 }) ∧
        (s.refills x.b = false ∨ x.b.drained = true → b.splits = [])) ∧
      (x.sp.stack = [] → (∃ i, i ≠ x.entry ∧ (Store.find x.b.splits i).isSome) → Store.find b.splits x.entry = none))) ∧
  ∀ pg s x, Runs s x { pn := false, pg } true allRoles [] → ∃ t, exec (.yield pg) s = .next t ∧ MovedOn s t x.id ∧ GoesOn x t x.nextPc ∧
    (x.exec ≠ 0 → ¬ x.reconverges x.nextPc → ∃ b sp, Store.find t.bunches x.id = some b ∧ Store.find b.splits x.entry = some sp ∧
      sp.noGreedy = true)

/-- R34, R36, R347: RFILL fills lanes, goes on, waits or frees its split as the item source answers; DRAIN marks the bunch drained: at
once in a cask launch, counting it there, else when the source is Closed. A lane that is filled has every register zero and every
predicate false but for what the refill map gives it (R32), its item and one more in %gen; item i goes to the i-th parked lane or quad,
and the other lanes keep all they have. -/
def Obligations.RefillAndDrain : Prop :=
  (∀ map s x, Runs s x Guard.always false vecOnly [] → x.entry < 4 → x.refillMisplaced = false →
    (∀ u, x.s.tryRefill x.id x.entry x.b map x.sp.mask = .filled u → (Store.find u.bunches x.id).isSome → Acts (.rfill map) s x u) ∧
    (∀ u, x.s.tryRefill x.id x.entry x.b map x.sp.mask = .freed u → (Store.find u.bunches x.id).isSome → Acts (.rfill map) s x u) ∧
    (x.s.tryRefill x.id x.entry x.b map x.sp.mask = .none → Acts (.rfill map) s x s) ∧
    (∀ e, x.s.tryRefill x.id x.entry x.b map x.sp.mask = .fails e → Traps (.rfill map) s x s (faultAll x.lanes e.1 e.2 .engine)) ∧
    (x.s.tryRefill x.id x.entry x.b map x.sp.mask = .waits →
      ∃ t, exec (.rfill map) s = .next t ∧ MovedOn s t x.id ∧ BlockedOn x t (.refill map) (some x.nextPc))) ∧
  (∀ map s x, Runs s x Guard.always false vecOnly [] → x.entry < 4 → x.refillMisplaced = true →
    Traps (.rfill map) s x s (faultAll x.lanes .illegalOp 0)) ∧
  (∀ (s : State) id e map quad got (b : Bunch) sp, Store.find s.bunches id = some b → Store.find b.splits e = some sp → b.noItems = false →
    (∀ p ∈ b.pends, p.ready ≤ s.now) → got.length ≤ (b.units quad).length → ∃ c sp1, Store.find (s.refill id e map quad got).bunches id = some c ∧
    Store.find c.splits e = some sp1 ∧
    (∀ (i j : Nat) (it : Item) (unit : List Nat) L, got[i]? = some it → (b.units quad)[i]? = some unit → unit[j]? = some L → sp1.mask.getLsbD L = true ∧
      (∀ n, n < b.budget → c.vAt n L = mapRule map it j n) ∧ (∀ n, n < 7 → (c.pAt n).getLsbD L = false) ∧ c.item L = it.index ∧
      c.gen L = b.gen L + 1 ∧ c.active.getLsbD L = it.covered.getLsbD j ∧ c.helper.getLsbD L = !it.covered.getLsbD j) ∧
    ∀ L, L < 32 → (∀ (i : Nat) (unit : List Nat), i < got.length → (b.units quad)[i]? = some unit → L ∉ unit) → c.item L = b.item L ∧ c.gen L = b.gen L ∧
      c.active.getLsbD L = b.active.getLsbD L ∧ c.helper.getLsbD L = b.helper.getLsbD L ∧ sp1.mask.getLsbD L = sp.mask.getLsbD L ∧
      (∀ n, c.vAt n L = b.vAt n L) ∧ ∀ n, (c.pAt n).getLsbD L = (b.pAt n).getLsbD L) ∧
  ∀ s x, Runs s x Guard.always false vecOnly [] → x.entry < 4 → ∀ l, s.launch x.b.launch = some l →
    (l.task = false → lrKind l.raw = 1 → x.b.drained = false →
      Acts .drain s x ((s.setBunch x.id { x.b with drained := true }).setLaunch x.b.launch { l with drains := l.drains + 1 })) ∧
    (¬ (l.task = false ∧ lrKind l.raw = 1) → s.closed x.b = .ok true → Acts .drain s x (s.setBunch x.id { x.b with drained := true })) ∧
    (¬ (l.task = false ∧ lrKind l.raw = 1) → s.closed x.b = .ok false →
      ∃ t, exec .drain s = .next t ∧ MovedOn s t x.id ∧ BlockedOn x t .drain (some x.nextPc))

/-! ### Exceptions -/

/-- R401, R318, R72: TRAP and BKPT in their executing lanes, and a word of an unassigned opcode in every lane, take the exception; without
an executing lane TRAP and BKPT do nothing. -/
def Obligations.SoftwareTraps : Prop :=
  (∀ g code s x, Runs s x g false allRoles [] →
    (x.exec ≠ 0 → Traps (.trap g code) s x s (faultAll x.exec .trap (code.setWidth 64))) ∧
    (x.exec = 0 → ∃ t, exec (.trap g code) s = .next t ∧ MovedOn s t x.id ∧ GoesOn x t x.nextPc)) ∧
  (∀ pg s x, Runs s x { pn := false, pg } false allRoles [] →
    (x.exec ≠ 0 → Traps (.bkpt pg) s x s (faultAll x.exec .bkpt 0)) ∧
    (x.exec = 0 → ∃ t, exec (.bkpt pg) s = .next t ∧ MovedOn s t x.id ∧ GoesOn x t x.nextPc)) ∧
  ∀ w s x, Runs s x Guard.always false allRoles [] → Traps (.unassignedOpcode w) s x s (faultAll x.lanes .illegalOp 0)

/-- R256, R257, R254: a fault of a bunch without a handler at work enters the handler at HND_BASE where HND_EN is set, after the results
of its finished instructions are written, and changes nothing but the bunch; without HND_EN, or in a handler, it stops the context. The
handler's mask is the intersection of R186, for a fault at issue too; where it is empty it is the split's lowest lane, and lane 0 for a
split without lanes (the model's choice, log entry 39). -/
def Obligations.ExceptionEntry : Prop :=
  ∀ (s : State) id e fs pc next stall wait after old sp, Store.find s.bunches id = some old → Store.find old.splits e = some sp → fs ≠ [] →
    (∀ f ∈ fs, f.lane < 32) →
    (Store.find old.splits 4 = none → bit (s.ctx old.ctx).hndBase 0 = true → ∀ done, Store.find (s.drainOps id).bunches id = some done →
      ∃ b, s.takeFault id e fs pc next stall wait after = (s.drainOps id).setBunch id b ∧
        InHandler done b e sp.mask fs pc (handlerPc (s.ctx old.ctx)) ∧ b.fltNext = next ∧ b.fltStall = stall ∧ b.fltAfter = after ∧
        ((∀ o ∈ old.ops, o.job ≠ .ready) → s.drainOps id = s ∧ done = old)) ∧
    (Store.find old.splits 4 = none → bit (s.ctx old.ctx).hndBase 0 = false →
      s.takeFault id e fs pc next stall wait after = s.stopContext old.ctx 0 (lowestFault fs).cause.code (some id)) ∧
    (Store.find old.splits 4 ≠ none → s.takeFault id e fs pc next stall wait after = s.stopContext old.ctx 1 0x3F (some id))

/-- R258: ERET ends the handler: its split goes, the frozen splits thaw, and v0 to v7 of the handler's lanes, p0 to p6 and k48 to k63
hold what the Shadow holds; with entry 5 live or a stack it is HANDLER_FAULT. The split that faulted goes on as the cause says: where it
waits, or for WATCHDOG where it was; after the instruction for TRAP, BKPT and SKIP, with its stall tokens; else it issues the instruction
again in the lanes of FLT_MASK. The instruction after one that could not be fetched is known only once it can be (log entry 39). -/
def Obligations.ExceptionReturn : Prop :=
  (∀ s x, Runs s x Guard.always false allRoles [] → 4 ≤ x.entry → (Store.find x.b.splits 5 = none ∧ x.sp.stack = [] →
      (Store.find (((s.eret x.id).heldTrips x.id).saveWaiting x.id).bunches x.id).isSome →
      Acts .eret s x (((s.eret x.id).heldTrips x.id).saveWaiting x.id)) ∧
    (¬ (Store.find x.b.splits 5 = none ∧ x.sp.stack = []) → Traps .eret s x s (faultAll x.lanes .handlerFault 0))) ∧
  ∀ (s : State) id old, Store.find s.bunches id = some old → ∃ b, Store.find (s.eret id).bunches id = some b ∧
    (s.eret id).mem = s.mem ∧ (∀ i, i ≠ id → Store.find (s.eret id).bunches i = Store.find s.bunches i) ∧
    Store.find b.splits 4 = none ∧ (∀ i sp, Store.find b.splits i = some sp → sp.frozen = false) ∧
    (∀ n l, l < 32 → b.vAt n l = if n < 8 ∧ old.shMask.getLsbD l = true then Store.get 0 old.shV (32 * n + l) else old.vAt n l) ∧
    (∀ n, b.kAt n = if 48 ≤ n ∧ n < 64 then Store.get 0 old.shK n else old.kAt n) ∧
    (∀ n l, n < 7 → (b.pAt n).getLsbD l = if old.shMask.getLsbD l then (Store.get 0 old.shP n).getLsbD l else (old.pAt n).getLsbD l) ∧
    (∀ i sp, i ≠ (bits old.fltCause 12 3).toNat → i < 4 → Store.find old.splits i = some sp → old.fltWait = false →
      (∀ sp', Store.find old.splits (bits old.fltCause 12 3).toNat = some sp' → sp'.stack = []) →
      Store.find b.splits i = some { sp with frozen := false }) ∧
    ∀ e code sp, e = (bits old.fltCause 12 3).toNat → code = (bits old.fltCause 0 8).toNat → e < 4 → Store.find old.splits e = some sp →
      ∀ past : Prop, past = (code = 0x09 ∨ code = 0x0A ∨ (old.fltCause.getLsbD 15 = true ∧ code ≠ 0x02)) →
      (old.fltWait = true ∨ code = 0x08 → ∃ q, Store.find b.splits e = some q ∧ q.pc = sp.pc ∧ q.mask = sp.mask ∧ q.state = sp.state ∧
        q.stack = sp.stack ∧ q.lanes = sp.lanes ∧ s.now < q.notBefore) ∧
      (old.fltWait = false → code ≠ 0x08 → past → old.fltNext ≠ sp.pc →
        (∀ n rc j a, topJoin sp.stack = some (n, rc, j, a) → old.fltNext ≠ { bundle := rc, slot := 0 }) → ∃ q, Store.find b.splits e = some q ∧
        q.pc = old.fltNext ∧ q.mask = sp.mask ∧ q.lanes = sp.mask ∧ q.stallToks = old.fltStall ∧ q.stack = sp.stack ∧
        max (s.now + 1) old.fltAfter ≤ q.notBefore) ∧
      (old.fltWait = false → code ≠ 0x08 → past → old.fltNext = sp.pc → ∃ q, Store.find b.splits e = some q ∧ q.pc = sp.pc ∧
        q.passes = true) ∧
      (old.fltWait = false → code ≠ 0x08 → ¬ past → ∃ q, Store.find b.splits e = some q ∧ q.pc = sp.pc ∧ q.mask = sp.mask ∧
        q.lanes = old.fltMask &&& sp.mask ∧ s.now < q.notBefore)

/-! ### Memory instructions -/

/-- R368 to R371, R119: loads: each lane in turn reads the bytes at the place of its address, little-endian, and changes nothing but what
the TLBs and the reuse hints hold; the token's operation will write its registers, zero- or sign-extended; a lane that faults performs
nothing, and the others do. A byte of a poisoned unit is ECC_UNCORRECTABLE, in the lanes that read it (R275). While a link that the access
needs retrains or is in XOFF the load has no effect yet: the split waits, and issues it again (R291, R292; that it waits at issue is log
entry 36). -/
def Obligations.Loads : Prop :=
  ((∀ g sz acq sc d base off tok s x, Runs s x g d.isK noMatrix (base.regs 2 ++ d.regs sz.regs) →
    (∀ w, x.held .generic .read sz.bytes (x.addr base off) (lanesOf x.exec) false = some w → Held (.ld g sz acq sc d base off tok) s x w) ∧
    ∀ u vs fs, x.loadLanes .generic sz.bytes (x.addr base off) s = (u, vs, fs) →
      x.held .generic .read sz.bytes (x.addr base off) (lanesOf x.exec) false = none →
      Ends (.ld g sz acq sc d base off tok) s x (x.afterLoad sz d tok latLoad u vs) fs acq) ∧
  (∀ g sz acq sc d base off tok s x, Runs s x g d.isK noMatrix (base.regs 2 ++ d.regs sz.regs) →
    (∀ w, x.held .window .read sz.bytes (x.addr base off) (lanesOf x.exec) false = some w → Held (.ldc g sz acq sc d base off tok) s x w) ∧
    ∀ u vs fs, x.loadLanes .window sz.bytes (x.addr base off) s = (u, vs, fs) →
      x.held .window .read sz.bytes (x.addr base off) (lanesOf x.exec) false = none →
      Ends (.ldc g sz acq sc d base off tok) s x (x.afterLoad sz d tok latLoad u vs) fs acq) ∧
  (∀ g sz acq sc d base off tok s x, Runs s x g true allRoles (kBlock base.toNat 2 ++ kBlock d.toNat sz.regs) →
    (∀ w, x.held .generic .read sz.bytes (x.addr (.k base) off) (lanesOf x.exec) false = some w → Held (.ldk g sz acq sc d base off tok) s x w) ∧
    ∀ u vs fs, x.loadLanes .generic sz.bytes (x.addr (.k base) off) s = (u, vs, fs) →
      x.held .generic .read sz.bytes (x.addr (.k base) off) (lanesOf x.exec) false = none →
      Ends (.ldk g sz acq sc d base off tok) s x (x.afterLoad sz (.k d) tok latLoad u vs) fs acq) ∧
  (∀ g sz m d base off tok s x, m = .plain ∨ m = .acq → Runs s x g d.isK allRoles (base.regs ++ d.regs sz.regs) →
    ∀ u vs fs, x.scratchLoads sz.bytes (x.offset base off) s = (u, vs, fs) →
      Ends (.lds g sz m d base off tok) s x (x.afterLoad sz d tok latScratch u vs) fs (m != .plain))) ∧
  ((∀ x sp n a s l p, placeOf s x.b.core x.b.ctx sp a .read n l = .ok p → s.bankQ = [] → ∃ u v, loadLane x sp n a s l = .ok u v ∧
    ReadsAs s p n v ∧ v < 2 ^ (8 * n) ∧ OnlyTlbs s u) ∧
  (∀ x sp n a s l e, placeOf s x.b.core x.b.ctx sp a .read n l = .error e → loadLane x sp n a s l = .fail e a) ∧
  (∀ x n a s l p, scratchPlace s x.b a n true = .ok p → ∃ v, ldsLane x n a s l = .ok s v ∧ ReadsAs s p n v ∧ v < 2 ^ (8 * n)) ∧
  (∀ x n a s l e, scratchPlace s x.b a n true = .error e → ldsLane x n a s l = .fail e a) ∧
  (∀ sz v, loadRule sz v (sz.extend v)) ∧
  (∀ s core ctx sp va k n l p, placeOf s core ctx sp va k n l false = .ok p →
    placeOf s core ctx sp va k n l true = if s.poisoned p n then .error .eccUncorrectable else .ok p) ∧
  (∀ s b a n p, scratchPlace s b a n false = .ok p → scratchPlace s b a n true = if s.poisoned p n then .error .eccUncorrectable else .ok p) ∧
  ∀ (s : State) (p : Place) n, 0 < n → (s.poisoned p n = true ↔ ∃ i, i < n ∧ (p.plus i).unit ∈ s.poison))

/-- R391 to R393, R371, R112: stores: each acting lane in turn leaves its bytes at the place of its address, and every other byte as it was; STS
sets the granules it writes full; a lane that faults stores nothing; an operation covers the token where the instruction names one. A
release at estate or sys scope reports a lost store as LINK_DOWN instead (R296), and a store waits as a load does, and for a fence point
whose counters are all in use (R294; log entry 36). -/
def Obligations.Stores : Prop :=
  ((∀ g sz rel sc base off b t s x, Runs s x g (storeUniform base b) noMatrix (base.regs 2 ++ b.regs sz.regs) → ∀ ls, ls =
      s.laneOrder (x.actors (storeUniform base b)) →
    (∀ w, x.held .generic .write sz.bytes (x.addr base off) ls true = some w → Held (.st g sz rel sc base off b t) s x w) ∧
    ∀ u vs fs, x.storeLanes .generic (storeUniform base b) (x.lostFault rel sc) (x.addr base off) (x.data b sz) s = (u, vs, fs) →
      x.held .generic .write sz.bytes (x.addr base off) ls true = none →
      Ends (.st g sz rel sc base off b t) s x (x.afterStore t latLoad (u.told x.id fs) (!vs.isEmpty)) fs false rel ∧
      (s.bankQ = [] → KeepsOutside s u (placesIn (fun s l => storeLane x .generic (x.lostFault rel sc) (x.addr base off l) (x.data b sz l) s l)
        (fun s l => placeOf s x.b.core x.b.ctx .generic (x.addr base off l) .write sz.bytes l false) ls s) sz.bytes)) ∧
  (∀ g sz rel sc base off b t s x, Runs s x g (storeUniform base b) noMatrix (base.regs 2 ++ b.regs sz.regs) → ∀ ls, ls =
      s.laneOrder (x.actors (storeUniform base b)) →
    (∀ w, x.held .window .write sz.bytes (x.addr base off) ls true = some w → Held (.stc g sz rel sc base off b t) s x w) ∧
    ∀ u vs fs, x.storeLanes .window (storeUniform base b) (x.lostFault rel sc) (x.addr base off) (x.data b sz) s = (u, vs, fs) →
      x.held .window .write sz.bytes (x.addr base off) ls true = none →
      Ends (.stc g sz rel sc base off b t) s x (x.afterStore t latLoad (u.told x.id fs) (!vs.isEmpty)) fs false rel ∧
      (s.bankQ = [] → KeepsOutside s u (placesIn (fun s l => storeLane x .window (x.lostFault rel sc) (x.addr base off l) (x.data b sz l) s l)
        (fun s l => placeOf s x.b.core x.b.ctx .window (x.addr base off l) .write sz.bytes l false) ls s) sz.bytes)) ∧
  ∀ g sz m base off b t s x, m = .plain ∨ m = .rel → Runs s x g (storeUniform base b) allRoles (base.regs ++ b.regs sz.regs) →
    ∀ u vs fs, x.scratchStores (storeUniform base b) (x.offset base off) (x.data b sz) s = (u, vs, fs) →
      Ends (.sts g sz m base off b t) s x (x.afterStore t latScratch u (!vs.isEmpty)) fs false (m != .plain) ∧
      KeepsOutside s u (placesIn (fun s l => stsLane x (x.offset base off l) (x.data b sz l) s l)
        (fun s l => scratchPlace s x.b (x.offset base off l) sz.bytes false) (x.s.laneOrder (x.actors (storeUniform base b))) s) sz.bytes) ∧
  ((∀ x sp a bs s l p, bs ≠ [] → placeOf s x.b.core x.b.ctx sp a .write bs.length l false = .ok p → s.still → ∃ u,
    storeLane x sp none a bs s l = .ok u () ∧ HoldsBytes u p bs ∧ KeepsOutside s u [p] bs.length ∧ u.bunches = s.bunches ∧
    u.ctxs = s.ctxs ∧ u.full = s.full ∧ u.tags = s.tags ∧ u.bankQ = []) ∧
  (∀ x sp lost a bs s l e, placeOf s x.b.core x.b.ctx sp a .write bs.length l false = .error e → storeLane x sp lost a bs s l = .fail e a) ∧
  (∀ x sp c a bs s l p, placeOf s x.b.core x.b.ctx sp a .write bs.length l false = .ok p →
    storeLane x sp (some c) a bs s l = .fail .linkDown c) ∧
  (∀ x a bs s l p, bs ≠ [] → scratchPlace s x.b a bs.length false = .ok p → ∃ u, stsLane x a bs s l = .ok u () ∧
    HoldsBytes u p bs ∧ KeepsOutside s u [p] bs.length ∧ u.bunches = s.bunches ∧
    (∀ g, a.toNat / 16 ≤ g → g ≤ (a.toNat + bs.length - 1) / 16 → u.isFull x.b.pad g = true)) ∧
  ∀ x a bs s l e, scratchPlace s x.b a bs.length false = .error e → stsLane x a bs s l = .fail e a)

/-- R112, R113: the lanes of an .fe access whose granules are in the state awaited perform at once: LDS.fe reads (and .clr empties), STS.fe
writes and fills; where others are left the split waits in the instruction, its token busy, the faults of lanes that cannot perform held
back until its end. A lane that reads poison faults and leaves its granule as it was (R275). -/
def Obligations.FullEmpty : Prop :=
  ((∀ g sz (clr : Bool) d base off tok s x, Runs s x g d.isK allRoles (base.regs ++ d.regs sz.regs) → x.sp.heldFaults = [] → ∀ f y fs,
    f = feLanes x .read true sz.bytes (x.offset base off) (lanesOf x.exec) →
    y = s.feLoad x.b sz d clr (f.now.map (feLane (x.offset base off) fun _ => [])) → fs = f.faults ++ y.faults →
    (f.later = [] → Ends (.lds g sz (if clr then .feClr else .fe) d base off tok) s x
      (if y.writes = [] then y.s else y.s.addOp x tok latScratch .ready y.writes) fs true) ∧
    (f.later ≠ [] → ∃ t, exec (.lds g sz (if clr then .feClr else .fe) d base off tok) s = .next t ∧
      MovedOn (y.s.addOp x tok latScratch .waits y.writes) t x.id ∧ KeptBack x t fs ∧
      BlockedOn x t (.granules { sz, dst := some d, clr, work := f.later.map (feLane (x.offset base off) fun _ => []), op := some s.nextId })
        (some x.nextPc))) ∧
  ∀ g sz base off b tk s x, Runs s x g (storeUniform base b) allRoles (base.regs ++ b.regs sz.regs) → x.sp.heldFaults = [] → ∀ f y,
    f = feLanes x .write false sz.bytes (x.offset base off) (s.laneOrder (x.actors (storeUniform base b))) →
    y = (s.feStore x.b x.id (f.now.map (feLane (x.offset base off) (x.data b sz)))).s →
    (f.later = [] → Ends (.sts g sz .fe base off b tk) s x (x.afterStore tk latScratch y (!f.now.isEmpty)) f.faults false true) ∧
    (f.later ≠ [] → ∃ t, exec (.sts g sz .fe base off b tk) s = .next t ∧ KeptBack x t f.faults ∧
      MovedOn ((if tk.te then y.addOp x tk.tok latScratch .waits [] else y).ordered x false true) t x.id ∧
      BlockedOn x t (.granules {
        sz := StoreSize.load sz, dst := none, clr := false, work := f.later.map (feLane (x.offset base off) (x.data b sz))
        op := if tk.te then some s.nextId else none }) (some x.nextPc))) ∧
  ((∀ x k full n a ls l, l ∈ ls →
    (∀ p, scratchPlace x.s x.b (a l) n false = .ok p → (l ∈ (feLanes x k full n a ls).now ↔ x.s.isFull x.b.pad ((a l).toNat / 16) = full) ∧
      (l ∈ (feLanes x k full n a ls).later ↔ x.s.isFull x.b.pad ((a l).toNat / 16) ≠ full)) ∧
    ∀ e, scratchPlace x.s x.b (a l) n false = .error e → { lane := l, cause := e, addr := a l, kind := k } ∈ (feLanes x k full n a ls).faults ∧
      l ∉ (feLanes x k full n a ls).now ∧ l ∉ (feLanes x k full n a ls).later) ∧
  (∀ (s : State) b sz d clr ls y, (∀ q ∈ ls, q.off < 2 ^ 19) → y = s.feLoad b sz d clr ls → y.s = { s with full := y.s.full } ∧
    (∀ p g, g < 2 ^ 15 → (y.s.isFull p g = true ↔ s.isFull p g = true ∧
      ¬ (p = b.pad ∧ clr = true ∧ ∃ q ∈ ls, q.off / 16 = g ∧ s.poisoned (.scratch b.pad q.off) sz.bytes = false))) ∧
    ∀ q ∈ ls, (s.poisoned (.scratch b.pad q.off) sz.bytes = true →
        { lane := q.lane, cause := .eccUncorrectable, addr := BitVec.ofNat 64 q.off, kind := .read } ∈ y.faults) ∧
      (s.poisoned (.scratch b.pad q.off) sz.bytes = false → ∃ v, ReadsAs s (.scratch b.pad q.off) sz.bytes v ∧ v < 2 ^ (8 * sz.bytes) ∧
        ∀ w ∈ b.destWrites d q.lane (sz.extend v), w ∈ y.writes)) ∧
  ∀ (s : State) b id ls q u, q.off < 2 ^ 19 → u = (s.feStore b id [q]).s → (s.feStore b id (ls ++ [q])).s = ((s.feStore b id ls).s.feStore b id [q]).s ∧
    HoldsBytes u (.scratch b.pad q.off) q.data ∧ KeepsOutside s u [.scratch b.pad q.off] q.data.length ∧
    ∀ p g, g < 2 ^ 15 → (u.isFull p g = true ↔ s.isFull p g = true ∨ (p = b.pad ∧ g = q.off / 16)))

/-- R311 to R314, R385: atomics: each acting lane in turn, indivisibly, returns the old value, little-endian, and leaves the operation's result (or,
where a compare fails, the bytes as they were); every other byte reads as before; RED returns nothing. Lost stores and waits are as of a
store (R296, R291, R294; log entry 36). Through a translation that has gone stale the value found is undefined (R121). -/
def Obligations.Atomics : Prop :=
  ((∀ op ord sc g d base off b tok s x, Runs s x g d.isK noMatrix (base.regs 2 ++ b.regs (atomRegs .atom op.toNat) ++
      d.regs (atomSize .atom op.toNat / 4)) → ∀ ls rel, ls = s.laneOrder (x.actors d.isK) → rel = (ord == .rel || ord == .acqRel) →
    (∀ w, x.held .generic .write (atomSize .atom op.toNat) (x.addr base off) ls true = some w → Held (.atom op ord sc g d base off b tok) s x w) ∧
    ∀ u vs fs, x.atomLanes d.isK .generic .atom op.toNat (x.lostFault rel sc) (x.addr base off) (x.block b (atomRegs .atom op.toNat)) s = (u, vs, fs) →
      x.held .generic .write (atomSize .atom op.toNat) (x.addr base off) ls true = none →
      Ends (.atom op ord sc g d base off b tok) s x (x.afterAtom .atom op.toNat d tok (u.told x.id fs) vs) fs
        (ord == .acq || ord == .acqRel) rel) ∧
  (∀ op ord sc g d base off b tok s x, Runs s x g d.isK noMatrix (base.regs 2 ++ b.regs (atomRegs .atom op.toNat) ++
      d.regs (atomSize .atom op.toNat / 4)) → ∀ rel, rel = (ord == .rel || ord == .acqRel) → ∀ u vs fs,
      x.atomLanes d.isK .scratch .atom op.toNat (x.lostFault rel sc) (x.addr base off) (x.block b (atomRegs .atom op.toNat)) s = (u, vs, fs) →
      Ends (.atoms op ord sc g d base off b tok) s x (x.afterAtom .atom op.toNat d tok (u.told x.id fs) vs) fs
        (ord == .acq || ord == .acqRel) rel) ∧
  (∀ op ord sc g d base off b tok s x, Runs s x g d.isK noMatrix (base.regs 2 ++ b.regs (atomRegs .atomc op.toNat) ++
      d.regs (atomSize .atomc op.toNat / 4)) → ∀ ls rel, ls = s.laneOrder (x.actors d.isK) → rel = (ord == .rel || ord == .acqRel) →
    (∀ w, x.held .window .write (atomSize .atomc op.toNat) (x.addr base off) ls true = some w → Held (.atomc op ord sc g d base off b tok) s x w) ∧
    ∀ u vs fs, x.atomLanes d.isK .window .atomc op.toNat (x.lostFault rel sc) (x.addr base off) (x.block b (atomRegs .atomc op.toNat)) s = (u, vs, fs) →
      x.held .window .write (atomSize .atomc op.toNat) (x.addr base off) ls true = none →
      Ends (.atomc op ord sc g d base off b tok) s x (x.afterAtom .atomc op.toNat d tok (u.told x.id fs) vs) fs
        (ord == .acq || ord == .acqRel) rel) ∧
  (∀ op rel sc g base off b t s x, Runs s x g (storeUniform base b) noMatrix (base.regs 2 ++ b.regs (atomRegs .atomc op.toNat)) → ∀ ls,
      ls = s.laneOrder (x.actors (storeUniform base b)) →
    (∀ w, x.held .generic .write (atomSize .atomc op.toNat) (x.addr base off) ls true = some w → Held (.red op rel sc g base off b t) s x w) ∧
    ∀ u vs fs, x.atomLanes (storeUniform base b) .generic .atomc op.toNat (x.lostFault rel sc) (x.addr base off)
        (x.block b (atomRegs .atomc op.toNat)) s = (u, vs, fs) →
      x.held .generic .write (atomSize .atomc op.toNat) (x.addr base off) ls true = none →
      Ends (.red op rel sc g base off b t) s x (x.afterStore t latLoad (u.told x.id fs) (!vs.isEmpty)) fs false rel) ∧
  ∀ (x : View) un sp col opc lost a b s u vs fs, s.bankQ = [] → x.atomLanes un sp col opc lost a b s = (u, vs, fs) →
    KeepsOutside s u (placesIn (fun s l => atomLane x sp col opc lost (a l) (b l) s l) (fun s l => atomPlace s x sp (a l) (atomSize col opc) l)
      (x.s.laneOrder (x.actors un)) s) (atomSize col opc)) ∧
  ((∀ x sp col opc a b s l p, atomPlace s x sp a (atomSize col opc) l = .ok p → s.still → ∃ u old,
    atomLane x sp col opc none a b s l = .ok u old ∧ old < 2 ^ (8 * atomSize col opc) ∧
    ReadsAs s (if sp = .generic ∧ staleAt s x.b.core x.b.ctx .generic a l = true then .stale s.freeCount a.toNat else p) (atomSize col opc) old ∧
    (∀ v, atomNew col opc old b = some v → ReadsAs u p (atomSize col opc) v) ∧ (atomNew col opc old b = none → OnlyTlbs s u ∧ u.mem = s.mem)) ∧
  (∀ x sp col opc lost a b s l e, atomPlace s x sp a (atomSize col opc) l = .error e → atomLane x sp col opc lost a b s l = .fail e a) ∧
  (∀ x sp col opc c a b s l p, atomPlace s x sp a (atomSize col opc) l = .ok p → atomLane x sp col opc (some c) a b s l = .fail .linkDown c) ∧
  ∀ col opc old b, opc < 16 → old < 2 ^ (8 * atomSize col opc) → b < 2 ^ (32 * atomRegs col opc) → atomRule col opc old b (atomNew col opc old b))

/-- R383, R325, R326: PREF begins the walks of its lanes' addresses that no TLB covers, holds its token until they end, and never faults
(that PREF has the size of a word is log entry 29); CCTL drops what the TLBs hold, tables and leaves, or marks code blocks stale, where it
meets its range, on the cores and rows of its scope, and leaves the rest; the token of .tlb waits for the walks that began before it. A
CFETCH leases its segment's blocks and returns 0, or 2 for an empty entry and 1 where it finds no room (R231). -/
def Obligations.CacheControl : Prop :=
  (∀ l1 g base off t s x, Runs s x g false noMatrix (base.regs 2) → ∀ ws u, ws = x.prefWalks base off →
    u = { s with
      walks := s.walks ++ (ws.zip (List.range ws.length)).map fun e => { id := s.nextId + e.2, core := x.b.core, ctx := x.b.ctx, va := e.1 : Walk }
      nextId := s.nextId + ws.length } →
    Acts (.pref l1 g base off t) s x (if t.te = true ∧ x.exec ≠ 0 then
      u.addOp x t.tok latLoad (.walks ((List.range ws.length).map (s.nextId + ·))) [] else u)) ∧
  (∀ sc g a len off tok s x, Runs s x g true noMatrix (kBlock a.toNat 2 ++ len.regs) → x.exec ≠ 0 →
    Acts (.cctl .l1 sc g a len off tok) s x (s.addOp x tok latLoad .ready [])) ∧
  (∀ sc g a len off tok s x, Runs s x g true noMatrix (kBlock a.toNat 2 ++ len.regs) → x.exec ≠ 0 → ∃ u : State, ∀ lo n,
    lo = (x.kAddr a off).toNat → n = (x.wordL len (lowest x.lanes)).toNat →
    Acts (.cctl .tlb sc g a len off tok) s x
      (u.addOp x tok latLoad (.walks ((s.walks.filter fun w => scopeCores sc x.b.core w.core).map (·.id))) []) ∧
    u = { s with cores := u.cores, rowTlb := u.rowTlb } ∧
    (∀ c, u.core c = { s.core c with tlb := (u.core c).tlb } ∧ ∀ e, e ∈ (u.core c).tlb ↔ e ∈ (s.core c).tlb ∧
      ¬ (scopeCores sc x.b.core c = true ∧ e.ctx = x.b.ctx ∧ (n = 0 ∨ (e.base < lo + n ∧ lo < e.base + e.span)))) ∧
    ∀ r e, e ∈ Store.get [] u.rowTlb r ↔ e ∈ Store.get [] s.rowTlb r ∧
      ¬ (sc ≠ .team ∧ scopeCores sc x.b.core (6 * r) = true ∧ e.ctx = x.b.ctx ∧ (n = 0 ∨ (e.base < lo + n ∧ lo < e.base + e.span)))) ∧
  (∀ sc g a len off tok s x, Runs s x g true noMatrix (kBlock a.toNat 2 ++ len.regs) → x.exec ≠ 0 → ∃ u : State,
    Acts (.cctl .code sc g a len off tok) s x (u.addOp x tok latLoad .ready []) ∧ u = { s with cores := u.cores } ∧
    ∀ c, u.core c = if scopeCores sc x.b.core c then
      (s.core c).staleCode x.b.ctx (x.kAddr a off).toNat (x.wordL len (lowest x.lanes)).toNat else s.core c) ∧
  (∀ g d seg tok s x l sg, Runs s x g true allRoles [.k d.toNat] → x.exec ≠ 0 → s.launch x.b.launch = some l →
    readSegment s x.b.core x.b.ctx l.entry seg.toNat = .ok sg → (∀ o ∈ x.b.ops, o.id < s.nextId) →
    ∀ u r, s.cfetch x.b.core x.b.ctx x.b.launch seg.toNat sg = (u, r) →
    ∃ t b o, exec (.cfetch g d seg tok) s = .next t ∧ Store.find t.bunches x.id = some b ∧ t.mem = s.mem ∧ t.launches = u.launches ∧
      b.ops = x.b.ops ++ [o] ∧ o.tok = tok ∧ o.job = .ready ∧ o.writes = [x.kWrite d.toNat r] ∧
      o.lands = if r = 0 then some seg.toNat else none) ∧
  (∀ (s : State) core ctx l seg (sg : Segment) u r, s.cfetch core ctx l seg sg = (u, r) → (sg.va = 0 → r = 2 ∧ u = s) ∧
    (r = 0 → ∀ va ∈ sg.blocks, ∃ k ∈ (u.core core).blocks, k.ctx = ctx ∧ k.va = va ∧ (l, seg) ∈ k.users) ∧ (r = 1 → u = s) ∧
    (r ≠ 0 → u = s) ∧ r.toNat < 3) ∧
  ∀ g d seg tok s x l e, Runs s x g true allRoles [.k d.toNat] → x.exec ≠ 0 → s.launch x.b.launch = some l →
    readSegment s x.b.core x.b.ctx l.entry seg.toNat = .error e →
    Traps (.cfetch g d seg tok) s x s (faultAll x.exec e.1 e.2 .read)

/-- R133, R143, R296: a fence completes at once (log entry 10: accesses are performed in order), a release and an acquire; one at estate or
sys scope reports a lost store as LINK_DOWN, and the report is then made (that a fence reports it is R296; which stores are lost is log
entry 36). FENCE.opnd lets the operand path see what it covers, and changes nothing else: of a matrix bunch that is every write that has
been performed on its core, of another bunch its own (DEDUCED, log entry 15). -/
def Obligations.Fences : Prop :=
  (∀ sc g s x, Runs s x g true allRoles [] → x.exec ≠ 0 → x.lostFault true sc = none →
    ∃ t, exec (.fence sc g) s = .next t ∧ MovedOn (s.ordered x true true) t x.id ∧ GoesOn x t x.nextPc) ∧
  (∀ sc g s x a, Runs s x g true allRoles [] → x.exec ≠ 0 → x.lostFault true sc = some a →
    Traps (.fence sc g) s x (s.tellLost x.id) (faultAll x.exec .linkDown a)) ∧
  (∀ (x : View) sc a, x.lostFault true sc = some a → (sc = .estate ∨ sc = .sys) ∧ ∃ l ∈ x.s.lost, l.src = x.id ∧ l.va = a) ∧
  (∀ (s : State) id l, l ∈ (s.tellLost id).lost → l.src = id → l.told = true) ∧
  ∀ g s x, Runs s x g true allRoles [] → x.exec ≠ 0 → ∃ u : State, Acts (.fenceOpnd g) s x (u.ordered x true true) ∧ u = { s with cores := u.cores } ∧
    (∀ c, c ≠ x.b.core → u.core c = s.core c) ∧ u.core x.b.core = { s.core x.b.core with oldBytes := (u.core x.b.core).oldBytes } ∧
    ∀ o ∈ (u.core x.b.core).oldBytes, x.b.role = .matrix ∨ o.writer = x.id → o.fenced = true

/-- R315, R316, R235, R257, R141: BAR arrives, and waits where its barrier has yet to release the bunch; BAR.arrive only arrives, BAR.wait
only waits; the arrival is a release, and the end of the wait an acquire; a bunch of a task has no barrier. The arrival that completes a
barrier's count releases every bunch of the team that arrived in its generation, and begins the next one; no register and no byte of memory
changes. -/
def Obligations.Barriers : Prop :=
  ((∀ g b n s x, Runs s x g true allRoles [] → x.exec ≠ 0 → x.entry < 4 → x.b.team ≠ none →
    ((x.arrive b.toNat n.toNat).barReached x.id b.toNat = false → Acts (.bar g b n) s x ((x.arrive b.toNat n.toNat).ordered x true true)) ∧
    ((x.arrive b.toNat n.toNat).barReached x.id b.toNat = true → ∃ t, exec (.bar g b n) s = .next t ∧
      MovedOn ((x.arrive b.toNat n.toNat).ordered x false true) t x.id ∧ BlockedOn x t (.barrier b.toNat) (some x.nextPc))) ∧
  (∀ g b n s x, Runs s x g true allRoles [] → x.exec ≠ 0 → x.entry < 4 → x.b.team ≠ none →
    Acts (.barArrive g b n) s x ((x.arrive b.toNat n.toNat).ordered x false true)) ∧
  (∀ g b s x, Runs s x g true allRoles [] → x.exec ≠ 0 → x.entry < 4 → x.b.team ≠ none →
    (s.barReached x.id b.toNat = false → Acts (.barWait g b) s x (s.ordered x true false)) ∧
    (s.barReached x.id b.toNat = true → ∃ t, exec (.barWait g b) s = .next t ∧ MovedOn s t x.id ∧
      BlockedOn x t (.barrier b.toNat) (some x.nextPc))) ∧
  ∀ g b n s x, Runs s x g true allRoles [] → x.exec ≠ 0 → x.entry < 4 → x.b.team = none →
    Traps (.bar g b n) s x s (faultAll x.exec .pageProtection 0) ∧ Traps (.barArrive g b n) s x s (faultAll x.exec .pageProtection 0) ∧
    Traps (.barWait g b) s x s (faultAll x.exec .pageProtection 0)) ∧
  (∀ (s : State) id n b t y l, Store.find s.bunches id = some b → b.team = some t → Store.find s.teams t = some y → s.launch y.launch = some l →
    (Store.get {} b.bars n).reached = true → b.active ||| b.helper ≠ 0 → (b.active ||| b.helper) &&& ~~~(Store.get {} b.bars n).lanes = 0 →
    ∀ k, k = Store.get {} y.bars n →
    let count := if k.arrived = 0 then (if (Store.get {} b.bars n).count = 0 then teamBunches l.raw else (Store.get {} b.bars n).count) else k.count
    let u := s.checkArrival id n
    (∃ y', Store.find u.teams t = some y' ∧ Store.get {} y'.bars n =
      if k.arrived + 1 = count then { gen := k.gen + 1, count, arrived := 0 } else { gen := k.gen, count, arrived := k.arrived + 1 }) ∧
    (k.arrived + 1 = count → ∀ i c, Store.find u.bunches i = some c → c.team = some t → (Store.get {} c.bars n).reached = true →
      (Store.get {} c.bars n).gen ≠ k.gen + 1) ∧
    u = { s with bunches := u.bunches, teams := u.teams } ∧
    ∀ i c, Store.find s.bunches i = some c → ∃ c', Store.find u.bunches i = some c' ∧ c' = { c with bars := c'.bars })

/-- R404, R213, R186, R216: WTOK goes on where its tokens are idle, which its bunch has then seen, and MWAIT where the array has nothing it
names, else they block; where what they wait for is suspended on a fault, they take that fault. An MWAIT of the matrix role that completes
covers its tiles' MMSs (R144); another role's orders nothing. -/
def Obligations.TokenWaits : Prop :=
  (∀ g w s x, Runs s x g true allRoles [] → x.exec ≠ 0 →
    (x.b.suspendedOn (wtokMask w) = none → x.b.busyOf (wtokMask w) = [] →
      ∃ t, exec (.wtok g w) s = .next t ∧ MovedOn (s.sawIdle x.id (wtokMask w)) t x.id ∧ GoesOn x t x.nextPc) ∧
    (x.b.suspendedOn (wtokMask w) = none → x.b.busyOf (wtokMask w) ≠ [] →
      ∃ t, exec (.wtok g w) s = .next t ∧ MovedOn s t x.id ∧ BlockedOn x t (.tokens (wtokMask w)) (some x.nextPc)) ∧
    ∀ o fs, x.b.suspendedOn (wtokMask w) = some (o, fs) → exec (.wtok g w) s =
      .next ((s.noteIssue x).takeFault x.id x.entry fs x.sp.pc x.nextPc x.stallToks (some [o.id]) x.after)) ∧
  (∀ g mask s x, Runs s x g true allRoles [] → x.exec ≠ 0 →
    (x.arrayFault = none → (s.core x.b.core).matrixIdle mask (s.core x.b.core).mnext = true →
      Acts (.mwait g mask) s x (s.covered x.b mask (s.core x.b.core).mnext)) ∧
    (x.arrayFault = none → (s.core x.b.core).matrixIdle mask (s.core x.b.core).mnext = false → ∃ t, exec (.mwait g mask) s = .next t ∧
      MovedOn s t x.id ∧ BlockedOn x t (.matrix mask (s.core x.b.core).mnext) (some x.nextPc)) ∧
    ∀ f, x.arrayFault = some f → exec (.mwait g mask) s =
      .next ((s.noteIssue x).takeFault x.id x.entry [f] x.sp.pc x.nextPc x.stallToks (some []) x.after)) ∧
  (∀ (s : State) b m bound, b.role ≠ .matrix → s.covered b m bound = s) ∧
  ∀ (s : State) b m bound, b.role = .matrix → ∃ c, s.covered b m bound = s.setCore b.core c ∧
    c = { s.core b.core with unwaited := c.unwaited, unread := c.unread, opReads := c.opReads } ∧
    ∀ n, n < 4 → c.unwaited.getLsbD n = ((s.core b.core).unwaited.getLsbD n && !(m.getLsbD n &&
      match Store.find (s.core b.core).unread n with
      | some k => decide (k < bound)
      | none => true))

/-! ### Tensors -/

/-- R395 to R400, R108, R109: TDSC and TCOD write their table entry, TSYN makes covered writes visible, TQRY returns the field, TLD loads
each lane's element. What a bunch sees of an entry is whole: the newest contents, or older ones where the write that replaced them is not
guaranteed to it; after a TSYN it sees none of its own writes undone whose tokens it has seen idle. -/
def Obligations.Tensors : Prop :=
  ((∀ g xd a off tok s x r, Runs s x g true [.copy] (kBlock a.toNat 2) → x.exec ≠ 0 → x.record (x.kAddr a off) 8 64 = .ok r →
    (descOk (BitVec.ofNat 512 r) = true → ∃ c, Acts (.tdsc g xd a off tok) s x ((s.setCtx x.b.ctx c).addOp x tok latTable .ready []) ∧
      (∀ i, Store.find c.tensors i = if i = xd.toNat then some (BitVec.ofNat 512 r) else Store.find (s.ctx x.b.ctx).tensors i) ∧
      c.olds = { code := false, idx := xd.toNat, old := (Store.find (s.ctx x.b.ctx).tensors xd.toNat).getD 0,
                 reach := { writer := x.id, op := s.nextId, tok } } :: (s.ctx x.b.ctx).olds ∧
      c = { s.ctx x.b.ctx with tensors := c.tensors, olds := c.olds }) ∧
    (descOk (BitVec.ofNat 512 r) = false → Traps (.tdsc g xd a off tok) s x s (faultAll x.exec .tdescFormat (x.kAddr a off) .read))) ∧
  (∀ g tbl a off tok s x r, Runs s x g true [.copy] (kBlock a.toNat 2) → x.exec ≠ 0 → x.record (x.kAddr a off) 4 32 = .ok r →
    ∃ c, Acts (.tcod g tbl a off tok) s x ((s.setCtx x.b.ctx c).addOp x tok latTable .ready []) ∧
      (∀ i, Store.get 0 c.codes i = if i = tbl.toNat then BitVec.ofNat 256 r else Store.get 0 (s.ctx x.b.ctx).codes i) ∧
      c.olds = { code := true, idx := tbl.toNat, old := (Store.get 0 (s.ctx x.b.ctx).codes tbl.toNat).setWidth 512,
                 reach := { writer := x.id, op := s.nextId, tok } } :: (s.ctx x.b.ctx).olds ∧
      c = { s.ctx x.b.ctx with codes := c.codes, olds := c.olds }) ∧
  (∀ g xd tbl a off tok s x e, Runs s x g true [.copy] (kBlock a.toNat 2) → x.exec ≠ 0 →
    (x.record (x.kAddr a off) 8 64 = .error e → Traps (.tdsc g xd a off tok) s x s (faultAll x.exec e.1 e.2 .read)) ∧
    (x.record (x.kAddr a off) 4 32 = .error e → Traps (.tcod g tbl a off tok) s x s (faultAll x.exec e.1 e.2 .read))) ∧
  (∀ g s x, Runs s x g true allRoles [] → x.exec ≠ 0 →
    Acts (.tsyn g) s x (s.setCtx x.b.ctx ((s.ctx x.b.ctx).tsyn x.id (s.bunchesOf x.b.ctx)))) ∧
  (∀ (c : Context) id all, c.tsyn id all = { c with olds := (c.tsyn id all).olds } ∧
    ∀ o ∈ (c.tsyn id all).olds, o.reach.writer = id → o.reach.idle = true → o.reach.covered = true) ∧
  (∀ (s : State) ctx id n all, (∀ o ∈ (s.ctx ctx).olds, o.code = false → o.idx = n → o.reach.writer = id ∧ o.reach.idle = true) →
    (s.setCtx ctx ((s.ctx ctx).tsyn id all)).descriptor ctx id n = Store.find (s.ctx ctx).tensors n) ∧
  (∀ (s : State) ctx id n, s.descriptor ctx id n = Store.find (s.ctx ctx).tensors n ∨
    ∃ o ∈ (s.ctx ctx).olds, o.code = false ∧ o.idx = n ∧ (if o.reach.writer = id then o.reach.covered = false else id ∉ o.reach.seen) ∧
      s.descriptor ctx id n = if o.old = 0 then none else some o.old)) ∧
  (∀ g d xn sel tok s x, Runs s x g true allRoles (kBlock d.toNat (if sel = 8 ∨ sel = 9 then 2 else 1)) → x.exec ≠ 0 →
    Acts (.tqry g d xn sel tok) s x
      (s.addOp x tok latScratch .ready (x.b.destWrites (.k d) 0 (tqryField (s.descriptor x.b.ctx x.id xn.toNat) sel.toNat)))) ∧
  (∀ s32 g d xn b fill tok s x td, s.descriptor x.b.ctx x.id xn.toNat = some td → tldAccepts s32 (some td) = true →
    (∀ n, b = .k n → n.toNat + tdRank td ≤ 64) → Runs s x g d.isK noMatrix (b.regs (tdRank td) ++ d.regs) → x.exec ≠ 0 →
    (∀ w, x.tldHeld td b = some w → Held (.tld s32 g d xn b fill tok) s x w) ∧
    ∀ u vs fs, x.tldLanes s32 td fill b s = (u, vs, fs) → x.tldHeld td b = none →
      Ends (.tld s32 g d xn b fill tok) s x (x.afterTld d tok u vs) fs) ∧
  (∀ s32 g d xn b fill tok s x, s.descriptor x.b.ctx x.id xn.toNat = none → Runs s x g d.isK noMatrix (b.regs 1 ++ d.regs) → x.exec ≠ 0 →
    Traps (.tld s32 g d xn b fill tok) s x s (faultAll x.exec .tdescFormat 0)) ∧
  (∀ x s32 d fill idx s l, tdIn d (idx l) = false → tldLane x s32 d fill idx s l =
    if tdBounds d = 1 then .ok s (fill, 0) else .fail .tdescBounds (BitVec.ofInt 64 (tdPos d (idx l)))) ∧
  ∀ (x : View) (d : Desc) fill idx s l p, tdIn d (idx l) = true → tdFmt d = 0 ∨ tdFmt d = 7 → tdScale d = 0 →
    enginePlace s x.b.core x.b.pad x.b.ctx (some (tdLayout d)) false (BitVec.ofInt 64 (tdBase d + 4 * tdPos d (idx l))) 4 .read = .ok p →
    s.poisoned p 4 = false → s.unreachable x.b.core p = false → s.bankQ = [] →
    ∃ u w, tldLane x (decide (tdFmt d = 7)) d fill idx s l = .ok u (w, 0) ∧ OnlyTlbs s u ∧ ReadsAs s p 4 w.toNat

/-! ### Copies and the matrix array -/

/-- R183, R185, R187, R188, R337: a copy under a false guard only clears its token's record; CPY hands the source and destination addresses
of the lanes that do not fault to the engine, a lane's faults in order: a task bunch's, alignment, the scratchpad's size; a copy on an idle
token clears that token's record, holds the token busy from its issue, and changes no byte of memory; where 64 are in flight on its core it
waits its turn, its split Blocked (R69). -/
def Obligations.CopyIssue : Prop :=
  (∀ i g tok rs s x, CopyForm i g tok rs → Runs s x g true [.copy] rs → x.exec = 0 → Acts i s x (x.clearRecord tok)) ∧
  (∀ dir sz crc g d a off tok s x, Runs s x g false noMatrix (vBlock a.toNat 2 ++ vBlock d.toNat 2) →
    ∀ n srcS dstS bad good fs r, n = Machine.CpySize.bytes sz → srcS = CpyDir.srcS dir → dstS = CpyDir.dstS dir →
    bad = (fun l => cpyFault x.b.team.isNone srcS dstS n (x.addr (.v a) off l) (x.vPair d.toNat l)) →
    good = (s.laneOrder (x.actors false)).filter (fun l => (bad l).isNone) →
    fs = (s.laneOrder (x.actors false)).filterMap (fun l => (bad l).map fun e => { lane := l, cause := e.1, addr := e.2, kind := .engine : LaneFault }) →
    r = x.newCopy (.lanes n srcS dstS (good.map fun l => (l, x.addr (.v a) off l, x.vPair d.toNat l))) crc →
    (good ≠ [] → fs = [] → Copies (.cpy dir sz crc g d a off tok) s x tok r) ∧
    (good ≠ [] → fs ≠ [] → Traps (.cpy dir sz crc g d a off tok) s x (x.startCopy tok r).s fs) ∧
    (good = [] → fs ≠ [] → Traps (.cpy dir sz crc g d a off tok) s x s fs) ∧
    (good = [] → fs = [] → Acts (.cpy dir sz crc g d a off tok) s x (x.clearRecord tok))) ∧
  (∀ task srcS dstS n (a d : DWord), n = 4 ∨ n = 8 ∨ n = 16 →
    (task = true → srcS = true ∨ dstS = true →
      cpyFault task srcS dstS n a d = some (.pageProtection, if srcS then a else d)) ∧
    ((task = true → srcS = false ∧ dstS = false) →
      (a.toNat % n ≠ 0 → cpyFault task srcS dstS n a d = some (.misaligned, a)) ∧
      (a.toNat % n = 0 → d.toNat % n ≠ 0 → cpyFault task srcS dstS n a d = some (.misaligned, d)) ∧
      (a.toNat % n = 0 → d.toNat % n = 0 → (cpyFault task srcS dstS n a d = none ↔
        (srcS = true → a.toNat < scratchBytes) ∧ (dstS = true → d.toNat < scratchBytes))))) ∧
  ∀ (x : View) tok r b, Store.find x.s.bunches x.id = some b → b = x.b → ∃ b', Store.find (x.startCopy tok r).s.bunches x.id = some b' ∧
    (x.startCopy tok r).s.mem = x.s.mem ∧
    b' = { b with ops := b'.ops, tokRec := b'.tokRec, tokCrc := b'.tokCrc, tokCrcOp := b'.tokCrcOp } ∧
    (∃ o, b'.ops = b.ops ++ [o] ∧ o.tok = tok ∧ o.id = x.s.nextId ∧
      o.job = .copy { r with queued := decide (64 ≤ x.s.copiesOn x.b.core) && !r.job.isDrain }) ∧
    (b.tokBusy tok.toNat = false → Store.get 0 b'.tokRec tok.toNat = 0 ∧ Store.get 0 b'.tokCrc tok.toNat = 0) ∧
    ∀ n, n ≠ tok.toNat → Store.get 0 b'.tokRec n = Store.get 0 b.tokRec n ∧ Store.get 0 b'.tokCrc n = Store.get 0 b.tokCrc n

/-- R190 to R199, R336: the engine copies capture their descriptors and operands at issue; descriptors that do not suit CPYA trap
TDESC_FORMAT; a task bunch's CPYX of a scratchpad is PAGE_PROTECTION before its other faults, and a route that ends nowhere, or in the
commons, ILLEGAL_OP. Step by step the engine then moves bytes and converts elements as R188 and R191 to R201 say: CPY's lanes, CPYA's walk
with its bounds, fill and 2:4 expansion, CPYG's rows, CPYS's rebased pointers, positions and values, CPYL's rearrangement, CPYX's payload,
CPYQ's scales and codes, and CRC-32C. -/
def Obligations.EngineCopies : Prop :=
  ((∀ m spd sps x24 g d a b tok s x src dst r, Runs s x g true [.copy] (kBlock b.toNat 2) → x.exec ≠ 0 →
    x.pair? a d (fun s t => copyDestOk s t && baseOk sps s && baseOk spd t) = some (src, dst) → x.record (x.kPair b.toNat) 16 128 = .ok r →
    walkOk (BitVec.ofNat 1024 r) x24 spd = true → wrTotal (BitVec.ofNat 1024 r) ≤ 2 ^ 32 → (spd = true ∨ sps = true → x.b.team ≠ none) →
    Copies (.cpya m spd sps x24 g d a b tok) s x tok (x.newCopy (.affine src dst sps spd x24 (BitVec.ofNat 1024 r)) m.crc (x.codesOf src)
      (if m.chk then some (wrExpCrc (BitVec.ofNat 1024 r)) else none) m.ctrap)) ∧
  (∀ crc spd sps spi g d a b tok s x src dst, Runs s x g true [.copy] (kBlock b.toNat 4) → x.exec ≠ 0 →
    x.pair? a d (fun s t => copyDestOk s t && baseOk sps s && baseOk spd t && tdRank s == 2 && tdRank t == 2 &&
      tdExtent s 0 == tdExtent t 0) = some (src, dst) → (spd = true ∨ sps = true ∨ spi = true → x.b.team ≠ none) →
    Copies (.cpyg crc spd sps spi g d a b tok) s x tok (x.newCopy (.gather src dst sps spd spi (x.kPair b.toNat)
      (x.kAt (b.toNat + 2)).toNat (x.kAt (b.toNat + 3))) crc (x.codesOf src))) ∧
  (∀ crc spd g d a b tok s x src dst, Runs s x g true [.copy] (kBlock b.toNat 10) → x.exec ≠ 0 →
    x.pair? a d (fun s t => copyDestOk s t && baseOk spd t && tdRank s == 1 && tdRank t == 1) = some (src, dst) →
    (spd = true → x.b.team ≠ none) →
    Copies (.cpys crc spd g d a b tok) s x tok (x.newCopy (.sparse src dst spd (x.kPair b.toNat) (x.kPair (b.toNat + 2))
      (x.kAt (b.toNat + 4)).toNat (x.kAt (b.toNat + 5)).toNat (x.kPair (b.toNat + 6)) (x.kPair (b.toNat + 8))) crc (x.codesOf src))) ∧
  (∀ crc spd sps g d a b tok s x src dst, Runs s x g true [.copy] (kBlock b.toNat 4) → x.exec ≠ 0 →
    x.pair? a d (fun s t => quantOk s t && baseOk sps s && baseOk spd t) = some (src, dst) → (spd = true ∨ sps = true → x.b.team ≠ none) →
    Copies (.cpyq crc spd sps g d a b tok) s x tok (x.newCopy (.quant src dst sps spd (x.kPair b.toNat) (x.kAt (b.toNat + 2)).toNat
      (x.kAt (b.toNat + 3))) crc)) ∧
  (∀ crc spd sps prog g d a tok s x src dst va r, Runs s x g true [.copy] [] → x.exec ≠ 0 →
    x.pair? a d (fun s t => copyDestOk s t && baseOk sps s && baseOk spd t && decide (tdRank s ≤ 2)) = some (src, dst) →
    layoutVa (s.ctx x.b.ctx) prog.toNat = some va → x.record va 8 64 = .ok r → ∀ p, p = wordsOfBytes (leBytes r 64) 16 →
    (layParse (fmtBytes (tdFmt src)) (fmtBytes (tdFmt dst)) p (layRows src) (tdExtent src 0)).isSome = true →
    (spd = true ∨ sps = true → x.b.team ≠ none) →
    Copies (.cpyl crc spd sps prog g d a tok) s x tok (x.newCopy (.layout src dst sps spd p) crc (x.codesOf src))) ∧
  (∀ m sps route g d a b tok s x, Runs s x g true [.copy] (kBlock d.toNat 2 ++ kBlock a.toNat 2 ++ kBlock b.toNat (if m.chk then 2 else 1)) →
    x.exec ≠ 0 → ∀ chk y cut, chk = (if m.chk then some (x.kAt (b.toNat + 1)) else none) → routeFrom s x.b.core route = (y, cut) →
    (sps = true ∨ y.isCore = true → x.b.team = none →
      Traps (.cpyx m sps route g d a b tok) s x s (faultAll x.exec .pageProtection 0 .engine)) ∧
    ((sps = true ∨ y.isCore = true → x.b.team ≠ none) → (x.kAt b.toNat).toNat ≠ 0 → (x.kAt b.toNat).toNat % 16 = 0 →
      (x.kPair a.toNat).toNat % 16 = 0 → (x.kPair d.toNat).toNat % 16 = 0 →
      (∀ c, y = .core c → Copies (.cpyx m sps route g d a b tok) s x tok (x.newCopy (.estate sps (x.kPair a.toNat) (x.kPair d.toNat)
        (x.kAt b.toNat).toNat (some (s.padFor x.b.launch c)) 0 cut) m.crc 0 chk m.ctrap)) ∧
      (∀ p, y = .port p → Copies (.cpyx m sps route g d a b tok) s x tok
        (x.newCopy (.estate sps (x.kPair a.toNat) (x.kPair d.toNat) (x.kAt b.toNat).toNat none p cut) m.crc 0 chk m.ctrap)) ∧
      (y = .illegal ∨ y = .commons → Traps (.cpyx m sps route g d a b tok) s x s (faultAll x.exec .illegalOp 0)))) ∧
  ∀ m spd sps x24 g d a b tok s x, Runs s x g true [.copy] (kBlock b.toNat 2) → x.exec ≠ 0 →
    x.pair? a d (fun s t => copyDestOk s t && baseOk sps s && baseOk spd t) = none →
    Traps (.cpya m spd sps x24 g d a b tok) s x s (faultAll x.exec .tdescFormat 0)) ∧
  (∀ g s r n a b w l p q, r.job = .lanes n a b w → w[r.done]? = some l → g.reads s none a l.2.1 n p → g.writes s none b l.2.2 n q →
    Puts (copyStep g s r) s r q (s.bytesAt p n)) ∧
  ((∀ g s r src dst sps spd w, r.job = .affine src dst sps spd false w → Carries (copyStep g s r) g s r src dst sps spd (wrFill w)
    (wrSource w (wrCounters w r.done)) (wrDest w (wrCounters w r.done))) ∧
  (∀ w i (n : Nat → Nat), (∀ c, c < 6 → n c < wrExtent w c) →
    i = n 0 + wrExtent w 0 * (n 1 + wrExtent w 1 * (n 2 + wrExtent w 2 * (n 3 + wrExtent w 3 * (n 4 + wrExtent w 4 * n 5)))) → ∀ d, d < 6 →
    (wrSource w (wrCounters w i)).getD d 0 = wrSorg w d + n 0 * wrSstep w 0 d + n 1 * wrSstep w 1 d + n 2 * wrSstep w 2 d +
      n 3 * wrSstep w 3 d + n 4 * wrSstep w 4 d + n 5 * wrSstep w 5 d ∧
    (wrDest w (wrCounters w i)).getD d 0 = wrDorg w d + n 0 * wrDstep w 0 d + n 1 * wrDstep w 1 d + n 2 * wrDstep w 2 d +
      n 3 * wrDstep w 3 d + n 4 * wrDstep w 4 d + n 5 * wrDstep w 5 d) ∧
  (∀ g s r src dst sps spd w pm nib n ks, r.job = .affine src dst sps spd true w → n = wrCounters w r.done →
    g.reads s none false (wrMeta w + BitVec.ofNat 64 (r.done / 8)) 1 pm →
    nib = s.natAt pm 1 / 16 ^ (r.done / 4 % 2) % 16 → ks = keptAt nib (n.headD 0 / 4) (n.headD 0 % 4) →
    (∀ k, ks = [k] → Carries (copyStep g s r) g s r src dst sps spd (wrFill w) (wrSource w (k :: n.tail)) (wrDest w n)) ∧
    ∀ q m, ks = [] → m = fmtBytes (tdFmt dst) → tdIn dst (wrDest w n) = true → g.writes s (some (tdLayout dst)) spd (elemAt dst (wrDest w n)) m q →
      Puts (copyStep g s r) s r q (leBytes 0 m)) ∧
  ∀ nib m p k, k ∈ keptAt nib m p ↔ k = 2 * m ∧ nib % 4 = p ∨ k = 2 * m + 1 ∧ nib / 4 % 4 = p) ∧
  (∀ g s r src dst sps spd spi list n drow e c, r.job = .gather src dst sps spd spi list n drow → e = tdExtent src 0 + 1 → c = r.done % e →
    (∀ p, c = 0 → g.reads s none spi (list + BitVec.ofNat 64 (4 * (r.done / e))) 4 p →
      copyStep g s r = .ok (s, { r with reg0 := s.natAt p 4 })) ∧
    (c ≠ 0 → Carries (copyStep g s r) g s r src dst sps spd 0 [((c - 1 : Nat) : Int), (BitVec.ofNat 32 r.reg0).toInt]
      [((c - 1 : Nat) : Int), drow.toInt + (r.done / e : Nat)])) ∧
  (∀ g s r src dst spd rp ci fr n dci drp, r.job = .sparse src dst spd rp ci fr n dci drp → ∀ (val : Nat → Int),
    val = (fun w => (BitVec.ofNat 32 w).toInt) →
    (∀ p q v first, r.done ≤ n → g.reads s none false (rp + BitVec.ofNat 64 (4 * (fr + r.done))) 4 p →
      g.writes s none spd (drp + BitVec.ofNat 64 (4 * r.done)) 4 q → v = s.natAt p 4 → first = (if r.done = 0 then v else r.reg0) →
      (r.done ≠ 0 → val r.reg1 ≤ val v) →
      Puts (copyStep g s r) s r q (leBytes (BitVec.ofInt 32 (val v - val first)).toNat 4) ∧
      ∀ t y, copyStep g s r = .ok (t, y) → y.reg0 = first ∧ y.reg1 = v) ∧
    ∀ p q t, n < r.done → t = r.done - n - 1 → g.reads s none false (ci + BitVec.ofInt 64 (4 * (val r.reg0 + (t : Int)))) 4 p →
      g.writes s none spd (dci + BitVec.ofNat 64 (4 * t)) 4 q → ∃ s1 r1, HoldsBytes s1 q (s.bytesAt p 4) ∧ KeepsOutside s s1 [q] 4 ∧
        r1.bytes = r.bytes + 4 ∧ r1.codes = r.codes ∧
        Carries (copyStep g s r) g s1 r1 src dst false spd 0 [val r.reg0 + (t : Int)] [(t : Int)]) ∧
  ((∀ g s r src dst sps spd prog st rows cols i j n m p q, r.job = .layout src dst sps spd prog →
    layParse (fmtBytes (tdFmt src)) (fmtBytes (tdFmt dst)) prog (layRows src) (tdExtent src 0) = some (st, rows, cols) →
    (layBack st (r.done / cols) (r.done % cols)) = (i, j) → n = fmtBytes (tdFmt src) → m = fmtBytes (tdFmt dst) → plainFmt src → plainFmt dst →
    g.reads s (some (tdLayout src)) sps (elemAt src [(j : Int), (i : Int)]) n p →
    g.writes s (some (tdLayout dst)) spd (elemAt dst [((r.done % cols : Nat) : Int), ((r.done / cols : Nat) : Int)]) m q →
    tdIn dst [((r.done % cols : Nat) : Int), ((r.done / cols : Nat) : Int)] = true →
    Puts (copyStep g s r) s r q (leBytes
      (convElem (tdFmt src) r.codes { raw := leNat (laySwap st (s.bytesAt p n)), scale := none } (tdFmt dst)).bits m)) ∧
  (∀ r c f th tw k a b, layBack [.transpose] r c = (c, r) ∧ layBack [.interleave f] r c = (r * f + c % f, c / f) ∧
    layBack [.tile th tw k] r c = (r / k * th + c / tw, r % k * tw + c % tw) ∧ layBack [.stride a b] r c = (b + r * a, c)) ∧
  ∀ r c st st', layBack (st ++ st') r c = layBack st (layBack st' r c).1 (layBack st' r c).2) ∧
  (∀ g s r sps a d len pad port cut p, r.job = .estate sps a d len (some pad) port cut → r.done < len / 16 →
    g.reads s none sps (a + BitVec.ofNat 64 (16 * r.done)) 16 p → g.writes s none true (d + BitVec.ofNat 64 (16 * r.done)) 16
      (.scratch g.pad (d + BitVec.ofNat 64 (16 * r.done)).toNat) →
    Puts (copyStep g s r) s r (.scratch pad (d + BitVec.ofNat 64 (16 * r.done)).toNat) (s.bytesAt p 16)) ∧
  (∀ f codes x, convElem f codes x f = { bits := x.raw, sat := false, inv := false }) ∧
  (∀ codes w i b, i = convElem 0 codes { raw := w.toNat, scale := none } 5 → b = convElem 0 codes { raw := w.toNat, scale := none } 2 →
    f32Finite w → toInt8Rule 149 (f32Val w) i.bits i.sat ∧ i.inv = false ∧ toBf16Rule w b) ∧
  (∀ f (ws : List Word), f = 3 ∨ f = 4 ∨ isBpi f = true → (∀ w ∈ ws, f32Finite w) →
    scaleRule (quantTop f) (ws.foldl (fun m w => max m (f32Val w).natAbs) 0) (blockScale f (ws.map fun w => Fmt.f32.num w.toNat))) ∧
  (∀ f e (w : Word), isBpi f = true → e < 255 → f32Finite w →
    toInt8Rule (22 + e) (f32Val w) (quantCode f e (Fmt.f32.num w.toNat)).1 (quantCode f e (Fmt.f32.num w.toNat)).2) ∧
  (∀ bs : List Byte, crc32c bs ^^^ 0xFFFFFFFF = bs.foldl (fun c b => (List.range 8).foldl (fun w _ =>
      if w.getLsbD 0 then (w >>> 1) ^^^ 0x82F63B78 else w >>> 1) (c ^^^ b.setWidth 32)) 0xFFFFFFFF) ∧
  crc32c [0x31, 0x32, 0x33, 0x34, 0x35, 0x36, 0x37, 0x38, 0x39] = 0xE3069283

/-- R202 to R214, R376: the array's instructions go to its queue in order, with the operands captured at issue: WLD and MMS with a suitable
descriptor; an MMS whose tile is no multiple of the weights' width is ILLEGAL_OP; a full queue holds the sequencer, and a suspended command's
fault is taken by WLD and WSWP; ADRN hands its rows to the engine. An ADRN that issues before the MWAIT of its tile's last MMS, or that a
command of its tile meets, drains undefined values (R215); an ACLR or APRM of a tile whose MMS's reads are uncovered leaves it undefined (R144). -/
def Obligations.ArrayIssue : Prop :=
  (∀ i rs s x, ArrayForm i rs → Runs s x Guard.always true [.matrix] rs → x.arrayFault = none → 8 ≤ (s.core x.b.core).mqueue.length →
    (∀ m clr sps t xn b c rows promo trow, i = .mms m clr sps Guard.always t xn b c rows promo trow → t.toNat % (s.core x.b.core).wAct = 0) →
    ∃ t, exec i s = .next t ∧ MovedOn s t x.id ∧ BlockedOn x t .matrixQueue none) ∧
  (∀ sps xn b krows s x f, x.arrayFault = some f →
    (Runs s x Guard.always true [.matrix] (kBlock b.toNat 2) → exec (.wld sps Guard.always xn b krows) s =
      .next ((s.noteIssue x).takeFault x.id x.entry [f] x.sp.pc x.nextPc x.stallToks (some []) x.after)) ∧
    (Runs s x Guard.always true [.matrix] [] → exec (.wswp Guard.always) s =
      .next ((s.noteIssue x).takeFault x.id x.entry [f] x.sp.pc x.nextPc x.stallToks (some []) x.after))) ∧
  (∀ sps xn b krows s x d, Runs s x Guard.always true [.matrix] (kBlock b.toNat 2) → x.arrayFault = none →
    (s.core x.b.core).mqueue.length < 8 → s.descriptor x.b.ctx x.id xn.toNat = some d → wldOk sps d = true → ∀ u,
    u = x.enqueue (.wld d sps (x.kAt b.toNat) (x.kAt (b.toNat + 1)) (krows.toNat + 1)) →
    Acts (.wld sps Guard.always xn b krows) s x (u.setCore x.b.core { u.core x.b.core with wShd := weightsPer (tdFmt d) })) ∧
  (∀ s x, Runs s x Guard.always true [.matrix] [] → x.arrayFault = none → (s.core x.b.core).mqueue.length < 8 → ∀ u, u = x.enqueue .wswp →
    Acts (.wswp Guard.always) s x (u.setCore x.b.core { u.core x.b.core with
      wAct := (u.core x.b.core).wShd, wShd := (u.core x.b.core).wAct })) ∧
  (∀ m clr sps t xn b c rows promo trow s x d w, Runs s x Guard.always true [.matrix] (kBlock b.toNat 2 ++ triRegs c) →
    (s.core x.b.core).mqueue.length < 8 → w = (s.core x.b.core).wAct → t.toNat % w = 0 → s.descriptor x.b.ctx x.id xn.toNat = some d →
    mmsOk sps d = true → ∀ u : State, u = x.enqueue (.mms d sps m clr t.toNat w (x.kAt b.toNat) (x.kAt (b.toNat + 1)) (x.triWord c 0)
      (x.triWord c 1) (rows.toNat + 1) trow.toNat (if promo = 0 then (bits (s.ctx x.b.ctx).accPromo 0 7).toNat else promo.toNat)) →
    ∃ uw ur, Acts (.mms m clr sps Guard.always t xn b c rows promo trow) s x
        (u.setCore x.b.core { u.core x.b.core with unwaited := uw, unread := ur }) ∧
      (∀ i, i < 4 → uw.getLsbD i = ((u.core x.b.core).unwaited.getLsbD i || decide (t.toNat ≤ i ∧ i < t.toNat + w))) ∧
      ∀ n, Store.find ur n = if t.toNat ≤ n ∧ n < t.toNat + w then some ((u.core x.b.core).mnext - 1) else Store.find (u.core x.b.core).unread n) ∧
  (∀ t s x, Runs s x Guard.always true [.matrix] [] → (s.core x.b.core).mqueue.length < 8 →
    Acts (.aprm Guard.always t) s x (x.enqueue (.aprm t.toNat)) ∧ Acts (.aclr Guard.always t) s x (x.enqueue (.aclr t.toNat))) ∧
  (∀ m clr sps t xn b c rows promo trow s x, Runs s x Guard.always true [.matrix] (kBlock b.toNat 2 ++ triRegs c) →
    t.toNat % (s.core x.b.core).wAct ≠ 0 →
    Traps (.mms m clr sps Guard.always t xn b c rows promo trow) s x s (faultAll x.lanes .illegalOp 0)) ∧
  ((∀ (x : View) cmd u met, met = x.s.draining x.b.core cmd.tiles → u = (if met then x.s.spoilDrains x.b.core cmd.tiles else x.s) →
    x.enqueue cmd = (u.setCore x.b.core { u.core x.b.core with
      mqueue := (u.core x.b.core).mqueue ++ [{
        num := (u.core x.b.core).mnext, ctx := x.b.ctx, bunch := x.id, cmd, spoil := met || (x.s.core x.b.core).clashes cmd }]
      mnext := (u.core x.b.core).mnext + 1 }).touch x.b.ctx engineKey) ∧
  (∀ (c : Core) cmd, c.clashes cmd = true ↔ ∃ n, (cmd = .aprm n ∨ cmd = .aclr n) ∧ (Store.find c.unread n).isSome = true) ∧
  ∀ (s : State) core ts id b o r d spd t trow rows drow dcol bias, Store.find s.bunches id = some b → b.core = core → o ∈ b.ops → o.job = .copy r →
    r.job = .drain d spd t trow rows drow dcol bias → t ∈ ts → ∃ b' o' r', Store.find (s.spoilDrains core ts).bunches id = some b' ∧ o' ∈ b'.ops ∧
      o'.id = o.id ∧ o'.job = .copy r' ∧ r'.undef = true) ∧
  ∀ bias spd g xn t b rows trow tok s x d bs, Runs s x g true [.matrix, .epilogue] (kBlock b.toNat (if bias then 4 else 2)) → x.exec ≠ 0 →
    s.descriptor x.b.ctx x.id xn.toNat = some d → adrnOk spd d = true → (spd = true → x.b.team ≠ none) →
    (if bias = true then (x.biasAt (x.kPair (b.toNat + 2))).map some else .ok none) = .ok bs → ∀ early tile,
    tile = (if s.ownsArray x.b then t.toNat else 4) →
    early = ((s.core x.b.core).unwaited.getLsbD tile || (s.core x.b.core).commands.any fun e => e.cmd.tiles.contains tile) → ∃ c,
    Acts (.adrn bias spd g xn t b rows trow tok) s x ((x.startCopy tok { x.newCopy (.drain d spd tile trow.toNat (rows.toNat + 1)
      (x.kAt b.toNat) (x.kAt (b.toNat + 1)) bs) false with undef := early }).s.setCore x.b.core c) ∧
    c = { s.core x.b.core with mqueue := c.mqueue, mrun := c.mrun }

/-! ### Casks -/

/-- R166 to R168, R173, R178: CKOPN binds a slot to a cask whose descriptor and homes are well formed and CKCLS unbinds it, leaving the other
slots; CKRAK racks, and is in progress while its token is busy; CKCNT counts the live elements of all homes, one part a home at its row's
unit (R19; that the first part acts at once, and the split waits for the others, is DEDUCED, log entry 33); what each returns goes to its
token's operation. An instruction that is not yet guaranteed a newer binding may see an older one (R181). -/
def Obligations.CaskSlots : Prop :=
  (∀ g c a off tok s x k hs, Runs s x g true vecCopy (kBlock a.toNat 2) → x.exec ≠ 0 → (x.kAddr a off).toNat % 64 = 0 →
    openCask s x.b.core x.b.ctx (x.kAddr a off) = .ok k → caskDescOk k.d = true → k.allHomes s = .ok hs → homesOk hs none = true →
    Acts (.ckopn g c a off tok) s x
      ((x.rebind c.toNat (some { va := x.kAddr a off, desc := k.d }) tok).addOp x tok latCask .ready [])) ∧
  (∀ g c a off tok s x k, Runs s x g true vecCopy (kBlock a.toNat 2) → x.exec ≠ 0 →
    ((x.kAddr a off).toNat % 64 ≠ 0 → Traps (.ckopn g c a off tok) s x s (faultAll x.exec .misaligned (x.kAddr a off) .engine)) ∧
    ((x.kAddr a off).toNat % 64 = 0 → openCask s x.b.core x.b.ctx (x.kAddr a off) = .ok k → caskDescOk k.d = false →
      Traps (.ckopn g c a off tok) s x s (faultAll x.exec .tdescFormat (x.kAddr a off) .engine))) ∧
  (∀ g c tok s x, Runs s x g true vecCopy [] → x.exec ≠ 0 →
    Acts (.ckcls g c tok) s x ((x.rebind c.toNat none tok).addOp x tok latCask .ready [])) ∧
  (∀ (x : View) n new tok, Store.sortedFrom 0 (x.s.ctx x.b.ctx).casks = true → ∃ c, x.rebind n new tok = x.s.setCtx x.b.ctx c ∧
    c = { x.s.ctx x.b.ctx with casks := c.casks, oldCasks := c.oldCasks } ∧
    (∀ i, Store.find c.casks i = if i = n then new else Store.find (x.s.ctx x.b.ctx).casks i) ∧
    c.oldCasks.head? = some { slot := n, old := Store.find (x.s.ctx x.b.ctx).casks n, reach := { writer := x.id, op := x.s.nextId, tok } }) ∧
  (∀ (s : State) ctx id n, s.caskSlot ctx id n = Store.find (s.ctx ctx).casks n ∨
    ∃ o ∈ (s.ctx ctx).oldCasks, o.slot = n ∧ (if o.reach.writer = id then o.reach.covered = false else id ∉ o.reach.seen) ∧
      s.caskSlot ctx id n = o.old) ∧
  (∀ g d c tok s x b k u w, Runs s x g true vecCopy [.k d.toNat] → x.exec ≠ 0 → x.slot c = some b → x.open s b = .ok k →
    k.rack s = .ok (u, w) → ∀ t, t = u.addOp x tok latCask .ready [x.kWrite d.toNat w] →
    (w ≠ 0xFFFFFFF0 → Acts (.ckrak g d c tok) s x t) ∧
    (w = 0xFFFFFFF0 → Acts (.ckrak g d c tok) s x (t.onBunch x.id fun q =>
      { q with ops := q.ops.map fun o => if o.id = u.nextId then { o with rack := some b.va } else o }))) ∧
  (∀ (k : Cask) s hs id b o, k.allHomes s = .ok hs → Store.find s.bunches id = some b → b.ctx = k.ctx → o ∈ b.ops → o.rack = some k.va →
    s.choice 40 = 0 → k.rack s = .ok (s, 0xFFFFFFF1)) ∧
  (∀ g d c tok s x b k hs, Runs s x g true vecCopy [.k d.toNat] → x.exec ≠ 0 → x.slot c = some b → x.open s b = .ok k →
    k.allHomes s = .ok hs →
    (hs.length ≤ 1 → Acts (.ckcnt g d c tok) s x (s.addOp x tok latCask .ready
      [x.kWrite d.toNat (BitVec.ofNat 32 (min (2 ^ 32 - 1) (hs.foldl (fun n h => n + hmLive h) 0)))])) ∧
    (1 < hs.length → SentOn (.ckcnt g d c tok) s x tok s
      { job := .count d.toNat (hmLive (hs.headD 0)), bind := b, todo := (allParts hs).tail, op := 0, lane := 0 })) ∧
  ∀ g d c tok s x, Runs s x g true vecCopy [.k d.toNat] → x.exec ≠ 0 → x.slot c = none →
    Traps (.ckrak g d c tok) s x s (faultAll x.exec .caskStale 0 .engine) ∧
    Traps (.ckcnt g d c tok) s x s (faultAll x.exec .caskStale 0 .engine)

/-- R169 to R172, R345, R252, R19: CKINS, CKREM, CKMOV, CKPAY, CKWR and DPST act on their cask lane by lane, and wait while a row's unit that
they need is occupied; such an action changes memory alone (R164). CASK_STALE of an unbound slot has the lane's handle for its address,
or 0 where the instruction has none (the 0, and KIND engine of every cask fault, are the model's choice: log entries 33, 39). -/
def Obligations.CaskElements : Prop :=
  ((∀ now g d c b tok s x, Runs s x g false vecCopy (vBlock b.toNat (4 + ncolOf (x.slot c)) ++ [.v d.toNat]) → x.exec ≠ 0 →
    ActsOnCask (.ckins now g d c b tok) s x c (x.actors false) d tok none (x.ckins now b (ncolOf (x.slot c)))) ∧
  (∀ g d c b tok s x, Runs s x g false vecCopy [.v b.toNat, .v d.toNat] → x.exec ≠ 0 →
    ActsOnCask (.ckrem g d c b tok) s x c (x.actors false) d tok (some b) (x.ckrem b)) ∧
  (∀ now g d c b tok s x, Runs s x g false vecCopy (.v b.toNat :: vBlock (b.toNat + 2) 4 ++ [.v d.toNat]) → x.exec ≠ 0 →
    ActsOnCask (.ckmov now g d c b tok) s x c (x.actors false) d tok (some b) (fun k hs t l =>
      k.move t hs now (x.b.vAt b.toNat l) (x.vPair (b.toNat + 2) l).toNat (x.vPair (b.toNat + 4) l).toNat)) ∧
  (∀ g d c b map tok s x, Runs s x g false vecCopy ([.v b.toNat] ++ vBlock d.toNat (mapCols map).length) → x.exec ≠ 0 →
    mapBad (x.slot c) map = false → ActsOnCask (.ckpay g d c b map tok) s x c x.exec d tok (some b) (x.ckpay b map)) ∧
  (∀ g d c b map tok s x, Runs s x g false vecCopy (vBlock b.toNat (1 + (mapCols map).length) ++ [.v d.toNat]) → x.exec ≠ 0 →
    mapBad (x.slot c) map = false → ActsOnCask (.ckwr g d c b map tok) s x c (x.actors false) d tok (some b) (x.ckwr b map)) ∧
  ∀ g d a b tok s x l bind r, Runs s x g false vecCopy (vBlock a.toNat 2 ++ vBlock b.toNat 4 ++ [.v d.toNat]) →
    s.launch x.b.launch = some l → l.cask = some bind → r = (x.perLane (x.actors false) d tok true fun t n =>
      (x.open t bind).bind fun c => (c.allHomes t).bind fun hs => x.dpst a b c hs t n) →
    ((∀ n, Store.get 0 s.cooperTo n ≤ s.now) → Ends (.dpst g d a b tok) s x r.s r.faults) ∧
    ∀ n, r.flow = .wait (.cooper n) false → Held (.dpst g d a b tok) s x (.cooper n)) ∧
  ((∀ c s u w, s.still → Cask.rack c s = .ok (u, w) → OnlyMemory s u) ∧
  (∀ c s hs key off cols p, s.still → Cask.insertNow c s hs key off cols = .ok p → OnlyMemory s p.s) ∧
  (∀ c s hs key off cols m p, s.still → Cask.insertNext c s hs key off cols m = .ok p → OnlyMemory s p.s) ∧
  (∀ c s h n i u, s.still → Cask.remove c s h n i = .ok u → OnlyMemory s u) ∧
  (∀ c s n i vals u, s.still → Cask.putCols c s n i vals = .ok u → OnlyMemory s u) ∧
  ∀ c s hs now w key off y, s.still → Cask.move c s hs now w key off = .ok y → OnlyMemory s y.s)

/-- R174 to R177, R180: CKITR opens a cursor with its bounds on the homes it reaches, closing the one before; CKNXT gives the next elements of
the cask order to the lanes of the split's mask, ascending, with their predicates and count, and closes a cursor that has no more; without a
cursor it returns none and done. Each acts at one home after the other, the first at once (log entry 33: DEDUCED, as are min(N, lanes of the
mask) elements and the closing of a cursor from which fewer than N came; the bits of a NaN position are log entry 19). A home's count that
cannot be written faults (R180). -/
def Obligations.CaskIteration : Prop :=
  (∀ g j tok s x, Runs s x g true vecCopy [] → x.exec ≠ 0 →
    (∀ s1, s.withoutCursor x j.toNat = .ok s1 → Acts (.ckitr .close g j tok) s x (s1.addOp x tok latCask .ready [])) ∧
    ∀ e, s.withoutCursor x j.toNat = .error e → Traps (.ckitr .close g j tok) s x s (faultAll x.exec e.1 e.2 .engine)) ∧
  (∀ m g j tok s x slot mode b k hs s1, Runs s x g true vecCopy (itrReads m) → x.exec ≠ 0 → x.curMode m = some (slot, mode) →
    x.slot slot = some b → itrBad m (some b) = false → s.withoutCursor x j.toNat = .ok s1 → x.open s1 b = .ok k →
    k.allHomes s1 = .ok hs → ∀ cur, cur = { bind := b, mode, homes := reached b.desc hs mode : Cursor } →
    (∀ e, s1.openHomes x.b.core x.b.ctx b.desc (· + 1) cur.homes = .error e →
      Traps (.ckitr m g j tok) s x s (faultAll x.exec e.1 e.2 .engine)) ∧
    ∀ t, s1.openHomes x.b.core x.b.ctx b.desc (· + 1) cur.homes = .ok t →
      (cur.homes.length ≤ 1 → Acts (.ckitr m g j tok) s x
        ((t.onBunch x.id fun q => { q with cursors := Store.insert q.cursors j.toNat cur }).addOp x tok latCask .ready [])) ∧
      ∀ h rest u, cur.homes = h :: rest → rest ≠ [] → s1.openHomes x.b.core x.b.ctx b.desc (· + 1) [h] = .ok u →
        SentOn (.ckitr m g j tok) s x tok u { job := .opening j.toNat cur [h], bind := b, op := 0, lane := 0
                                              todo := rest.map fun n => { phase := 0, home := n, unit := hmUnit (hs.getD n 0) } }) ∧
  (∀ (d : BitVec 512) hs (m : CurMode) h, h ∈ reached d hs m ↔ h < hs.length ∧ m.meets d (hmLo (hs.getD h 0)) (homeTop d hs h) = true) ∧
  (∀ d a b lo hi, (CurMode.range lo hi).meets d a b = true ↔ lo ≤ hi ∧ lo ≤ b ∧ a ≤ hi) ∧
  (∀ g d j n kc pf px map tok s x (f : NextForm), Runs s x g true vecCopy (vBlock d.toNat (7 + (mapCols map).length) ++
      [.p pf.toNat, .p px.toNat, .k kc.toNat]) → x.exec ≠ 0 → n.toNat + 1 ≤ x.b.width →
    f = { cursor := j.toNat, d := d.toNat, count := n.toNat + 1, lanes := lanesOf x.sp.mask, kc := kc.toNat, pf := pf.toNat, px := px.toNat
          cols := mapCols map } →
    (Store.find x.b.cursors j.toNat = none →
      Acts (.cknxt g d j n kc pf px map tok) s x (s.addOp x tok latCask .ready (f.report x.b 0 true))) ∧
    ∀ cur k hs q rest hm es more, Store.find x.b.cursors j.toNat = some cur → mapBad (some cur.bind) map = false →
      x.open s cur.bind = .ok k → k.allHomes s = .ok hs → cur.ahead hs = q :: rest → k.home s q.home = .ok hm → k.elems s q.home hm = .ok es →
      more = (cur.upcoming q.phase es).take (min f.count f.lanes.length) →
      (rest ≠ [] → more.length < min f.count f.lanes.length → SentOn (.cknxt g d j n kc pf px map tok) s x tok s
        { job := .next f (cur.past more) (more.map fun e => (e, hm)), bind := cur.bind, todo := rest, op := 0, lane := 0 }) ∧
      (rest = [] ∨ more.length = min f.count f.lanes.length → ∀ ws,
        ws = (f.lanes.zip (more.zip (List.range more.length))).flatMap (fun e => x.b.destWrites (.v d) e.1 (filledWords cur.bind.desc
          (mapCols map) (fun a => (s.freeValue (3 * e.2.2 + a)).setWidth 32) e.2.1 hm)) ++ f.report x.b more.length (decide (more.length < f.count)) →
        (f.count ≤ more.length → Acts (.cknxt g d j n kc pf px map tok) s x (((s.onBunch x.id fun q =>
          { q with cursors := Store.insert q.cursors j.toNat (cur.past more) }).usedFree 96).addOp x tok latCask .ready ws)) ∧
        (more.length < f.count → ∀ t, s.openHomes x.b.core x.b.ctx cur.bind.desc (· - 1) cur.homes = .ok t →
          Acts (.cknxt g d j n kc pf px map tok) s x (((t.onBunch x.id fun q =>
            { q with cursors := Store.erase q.cursors j.toNat }).usedFree 96).addOp x tok latCask .ready ws)))) ∧
  ∀ (cur : Cursor) ph es e, (∀ lo hi p, cur.mode ≠ .voxel lo hi p) → (e ∈ cur.upcoming ph es ↔ e ∈ es ∧ e.live = true ∧
    cur.mode.holds cur.bind.desc e.key = true ∧ cur.after e = true ∧ cur.mode.phase cur.bind.desc e.key = ph)

/-! ### Launching and waiting -/

/-- R236, R373, R394, R69: LNCH and TASK read their record at issue and enter it, with their operation, into the pending-launch queue, a release
at sys scope; behind four entries theirs waits, its token busy and its split Blocked, until the front end accepts one; a handler may not,
and a record that cannot be read faults, as does a store that was lost (R296; log entry 36). -/
def Obligations.PendingLaunches : Prop :=
  ∀ (task : Bool) g d a off tok s x i, i = (if task then .task g d a off tok else .lnch g d a off tok) →
    Runs s x g true noMatrix (kBlock a.toNat 2 ++ [.k d.toNat]) → x.exec ≠ 0 →
    (∀ r q u, x.entry < 4 → x.record (x.kAddr a off) 8 64 = .ok r → q = Store.get [] s.plqs (x.b.plqKey x.id) →
      u = { s.addOp x tok latLoad .held [x.kWrite d.toNat 0] with
        plqs := Store.insert s.plqs (x.b.plqKey x.id) (q ++ [{ bunch := x.id, op := s.nextId, task, va := x.kAddr a off, raw := BitVec.ofNat 512 r, d := d.toNat }]) } →
      (q.length < 4 → Releases i s x u) ∧
      (4 ≤ q.length → x.lostFault true .sys = none → ∃ t, exec i s = .next t ∧ MovedOn (u.ordered x false true) t x.id ∧
        BlockedOn x t (.launchQueue s.nextId) (some x.nextPc))) ∧
    (∀ e, x.entry < 4 → x.record (x.kAddr a off) 8 64 = .error e → Traps i s x s (faultAll x.exec e.1 e.2 .read)) ∧
    (4 ≤ x.entry → Traps i s x s (faultAll x.lanes .handlerFault 0))

/-- R238, R344, R242, R343, R240, R245, R359: DEPD returns the old count, decrements it, and at 1 enqueues the slot's record; CWAIT goes on with
the value where the counter has reached its target, an acquire, else it blocks; GARM re-arms a node of a running graph; HPOST hands its
record to the ring's writer. DEPD, GARM and HPOST are releases at sys scope; a link or a fence point that holds back an access makes its
split wait (R291, R294; log entry 36). -/
def Obligations.CountersAndRings : Prop :=
  (∀ g d a off tok s x p, Runs s x g true noMatrix (kBlock a.toNat 2 ++ kBlock d.toNat 2) → x.exec ≠ 0 →
    placeOf s x.b.core x.b.ctx .window (x.kAddr a off) .write 16 0 = .ok p → s.bankQ = [] →
    x.held .window .write 16 (fun _ => x.kAddr a off) [0] true = none →
    (s.depKind p ≠ 3 → ∃ u, Releases (.depd g d a off tok) s x (u.addOp x tok latLoad .ready
        [x.kWrite d.toNat (BitVec.ofNat 32 (s.natAt p 8)), x.kWrite (d.toNat + 1) (BitVec.ofNat 32 (s.natAt p 8 / 2 ^ 32))]) ∧
      ReadsAs u p 8 (s.natAt p 8 - 1) ∧ KeepsOutside s u [p] 8 ∧
      u.depRecs = s.depRecs ++ (if s.natAt p 8 = 1 ∧ (s.depKind p = 1 ∨ s.depKind p = 2) then
        [{ ctx := x.b.ctx, task := s.depKind p == 2, va := BitVec.ofNat 64 (s.natAt (p.plus 8) 8 % 2 ^ 52) }] else [])) ∧
    (s.depKind p = 3 → Traps (.depd g d a off tok) s x s (faultAll x.exec .pageProtection (x.kAddr a off) .atomic))) ∧
  (∀ sc g d a off b tok s x p, Runs s x g true noMatrix (kBlock a.toNat 2 ++ kBlock b.toNat 2 ++ [.k d.toNat]) → x.exec ≠ 0 → x.entry < 4 →
    placeOf s x.b.core x.b.ctx .window (x.kAddr a off) .read 8 0 = .ok p → s.bankQ = [] →
    x.held .window .read 8 (fun _ => x.kAddr a off) [0] false = none →
    ((x.kPair b.toNat).toNat ≤ s.natAt p 8 → Acts (.cwait sc g d a off b tok) s x
      ((s.addOp x tok latLoad .ready [x.kWrite d.toNat (BitVec.ofNat 32 (s.natAt p 8))]).acquires x.id)) ∧
    (s.natAt p 8 < (x.kPair b.toNat).toNat → ∀ c o, p = .commons c o → ∃ t, exec (.cwait sc g d a off b tok) s = .next t ∧
      MovedOn (s.addOp x tok latLoad .waits [x.kWrite d.toNat 0]) t x.id ∧
      BlockedOn x t (.counter c o (x.kPair b.toNat) none ((s.ctx x.b.ctx).swapAt s.now) s.nextId) (some x.nextPc))) ∧
  (∀ sc g d a off b tok s x w, x.exec ≠ 0 → x.entry < 4 →
    (Runs s x g true noMatrix (kBlock a.toNat 2 ++ kBlock d.toNat 2) → x.held .window .write 16 (fun _ => x.kAddr a off) [0] true = some w →
      Held (.depd g d a off tok) s x w) ∧
    (Runs s x g true noMatrix (kBlock a.toNat 2 ++ kBlock b.toNat 2 ++ [.k d.toNat]) →
      x.held .window .read 8 (fun _ => x.kAddr a off) [0] false = some w → Held (.cwait sc g d a off b tok) s x w)) ∧
  (∀ g d a off b tok s x y, Runs s x g true noMatrix (kBlock a.toNat 2 ++ [.k b.toNat] ++ [.k d.toNat]) → x.exec ≠ 0 →
    (x.kAddr a off).toNat % 64 = 0 → locate s x.b.core x.b.ctx (x.kAddr a off) .read = .ok y → ∀ run,
    run = s.graphs.find? (fun q => q.ctx == x.b.ctx && q.va == x.kAddr a off && !q.waits) →
    (run = none → Releases (.garm g d a off b tok) s x (s.addOp x tok latLoad .ready [x.kWrite d.toNat 1])) ∧
    (∀ q, run = some q → q.nodes.length ≤ (x.kAt b.toNat).toNat →
      Releases (.garm g d a off b tok) s x (s.addOp x tok latLoad .ready [x.kWrite d.toNat 2])) ∧
    (∀ q, run = some q → (x.kAt b.toNat).toNat < q.nodes.length → Releases (.garm g d a off b tok) s x
      ((s.setRun (q.rearm (x.kAt b.toNat).toNat)).addOp x tok latLoad .ready [x.kWrite d.toNat 0]))) ∧
  (∀ g d ring b tok s x r, Runs s x g true noMatrix (kBlock b.toNat 4 ++ [.k d.toNat]) → x.exec ≠ 0 →
    readRing s x.b.core x.b.ctx ring.toNat = .ok r → Releases (.hpost g d ring b tok) s x (s.addOp x tok latLoad
      (.unit { job := .post ring.toNat ((List.range 4).map fun i => x.kAt (b.toNat + i)) false, lane := lowest x.exec }) [x.kWrite d.toNat 0])) ∧
  ∀ g d ring tok s x r, Runs s x g true noMatrix [.k d.toNat] → x.exec ≠ 0 → readRing s x.b.core x.b.ctx ring.toNat = .ok r →
    Releases (.hpostFlush g d ring tok) s x (s.addOp x tok latLoad (.unit { job := .post ring.toNat [] true, lane := lowest x.exec })
      [x.kWrite d.toNat 0])

/-! ### Raster instructions -/

/-- R279 to R289: the raster instructions reach their cellar's raster unit, in the order of their issue, with what they captured; PRIM, a release
at sys scope (a lost store: log entry 36), with the quads of its triangle. Coverage: a sample is covered inside every edge or on one its
triangle owns, and of two opposite edges one owns each of its points; every covered pixel is in a quad that is delivered, with the words of
R283. Splats: nothing is added once T is below 1/256 or where alpha is below 1/255; at a splat's centre alpha is min(0.99, o). Paths: a
horizontal segment adds nothing, a vertical one in one row its area and cover; each addition is modulo 2^32. COVR resolves and converts
each element. -/
def Obligations.Raster : Prop :=
  ((∀ g d a b tok s x r q, Runs s x g true vecOnly (kBlock a.toNat 7 ++ kBlock b.toNat 2 ++ [.k d.toNat]) → x.exec ≠ 0 →
    x.rasterRecord b = .ok r → q = primQuads r (fun i => x.kAt (a.toNat + i)) → Releases (.prim g d a b tok) s x
      (x.toRaster s tok { job := .prim (rrTarget r) q.1 q.1.length q.2, lane := lowest x.exec } [x.kWrite d.toNat 0])) ∧
  (∀ g d b tok s x r, Runs s x g true vecOnly (kBlock b.toNat 2 ++ [.k d.toNat]) → x.exec ≠ 0 → x.rasterRecord b = .ok r →
    Acts (.primClose g d b tok) s x (x.toRaster s tok { job := .close (rrTarget r), lane := lowest x.exec } [x.kWrite d.toNat 0])) ∧
  (∀ g d a b c tok s x r bind y, Runs s x g true vecOnly (kBlock a.toNat 2 ++ kBlock b.toNat 2 ++ [.k d.toNat]) → x.exec ≠ 0 →
    x.rasterRecord b = .ok r → s.caskSlot x.b.ctx x.id c.toNat = some bind → splatCaskOk bind.desc = true → ∀ tiles,
    tiles = splatTiles (rrWm1 r + 1) (rrHm1 r + 1) (x.kAt a.toNat).toNat (x.kAt (a.toNat + 1)).toNat →
    unitGo (x.b.engine x.id) tiles.length s { job := .splat bind (rrWm1 r + 1) (rrHm1 r + 1) (rrCol r) tiles [], lane := lowest x.exec } = y →
    (Store.find y.1.bunches x.id).isSome → Acts (.primSplat g d a b c tok) s x (x.toRaster y.1 tok y.2 [x.kWrite d.toNat 0])) ∧
  (∀ k g xt a tok s x d, Runs s x g false vecOnly (vBlock a.toNat 8) → x.exec ≠ 0 → s.descriptor x.b.ctx x.id xt.toNat = some d → tdFmt d = 7 →
    tdRank d = 2 → ∀ (lanes : List (Nat × Option (List Pt))) adds, lanes.map (·.1) = lanesOf (x.actors false) →
    (∀ e ∈ lanes, e.2 = snapAll ((List.range (2 * SegKind.points k)).map fun i => x.b.vAt (a.toNat + i) e.1)) →
    adds = lanes.flatMap (fun e => match e.2 with
      | some ps => (segment ps (tdExtent d 0) (tdExtent d 1)).map fun c => (e.1, c.1, c.2.1, c.2.2)
      | none => []) → Acts (.pseg k g xt a tok) s x
      (x.toRaster (if lanes.any fun e => e.2.isNone then s.onBunch x.id fun b => { b with fpStat := b.fpStat ||| flagINV } else s) tok
        { job := .seg d adds, lane := lowest x.exec } [])) ∧
  (∀ eo clr g d a b tok s x src dst, Runs s x g true vecOnly (kBlock b.toNat 4) → x.exec ≠ 0 → s.descriptor x.b.ctx x.id a.toNat = some src →
    s.descriptor x.b.ctx x.id d.toNat = some dst → tdRank src = 2 → tdRank dst = 2 → tdFmt src = 7 → tdFmt dst = 8 ∨ tdFmt dst = 1 ∨ tdFmt dst = 0 →
    ∀ job, job = UnitJob.cover src dst eo clr (x.kAt b.toNat) (x.kAt (b.toNat + 1)) (x.kAt (b.toNat + 2)) (x.kAt (b.toNat + 3)) →
    Acts (.covr eo clr g d a b tok) s x (x.toRaster s tok { job, lane := lowest x.exec } [])) ∧
  ∀ (x : View) s tok job ws, (x.toRaster s tok job ws).raster = s.raster ++
      [{ cellar := cellarOf x.b.core, bunch := x.id, op := s.nextId }] ∧ (x.toRaster s tok job ws).mem = s.mem) ∧
  ((∀ w : Word, snap w = none ↔ ¬ (f32Finite w ∧ (f32Val w).natAbs < 2 ^ 172)) ∧
  (∀ w n, snap w = some n → 2 * (n * 2 ^ 141 - f32Val w).natAbs ≤ 2 ^ 141 ∧ (2 * (n * 2 ^ 141 - f32Val w).natAbs = 2 ^ 141 → n % 2 = 0)) ∧
  (∀ s e p, s ≠ e → inside s e p = !inside e s p) ∧
  (∀ (t : Tri) p, t.area ≠ 0 → t.covers p = (if 0 < t.area then inside t.v0 t.v1 p && inside t.v1 t.v2 p && inside t.v2 t.v0 p
    else inside t.v0 t.v2 p && inside t.v2 t.v1 p && inside t.v1 t.v0 p)) ∧
  (∀ (t : Tri) wm1 hm1 prim q, q ∈ t.quads wm1 hm1 prim → ∃ qx qy, qx % 2 = 0 ∧ qy % 2 = 0 ∧ q.covered ≠ 0 ∧ ∀ j, j < 4 → ∀ px py,
    px = qx + j % 2 → py = qy + j / 2 → (q.covered.getLsbD j = true ↔ px ≤ wm1 ∧ py ≤ hm1 ∧ t.covers (centre px py) = true) ∧
    q.words[j]? = some [BitVec.ofNat 32 (px + py * 65536), prim,
      ratio32 (edge t.v2 t.v0 (centre px py)) t.area, ratio32 (edge t.v0 t.v1 (centre px py)) t.area]) ∧
  (∀ (t : Tri) wm1 hm1 prim px py, t.area ≠ 0 → px ≤ wm1 → py ≤ hm1 → px < 65536 → py < 65536 → t.covers (centre px py) = true →
    ∃ q ∈ t.quads wm1 hm1 prim, (q.words.headD []).head? = some (BitVec.ofNat 32 (px / 2 * 2 + py / 2 * 2 * 65536))) ∧
  (∀ r (k : Nat → Word) x0 y0 x1 y1 x2 y2 t, snap (k 0) = some x0 → snap (k 1) = some y0 → snap (k 2) = some x1 → snap (k 3) = some y1 →
    snap (k 4) = some x2 → snap (k 5) = some y2 → t = { v0 := { x := x0, y := y0 }, v1 := { x := x1, y := y1 }, v2 := { x := x2, y := y2 } : Tri } →
    primQuads r k = (if t.area = 0 ∨ (rrCull r % 2 = 1 ∧ t.area < 0) ∨ (rrCull r / 2 = 1 ∧ 0 < t.area) then []
      else t.quads (rrWm1 r) (rrHm1 r) (k 6), false)) ∧
  ∀ n d : Int, d ≠ 0 → n.natAbs < 2 ^ 80 → d.natAbs < 2 ^ 80 → ∀ (off : Word → Nat),
    off = (fun w => (f32Val w * d.natAbs - n * d.sign * 2 ^ 149).natAbs) → f32Finite (ratio32 n d) ∧ ∀ w, f32Finite w →
      off (ratio32 n d) ≤ off w ∧ (off w = off (ratio32 n d) → f32Val w ≠ f32Val (ratio32 n d) → (ratio32 n d).getLsbD 0 = false)) ∧
  ((∀ (c : Blend) px py w, f32Finite c.t → f32Val c.t < f32Val 0x3B800000 → c.splat px py w = c) ∧
  (∀ p, p < 2 ^ 14 → f32Finite (half32 p) ∧ f32Val (half32 p) = (2 * p + 1) * 2 ^ 148) ∧
  ∀ (c : Blend) px py w o alpha, f32Finite c.t → f32Val 0x3B800000 ≤ f32Val c.t → w.getD 0 0 = half32 px → w.getD 1 0 = half32 py →
    px < 2 ^ 14 → py < 2 ^ 14 → f32Finite (w.getD 2 0) → (w.getD 3 0).toNat % 2 ^ 31 < 0x7E800000 → f32Finite (w.getD 4 0) →
    o = w.getD 5 0 → f32Finite o → alpha = (if f32Val 0x3F7D70A4 ≤ f32Val o then 0x3F7D70A4 else o) →
    c.splat px py w = if f32Val alpha < f32Val 0x3B808081 then c else { c with
      r := fAdd c.r (fMul (fMul c.t alpha) (w.getD 6 0)), g := fAdd c.g (fMul (fMul c.t alpha) (w.getD 7 0))
      b := fAdd c.b (fMul (fMul c.t alpha) (w.getD 8 0)), t := fMul c.t (fSub 0x3F800000 alpha) }) ∧
  ((∀ (a b : Pt) y w h, a.y = y → b.y = y → segment [a, b] w h = []) ∧
  (∀ (X y0 y1 r c w h : Nat) (d : Int), y0 ≠ y1 → 256 * r ≤ min y0 y1 → max y0 y1 ≤ 256 * r + 256 → c = X / 256 → c < w → r < h →
    d = (if y0 < y1 then 1 else -1) → segment [{ x := X, y := y0 }, { x := X, y := y1 }] w h =
      (c, r, BitVec.ofInt 32 (d * (((256 * (c + 1) - X) * (max y0 y1 - min y0 y1) : Nat) : Int))) ::
        (List.range (w - (c + 1))).map fun i => (c + 1 + i, r, BitVec.ofInt 32 (d * ((256 * (max y0 y1 - min y0 y1) : Nat) : Int)))) ∧
  ∀ g s d c p, enginePlace s g.core g.pad g.ctx (some (tdLayout d)) false
      (BitVec.ofInt 64 ((tdBase d : Int) + 4 * tdPos d [(c.2.1 : Int), (c.2.2.1 : Int)])) 4 .write = .ok p →
    s.poisoned p 4 = false → s.unreachable g.core p = false → s.linksIdle = true → s.still →
    ∃ t, segStep g s d c = .ok t ∧ ReadsAs t p 4 ((s.natAt p 4 + c.2.2.2.toNat) % 2 ^ 32) ∧ KeepsOutside s t [p] 4) ∧
  (∀ n : Word, resolve false n = min n.toInt.natAbs 65536 ∧ (∀ k : Int, resolve true n ≤ (n.toInt - 131072 * k).natAbs) ∧
    ∃ k : Int, resolve true n = (n.toInt - 131072 * k).natAbs) ∧
  (∀ v, v ≤ 65536 → 2 * ((coverBits 8 v * 65536 : Int) - v * 255).natAbs ≤ 65536 ∧
    (2 * ((coverBits 8 v * 65536 : Int) - v * 255).natAbs = 65536 → coverBits 8 v % 2 = 0) ∧
    f32Val (BitVec.ofNat 32 (coverBits 0 v)) = v * 2 ^ 133) ∧
  ∀ g s i src dst eo (clr : Bool) (x0 y0 w : Word) idx m p q, idx = [x0.toInt + ((i % w.toNat : Nat) : Int), y0.toInt + ((i / w.toNat : Nat) : Int)] →
    tdFmt src = 7 → tdScale src = 0 → plainFmt dst → m = fmtBytes (tdFmt dst) → tdIn src idx = true → tdIn dst idx = true →
    g.reads s (some (tdLayout src)) false (elemAt src idx) 4 p → g.writes s (some (tdLayout src)) false (elemAt src idx) 4 p →
    g.writes s (some (tdLayout dst)) false (elemAt dst idx) m q → p.key + 4 ≤ q.key ∨ q.key + m ≤ p.key →
    ∃ t, coverStep g s i src dst eo clr x0 y0 w = .ok t ∧
      HoldsBytes t q (leBytes (coverBits (tdFmt dst) (resolve eo (BitVec.ofNat 32 (s.natAt p 4)))) m) ∧
      (clr = true → t.natAt p 4 = 0) ∧ (clr = false → KeepsOutside s t [q] m)

/-! ### System instructions -/

/-- R338 to R340: CSRR reads a pair from each register there is; CSRW writes the writable bits of a context register, none of the others; FP_STAT
takes ones that clear and FLT_CAUSE its SKIP; a number without a register is ILLEGAL_OP. -/
def Obligations.SystemRegisters : Prop :=
  (∀ g d num s x, Runs s x g true allRoles (kBlock d.toNat 2) →
    (∀ v, s.readCsr x.b num.toNat = some v → ∃ t, exec (.csrr g d num) s = .next t ∧
      Wrote s x t x.b.fpStat (x.pair (.k d) fun _ => v)) ∧
    (s.readCsr x.b num.toNat = none → Traps (.csrr g d num) s x s (faultAll x.lanes .illegalOp 0))) ∧
  (∀ g b num s x, Runs s x g true noMatrix (b.regs 2) → s.readCsr x.b num.toNat = none →
    Traps (.csrw g b num) s x s (faultAll x.lanes .illegalOp 0)) ∧
  (∀ g b num s x old v, Runs s x g true noMatrix (b.regs 2) → x.exec ≠ 0 → (s.ctx x.b.ctx).csr num.toNat = some old →
    v = x.dwordL b (lowest x.lanes) → (num.toNat = 0x053 → 1 ≤ v.toNat % 128 ∧ v.toNat % 128 ≤ 64) →
    ∃ c, Acts (.csrw g b num) s x (s.setCtx x.b.ctx c) ∧
      c.csr num.toNat = some ((old &&& ~~~csrMask num.toNat) ||| (v &&& csrMask num.toNat)) ∧
      (∀ n, n ≠ num.toNat → c.csr n = (s.ctx x.b.ctx).csr n) ∧ c.tensors = (s.ctx x.b.ctx).tensors ∧ c.casks = (s.ctx x.b.ctx).casks) ∧
  (∀ g b s x, Runs s x g true noMatrix (b.regs 2) → x.exec ≠ 0 →
    Acts (.csrw g b 0x041) s x (s.setBunch x.id { x.b with fpStat := x.b.fpStat &&& ~~~(bits (x.dwordL b (lowest x.lanes)) 0 4) })) ∧
  ∀ g b s x, Runs s x g true noMatrix (b.regs 2) → x.exec ≠ 0 → ∃ f, Acts (.csrw g b 0x070) s x (s.setBunch x.id { x.b with fltCause := f }) ∧
    ∀ i, i < 64 → f.getLsbD i = if i = 15 then (x.dwordL b (lowest x.lanes)).getLsbD 15 else x.b.fltCause.getLsbD i

/-- R259 to R265, R352, R358, R380: HMAP and PGUP act lane by lane in a handler; a page already mapped with its size answers 1, an absent pool or root
2; FINFO returns its lanes' pairs. -/
def Obligations.HandlerServices : Prop :=
  (∀ m g d a tok s x u vs fs, Runs s x g d.isK allRoles (a.regs 2 ++ d.regs) → 4 ≤ x.entry →
    overLanes .write (fun s l => hmapLane x m (x.vkPair a l) s) (lanesOf x.exec) s = (u, vs, fs) → (Store.find u.bunches x.id).isSome →
    Ends (.hmap m g d a tok) s x (if vs.isEmpty then u else
      u.addOp x tok latLoad .ready (vs.flatMap fun e => x.b.destWrites d e.1 [e.2])) fs) ∧
  (∀ g d a tok s x u vs fs, Runs s x g d.isK allRoles (a.regs 2 ++ d.regs) → 4 ≤ x.entry →
    overLanes .read (fun s l => pgupLane x (x.vkPair a l) l s) (lanesOf x.exec) s = (u, vs, fs) → (Store.find u.bunches x.id).isSome →
    Ends (.pgup g d a tok) s x (if vs.isEmpty then u else
      u.addOp x tok latLoad .ready (vs.flatMap fun e => x.b.destWrites d e.1 [e.2])) fs) ∧
  (∀ x m va s, s.bankQ = [] → bit (s.ctx x.b.ctx).poolBase 0 = false ∨ bit (s.ctx x.b.ctx).ptRoot 0 = false →
    hmapLane x m va s = .ok s 2) ∧
  (∀ x m va s, s.bankQ = [] → bit (s.ctx x.b.ctx).poolBase 0 = true → bit (s.ctx x.b.ctx).ptRoot 0 = true → va.toNat < 2 ^ 52 →
    findHole s (rootTable (s.ctx x.b.ctx).ptRoot) (va.toNat / pageBytes m.size.toNat * pageBytes m.size.toNat) m.size.toNat 3 = .ok .mapped →
    hmapLane x m va s = .ok s 1) ∧
  (∀ x va l s, s.pagerOf x.b.ctx (va &&& ~~~(0xFFF : DWord)).toNat = .ok 0 → pgupLane x va l s = .ok s 0xFFFFFFFE) ∧
  ∀ g d sel tok s x, Runs s x g d.isK allRoles (d.regs 2) → x.exec ≠ 0 → sel.toNat ≤ 4 →
    Acts (.finfo g d sel tok) s x (s.addOp x tok latScratch .ready ((lanesOf x.exec).flatMap fun l =>
      x.b.destWrites d l (wordsOf64 (x.finfo sel.toNat (if d.isK then lowest x.b.fltMask else l)))))

/-! ### Checks and guards -/

/-- R40, R53, R73, R257: of any instruction: where the bunch's role is none of those that may issue it, the matrix role issues it under a guard
or over a lane register or a predicate, or a split outside a handler issues ERET, HMAP or PGUP, it traps ROLE_VIOLATION in every lane of the
split; EXIT, RFILL, DRAIN, CWAIT, LNCH, TASK, and a BAR whose guard holds, raise HANDLER_FAULT in a handler; an ILLEGAL_OP goes before. -/
def Obligations.RoleChecks : Prop := ∀ i s x a, asks s i = some a → Comes s x a → x.legal a →
  (x.b.role ∉ a.roles → Traps i s x s (faultAll x.lanes .roleViolation 0)) ∧
  (x.b.role = .matrix → a.guard ≠ Guard.always ∨ (∃ r ∈ a.reads ++ a.writes, ∀ n, r ≠ .k n) → Traps i s x s (faultAll x.lanes .roleViolation 0)) ∧
  (x.roleMay a →
    (a.hnd = .only → x.entry < 4 → Traps i s x s (faultAll x.lanes .roleViolation 0)) ∧
    (a.hnd = .forbidden ∨ a.hnd = .guarded ∧ x.exec ≠ 0 → 4 ≤ x.entry → Traps i s x s (faultAll x.lanes .handlerFault 0)))

/-- R39, R70, R73, R275: of any instruction: a lane register at or above the budget is ILLEGAL_OP, whatever the guard. Under SB_CHECK one that
reads a register, its guard among them, or overwrites one, before an earlier result is written, of fixed latency or of an operation under way,
traps STALL_SHORT at its own address. One whose every executing lane reads a poisoned register faults ECC_UNCORRECTABLE in those lanes, and
does nothing; where only some do, the others perform, as IADD shows. -/
def Obligations.RegisterChecks : Prop :=
  (∀ i s x a, asks s i = some a → Comes s x a → x.b.role ≠ .matrix → (∃ n, .v n ∈ a.reads ++ a.writes ∧ x.b.budget ≤ n) →
    Traps i s x s (faultAll x.lanes .illegalOp 0)) ∧
  (∀ i s x a, asks s i = some a → s.issuing = some { x with exec := x.lanes } → x.exec = x.guarded a.guard a.uniform → x.legal a → x.roleMay a →
    x.handlerMay a → bit (s.ctx x.b.ctx).ctl 1 = true →
    x.tooEarly s.now x.lanes false (.p a.guard.pg.toNat) ∨ (∃ r ∈ a.reads, x.tooEarly s.now (x.readIn a r) false r) ∨
      (∃ r ∈ a.writes, x.tooEarly s.now (x.writeLanes a) true r) →
    Traps i s x s (faultAll x.lanes .stallShort (x.sp.pc.bundle + BitVec.ofNat 64 x.sp.pc.slot))) ∧
  (∀ i s x a, asks s i = some a → Comes s x a → x.legal a → x.roleMay a → x.handlerMay a → (∀ r ∈ a.reads ++ a.writes, x.b.quiet s.now r) →
    x.exec ≠ 0 → a.wide = false → (∀ y, a.lane y = none) → (∀ l, x.exec.getLsbD l = true → ∃ r ∈ a.reads, x.b.holdsPoison r l) →
    Traps i s x s ((lanesOf x.exec).map fun l => { lane := l, cause := .eccUncorrectable, addr := 0, kind := .read })) ∧
  ∀ m f s x, Comes s x (asks2 allRoles f) → x.legal (asks2 allRoles f) → x.roleMay (asks2 allRoles f) →
    (∀ r ∈ f.a.regs ++ f.b.regs ++ f.d.regs, x.b.quiet s.now r) → ∀ bad : Mask, x.exec &&& ~~~bad ≠ 0 → x.exec &&& bad ≠ 0 →
    (∀ l, x.exec.getLsbD l = true → (bad.getLsbD l = true ↔ ∃ r ∈ f.a.regs ++ f.b.regs, x.b.holdsPoison r l)) → ∃ b,
      Traps (.iadd m f) s x (s.setBunch x.id b) ((lanesOf (x.exec &&& bad)).map fun l =>
        { lane := l, cause := .eccUncorrectable, addr := 0, kind := .read }) ∧
      ∃ v, (∀ l, sumRule false m (x.word f.a l) (x.wordL f.b l) (v l)) ∧
        ∀ r l, l < 32 → b.reg r l = (({ x with exec := x.exec &&& ~~~bad } : View).one f.d v r l).getD (x.b.reg r l)

/-- R53, R57, R315: a uniform instruction whose guard is false in its lowest lane has no effect, a BAR in a handler too, and the split goes on;
p7 reads as true in every lane, and a write of it is discarded. -/
def Obligations.Guards : Prop :=
  (∀ i g roles rs s x, NoEffect i g roles rs → Runs s x g true roles rs → x.exec = 0 →
    (4 ≤ x.entry → ∀ a, asks s i = some a → a.hnd ≠ .forbidden) →
    (∀ g b num, i = .csrw g b num → (s.readCsr x.b num.toNat).isSome = true) →
    ∃ t, exec i s = .next t ∧ MovedOn s t x.id ∧ GoesOn x t x.nextPc) ∧
  (∀ (b : Bunch) lanes y l, l < 32 → (b.pAt 7).getLsbD l = true ∧ b.setP 7 lanes y = b)

/-! ### Operations of the device's agents: registers and contexts -/

/-- R102, R205, R223, R247, R254: registers written from outside device code: FP_STAT by ones that clear; PROMO keeps its value for a number
outside 1 to 64; HRING_BASE zeroes the context's ring states; a context's register takes its writable bits and no other changes; a queue's
registers and its doorbell. Each is of the physical function, number 0, or of the function that owns the context; CTX_PRI and a queue's CTX
are of the physical function alone. The numbers of the queue registers, and that a write of another function is refused, are the model's
(log entry 27). -/
def Obligations.OuterWrites : Prop :=
  (∀ id v s b, Store.find s.bunches id = some b →
    exec (.fpStatClear id v) s = .next (s.setBunch id { b with fpStat := b.fpStat &&& ~~~v })) ∧
  (∀ c x s, s.hasCtx c = true → ∃ t, exec (.accPromoWrite c x) s = .next t ∧ OnlyContext s t c ∧ t.ctx c = { s.ctx c with
    accPromo := if 1 ≤ x.toNat % 128 ∧ x.toNat % 128 ≤ 64 then ((s.ctx c).accPromo &&& ~~~127) ||| (x &&& 127) else (s.ctx c).accPromo }) ∧
  (∀ fn c x s, s.hasCtx c = true → fn = 0 ∨ fn = (s.ctx c).fn → ∃ t, exec (.hringBaseWrite fn c x) s = .next t ∧ OnlyContext s t c ∧ t.ctx c = { s.ctx c with
    hringBase := ((s.ctx c).hringBase &&& ~~~0x000FFFFFFFFFFE00) ||| (x &&& 0x000FFFFFFFFFFE00), rings := [] }) ∧
  (∀ fn c n x s old, s.answers = true → s.hasCtx c = true → n ≠ 0x053 → n ≠ 0x056 → (s.ctx c).csr n = some old →
    fn = 0 ∨ (fn = (s.ctx c).fn ∧ n ≠ 0x055) → ∃ t, exec (.registerWrite fn c n x) s = .next t ∧ OnlyContext s t c ∧
      (t.ctx c).csr n = some ((old &&& ~~~ownerMask n) ||| (x &&& ownerMask n)) ∧ (∀ m, m ≠ n → (t.ctx c).csr m = (s.ctx c).csr m) ∧
      (t.ctx c).tensors = (s.ctx c).tensors ∧ (t.ctx c).codes = (s.ctx c).codes ∧ (t.ctx c).casks = (s.ctx c).casks ∧
      (t.ctx c).rings = (s.ctx c).rings ∧ (t.ctx c).futures = (s.ctx c).futures) ∧
  (∀ fn q (x : DWord) s o, s.answers = true → q < 512 → o = Store.get {} s.queues q → fn = 0 ∨ fn = (s.ctx o.ctx).fn →
    exec (.registerWrite fn 64 (0x1000 + 4 * q + 2) x) s = .next { s.wake with
      queues := Store.insert s.queues q { o with
        en := x.getLsbD 60, ctx := if fn = 0 then o.ctx / 8 * 8 + x.toNat / 2 ^ 61 else o.ctx } }) ∧
  (∀ fn q (x : DWord) s o, s.answers = true → q < 512 → o = Store.get {} s.queues q → fn = 0 ∨ fn = (s.ctx o.ctx).fn →
    exec (.registerWrite fn 64 (0x1000 + 4 * q + 3) x) s = .next { s.wake with
      queues := Store.insert s.queues q { o with
        ctx := if fn = 0 then x.toNat % 8 * 8 + o.ctx % 8 else o.ctx, pri := min (x.toNat / 8 % 32) 23
        log2n := x.toNat / 256 % 16, base := BitVec.ofNat 64 (x.toNat / 4096) } }) ∧
  (∀ fn q tail s, s.answers = true → q < 512 → fn = 0 ∨ fn = (s.ctx (Store.get {} s.queues q).ctx).fn →
    exec (.queueDoorbell fn q tail) s = .next { s.wake with queues := Store.insert s.queues q { Store.get {} s.queues q with tail } }) ∧
  (∀ home n (x : DWord) s, s.answers = true → s.ownCellar home = true → n < 2 ^ 39 →
    exec (.registerWrite 0 64 (2 ^ 48 + home * 2 ^ 39 + n) x) s = .next { s with
      tags := s.tags.write (home * 2 ^ 39 + n) (BitVec.ofNat 8 (x.toNat % 16)) }) ∧
  ∀ fn c n x q tail s, fn ≠ 0 →
    (fn ≠ (s.ctx c).fn → exec (.hringBaseWrite fn c x) s = .refused (.eventNotEnabled "HRING_BASE_WRITE") ∧
      (c < 64 → exec (.registerWrite fn c n x) s = .refused (.eventNotEnabled "REGISTER_WRITE"))) ∧
    (fn ≠ (s.ctx (Store.get {} s.queues q).ctx).fn → exec (.queueDoorbell fn q tail) s = .refused (.eventNotEnabled "QUEUE_DOORBELL"))

/-- R395, R114, R116, R222, R254, R273, R274: a new context has its registers at their reset values but for those its creator gives, tensor
entries unwritten, code tables 0, and nothing in a TLB; a stopped context loses its bunches, launches and commands, its unfinished journal
entries take STATE 4, its queues are empty, STATUS reads 1 and vector 0 is raised; the reset of a stopped context gives every register its
reset value (log entry 28). -/
def Obligations.ContextLife : Prop :=
  (∀ c i s, s.answers = true → c < 64 → (s.ctx c).created = false → i.fn ≤ 32 → ∃ t, exec (.contextCreate c i) s = .next t ∧
    t = { s with ctxs := t.ctxs, cores := t.cores, rowTlb := t.rowTlb, caskHid := t.caskHid } ∧ (∀ n, n ≠ c → t.ctx n = s.ctx n) ∧
    t.ctx c = {
      created := true, fn := i.fn, ctl := 0, cmnWin := i.cmnWin &&& 0x000FFFFE00000001, ptRoot := i.ptRoot &&& 0xFF0FFFFFFFFFE001, layoutTab := 0
      accPromo := 0x10, swap := 0x1000, pri := i.pri &&& 0x1F, hringBase := i.hringBase &&& 0x000FFFFFFFFFFE00, wdog := 0x100000
      hndBase := i.hndBase &&& 0x000FFFFFFFFFFF81, poolBase := i.poolBase &&& 0x00000001FFFFFFC1, futBase := i.futBase &&& 0x00000001FFFFC001
      pagerTab := i.pagerTab &&& 0x000FFFFFFFFFF800, saveBase := i.saveBase &&& 0x000FFFFFFFFF0000, saveCfg := i.saveCfg &&& 0xFFFFFFFF
      tensors := [], codes := [], casks := [], rings := [], futures := [] } ∧
    (∀ n, ∀ e ∈ (t.core n).tlb, e.ctx ≠ c) ∧ (∀ r ∈ t.rowTlb, ∀ e ∈ r.2, e.ctx ≠ c) ∧ ∀ h ∈ t.caskHid, h.ctx ≠ c) ∧
  (∀ c s, s.hasCtx c = true → bit (s.ctx c).ctl 7 = false → ∃ t, exec (.stopContextRequest c) s = .next t ∧
    (t.ctx c).ctl = (s.ctx c).ctl ||| 0x80 ∧ (∀ n, n ≠ c → t.ctx n = { s.ctx n with futures := (t.ctx n).futures }) ∧
    (∀ n, n ≠ c → ∀ i f, Store.find (s.ctx n).futures i = some f → ∃ x, Store.find (t.ctx n).futures i = some { f with seen := x }) ∧
    (t.ctx c).futures = [] ∧ (∀ e ∈ t.bunches, e.2.ctx ≠ c) ∧
    (∀ e ∈ t.launches, e.2.ctx ≠ c) ∧ (∀ x ∈ t.commands, x.ctx ≠ c) ∧ (∀ e ∈ t.queues, e.2.ctx = c → e.2.head = e.2.tail ∧ e.2.wait = none) ∧
    (∀ e ∈ t.journal, e.ctx = c → 2 ≤ e.state) ∧
    (s.bankQ = [] → t.journal = s.journal.map (fun e => if e.ctx = c ∧ e.state ≤ 1 then { e with state := 4 } else e)) ∧
    t.msix = s.msix ++ [((s.ctx c).fn, 0)]) ∧
  (∀ c s, s.hasCtx c = true → bit (s.ctx c).ctl 7 = true → exec (.stopContextRequest c) s = .next s) ∧
  ∀ c s, s.hasCtx c = true → bit (s.ctx c).ctl 7 = true → ∃ t, exec (.contextReset c) s = .next t ∧
    t = { s with ctxs := t.ctxs, cores := t.cores, rowTlb := t.rowTlb, caskHid := t.caskHid } ∧ (∀ n, n ≠ c → t.ctx n = s.ctx n) ∧
    t.ctx c = { created := true, fn := (s.ctx c).fn, ctl := 0, accPromo := 0x10, swap := 0x1000, pri := 0x17, wdog := 0x100000 }

/-! ### The front end -/

/-- R223 to R228, R239, R245: a queue's command, when its turn comes, is journaled with its digest and moves HEAD on by one. One that breaks
the rules is refused: STATE 3, no other effect. A launch or task enters the launches; a copy goes to the copy agent; a wait holds its queue;
a signal reaches its counter's bank; a graph begins, or waits for an earlier run of the same graph; a ring post is made, and a post writes the
record, then TAIL, counts it and at NCOAL raises the ring's vector, but for a disabled or a full ring (2, 1). That a graph whose nodes cannot
be read, and a post whose ring or whose bytes cannot be reached, ends with STATE 3, is log entry 35 (DEDUCED). -/
def Obligations.QueueCommands : Prop :=
  (∀ k q s t, 1 ≤ k → k ≤ 7 → s.turn q k = some t → t.ok = false → ∃ u, exec (commandOf q k) s = .next u ∧ Journals s u q t 3 ∧
    u.launches = s.launches ∧ u.commands = s.commands ∧ u.agents = s.agents ∧ u.graphs = s.graphs ∧ u.bankQ = s.bankQ) ∧
  (∀ (task : Bool) q s t x l, s.turn q (if task then 2 else 1) = some t → t.ok = true → t.slot = some x →
    l = parseRecord t.s task t.q.ctx (slotDword x 8) (feRecord t.s t.q.ctx (slotDword x 8)) →
    ∃ u, exec (if task then .taskCommand q else .launchCommand q) s = .next u ∧ Journals s u q t (if l.isSome then 0 else 3) ∧
      u.launches = s.entered (.queue q) l ∧ u.commands = s.commands ++ (if l.isSome then
        [{ seq := s.jseq, queue := q, ctx := t.q.ctx, kind := t.kind, ref := s.nextId }] else [])) ∧
  (∀ q s t x, s.turn q 3 = some t → t.ok = true → t.slot = some x → ∃ u, exec (.copyCommand q) s = .next u ∧ Journals s u q t 1 ∧
    u.agents = s.agents ++ [{ id := s.nextId, ctx := t.q.ctx, seq := s.jseq, src := slotDword x 8, dst := slotDword x 16
                              len := fieldOf x 192 64, done := slotDword x 32, node := none }]) ∧
  (∀ q s t x, s.turn q 4 = some t → t.ok = true → t.slot = some x → ∃ u, exec (.waitCommand q) s = .next u ∧ Journals s u q t 1 ∧
    (Store.get {} u.queues q).wait = some (slotDword x 8, slotDword x 16, s.jseq)) ∧
  (∀ q s t x, s.turn q 5 = some t → t.ok = true → t.slot = some x → ∃ u c o, exec (.signalCommand q) s = .next u ∧ Journals s u q t 1 ∧
    locateWindow s t.q.ctx (slotDword x 8) = .ok (.commons c o) ∧ u.bankQ = reachBank
      { unit := bankUnit c o, src := 18, at_ := s.now
        op := if x.getLsbD 192 then .depd c o t.q.ctx (.command s.jseq) else .add c o (slotDword x 16) (.command s.jseq) } s.bankQ) ∧
  (∀ q s t x, s.turn q 6 = some t → t.ok = true → t.slot = some x →
    (readGraph t.s t.q.ctx (slotDword x 8) = none → ∃ u, exec (.graphCommand q) s = .next u ∧ Journals s u q t 3 ∧ u.graphs = s.graphs) ∧
    ∀ done nodes, readGraph t.s t.q.ctx (slotDword x 8) = some (done, nodes) → (∀ r ∈ s.graphs, r.id ≠ s.nextId) → ∀ run,
      run = ({ id := s.nextId, ctx := t.q.ctx, va := slotDword x 8, seq := s.jseq, queue := q, done, nodes, waits := true } : GraphRun) →
      ((∃ r ∈ s.graphs, r.ctx = t.q.ctx ∧ r.va = slotDword x 8) → ∃ u, exec (.graphCommand q) s = .next u ∧ Journals s u q t 0 ∧
        u.graphs = s.graphs ++ [run]) ∧
      ((∀ r ∈ s.graphs, ¬ (r.ctx = t.q.ctx ∧ r.va = slotDword x 8)) → run.begin.over = false → ∃ u, exec (.graphCommand q) s = .next u ∧
        Journals s u q t 1 ∧ u.graphs = s.graphs ++ [run.begin]) ∧
      ((∀ r ∈ s.graphs, ¬ (r.ctx = t.q.ctx ∧ r.va = slotDword x 8)) → run.begin.over = true → ∃ u, exec (.graphCommand q) s = .next u ∧
        u.graphs = s.graphs ∧ (done = 0 → Journals s u q t 2))) ∧
  (∀ q s t x y, s.turn q 7 = some t → t.ok = true → t.slot = some x → y = (t.journal q true).post feCore t.q.ctx (fieldOf x 64 4)
      ((List.range 4).map fun i => x.extractLsb' (128 + 32 * i) 32) (x.getLsbD 72) →
    ∃ u, exec (.ringPostCommand q) s = .next u ∧ u.msix = y.1.msix ∧ u.ctxs = y.1.ctxs ∧ (s.jsize = 0 → u.mem = y.1.mem) ∧
      (y.2 = .ok 0 → Journals s u q t 2) ∧ (y.2 ≠ .ok 0 → Journals s u q t 3)) ∧
  ∀ s c r record d, readRing s feCore c r = .ok d → ∀ z, z = s.post feCore c r record false →
    (rdLog2n d = 0 → z = (s.setRing c r {}, .ok 2) ∧ s.post feCore c r [] true = z) ∧
    (rdLog2n d ≠ 0 → s.post feCore c r [] true = (if (s.ring c r).pending = 0 then s else s.raiseRing c r d, .ok 0)) ∧
    ∀ h, rdLog2n d ≠ 0 → readVa s feCore c (rdHead d) 4 = .ok h →
      ((s.ring c r).tail - BitVec.ofNat 32 h = BitVec.ofNat 32 (2 ^ rdLog2n d) → z = (s, .ok 1)) ∧
      ((s.ring c r).tail - BitVec.ofNat 32 h ≠ BitVec.ofNat 32 (2 ^ rdLog2n d) → ∀ v u, writeVa s feCore c
          (rdBase d + BitVec.ofNat 64 (16 * ((s.ring c r).tail.toNat % 2 ^ rdLog2n d))) (record.flatMap fun w => leBytes w.toNat 4) = .ok v →
        writeVa v feCore c (rdTail d) (leBytes ((s.ring c r).tail + 1).toNat 4) = .ok u → z.2 = .ok 0 ∧ z.1.mem = u.mem ∧
        (z.1.ring c r).tail = (s.ring c r).tail + 1 ∧ (((s.ring c r).pending + 1 < max 1 (rdNcoal d) → z.1.msix = s.msix ∧
          (z.1.ring c r).pending = (s.ring c r).pending + 1) ∧ (max 1 (rdNcoal d) ≤ (s.ring c r).pending + 1 →
          z.1.msix = s.msix ++ [((s.ctx c).fn, rdVec d)] ∧ (z.1.ring c r).pending = 0)))

/-- R224, R227, R236, R238, R240, R265: the front end accepts the launch or task at the head of a pending-launch queue, a record of the
dependence engine, and a pager's upcall: each is journaled with its source; LNCH and TASK receive the journal number, or FFFFFFFF where the
record is refused. A node of a graph is journaled with STATE 0 when it fires, with the record it then reads (log entry 35, DEDUCED), and its
payload, when it is accepted, runs as the command it stands for, or takes STATE 3; a conditional node re-arms or exits. -/
def Obligations.RecordAcceptance : Prop :=
  (∀ owner s b t p r l, s.acceptNext = some (b, t) → b.pick = .pending owner → Store.get [] s.plqs owner = p :: r →
    l = parseRecord t p.task (p.ctx s) p.va (some p.raw) → ∃ u, exec (.pendingLaunchAccept owner) s = .next u ∧
      Logs s u { seq := s.jseq, source := 512, ctx := p.ctx s, kind := if p.task then 2 else 1, state := if l.isSome then 0 else 3
                 digest := digestOf (some p.raw), tag := 0, ref := p.va } ∧
      Store.find u.plqs owner = some r ∧ u.launches = s.entered .device l ∧
      Delivered s u p.bunch p.op [if l.isSome then BitVec.ofNat 32 (s.jseq % 2 ^ 31) else 0xFFFFFFFF]) ∧
  (∀ s b t d raw l, s.acceptNext = some (b, t) → b.pick = .dep d → raw = feRecord t d.ctx d.va → l = parseRecord t d.task d.ctx d.va raw →
    ∃ u, exec .dependenceRecordAccept s = .next u ∧
      Logs s u { seq := s.jseq, source := 513, ctx := d.ctx, kind := if d.task then 2 else 1, state := if l.isSome then 0 else 3
                 digest := digestOf raw, tag := 0, ref := d.va } ∧
      u.depRecs = s.depRecs.erase d ∧ u.launches = s.entered .depEngine l) ∧
  (∀ s b t y l, s.acceptNext = some (b, t) → b.pick = .upcall y → l = parseTask t y.ctx y.va (some y.raw) →
    ∃ u, exec .pagerUpcallAccept s = .next u ∧
      Logs s u { seq := s.jseq, source := 515, ctx := y.ctx, kind := 2, state := if l.isSome then 0 else 3
                 digest := digestOf (some y.raw), tag := 0, ref := y.va } ∧
      u.upcalls = s.upcalls.erase y ∧ u.launches = s.entered .pager l) ∧
  (∀ s run node g raw, s.run run = some g → raw = (if ndType (g.node node) = 4 then some (g.node node) else feRecord s g.ctx (ndPayload (g.node node))) →
    Logs s (s.fire run node) {
      seq := s.jseq, source := 514, ctx := g.ctx, state := 0, digest := digestOf raw, tag := 0
      kind := if ndType (g.node node) = 4 then 8 else if ndType (g.node node) = 5 then 7 else ndType (g.node node)
      ref := if ndType (g.node node) = 4 then g.va + BitVec.ofNat 64 (64 + 64 * node) else ndPayload (g.node node) } ∧
    (s.fire run node).run run = some { g with fires := Store.insert g.fires node { seq := s.jseq, raw } }) ∧
  (∀ (s : State) (g : GraphRun) node, s.graphs = [g] → g.waits = false → g.state = [(node, .fired)] →
    (Store.find g.fires node = none → s.journalFull = false → s.fireNodes = s.fire g.id node) ∧
    (Store.find g.fires node ≠ none ∨ s.journalFull = true → s.fireNodes = s)) ∧
  ∀ s b t run node g f h v, s.acceptNext = some (b, t) → b.pick = .graph run node → s.run run = some g → Store.find g.fires node = some f →
    (∀ r ∈ s.graphs, r.seq ≠ f.seq) → h = { g.setState node .running with fires := Store.erase g.fires node } → v = t.setRun h →
    ∃ u, exec .graphRecordAccept s = .next u ∧
      (∀ l, ndType (g.node node) = 1 ∨ ndType (g.node node) = 2 →
        l = parseRecord v (ndType (g.node node) == 2) g.ctx (ndPayload (g.node node)) f.raw →
        (l = none → ∀ e ∈ u.journal, e.seq = f.seq → e.state = 3) ∧
        ∀ y, l = some y → u.journal = s.journal ∧ u.run run = some h ∧
          u.launches = Store.insert s.launches s.nextId { y with src := .graph g.id node, seq := f.seq, since := s.now }) ∧
      (ndType (g.node node) = 3 →
        (nodeSlot v h f.raw 3 = none → ∀ e ∈ u.journal, e.seq = f.seq → e.state = 3) ∧
        ∀ y, nodeSlot v h f.raw 3 = some y → u.journal = s.journalAt f.seq 1 ∧ u.run run = some h ∧ u.agents = s.agents ++ [{
          id := s.nextId, ctx := g.ctx, seq := f.seq, src := slotDword y 8, dst := slotDword y 16, len := fieldOf y 192 64
          done := slotDword y 32, node := some (g.id, node) }]) ∧
      (ndType (g.node node) = 5 → ∀ y, nodeSlot v h f.raw 7 = some y → (h.complete node true).over = false →
        u.run run = some (h.complete node true) ∧ u.msix = (v.postSlot g.ctx f.seq y).msix) ∧
      (ndType (g.node node) = 4 → ∀ n, readVa v feCore g.ctx (ndPayload (g.node node)) 4 = .ok n → ∀ r,
        r = (if n = 0 then h.complete node true
          else (((ndSuccs (g.node node)).take (ndRearm (g.node node))).foldl GraphRun.rearm h).complete node false) →
        r.over = false → u.run run = some r ∧ u.journal = s.journalAt f.seq 2)

/-- R28, R127, R225, R226, R240, R246: what ends work of the front end: a copy, a satisfied wait, a node, a launch or task completes its
command at once or adds 1 to its counter at that counter's bank, and a copy's work is not over before that; a node that completes lowers the
counts of its successors, and one that reaches 0 fires; a run that is over lets one that waits for it begin; a ring's coalescing timer raises
the ring's vector, and nothing is pending then. -/
def Obligations.FrontEndEnds : Prop :=
  (∀ i s a v, s.agents.find? (fun a => a.id == i) = some a → a.moved = false → s.ctxRuns a.ctx = true →
    v = agentMove s a.ctx a.src a.dst (a.len / 16) → ∃ u, exec (.copyAgentComplete i) s = .next u ∧
    (a.done = 0 → u.journal = v.journalAt a.seq 2 ∧ u.commands = v.commands.filter (fun c => c.seq != a.seq) ∧ ∀ b ∈ u.agents, b.seq ≠ a.seq) ∧
    ∀ c o, a.done ≠ 0 → locateWindow v a.ctx a.done = .ok (.commons c o) → u.mem = v.mem ∧
      u.agents = v.agents.map (fun b => if b.id = i then { b with moved := true } else b) ∧
      u.bankQ = reachBank { unit := bankUnit c o, src := 18, at_ := v.now, op := .add c o 1 (.command a.seq) } v.bankQ) ∧
  (∀ (s : State) run node a, a ∈ s.agents → a.node = some (run, node) → s.nodeIdle run node = false) ∧
  (∀ (s : State) seq, (∀ a ∈ (s.completes (.command seq)).agents, a.seq ≠ seq) ∧ (s.completes (.command seq)).journal = s.journalAt seq 2 ∧
    (s.completes (.command seq)).commands = s.commands.filter (fun c => c.seq != seq)) ∧
  (∀ q s va target seq n, (Store.get {} s.queues q).wait = some (va, target, seq) →
    s.counter (Store.get {} s.queues q).ctx va = some n → target.toNat ≤ n → s.running = true → ∃ u, exec (.waitSatisfied q) s = .next u ∧
      (Store.get {} u.queues q).wait = none ∧ u.journal = s.journalAt seq 2 ∧ u.commands = s.commands.filter (fun c => c.seq != seq)) ∧
  (∀ run node s g, s.run run = some g → g.stateOf node = .running → s.nodeIdle run node = true →
    ((g.complete node true).over = false → exec (.graphNodeComplete run node) s = .next (s.setRun (g.complete node true))) ∧
    ((g.complete node true).over = true → ∃ u, exec (.graphNodeComplete run node) s = .next u ∧ (∀ r ∈ u.graphs, r.id ≠ run) ∧
      (∀ r, s.graphs.find? (fun r => r.id != run && r.ctx == g.ctx && r.va == g.va && r.waits) = some r → r.begin.over = false →
        r.begin ∈ u.graphs ∧ ∀ e ∈ u.journal, e.seq = r.seq → e.state = 1) ∧
      ((∀ r ∈ s.graphs, r.ctx = g.ctx → r.va = g.va → r.waits = false) →
        (g.done = 0 → u.commands = s.commands.filter (fun c => c.seq != g.seq)) ∧
        ∀ c o, g.done ≠ 0 → locateWindow s g.ctx g.done = .ok (.commons c o) → u.bankQ = reachBank
          { unit := bankUnit c o, src := 18, at_ := s.now, op := .add c o 1 (.command g.seq) } s.bankQ))) ∧
  (∀ (g : GraphRun) i j n, g.held = [] → n = (nodeExits (g.node i)).count j → n ≤ Store.get 0 g.rem j →
    Store.get 0 (g.complete i true).rem j = Store.get 0 g.rem j - n ∧
    (g.complete i true).stateOf j = (if 0 < n ∧ n = Store.get 0 g.rem j then .fired else if j = i then .done else g.stateOf j)) ∧
  (∀ id s l, s.launch id = some l → s.running = true → s.ctxRuns l.ctx = true → l.closing = false → l.retired = l.placed →
    s.workOver l = true →
    (l.donePtr = 0 → ∃ u, exec (.launchComplete id) s = .next u ∧ s.journalAt l.seq 2 = u.journal ∧ u.launch id = none ∧
      u.commands = s.commands.filter (fun c => c.seq != l.seq)) ∧
    ∀ c o, l.donePtr ≠ 0 → locateWindow s l.ctx l.donePtr = .ok (.commons c o) → ∃ u, exec (.launchComplete id) s = .next u ∧
      u.launch id = some { l with closing := true } ∧
      u.bankQ = reachBank { unit := bankUnit c o, src := 18, at_ := s.now, op := .add c o 1 (.launch id) } s.bankQ) ∧
  ∀ c r s d, s.ringDue c r = some d → ∃ u, exec (.ringCoalesceTimer c r) s = .next u ∧ u.msix = s.msix ++ [((s.ctx c).fn, rdVec d)] ∧
    u.ring c r = { s.ring c r with pending := 0 } ∧ OnlyContext s { u with msix := s.msix } c

/-- R26, R27, R34, R112, R182, R229, R234, R235, R243, R266, R267: the front end places a team of a launch (all of a cooperative one together),
with a scratchpad that no other team has and whose granules are empty, a bunch of a task, and a saved bunch whose wait is over, in the lowest
free slots of a core; a bunch that may retire leaves its core; one that has waited long enough is saved, and SWAPS counts. That the lowest
free slots go to the bunches in the order of %bunch is log entry 9 (DEDUCED), that a cooperative launch is placed in one move log entry 24
(DESIGN CHOICE), and that a bunch is swapped out only into a free record log entry 38. -/
def Obligations.Placement : Prop :=
  (∀ id core s l, s.launch id = some l → s.teamFits id l core = true → s.firstFor id l core = true → lrCoop l.raw = false →
    ∃ u m, exec (.teamPlacement id core) s = .next u ∧
      (∃ pad, Store.find u.teams s.nextId = some { launch := id, core, pad, num := l.teams } ∧ (∀ e ∈ s.teams, e.2.pad ≠ pad) ∧
        ∀ k, k / 32768 = pad → u.full.read k = 0) ∧ u.launch id = some m ∧ m.teams = l.teams + 1 ∧
      m.placed = l.placed + (teamRoles l.raw).length ∧ m.dispatched = some (l.dispatched.getD s.now) ∧
      ∀ i r n, (teamRoles l.raw)[i]? = some r → (s.freeSlots core)[i]? = some n → ∃ b, Store.find u.bunches (s.nextId + 1 + i) = some b ∧
        b.ctx = l.ctx ∧ b.launch = id ∧ b.team = some s.nextId ∧ b.core = core ∧ b.slot = some n ∧ b.num = i ∧ b.role = r ∧
        b.budget = lrBudget l.raw r ∧ b.width = (if r = .matrix then 1 else lrWidth l.raw) ∧
        (∀ j, j < 8 → b.kAt j = l.args.getD j 0) ∧ b.kAt 62 = lowHalf (lrArg l.raw) ∧ b.kAt 63 = highHalf (lrArg l.raw)) ∧
  (∀ id core s l, s.launch id = some l → s.teamFits id l core = true → s.firstFor id l core = true → lrCoop l.raw = true →
    (l.parts.map (·.1)).Nodup → ∃ u m, exec (.teamPlacement id core) s = .next u ∧ u.launch id = some m ∧ m.teams = s.teamLimit l) ∧
  (∀ id core s l, s.launch id = some l → s.taskFits id l core = true → s.firstFor id l core = true →
    ∃ u b, exec (.taskPlacement id core) s = .next u ∧ Store.find u.bunches s.nextId = some b ∧ b.ctx = l.ctx ∧ b.launch = id ∧
      b.team = none ∧ b.core = core ∧ b.slot = (s.freeSlots core).head? ∧ b.role = .vector ∧ b.width = trWidth l.raw ∧
      b.budget = trBudget l.raw ∧ b.active = firstLanes (trWidth l.raw) ∧ (∀ j, j < 8 → b.kAt j = trArg l.raw j) ∧
      b.kAt 8 = BitVec.ofNat 32 (if trMc l.raw then bitsBelow (trMask l.raw) (coreInCellar core) else 0) ∧
      b.kAt 9 = BitVec.ofNat 32 (if trMc l.raw then bitsBelow (trMask l.raw) 18 else 1)) ∧
  (∀ id s b, Store.find s.bunches id = some b → s.mayRetire b = true → ∃ u, exec (.bunchRetire id) s = .next u ∧
    Store.find u.bunches id = none ∧ ∀ l, s.launch b.launch = some l → ∃ m, u.launch b.launch = some m ∧ m.retired = l.retired + 1 ∧
      m = { l with retired := m.retired, landed := m.landed }) ∧
  (∀ id slot s b, Store.find s.bunches id = some b → s.running = true → b.team ≠ none → s.wantsSlot b = true →
    s.firstSlot b.core slot b.budget = true → ∃ u c, exec (.swappedBunchPlacement id slot) s = .next u ∧ OnlyBunch s u id c ∧
      c = { b with splits := c.splits, slot := some slot, record := none, home := none }) ∧
  (∀ id core slot s b l, Store.find s.bunches id = some b → s.launch b.launch = some l → s.running = true → b.team = none →
    s.wantsSlot b = true → cellarOf core = trCellar l.raw → (trMask l.raw = 0 ∨ (trMask l.raw).testBit (coreInCellar core) = true) →
    s.leasable core = true → s.firstSlot core slot b.budget = true → (core = b.core ∨ s.codeFits core l = true) →
    ∃ u c, exec (.savedBunchPlacement id core slot) s = .next u ∧ Store.find u.bunches id = some c ∧
      c = { b with core, splits := c.splits, slot := some slot, record := none, home := none }) ∧
  ∀ id s b j, Store.find s.bunches id = some b → b.slot ≠ none → s.ctxRuns b.ctx = true → s.swapDue b = true → s.coop b = false →
    b.atBarrier = false → s.freeRecord b.ctx = some j → ∃ u c, exec (.cwaitSwapOut id) s = .next u ∧ Store.find u.bunches id = some c ∧
      c.slot = none ∧ c.record = some j ∧ c.splits = b.splits ∧
      (bits (u.ctx b.ctx).swap 32 32).toNat = min ((bits (s.ctx b.ctx).swap 32 32).toNat + 1) (2 ^ 32 - 1) ∧
      (bits (u.ctx b.ctx).swap 0 32) = bits (s.ctx b.ctx).swap 0 32

/-! ### The ends of waits -/

/-- R34, R36, R44, R48 to R50, R113, R242, R267, R343: what ends the waits of splits: an item or Closed for RFILL, Closed for DRAIN; granules in
the state awaited for an .fe access, whose lanes there perform, and which waits on for its others; a counter that has met its target for
CWAIT, an acquire, whose kD takes the low half of the value; two Ready splits at one place fuse; a future takes its first status; a split past
its age limit and a bunch past its deadline trip WATCHDOG, or, a second time without progress, stop the context. -/
def Obligations.WaitEnds : Prop :=
  (∀ id e s b sp m r, s.live id e = some (b, sp) → sp.state = .blocked (.refill m) r →
    (∀ t, s.tryRefill id e b m sp.mask = .filled t → exec (.rfillWaitEnd id e) s = .next (t.wakeSplit id e r)) ∧
    (∀ t, s.tryRefill id e b m sp.mask = .freed t → ∃ u, exec (.rfillWaitEnd id e) s = .next u ∧ u = { t with bunches := u.bunches } ∧
      ∀ c, Store.find t.bunches id = some c → ∃ c', Store.find u.bunches id = some c' ∧ c' = { c with lastPc := c'.lastPc }) ∧
    ∀ f, s.tryRefill id e b m sp.mask = .fails f → exec (.rfillWaitEnd id e) s = .next (s.faultBlocked id e b sp r f)) ∧
  (∀ id e s b sp r, s.live id e = some (b, sp) → sp.state = .blocked .drain r →
    (s.closed b = .ok true → exec (.drainWaitEnd id e) s = .next ((s.setBunch id { b with drained := true }).wakeSplit id e r)) ∧
    ∀ f, s.closed b = .error f → exec (.drainWaitEnd id e) s = .next (s.faultBlocked id e b sp r f)) ∧
  (∀ id e s b sp w next ready left y, s.feWaiter id e = some (b, sp, w, next) → ready = s.feReady b w → ready ≠ [] →
    s.feYields id b ready = false → left = w.work.filter (fun q => !ready.contains q) → y = s.feDo b id w (match w.dst with
      | some _ => ready
      | none => (s.laneOrder (maskOf (ready.map (·.lane)))).flatMap fun l => ready.filter fun q => q.lane == l) →
    (∀ q ∈ w.work, q ∈ ready ↔ s.isFull b.pad (q.off / 16) = w.dst.isSome) ∧
    ∃ u, exec (.feWaitEnd id e) s = .next u ∧ (left ≠ [] ∨ sp.heldFaults ++ y.faults = [] → u.full = y.s.full ∧ u.mem = y.s.mem) ∧
      (left ≠ [] → ∃ c z, Store.find u.bunches id = some c ∧ Store.find c.splits e = some z ∧ z.pc = sp.pc ∧ z.mask = sp.mask ∧
        z.state = .blocked (.granules { w with work := left }) (some next) ∧ z.heldFaults = sp.heldFaults ++ y.faults) ∧
      (left = [] → sp.heldFaults ++ y.faults = [] →
        (∀ n rc j a, topJoin sp.stack = some (n, rc, j, a) → next ≠ { bundle := rc, slot := 0 }) →
        ∃ c z, Store.find u.bunches id = some c ∧ Store.find c.splits e = some z ∧ z.pc = next ∧ z.mask = sp.mask ∧ z.state = .ready)) ∧
  (∀ id e s b sp c o tg v a op r, Store.find s.bunches id = some b → Store.find b.splits e = some sp → sp.frozen = false →
    s.ctxRuns b.ctx = true → sp.state = .blocked (.counter c o tg (some v) a op) r → ∃ t, exec (.cwaitSatisfied id e) s = .next ((t.wakeSplit id e r).acquires id) ∧
      Delivered s t id op [BitVec.ofNat 32 v.toNat] ∧ t = { s with bunches := t.bunches }) ∧
  (∀ id e f s b x y, Store.find s.bunches id = some b → Store.find b.splits e = some x → Store.find b.splits f = some y → e < f →
    canFuse s.now x y = true → b.slot ≠ none → s.ctxRuns b.ctx = true → x.state = .ready ∧ y.state = .ready ∧ x.pc = y.pc ∧ ∃ u c z, exec (.opportunisticFusion id e f) s = .next u ∧ OnlyBunch s u id c ∧
      c = { b with splits := c.splits } ∧ Store.find c.splits f = none ∧ Store.find c.splits e = some z ∧ z.pc = x.pc ∧
      z.mask = x.mask ||| y.mask ∧ z.stack.length = x.stack.length ∧ ∀ i, i ≠ e → i ≠ f → Store.find c.splits i = Store.find b.splits i) ∧
  (∀ c n st s f, Store.find (s.ctx c).futures n = some f → f.status = 0 → st ≠ 0 → (f.seen = 0 ∨ f.seen = st) →
    (s.ctx c).preempted = 0 → ∃ u, exec (.futureStatusWrite c n st) s = .next u ∧
      Store.find (u.ctx c).futures n = some { f with seen := st, status := st } ∧
      u.futMem c n = (if f.seen = 0 then st.toNat else s.futMem c n)) ∧
  (∀ id e s b sp l, Store.find s.bunches id = some b → Store.find b.splits e = some sp → s.launch b.launch = some l → b.slot ≠ none →
    s.ctxRuns b.ctx = true → sp.frozen = false → 0 < (bits l.wdog 0 24).toNat → (bits l.wdog 0 24).toNat * 256 ≤ sp.age → ∃ t : State,
    exec (.splitAgeWatchdog id e) s = .next t ∧
    (sp.tripped = true → t = s.stopContext b.ctx 2 8 (some id)) ∧
    (sp.tripped = false → (∀ w p, sp.state ≠ .blocked w (some p)) →
      t = (s.setBunch id { b with deadline := none }).takeFault id e (faultAll sp.mask .watchdog 0) sp.pc sp.pc)) ∧
  ∀ id s b d, Store.find s.bunches id = some b → b.deadline = some d → b.slot ≠ none → s.ctxRuns b.ctx = true → d ≤ s.now →
    (Store.find b.splits 4 ≠ none → exec (.launchDeadlineWatchdog id) s = .next (s.setBunch id { b with deadline := none, heldTrip := true })) ∧
    (Store.find b.splits 4 = none → b.oldest = none → exec (.launchDeadlineWatchdog id) s = .next (s.setBunch id { b with deadline := none })) ∧
    ∀ e sp, Store.find b.splits 4 = none → b.oldest = some (e, sp) →
      exec (.launchDeadlineWatchdog id) s = .next ((s.setBunch id { b with deadline := none }).trip id e)

/-! ### Completions -/

/-- R69, R183 to R186, R281, R359: TOKEN_COMPLETION writes the operation's results into their registers, changes no other register and no byte of
memory, and the operation holds its token no longer; a prefetch or CCTL ends when its walks have; the work of a raster or ring instruction completes with its status; a copy none of whose
remaining elements faults completes into its token's record, else it stops at that element; a PRIM that waits queues as many quads as fit. -/
def Obligations.Completions : Prop :=
  (∀ s id b (o : TokOp), Store.find s.bunches id = some b → b.ops.find? (fun q => q.id == o.id) = some o → o.job = .ready →
    (∀ w ∈ o.writes, w.lane < 32) → ∃ u c, exec (.tokenCompletion id o.id) s = .next u ∧ Store.find u.bunches id = some c ∧
      c.ops = b.ops.filter (fun q => q.id != o.id) ∧ u.mem = s.mem ∧
      (∀ i, i ≠ id → Store.find u.bunches i = Store.find s.bunches i) ∧
      (∀ pre w post, o.writes = pre ++ w :: post → w.counts b → (∀ v ∈ post, ¬ w.meets v) → c.reg w.reg w.lane = w.word) ∧
      ∀ r l, l < 32 → (∀ w ∈ o.writes, w.reg = r → w.lane ≠ l ∧ ∀ n, r ≠ .k n) → c.reg r l = b.reg r l) ∧
  (∀ s id b (o : TokOp) ids, Store.find s.bunches id = some b → b.ops.find? (fun q => q.id == o.id) = some o → o.job = .walks ids →
    (∀ w ∈ s.walks, w.id ∉ ids) → ∃ u c, exec (.tokenCompletion id o.id) s = .next u ∧ Store.find u.bunches id = some c ∧
      c.ops = b.ops.filter (fun q => q.id != o.id) ∧ u.mem = s.mem) ∧
  (∀ x st r, st < 16 → recStatus (addRecord x st r) = (if recStatus x = 0 then st else recStatus x) ∧
    (bits (addRecord x st r) 0 48).toNat = min ((bits x 0 48).toNat + r.bytes) (2 ^ 48 - 1) ∧
    bits (addRecord x st r) 54 2 = bits x 54 2) ∧
  (∀ s id b (o : TokOp) r t ws, Store.find s.bunches id = some b → b.ops.find? (fun q => q.id == o.id) = some o → o.job = .unit r →
    s.unitDone id o.id = some (.complete t ws) → ∃ u, exec (.tokenCompletion id o.id) s = .next u ∧
      (∀ e ∈ u.raster, ¬ (e.bunch = id ∧ e.op = o.id)) ∧ u.mem = t.mem ∧
      ∀ c, Store.find t.bunches id = some c → ∃ d, Store.find u.bunches id = some d ∧ ∀ q ∈ d.ops, q.id ≠ o.id) ∧
  (∀ s id op b o r t q c, s.copyOf id op = some (b, o, r) → copyAll (b.engine id) s r = (t, q) → q.fault = none → q.total ≤ q.done →
    Store.find t.bunches id = some c → ∃ u d, exec (.copyComplete id op) s = .next u ∧ Store.find u.bunches id = some d ∧
      Store.get 0 d.tokRec o.tok.toNat = addRecord (Store.get 0 c.tokRec o.tok.toNat)
        (if q.chk.any (· != q.crcOf) then 1 else if q.side then 2 else 0) q ∧
      u.mem = t.mem ∧ (¬ (q.chk.any (· != q.crcOf) = true ∧ q.ctrap = true) → ∀ p ∈ d.ops, p.id ≠ op) ∧ ∀ k ∈ q.grans, u.full.read k = 1) ∧
  (∀ s id op b o r t q c f, s.copyOf id op = some (b, o, r) → copyAll (b.engine id) s r = (t, q) → q.fault = some f →
    Store.find t.bunches id = some c → ∃ u d, exec (.copyFaultSuspend id op) s = .next u ∧ Store.find u.bunches id = some d ∧ u.mem = t.mem ∧
      ∀ p ∈ c.ops, p.id = op → { p with job := TokJob.copy q } ∈ d.ops) ∧
  (∀ s id op t r, s.copySuspended id op = none → s.unitDone id op = some (.suspend t r) →
    exec (.copyFaultSuspend id op) s = .next (t.onBunch id fun b => b.setJob op (.unit r))) ∧
  ∀ s cellar id o r n l seq quads total inv, s.delivering cellar = some (id, o, r, n, l) → r.job = .prim seq quads total inv →
    ∃ u, exec (.primDeliveryResume cellar) s = .next u ∧
      u.launch n = some (l.pushQuads cellar (quads.take (l.quadRoom cellar))) ∧
      ∀ b q, Store.find s.bunches id = some b → q ∈ b.ops → q.id = o.id → ∃ c, Store.find u.bunches id = some c ∧
        { q with job := TokJob.unit { r with job := .prim seq (quads.drop (l.quadRoom cellar)) total inv } } ∈ c.ops

/-- R202, R212, R213, R215, R216: the array takes up the command at the head of its queue; a command none of whose remaining rows faults
completes, else it is suspended at that row. ACLR leaves +0 in every element of its tile and no other tile changed; WSWP exchanges the plane
sets; APRM promotes every element of its tile; WLD empties the shadow set when it begins and loads a row's weights; MMS applies R106's pass to
the elements of its row, less those R211 names; ADRN drains promoted elements, with their bias, converted. R106's arithmetic: the window sum,
one rounding to A26, and the promotion by an FP32 addition. (R207, R209, R211 and R214 over memory operands of one format each: BF16
weights, INT8 activations, unscaled drains.) -/
def Obligations.ArrayCommands : Prop :=
  (∀ core s e q sh, (s.core core).mrun = none → (s.core core).mqueue = e :: q → sh = (match e.cmd with
      | .wld d .. => { fmt := some (BitVec.ofNat 5 (tdFmt d)) }
      | _ => (s.core core).shadow : Planes) →
    exec (.matrixCommandStart core) s = .next (s.setCore core { s.core core with shadow := sh, mqueue := q, mrun := some { entry := e } })) ∧
  (∀ core s t r, s.matRest core = some (t, r) → r.fault = none → r.entry.cmd.rows ≤ r.done → ∃ u, exec (.matrixCommandComplete core) s = .next u ∧
    (u.core core).mrun = none ∧ u.bunches = t.bunches ∧ u.mem = t.mem ∧
    (∀ n, r.entry.cmd = .aprm n → r.entry.spoil = false → ∀ i, Store.find (u.core core).acc i = (Store.find (t.core core).acc i).map fun a =>
      if i / 32768 = n then { tile := tileAdd a.tile (a26To32 a.a26), a26 := 0, passes := 0 } else a) ∧
    (∀ n, r.entry.spoil = true → n ∈ r.entry.cmd.tiles → ∀ i, i / 32768 = n → Store.find (u.core core).acc i = none) ∧
    (∀ n, r.entry.cmd = .aclr n → r.entry.spoil = false → (∀ i, i / 32768 = n → Store.find (u.core core).acc i = some { tile := 0, a26 := 0, passes := 0 }) ∧
      ∀ i, i / 32768 ≠ n → Store.find (u.core core).acc i = Store.find (t.core core).acc i) ∧
    (r.entry.cmd = .wswp → r.entry.spoil = false → (u.core core).planes = (t.core core).shadow ∧ (u.core core).shadow = (t.core core).planes ∧
      (u.core core).acc = (t.core core).acc)) ∧
  (∀ core s t r f, s.matRest core = some (t, r) → r.fault = some f → exec (.matrixFaultSuspend core) s = .next
    (t.setCore core { t.core core with mrun := some r })) ∧
  (∀ (s : State) core e (i : Nat) g d mode clr t w arow k0 diag konst rows trow promo (p : Nat → Place) a,
    e.cmd = .mms d false mode clr t w arow k0 diag konst rows trow promo → g = s.arrayEngine core e → tdFmt d = 5 → tdScale d = 0 → tdBounds d = 1 →
    s.poison = [] → trow + i < 256 → rowSkipped mode diag.toInt w (trow + i) = false →
    (∀ k : Nat, k < 128 → tdIn d [k0.toInt + k, arow.toInt + i] = true →
      g.reads s (some (tdLayout d)) false (elemAt d [k0.toInt + k, arow.toInt + i]) 1 (p k)) →
    a = (List.range 128).map (fun (k : Nat) => if tdIn d [k0.toInt + k, arow.toInt + i] then signed (s.byteAt (p k)).toInt 0 else .fin false 0 0) →
    ∃ u, matRow s core e i = .ok u ∧ u.mem = s.mem ∧
      (∀ sl c, sl < w → c < 128 → Store.find (u.core core).acc (accKey (t + sl) (trow + i) c) =
        mmsElem mode clr diag konst promo (s.core core).planes a (trow + i) c sl (Store.find (s.core core).acc (accKey (t + sl) (trow + i) c))) ∧
      ∀ n, (∀ sl c, sl < w → c < 128 → n ≠ accKey (t + sl) (trow + i) c) → Store.find (u.core core).acc n = Store.find (s.core core).acc n) ∧
  ((∀ clr diag konst p planes a r c sl old, (∀ f, planes.fmt = some f →
      mmsElem .plain clr diag konst p planes a r c sl old = (if clr then some Acc.zero else old).map fun x => x.pass (products planes f a c sl) p)) ∧
  (∀ mode clr (diag konst : Word) p planes a (r c : Nat) sl old (g r0 g0 : Nat), mode ≠ .plain → g = 128 * sl + c → r0 = r / 16 * 16 → g0 = g / 16 * 16 →
    ((g0 : Int) > r0 + 15 + diag.toInt → mmsElem mode clr diag konst p planes a r c sl old =
      if mode = .triFill then some { tile := konst, a26 := 0, passes := 0 } else old) ∧
    ((g0 : Int) ≤ r0 + 15 + diag.toInt → (g : Int) > r + diag.toInt →
      mmsElem mode clr diag konst p planes a r c sl old = some { tile := konst, a26 := 0, passes := 0 }) ∧
    ((g0 : Int) ≤ r0 + 15 + diag.toInt → (g : Int) ≤ r + diag.toInt →
      mmsElem mode clr diag konst p planes a r c sl old = mmsElem .plain clr diag konst p planes a r c sl old)) ∧
  (∀ planes f (a : List Machine.Num) c sl k x, a.length = 128 → a[k]? = some x → (products planes f a c sl)[k]? = some (match planes.weight f k c sl with
    | some w => x.mul w
    | none => .fin false 0 0)) ∧
  ∀ v w e f, (signed v e).mul (signed w f) = .fin (decide (v < 0) != decide (w < 0)) (v * w).natAbs (e + f)) ∧
  ((∀ (x : Acc) ps p, ∃ y : Acc, y = { x with a26 := BitVec.ofNat 32 (addA26 (Fmt.a26.num (a26Flush x.a26)) (passSum ps)), passes := x.passes + 1 } ∧
    x.pass ps p = if p ≤ x.passes + 1 then { tile := tileAdd x.tile (a26To32 y.a26), a26 := 0, passes := 0 } else y) ∧
  (∀ ps, windowRule ps (passSum (ps.map fun p => signed p.1 p.2))) ∧
  (∀ (x : Word) m e n (k : Nat), x.toNat < 2 ^ 26 → x.toNat / 2 ^ 17 % 256 < 255 → e + 149 + (k : Int) ≥ 0 →
    n = f32Val (a26To32 x) * 2 ^ k + m * 2 ^ (e + 149 + k).toNat → a26Rule n k (addA26 (Fmt.a26.num (a26Flush x)) (signed m e))) ∧
  (∀ a b : Word, tileRule a b (tileAdd a b)) ∧
  ∀ x : Word, x.toNat < 2 ^ 26 → (a26To32 x).toNat = (if x.toNat / 2 ^ 17 % 256 = 0 then x.toNat / 2 ^ 25 * 2 ^ 25 else x.toNat) * 64) ∧
  (∀ (s : State) core e (i : Nat) g d n0 k0 rows (p : Nat → Place), e.cmd = .wld d false n0 k0 rows → g = s.arrayEngine core e → tdFmt d = 2 →
    tdScale d = 0 → tdBounds d = 1 → (∀ c : Nat, c < 128 → tdIn d [k0.toInt + i, n0.toInt + c] = true →
      g.reads s (some (tdLayout d)) false (elemAt d [k0.toInt + i, n0.toInt + c]) 2 (p c)) →
    ∃ u, matRow s core e i = .ok u ∧ u.mem = s.mem ∧ (u.core core).shadow.fmt = (s.core core).shadow.fmt ∧
      (∀ c : Nat, c < 128 → (u.core core).shadow.weight 2 i c 0 = if tdIn d [k0.toInt + i, n0.toInt + c] then some (Fmt.bf16.num (s.natAt (p c) 2)) else none) ∧
      ∀ k c, k ≠ i → c < 128 → ∀ sl, sl < 4 → (u.core core).shadow.weight 2 k c sl = (s.core core).shadow.weight 2 k c sl) ∧
  (∀ g (s : State) r d spd t trow rows drow dcol bias (c i : Nat) s1 q a m, r.job = .drain d spd t trow rows drow dcol bias → r.undef = false →
    c = r.done % 128 → i = r.done / 128 → s1 = (if c = 0 then s.settleRow g.core t (trow + i) else s) → plainFmt d → m = fmtBytes (tdFmt d) →
    s.accPoisoned g.core (accKey t (trow + i) c) = false → Store.find (s1.core g.core).acc (accKey t (trow + i) c) = some a →
    tdIn d [dcol.toInt + c, drow.toInt + i] = true → g.writes s1 (some (tdLayout d)) spd (elemAt d [dcol.toInt + c, drow.toInt + i]) m q →
    ∀ z : Word, z = (match bias with
      | some b => tileAdd a.tile (b.getD c 0)
      | none => a.tile) → Puts (copyStep g s r) s1 r q (leBytes (convElem 0 0 { raw := z.toNat, scale := none } (tdFmt d)).bits m)) ∧
  ∀ (s : State) core t r n, Store.find ((s.settleRow core t r).core core).acc n =
    if ∃ c ∈ List.range 128, n = accKey t r c then some (match Store.find (s.core core).acc n with
      | some a => a.promote
      | none => { tile := (s.freeValue (n % 128)).setWidth 32, a26 := 0, passes := 0 })
    else Store.find (s.core core).acc n

/-- R15, R16, R19, R28, R119, R148, R294: a commons bank performs the oldest operation that reached it in an earlier cycle, an addition modulo
2^64; a cooper unit executes the first insert that it can, one a clock, or the next part of a split's operation; a row's walker, with the first
64 of the row's walks in flight, puts what a walk read into the TLBs of the core and the row; a fence point (the base die, number 16, or a
port) counts the stores it passes by their source, for at most 4,096 sources, and has no counter once they are acknowledged; a store that
waited for a counter then issues. -/
def Obligations.UnitOperations : Prop :=
  (∀ cellar bank s r, s.bankNext (64 * cellar + bank) = some r → ∃ u, exec (.commonsBankOperation cellar bank) s = .next u ∧
    u.bankQ = s.bankQ.erase r ∧
    (∀ c o x, r.op = .add c o x .none → u.natAt (.commons c o) 8 = (s.natAt (.commons c o) 8 + x.toNat) % 2 ^ 64 ∧
      KeepsOutside s u [.commons c o] 8) ∧
    (∀ c o x seq, r.op = .add c o x (.command seq) → u.journal = s.journalAt seq 2 ∧ u.commands = s.commands.filter (fun k => k.seq != seq)) ∧
    (∀ c o x id l, r.op = .add c o x (.launch id) → s.launch id = some l → u.launch id = none ∧ u.journal = s.journalAt l.seq 2)) ∧
  (∀ cellar row s r, s.cooperQ.find? (fun q => q.unit == 3 * cellar + row && s.cooperCan q) = some r → ∀ t, t = { s with cooperQ := s.cooperQ.erase r } →
    (∀ c d key off cols, r.op = .caskInsert c d key off cols → Store.get 0 s.cooperTo r.unit ≤ s.now ∧
      exec (.cooperOperation cellar row) s = .next ((t.caskInsert c d key off cols).occupy [r.unit])) ∧
    ∀ id e b sp w n, r.op = .caskPart id e → t.caskWaiter id e = some (b, sp, w, n) →
      exec (.cooperOperation cellar row) s = .next (t.nextPart id e sp n w b)) ∧
  (∀ (s : State) n, Store.get 0 s.cooperTo n ≤ s.now → Store.get 0 (s.occupy [n]).cooperTo n = s.now + 1) ∧
  (∀ core s w, (s.inFlight (estateRow core)).find? (fun w => w.core == core) = some w → ∀ r, r = (s.ctx w.ctx).ptRoot →
    ∃ u, exec (.pageWalk core) s = .next u ∧ u.walks = s.walks.erase w ∧ u.mem = s.mem ∧ u.bunches = s.bunches ∧
    (∀ n, n ≠ core → u.core n = s.core n) ∧ u.core core = { s.core core with tlb := (u.core core).tlb } ∧
    (2 ^ 52 ≤ w.va.toNat ∨ inWindow (s.ctx w.ctx) w.va = true ∨ bit r 0 = false → u = { s with walks := u.walks }) ∧
    (¬ (2 ^ 52 ≤ w.va.toNat ∨ inWindow (s.ctx w.ctx) w.va = true ∨ bit r 0 = false) →
      ∀ e, (e ∈ (u.core core).tlb → e ∈ (s.core core).tlb ∨ e ∈ walkPath s (rootTable r) w.ctx w.va.toNat 3) ∧
        (e ∈ walkPath s (rootTable r) w.ctx w.va.toNat 3 → (s.core core).tlb = [] → e ∈ (u.core core).tlb ∧
          (Store.get [] s.rowTlb (estateRow core) = [] → e ∈ Store.get [] u.rowTlb (estateRow core))))) ∧
  (∀ (s : State) row w, (s.inFlight row).length ≤ 64 ∧ (w ∈ s.inFlight row → w ∈ s.walks ∧ estateRow w.core = row)) ∧
  (∀ n s f, s.fence.find? (fun f => f.src == n && s.acks f) = some f →
    exec (.fencePointAck n) s = .next { s with fence := s.fence.erase f } ∧
    (f.point = 16 ∨ ((s.port f.point).state = 2 ∧ s.portGone f.point = false))) ∧
  (∀ n s e sp r rest, s.counterFreed n = (e, sp, r) :: rest →
    exec (.fenceCounterFree n) s = .next (s.onBunch n fun b => b.wake e sp r s.now) ∧
    ∃ b p, Store.find s.bunches n = some b ∧ (e, sp) ∈ b.splits ∧ sp.state = .blocked (.port p none) r ∧ s.fenceRoom p n = true) ∧
  (∀ (s : State) p n, s.fenceRoom p n = true ↔ (∃ f ∈ s.fence, f.point = p ∧ f.src = n) ∨ (s.fence.filter fun f => f.point == p).length < 4096) ∧
  ∀ (s : State) core n (p : Place) va k, (∀ c, p.cellar = some c → s.fencePoint core p =
      if c = cellarOf core then none else if c / 8 = s.device then some 16 else some (s.portTo (c / 8))) ∧ (p.cellar = none → s.fencePoint core p = none) ∧
    ∀ q, s.fencePoint core p = some q → ∃ f, (s.countStore core n p va k).fence.find? (fun f => f.point == q && f.src == n) = some f ∧ f.va = va ∧
      f.count = ((s.fence.find? fun f => f.point == q && f.src == n).map (·.count)).getD 0 + 1

/-! ### Pre-emption and power -/

/-- R268 to R270, R275, R300, R301: a request or a timeout pre-empts a context that can be saved; one that is saved resumes when its leases are
free, or stops with REASON 4 where a record holds poison; a checkpoint, which may start in either D0 state, saves every context and takes the
image of device memory and its tags, or reports the context it cannot save; its end, once a port carries class 7, lets them resume and raises
vector 3. -/
def Obligations.Preemption : Prop :=
  (∀ c s, s.hasCtx c = true → s.running = true →
    (s.ctxRuns c = true → s.savable c = true → ∃ u, exec (.preemptRequest c) s = .next u ∧ (u.ctx c).preempted = 1 ∧ u.ctxRuns c = false) ∧
    (¬ (s.ctxRuns c = true ∧ s.savable c = true) → exec (.preemptRequest c) s = .next s)) ∧
  (∀ c s, s.hasCtx c = true → s.ctxRuns c = true → s.running = true → s.savable c = true → s.coopPlaced c = false → s.outwaited c = true →
    ∃ u, exec (.preemptTimeout c) s = .next u ∧ (u.ctx c).preempted = 1) ∧
  (∀ c s, s.running = true → s.ckptState ≠ 1 → (s.ctx c).preempted = 1 → s.leasesFree c = true → s.resumeFirst c = true →
    (s.bunches.map (·.1)).Nodup →
    (s.recordsPoisoned c = false → ∃ u, exec (.contextResume c) s = .next u ∧ (u.ctx c).preempted = 0 ∧
      ∀ e ∈ s.returning c, ∃ b, Store.find u.bunches e.1 = some b ∧ (Store.find s.bunches e.1 = some e.2 → b.slot = e.2.home)) ∧
    (s.recordsPoisoned c = true → exec (.contextResume c) s = .next (s.stopContext c 4 0x30))) ∧
  (∀ tier s, s.answers = true → s.fatal = false → s.power = .active ∨ s.power = .idle → s.ckptState ≠ 1 →
    (∀ c, s.unsavable = some c → exec (.checkpointStart tier) s = .next
      { s with ckptState := 3, ckptCtx := BitVec.ofNat 6 c, msix := s.msix ++ [(0, 3)] }) ∧
    (s.unsavable = none → ∃ u m, exec (.checkpointStart tier) s = .next u ∧ u.ckptState = 1 ∧ u.ckptCtx = 0 ∧ u.image = some m ∧
      m.tier = tier ∧ m.whole = false ∧ (∀ c, c < 64 → s.hasCtx c = true → s.ctxRuns c = true → (u.ctx c).preempted = 2) ∧
      ∀ h a, h / 8 = u.device → (a < 2 ^ 51 → m.mem.read (Place.dev h a).key = u.mem.read (Place.dev h a).key) ∧
        (a < 2 ^ 39 → m.tags.read (h * 2 ^ 39 + a) = u.tags.read (h * 2 ^ 39 + a)))) ∧
  ∀ s p, s.answers = true → s.fatal = false → s.power = .active ∨ s.power = .idle → s.ckptState = 1 → p < 16 → s.carries p 7 = true →
    ∃ u, exec .checkpointEnd s = .next u ∧ u.ckptState = 2 ∧ u.msix = s.msix ++ [(0, 3)] ∧ (∀ m, s.image = some m → u.image = some { m with whole := true }) ∧
    ∀ c, u.ctx c = if (s.ctx c).preempted = 2 then { s.ctx c with preempted := 1, since := s.now } else s.ctx c

/-- R303 to R306: the power states; reset, which leaves every register at its reset value and gives the device its number; the image and what
its boot measures, the identity key and its certificate; the quote; the power cap; and the DVFS step, which goes one slower over the cap or at
105 °C, and a trip at 115 °C. The model's own: that a reset keeps device memory (log entry 31); that after D3cold device memory reads 0, while
host memory and the firmware's state are kept (log entries 5 and 37); that below the cap and 105 °C the step goes one faster or stays, as
choice 39 says (log entry 37); which register a stage extends, and that the key derivation and the certificate are opaque (log entry 43). -/
def Obligations.PowerStates : Prop :=
  (∀ s, s.answers = true → s.fatal = false → s.power = .active ∨ s.power = .idle → s.ckptState ≠ 1 →
    (s.unsavable = none → ∃ u, exec .d3hotEntry s = .next u ∧ u.power = .d3hot ∧ u.selfRefresh = true) ∧
    (∀ c, s.unsavable = some c → exec .d3hotEntry s = .next { s with ckptState := 3, ckptCtx := BitVec.ofNat 6 c })) ∧
  (∀ s, s.power = .d3hot → ∃ u, exec .d3hotExit s = .next u ∧ u = { s with ctxs := u.ctxs, power := .active, selfRefresh := false } ∧
    ∀ c, u.ctx c = if (s.ctx c).preempted = 3 then { s.ctx c with preempted := 1, since := s.now } else s.ctx c) ∧
  (∀ s, s.running = true → s.ckptState ≠ 1 → s.idle = true → exec .d0IdleEntry s = .next { s with power := .idle, idleSince := s.time }) ∧
  (∀ s, s.power = .idle → s.selfRefresh = false → s.idleSince + 1000 * microsecond ≤ s.time →
    exec .selfRefreshTimer s = .next { s with selfRefresh := true }) ∧
  (∀ n, n ≤ 4 → cycleTime n * cyclesPerUs n = microsecond) ∧
  (∀ s, s.power ≠ .d3cold → ∃ u, exec .d3coldEntry s = .next u ∧ u = { State.reset with
      now := s.now, time := s.time, choices := s.choices, inputs := s.inputs, freeCount := s.freeCount, nextId := s.nextId, mem := u.mem
      fwVersion := s.fwVersion, rollback := s.rollback, flash := s.flash, image := s.image, power := .d3cold, ready := false } ∧
    ∀ p : Place, u.mem.read p.key = match p with
      | .host a => if a < 2 ^ 51 then s.mem.read p.key else u.mem.read p.key
      | .dev h a => if h < 256 ∧ a < 2 ^ 51 then 0 else u.mem.read p.key
      | _ => u.mem.read p.key) ∧
  (∀ device devices s, device < devices → devices ≤ 32 → ∃ u, exec (.deviceReset device devices) s = .next u ∧ u = { State.reset with
      now := s.now, time := s.time, choices := s.choices, inputs := s.inputs, freeCount := s.freeCount, nextId := s.nextId
      mem := if s.power = .d3cold then hostMem s.mem else if s.device = device then s.mem else rehome s.device device s.mem
      fwVersion := s.fwVersion, rollback := s.rollback, flash := s.flash, image := s.image, device, devices
      ready := u.ready, recovery := u.recovery, measures := u.measures, identity := u.identity, cert := u.cert } ∧
    (s.fwVersion < s.rollback → u.recovery = true ∧ u.ready = false) ∧
    (s.rollback ≤ s.fwVersion → s.choice 39 ≠ 1 → u.recovery = false ∧ u.ready = true ∧ u.measures = bootMeasures s.flash ∧
      u.identity = Config.identityKey (u.measures.headD 0) ∧ u.cert = Config.certificate u.identity)) ∧
  ((∀ st, (bootMeasures st).length = 8) ∧ ∀ st : List Nat, bootMeasures [st] = [extended 0 st, 0, 0, 0, 0, 0, 0, extended 0 Config.fuses]) ∧
  (∀ v m s, s.recovery = true →
    (s.rollback ≤ v → ∃ u, exec (.recoveryImageLoad v true m) s = .next u ∧
      u = { s with
        fwVersion := v, flash := m, recovery := false, ready := true, measures := bootMeasures m
        identity := Config.identityKey ((bootMeasures m).headD 0)
        cert := Config.certificate (Config.identityKey ((bootMeasures m).headD 0)) }) ∧
    (v < s.rollback → exec (.recoveryImageLoad v true m) s = .next s) ∧ exec (.recoveryImageLoad v false m) s = .next s) ∧
  (∀ n s, s.answers = true → ∃ body sig : List Byte, exec (.quoteRequest n) s = .next
      { s with quotes := s.quotes ++ [(body ++ sig).map BitVec.toNat] } ∧ body.take 32 = leBytes n 32 ∧ sig.length = 17088 ∧
      (body.drop 32).take (32 * s.measures.length) = (s.measures.map fun m => leBytes m 32).flatten ∧
      (body.drop (32 + 32 * s.measures.length)).take 8 = leBytes s.fwVersion 4 ++ leBytes s.rollback 4) ∧
  (∀ w s, 400 ≤ w → w ≤ 1600 → s.answers = true → exec (.powerCapSet w) s = .next { s with cap := w }) ∧
  (∀ w t s, s.answers = true → s.fatal = false → s.power ≠ .d3hot → t < 115 → ∃ u, exec (.dvfsMeasurement w t) s = .next u ∧
    u = { s with watts := w, celsius := t, dvfs := u.dvfs, halved := u.halved, stallTo := u.stallTo } ∧
    (s.cap < w ∨ 105 ≤ t → u.dvfs = min (s.dvfs + 1) 4) ∧ (w ≤ s.cap → t < 105 → u.dvfs = s.dvfs - 1 ∨ u.dvfs = s.dvfs) ∧
    (u.halved = true ↔ u.dvfs = 4 ∨ 105 ≤ t)) ∧
  (∀ w t s, s.answers = true → s.fatal = false → s.power ≠ .d3hot → 115 ≤ t → ∃ u, exec (.dvfsMeasurement w t) s = .next u ∧ u.fatal = true)

/-! ### Integrity and links -/

/-- R74, R275, R298, R299, R306: a code block with a parity error is fetched again and logged; poison marks its unit and is logged; corrected
errors count towards vector 2; a fatal error or a thermal trip stops every context, gives the journal entries of STATE 0 and 1 STATE 4 and leaves
the others, writes the dump's header and raises vector 1. Each of these operations completes wherever the device answers and no fatal error
has stopped it (a refetch, wherever the core holds the block). -/
def Obligations.Integrity : Prop :=
  (∀ core n s k, (s.core core).blocks[n]? = some k → ∃ u k', exec (.codeParityRefetch core n) s = .next u ∧
    (u.core core).blocks = (s.core core).blocks.set n k' ∧
    k' = { k with bytes := k'.bytes, bad := k'.bad, stale := false, fetched := some s.now } ∧
    (∀ bs, fetchBlock s core k.ctx k.va = .ok bs → (k'.bytes, k'.bad) = bs) ∧ u.bunches = s.bunches ∧
    u.errLog = s.errLog ++ [{ seq := s.errLog.length, corrected := true, unit := 1024 + core, loc := n, syndrome := 0 }]) ∧
  (∀ p s, s.answers = true → s.fatal = false → (∀ b l n, p ≠ .reg b l n) → ∃ u, exec (.poisonError p) s = .next u ∧ p ∈ u.poison ∧
    u.errLog.length = s.errLog.length + 1 ∧ u.bunches = s.bunches) ∧
  (∀ id l n s b, s.answers = true → s.fatal = false → Store.find s.bunches id = some b → ∃ u c, exec (.poisonError (.reg id l n)) s = .next u ∧
    Store.find u.bunches id = some c ∧ (n, l) ∈ c.poison ∧ c = { b with poison := c.poison } ∧ u.errLog.length = s.errLog.length + 1) ∧
  (∀ unit loc syn s, s.answers = true → s.fatal = false → ∃ u, exec (.correctedError unit loc syn) s = .next u ∧
    u.errLog = s.errLog ++ [{ seq := s.errLog.length, corrected := true, unit, loc, syndrome := syn }] ∧
    u.msix = s.msix ++ (if s.errThresh ≠ 0 ∧ (s.errLog.filter (·.corrected)).length + 1 = s.errThresh then [(0, 2)] else [])) ∧
  (∀ cause cellar unit s, s.answers = true → s.fatal = false → ∃ u, exec (.fatalError cause cellar unit) s = .next u ∧ u.fatal = true ∧
    (∀ c, c < 64 → (s.ctx c).created = true → bit (u.ctx c).ctl 7 = true) ∧ (∀ e ∈ u.journal, 2 ≤ e.state) ∧
    (s.bankQ = [] → u.journal = s.journal.map fun e => if e.state ≤ 1 then { e with state := 4 } else e) ∧
    u.msix.getLast? = some (0, 1) ∧ u.dump.take 5 = [cause, cellar, unit, s.now, s.fwVersion] ∧
    ∀ k, s.dbase = some k → ∀ i, i < 8 → u.mem.read (k + i) = BitVec.ofNat 8 (cause / 256 ^ i)) ∧
  (∀ cellar s, s.answers = true → s.fatal = false → ∃ u, exec (.thermalTrip cellar) s = .next u ∧ u.fatal = true ∧ 115 ≤ u.celsius ∧
    (∀ c, c < 64 → (s.ctx c).created = true → bit (u.ctx c).ctl 7 = true) ∧ (∀ e ∈ u.journal, 2 ≤ e.state) ∧
    (s.bankQ = [] → u.journal = s.journal.map fun e => if e.state ≤ 1 then { e with state := 4 } else e) ∧
    u.msix.getLast? = some (0, 1) ∧ u.dump.take 5 = [115, cellar, 0, s.now, s.fwVersion]) ∧
  ∀ (s : State) bs q, s.queue q = Store.get {} s.queues q ∧ s.dumpParts.map (·.1) = [0, 0x1000, 0x5000, 0x100000, 0x1100000] ∧
    (s.dumpParts[1]? = some (0x1000, bs) → bs.length = 16384 ∧ (q < 512 → (bs.drop (32 * q)).take 32 = (s.queue q).bytes)) ∧
    (s.dumpParts[2]? = some (0x5000, bs) → bs.length = 16384 ∧ (q < 64 → (bs.drop (256 * q)).take 256 = (s.ctx q).bytes))

/-- R64, R291, R292, R295, R296, R298: what happens on an estate port changes that port alone: a replay counts, and the sixty-fourth in a row
retrains; XOFF and XON hold and free one class; a port that loses lanes retrains or is down from then on, and one that has trained is up; a
port that is retired, or down for 10 ms, carries nothing more, and where no port is left the stores that still count at one are lost; a
die-to-die link replays and retrains likewise. The numbers of the die-to-die links and cores, what a lost store leaves in memory and which
losses a release has been told are the model's (log entry 36). -/
def Obligations.Links : Prop :=
  (∀ n s p, n < 16 → p = s.port n → p.state = 2 → exec (.flitReplay n) s = .next (s.setPort n (if 64 ≤ p.streak + 1 then
      { p with replays := p.replays + 1, crcErr := p.crcErr + 1, state := 1, streak := 0 }
    else { p with replays := p.replays + 1, crcErr := p.crcErr + 1, streak := p.streak + 1 }))) ∧
  (∀ n s p, 16 ≤ n → n < 48 → n - 16 ∉ s.retiredUnits → p = s.port n →
    (p.state ≠ 1 → exec (.flitReplay n) s = .next (s.setPort n (if 64 ≤ p.streak + 1 then
        { p with replays := p.replays + 1, crcErr := p.crcErr + 1, state := 1, streak := 0 }
      else { p with replays := p.replays + 1, crcErr := p.crcErr + 1, streak := p.streak + 1 }))) ∧
    ∀ a b c, p.state = 1 → exec (.portTrainingComplete n a b c) s = .next (s.setPort n { p with state := 0, streak := 0 })) ∧
  (∀ n k s p, n < 16 → k < 8 → p = s.port n → p.state = 2 → p.xoff.getLsbD k = false → ∃ q, exec (.linkXoff n k) s = .next (s.setPort n q) ∧
    q = { p with xoff := q.xoff } ∧ ∀ i, i < 8 → q.xoff.getLsbD i = (p.xoff.getLsbD i || decide (i = k))) ∧
  (∀ n k s p, n < 16 → k < 8 → p = s.port n → p.state = 2 → p.xoff.getLsbD k = true → ∃ q, exec (.linkXon n k) s = .next (s.setPort n q) ∧
    q = { p with xoff := q.xoff } ∧ ∀ i, i < 8 → q.xoff.getLsbD i = (p.xoff.getLsbD i && decide (i ≠ k))) ∧
  (∀ n k (s : State), s.carries n k = true → (s.port n).state = 2 ∧ (s.port n).xoff.getLsbD k = false ∧ (s.port n).state ≠ 3 ∧ n ∉ s.retiredLinks) ∧
  (∀ n lanes s p, n < 16 → p = s.port n → p.state = 1 ∨ p.state = 2 → lanes < p.lanes → exec (.portLaneLoss n lanes) s = .next
    (s.setPort n { p with lanes, state := if lanes = 0 then 0 else 1, downAt := s.time })) ∧
  (∀ n lanes dev pp s, n < 16 → (s.port n).state < 2 → 1 ≤ lanes → lanes ≤ 8 → dev < 256 → pp < 16 → ∃ u,
    exec (.portTrainingComplete n lanes dev pp) s = .next u ∧ u = { s with ports := u.ports, retiredLinks := u.retiredLinks, lost := u.lost } ∧
    u.port n = { s.port n with lanes, peerDev := dev, peerPort := pp, state := 2, streak := 0, xoff := 0 } ∧ n ∉ u.retiredLinks ∧
    (∀ l, l ∈ u.lost ↔ l ∈ s.lost ∧ l.told = false) ∧ ∀ m, m ≠ n → u.port m = s.port m) ∧
  (∀ n s, n < 16 → (s.port n).state = 0 → n ∉ s.retiredLinks → (s.port n).downAt + 10000 * microsecond ≤ s.time → ∃ u,
    exec (.portDownTimeout n) s = .next u ∧ Loses { s with retiredLinks := n :: s.retiredLinks } u) ∧
  (∀ n s, n < 16 → (s.port n).state ≠ 3 → ∃ u, exec (.portRetire n) s = .next u ∧ Loses (s.setPort n { s.port n with state := 3 }) u) ∧
  (∀ n s, 16 ≤ n → n < 192 → n - 16 ∉ s.retiredUnits → ∃ u, exec (.portRetire n) s = .next u ∧
    Loses { s with retiredUnits := (n - 16) :: s.retiredUnits } u) ∧
  (∀ (s : State) f, f.point < 16 → s.lostAt f = s.noRoute) ∧
  ∀ s : State, s.noRoute = true ↔ ∀ n, n < 16 → (s.port n).state = 3 ∨ n ∈ s.retiredLinks

/-- R114, R123, R124, R200, R241, R292, R297, R299, R300: another agent's access to device memory reads or writes the bytes it names and no others,
by CXL after a fatal error too; one from the estate comes by a port that is up, whose streak of replays ends; one to the commons reaches its
bank; a cask insert reaches its cooper unit; a payload is expanded and stored; a record, a re-arm or an upcall reaches the dependence engine,
the graph or the front end. A host write during a checkpoint is in the image with its old or new bytes. Blocks of a COMP page and payloads
expand to what they were made from. That host memory is home 256 is log entry 30, the source number 19 log entry 35 (both DESIGN CHOICE). -/
def Obligations.ExternalAccesses : Prop :=
  (∀ h acc s, h < 256 → s.answers = true → s.ownCellar h = true → s.power ≠ .d3hot → extEnd acc ≤ 96 * 2 ^ 30 →
    (∀ a n, acc = .read a n → exec (.hostCxlMemAccess h acc) s = .next s) ∧
    (∀ a bs, acc = .write a bs → ∃ u, exec (.hostCxlMemAccess h acc) s = .next u ∧ KeepsOutside s u [.dev h a] bs.length ∧
      (∀ i, i < bs.length → some (u.mem.read ((Place.dev h a).key + i)) = bs[i]?) ∧ u.bunches = s.bunches ∧
      (s.ckptState ≠ 1 → u.image = s.image) ∧ (s.ckptState = 1 → ∀ m, s.image = some m → ∃ n, u.image = some n ∧ n = { m with mem := n.mem } ∧
        ∀ k, n.mem.read k = m.mem.read k ∨ n.mem.read k = u.mem.read k)) ∧
    (∀ a x, acc = .add a x → ∃ u, exec (.hostCxlMemAccess h acc) s = .next u ∧ KeepsOutside s u [.dev h a] 4 ∧
      u.natAt (.dev h a) 4 = (s.natAt (.dev h a) 4 + x.toNat) % 2 ^ 32 ∧ u.bunches = s.bunches)) ∧
  (∀ acc s, extEnd acc ≤ 2 ^ 51 → exec (.hostCxlMemAccess 256 acc) s = .next (s.extAt .host acc)) ∧
  (∀ n s, s.answers = true → s.fatal = false → s.power ≠ .d3hot → n < 16 → (s.port n).state = 2 →
    (∀ h a bs, s.ownCellar h = true → a + bs.length ≤ 96 * 2 ^ 30 → ∃ u, exec (.estateInboundRequest n (.mem h (.write a bs))) s = .next u ∧
      KeepsOutside s u [.dev h a] bs.length ∧ (∀ i, i < bs.length → some (u.mem.read ((Place.dev h a).key + i)) = bs[i]?) ∧
      u.bunches = s.bunches ∧ u.port n = { s.port n with streak := 0 }) ∧
    (∀ c acc, s.ownCellar c = true → extEnd acc ≤ 2 ^ 25 → ∃ u, exec (.estateInboundRequest n (.commons c acc)) s = .next u ∧ u.mem = s.mem ∧
      u.bankQ = reachBank { unit := bankUnit c (extStart acc), src := 19, at_ := s.now, op := .ext c acc } s.bankQ) ∧
    (∀ ctx d key off cols r, s.insertRow ctx d key = some r → s.ownCellar (r / 3) = true → ∃ u,
      exec (.estateInboundRequest n (.caskInsert ctx d key off cols)) s = .next u ∧ u.mem = s.mem ∧
        u.cooperQ = reachBank { unit := r, src := feCore, at_ := s.now, op := .caskInsert ctx d key off cols } s.cooperQ) ∧
    (∀ h a len body bs, s.ownCellar h = true → expandPayload len body = some bs → a + len ≤ 96 * 2 ^ 30 → ∃ u,
      exec (.estateInboundRequest n (.payload h a len body)) s = .next u ∧ bs.length = len ∧
      KeepsOutside s u [.dev h a] len ∧ ∀ i, i < len → some (u.mem.read ((Place.dev h a).key + i)) = bs[i]?) ∧
    ∀ c, s.hasCtx c = true → (∀ task va, ∃ u, exec (.estateInboundRequest n (.record c task va)) s = .next u ∧
        u.depRecs = s.depRecs ++ [{ ctx := c, task, va }] ∧ u.mem = s.mem) ∧
      (∀ raw va, ∃ u, exec (.estateInboundRequest n (.upcall c raw va)) s = .next u ∧ u.upcalls = s.upcalls ++ [{ ctx := c, raw, va }] ∧ u.mem = s.mem) ∧
      ∀ va i g, s.graphs.find? (fun q => q.ctx == c && q.va == va && !q.waits) = some g → i < g.nodes.length → ∃ u,
        exec (.estateInboundRequest n (.rearm c va i)) s = .next u ∧ u.graphs = (s.setRun (g.rearm i)).graphs ∧ u.mem = s.mem) ∧
  (∀ bs : List Byte, bs.length = 512 → (blockForm bs).expand = bs ∧ ∀ f ∈ blockForms bs, (blockForm bs).sectors ≤ f.sectors ∧
    (f.sectors = (blockForm bs).sectors → ((blockForm bs).mode + 3) % 4 ≤ (f.mode + 3) % 4)) ∧
  ∀ bs : List Byte, expandPayload bs.length (packPayload bs) = some bs ∧ ∀ f ∈ payloadForms bs, (packPayload bs).length ≤ f.length

/-! ### The machine as a whole -/

/-- R51 to R64: every well-formed instruction decodes from its own words, whatever follows them. -/
def Obligations.DecodeEncode : Prop :=
  ∀ (i : Instr) (rest : List Word), i.hasWords = true → i.wf = true → decode (encode i ++ rest) = .ok i

/-- Words that the spec works out field by field decode to the instructions it writes beside them, some of each layout and family. -/
def Obligations.DecodedWords : Prop :=
  decode [0x04008E40] = .ok (.iaddBase false ⟨7, 2, 0, .reg 1⟩) ∧
  decode [0x24F00E41, 0x00020103, 0] = .ok (.iadd .wrap ⟨⟨false, 7⟩, .k 3, .k 1, .src (.k 2)⟩) ∧
  decode [0x04008EA0] = .ok (.faddBase false ⟨7, 2, 0, .reg 1⟩) ∧
  decode [0x2BF20EE1, 0x00000105, 0] = .ok (.vote .ballot ⟨false, 7⟩ (.k 5) 1) ∧
  decode [0xFFF10205, 0x00400000, 0x20] = .ok (.braD ⟨false, 1⟩ 0x20 0x40) ∧
  decode [0x03980F01, 0x0000080A, 0x10] = .ok (.ld ⟨false, 7⟩ .w32 false .team (.v 10) (.v 8) 16 1) ∧
  decode [0x070F8F41, 0x00030405, 0] = .ok (.atom 15 .none .team ⟨false, 7⟩ (.v 5) (.k 4) 0 (.src (.imm 3)) 0) ∧
  decode [0xFFF08F51, 0, 0] = .ok (.fence .sys ⟨false, 7⟩) ∧
  decode [0x6CA88F65, 0x00080102, 0] = .ok (.cpya ⟨true, false, false⟩ false false false ⟨false, 7⟩ 2 1 8 2) ∧
  decode [0x8CF02F89, 0x000A0610, 0x8000001F] = .ok (.mms .plain true true ⟨false, 7⟩ 0 6 10 none 31 0 0) ∧
  decode [0x10182FB5, 0x0010230A, 0] = .ok (.ckins true ⟨false, 7⟩ 10 3 16 1) ∧
  decode [0x27980FC1, 0x00000405, 0] = .ok (.lnch ⟨false, 7⟩ 5 4 0 1) ∧
  decode [0x24980FD1, 0x00040802, 0] = .ok (.prim ⟨false, 7⟩ 2 8 4 1) ∧
  decode [0x3FF00FD9, 4, 0x54] = .ok (.csrr ⟨false, 7⟩ 4 0x54)

/-- A step from a state in which no event has arrived makes the move that comes next: it executes what the words at the place of the split that
issues decode to, or passes over them after a SKIP (R258), or takes the trap of a fetch whose address does not translate (R119), that finds no
code (R232), poisoned code (R275), a bundle of another form (R71) or an illegal word (R72); it executes a device operation, or lets the cycle
go by; then waits that have ended settle. An event from outside is executed first. A block without its bytes, or that CCTL.code made stale
(R326), is fetched anew first. Which move comes next, and for how long what is owed may be left undone (R302), is log entry 2. -/
def Obligations.StepRuns : Prop :=
  (∀ s c b sp t, s.inputs = [] → s.halted = false → s.nextMove = .issue c →
    Store.find s.bunches c.bunch = some b → Store.find b.splits c.entry = some sp → t = State.paid { s with choices := s.choices.tail } s.nextMove →
    (∀ e, refetchAt t b sp.pc = .error e → step s = .next (t.fetchTrap c b sp e .fetch).after) ∧
    ∀ v, refetchAt t b sp.pc = .ok v →
      ((v.core b.core).blockOf b.ctx b.launch sp.pc.bundle = none → step s = .next (v.fetchTrap c b sp .codeAbsent .fetch).after) ∧
      ∀ k, (v.core b.core).blockOf b.ctx b.launch sp.pc.bundle = some k → k.bytes ≠ [] →
        ((∃ u ∈ k.bad, u / 4 = sp.pc.bundle.toNat / 128 % 32) → step s = .next (v.fetchTrap c b sp .eccUncorrectable .fetch).after) ∧
        ((∀ u ∈ k.bad, u / 4 ≠ sp.pc.bundle.toNat / 128 % 32) →
          (bundleOk (k.bundle sp.pc.bundle) = false → step s = .next (v.fetchTrap c b sp .bundleForm .fetch).after) ∧
          ∀ ws ctl, bundleOk (k.bundle sp.pc.bundle) = true → skipInstrs sp.pc.slot ((k.bundle sp.pc.bundle).drop 2) = some ws → ws ≠ [] →
            ctl = bundleCtl (k.bundle sp.pc.bundle) →
            (sp.passes = true → step s = .next (v.passOver c b sp ctl).after) ∧
            (sp.passes = false →
              (∀ i w, decode ws = .ok i → exec i { v with issuer := some { bunch := c.bunch, entry := c.entry, ctl } } = .next w →
                step s = .next w.after) ∧
              ∀ e, decode ws = .error e → step s = .next (v.takeFault c.bunch c.entry (faultAll sp.lanes .illegalOp 0) sp.pc (pcAfter ctl sp.pc)
                (if stallEntry ctl sp.pc.slot = 13 then bits ctl 56 8 else 0) none
                (v.now + 1 + (if stallEntry ctl sp.pc.slot ≤ 12 then stallEntry ctl sp.pc.slot else 0))).after))) ∧
  (∀ (s : State) (b : Bunch) pc,
    ((s.core b.core).blockOf b.ctx b.launch pc.bundle = none →
      (∀ e, locate s b.core b.ctx pc.bundle .fetch = .error e → refetchAt s b pc = .error e) ∧
      ∀ x, locate s b.core b.ctx pc.bundle .fetch = .ok x → refetchAt s b pc = .ok s) ∧
    ∀ k, (s.core b.core).blockOf b.ctx b.launch pc.bundle = some k → (k.bytes ≠ [] → k.stale = false → refetchAt s b pc = .ok s) ∧
      (k.bytes = [] ∨ k.stale = true → (∀ e, fetchBlock s b.core b.ctx k.va = .error e → refetchAt s b pc = .error e) ∧
        ∀ x, fetchBlock s b.core b.ctx k.va = .ok x → ∃ v, refetchAt s b pc = .ok v ∧ v = { s with cores := v.cores } ∧
          (v.core b.core).blockOf b.ctx b.launch pc.bundle = some { k with bytes := x.1, bad := x.2, stale := false, fetched := some s.now })) ∧
  (∀ s i v, s.inputs = [] → s.halted = false → s.nextMove = .event i →
    exec i (State.paid { s with choices := s.choices.tail } s.nextMove) = .next v → step s = .next v.after) ∧
  (∀ s, s.inputs = [] → s.halted = false → s.nextMove = .tick →
    step s = .next (State.paid { s with choices := s.choices.tail } s.nextMove).tick.after) ∧
  (∀ s u : State, u = s.engineAhead → s.tick.now = u.now + 1 ∧ s.tick.time = u.time + cycleTime u.dvfs ∧ (s.choice 36 = 0 → u = s) ∧
    (∀ k ∈ u.owes, (k, u.owedFor k + 1) ∈ s.tick.owed) ∧ (s.overdue ≠ [] → s.nextMove ≠ .tick)) ∧
  (∀ s, s.inputs = [] → s.halted = true → step s = .fault .halted) ∧
  ∀ s i r, s.inputs = i :: r →
    (∀ v, exec i { s with inputs := r } = .next v → step s = .next v.after) ∧
    (∀ n, exec i { s with inputs := r } = .refused (.eventNotEnabled n) → step s = .next (State.tick { s with inputs := r }).after)

/-- Every table of bytes keeps its canonical form in every step. -/
def Obligations.StepKeepsMemory : Prop :=
  ∀ s t, s.MemOk → step s = .next t → t.MemOk

/-- R48, R121, R205, R222, R304: after reset no context exists, nothing runs, every frame tag is zero, the journal is at SEQ 0, and each register
of a context has the reset value its field gives; queues are off. That memory reads as 0, and HRING_BASE's 0, are the model's choices (log
entries 5 and 8). -/
def Obligations.ResetState : Prop :=
  State.reset.MemOk ∧ State.reset.bunches = [] ∧ State.reset.launches = [] ∧ State.reset.jseq = 0 ∧ State.reset.journal = [] ∧
  State.reset.power = .active ∧ State.reset.ready = true ∧ State.reset.inputs = [] ∧
  (∀ c, let x := State.reset.ctx c
    x.created = false ∧ x.ctl = 0 ∧ x.cmnWin = 0 ∧ x.ptRoot = 0 ∧ x.layoutTab = 0 ∧ x.accPromo = 0x10 ∧ x.swap = 0x1000 ∧ x.pri = 0x17 ∧
    x.hringBase = 0 ∧ x.wdog = 0x100000 ∧ x.hndBase = 0 ∧ x.tensors = [] ∧ x.codes = [] ∧ x.casks = []) ∧
  (∀ n, (State.reset.port n).state = 0 ∧ (State.reset.port n).replays = 0 ∧ (State.reset.port n).crcErr = 0) ∧
  (∀ q, Store.find State.reset.queues q = none) ∧ State.reset.ckptState = 0 ∧ State.reset.ckptCtx = 0 ∧
  ∀ a, State.reset.mem.read a = 0 ∧ State.reset.tags.read a = 0

end
end

