-- ==== Sys2Proof/Laws/Arith.lean ====
section
/-! SUPPORT. The arithmetic of the integer instructions computes what the spec's rules say. -/

namespace Sys2Proof.Machine

theorem toInt_clampS (x : Int) : (clampS x).toInt = max (-2 ^ 31) (min (2 ^ 31 - 1) x) := by
  unfold clampS
  rw [BitVec.toInt_ofInt, Int.bmod_eq_of_le] <;> omega

theorem toNat_clampU (x : Int) : ((clampU x).toNat : Int) = max 0 (min (2 ^ 32 - 1) x) := by
  unfold clampU
  rw [BitVec.toNat_ofInt, Int.toNat_of_nonneg (by omega)]
  omega

theorem addOp_rule (m : AddMode) (a b : Word) : sumRule false m a b (addOp m a b) := by
  cases m with
  | wrap => simp [sumRule, addOp, BitVec.toNat_add]
  | sat => simpa [sumRule, addOp] using toInt_clampS _
  | usat => simpa [sumRule, addOp] using toNat_clampU _

theorem subOp_rule (m : AddMode) (a b : Word) : sumRule true m a b (subOp m a b) := by
  cases m with
  | wrap =>
    simp only [sumRule, subOp, BitVec.toNat_sub, if_true]
    have := b.isLt
    congr 1
    omega
  | sat => simpa [sumRule, subOp] using toInt_clampS _
  | usat => simpa [sumRule, subOp] using toNat_clampU _

theorem mulHigh_rule (u : Bool) (a b : Word) : highRule u a b (mulHigh u a b) := by
  cases u with
  | true =>
    simp only [highRule, mulHigh, if_true, BitVec.toNat_ofNat]
    apply Nat.mod_eq_of_lt
    have ha := a.isLt
    have hb := b.isLt
    rw [Nat.div_lt_iff_lt_mul (by decide)]
    exact Nat.mul_lt_mul'' ha hb
  | false =>
    simp only [highRule, mulHigh, Bool.false_eq_true, if_false]
    have ha1 := a.toInt_lt
    have ha2 := a.le_toInt
    have hb1 := b.toInt_lt
    have hb2 := b.le_toInt
    have h : -2 ^ 62 ≤ a.toInt * b.toInt ∧ a.toInt * b.toInt ≤ 2 ^ 62 := by
      simp at ha1 ha2 hb1 hb2
      constructor <;> nlinarith
    rw [BitVec.toInt_ofInt]
    apply Int.bmod_eq_of_le <;> omega

theorem mul_wrap (a b : Word) : (a * b).toNat = a.toNat * b.toNat % 2 ^ 32 := BitVec.toNat_mul a b

theorem madWide_rule (u : Bool) (a b : Word) (c : DWord) : wideRule u a b c (madWide u a b c) := by
  cases u with
  | true => simp [wideRule, madWide, BitVec.toNat_add, BitVec.toNat_ofNat]
  | false =>
    simp only [wideRule, madWide, Bool.false_eq_true, if_false, BitVec.toNat_add, BitVec.toNat_ofInt]
    omega

theorem minOp_rule (u : Bool) (a b : Word) : pickRule false u a b (minOp u a b) := by
  cases u <;> simp only [pickRule, minOp, Bool.false_eq_true, if_false, if_true, BitVec.ult, BitVec.slt, decide_eq_true_eq] <;> split <;> omega
theorem maxOp_rule (u : Bool) (a b : Word) : pickRule true u a b (maxOp u a b) := by
  cases u <;> simp only [pickRule, maxOp, Bool.false_eq_true, if_false, if_true, BitVec.ult, BitVec.slt, decide_eq_true_eq] <;> split <;> omega

theorem icmpFn_rule (c : ICond) (u : Bool) (a b : Word) : icmpFn c u a b = true ↔ condRule c u a b := by
  cases c <;> cases u <;> simp [icmpFn, condRule, BitVec.ult, BitVec.slt, BitVec.ule, BitVec.sle, BitVec.toInt_inj, BitVec.toNat_inj]

theorem lopFn_rule (op : LopOp) (a b : Word) : logicRule op a b (lopFn op a b) := by
  intro i hi
  cases op <;> simp [lopFn, hi, bne]

theorem shfFn_rule (op : ShfOp) (a b c : Word) : shiftRule op a b c (shfFn op a b c) := by
  have h : (b &&& 63).toNat = b.toNat % 64 := by
    rw [BitVec.toNat_and]; exact Nat.and_two_pow_sub_one_eq_mod b.toNat 6
  cases op with
  | l => simp only [shiftRule, shfFn, h, BitVec.toNat_shiftLeft, Nat.shiftLeft_eq]
  | r => simp only [shiftRule, shfFn, h, BitVec.toNat_ushiftRight, Nat.shiftRight_eq_div_pow]
  | ra => simp only [shiftRule, shfFn, h, BitVec.toInt_sshiftRight, Int.shiftRight_eq_div_pow]; norm_cast
  | f => 
    simp only [shiftRule, shfFn, h, lowHalf, pairOf, bits, BitVec.extractLsb'_toNat, BitVec.toNat_ushiftRight, Nat.shiftRight_eq_div_pow, BitVec.toNat_append, Nat.pow_zero, Nat.div_one]
    rw [← Nat.shiftLeft_add_eq_or_of_lt a.isLt, Nat.shiftLeft_eq]

theorem absOp_rule (sat : Bool) (a : Word) : absRule sat a (absOp sat a) := by
  have ha := a.isLt
  have hm : a.msb = true ↔ a.toInt < 0 := BitVec.msb_eq_toInt ▸ by simp
  have h8 : (a == 0x80000000) = true ↔ a.toInt = -2 ^ 31 := by
    rw [beq_iff_eq, ← BitVec.toInt_inj]; rfl
  simp only [absRule, absOp]
  by_cases hs : sat = true ∧ a.toInt = -2 ^ 31
  · rw [if_pos hs, if_pos (by rw [Bool.and_eq_true]; exact ⟨hs.1, h8.mpr hs.2⟩)]
    rfl
  · rw [if_neg hs, if_neg (by rw [Bool.and_eq_true]; exact fun q => hs ⟨q.1, h8.mp q.2⟩)]
    have ht := BitVec.toInt_eq_toNat_cond a
    by_cases hn : a.toInt < 0
    · rw [if_pos (hm.mpr hn), BitVec.toNat_neg]
      split at ht <;> omega
    · rw [if_neg (fun h => hn (hm.mp h))]
      split at ht <;> omega

theorem bfxFn_rule (s : Bool) (pos wm1 : BitVec 5) (a : Word) :
    extractRule s pos.toNat (wm1.toNat + 1) a (bfxFn s pos wm1 a) := by
  have hx : ((a >>> pos.toNat).setWidth (wm1.toNat + 1)).toNat = a.toNat / 2 ^ pos.toNat % 2 ^ (wm1.toNat + 1) := by
    simp [Nat.shiftRight_eq_div_pow]
  have hw := wm1.isLt
  have hp : 2 ^ (wm1.toNat + 1) ≤ 2 ^ 32 := Nat.pow_le_pow_right (by decide) (by omega)
  have hl : a.toNat / 2 ^ pos.toNat % 2 ^ (wm1.toNat + 1) < 2 ^ (wm1.toNat + 1) := Nat.mod_lt _ (Nat.two_pow_pos _)
  cases s with
  | false =>
    simp only [extractRule, bfxFn, Bool.false_eq_true, if_false, false_and, BitVec.toNat_setWidth, hx]
    rw [Nat.mod_eq_of_lt (lt_of_lt_of_le hl hp)]
  | true =>
    simp only [extractRule, bfxFn, if_true, true_and]
    rw [BitVec.toInt_signExtend_of_le (by omega), BitVec.toInt_eq_toNat_cond, hx]
    have e : 2 ^ (wm1.toNat + 1) = 2 * 2 ^ wm1.toNat := by rw [pow_succ]; ring
    simp only [Nat.add_sub_cancel]
    generalize a.toNat / 2 ^ pos.toNat % 2 ^ (wm1.toNat + 1) = f at *
    by_cases hf : 2 ^ wm1.toNat ≤ f
    · rw [if_neg (by omega), if_pos hf]; norm_cast
    · rw [if_pos (by omega), if_neg hf]

theorem bfiFn_rule (pos wm1 : BitVec 5) (a b : Word) :
    insertRule pos.toNat (wm1.toNat + 1) a b (bfiFn pos wm1 a b) := by
  intro i hi
  have hm : (BitVec.ofNat 32 ((2 ^ (wm1.toNat + 1) - 1) * 2 ^ pos.toNat)).getLsbD i =
      decide (pos.toNat ≤ i ∧ i < pos.toNat + (wm1.toNat + 1)) := by
    rw [BitVec.getLsbD_ofNat, ← Nat.shiftLeft_eq, Nat.testBit_shiftLeft, Nat.testBit_two_pow_sub_one]
    simp only [hi, decide_true, Bool.true_and, ge_iff_le, Bool.decide_and]
    by_cases hp : pos.toNat ≤ i
    · simp [hp]; omega
    · simp [hp]
  simp only [bfiFn, BitVec.getLsbD_or, BitVec.getLsbD_and, BitVec.getLsbD_not, hi, decide_true, Bool.true_and, hm,
    BitVec.getLsbD_shiftLeft]
  by_cases hc : pos.toNat ≤ i ∧ i < pos.toNat + (wm1.toNat + 1)
  · simp [hc, show ¬ i < pos.toNat by omega]
  · simp [hc]

theorem popcFn_rule (a : Word) : countRule a (popcFn a) := by
  simp only [countRule, popcFn, laneCount, lanesOf, BitVec.toNat_ofNat]
  apply Nat.mod_eq_of_lt
  have := List.length_filter_le (fun i => a.getLsbD i) (List.range 32)
  simp only [List.length_range] at this
  omega

theorem clzFn_rule (a : Word) : leadingRule a (clzFn a) := by
  unfold leadingRule clzFn
  split
  · rename_i i hi
    obtain ⟨h1, h2, h3⟩ := List.find?_range_eq_some.mp hi
    have e : (BitVec.ofNat 32 i).toNat = i := by
      rw [BitVec.toNat_ofNat]; exact Nat.mod_eq_of_lt (by have := List.mem_range.mp h2; omega)
    have hl := List.mem_range.mp h2
    refine .inr ⟨by omega, by rw [e]; exact h1, fun j hj => ?_⟩
    rw [e] at hj
    by_cases hj' : j < 32
    · have := h3 (31 - j) (by omega)
      rw [show 31 - (31 - j) = j by omega] at this
      simpa using this
    · exact BitVec.getLsbD_of_ge _ _ (by omega)
  · rename_i hi
    refine .inl ⟨?_, rfl⟩
    apply BitVec.eq_of_getLsbD_eq
    intro i hi'
    have := List.find?_eq_none.mp hi (31 - i) (List.mem_range.mpr (by omega))
    rw [show 31 - (31 - i) = i by omega] at this
    simpa using this

theorem byteInt_eq (u : Bool) (w : Word) (i : Nat) : byteInt u w i = byteOf u w i := by
  have h : (bits w (8 * i) 8).toNat = w.toNat / 2 ^ (8 * i) % 256 := by
    simp [bits, BitVec.extractLsb'_toNat, Nat.shiftRight_eq_div_pow]
  cases u with
  | true => simp [byteInt, byteOf, h]
  | false =>
    simp only [byteInt, byteOf, Bool.false_eq_true, if_false, false_or, BitVec.toInt_eq_toNat_cond, h]
    generalize w.toNat / 2 ^ (8 * i) % 256 = x
    by_cases hx : x < 128
    · rw [if_pos (by omega), if_pos hx]
    · rw [if_neg (by omega), if_neg hx]; norm_cast

theorem idp4Fn_rule (ua ub sat : Bool) (a b c : Word) : dotRule ua ub sat a b c (idp4Fn ua ub sat a b c) := by
  have h : (List.range 4).foldl (fun t i => t + byteInt ua a i * byteInt ub b i) c.toInt = c.toInt + byteOf ua a 0 * byteOf ub b 0
      + byteOf ua a 1 * byteOf ub b 1 + byteOf ua a 2 * byteOf ub b 2 + byteOf ua a 3 * byteOf ub b 3 := by
    simp [List.range_succ, byteInt_eq]
  cases sat with
  | true => simp only [dotRule, idp4Fn, if_true, h]; exact toInt_clampS _
  | false =>
    simp only [dotRule, idp4Fn, Bool.false_eq_true, if_false, h, BitVec.toNat_ofInt]
    rw [Int.toNat_of_nonneg (by omega)]; norm_cast

theorem leaFn_rule (s : Bool) (shift : Nat) (a : DWord) (b : Word) : leaRule s shift a b (leaFn s shift a b) := by
  have hm (x n : Int) : x % 2 ^ 64 * n % 2 ^ 64 = x * n % 2 ^ 64 := by rw [Int.mul_emod, Int.emod_emod_of_dvd _ (dvd_refl _), ← Int.mul_emod]
  have h : ((((if s then b.signExtend 64 else b.setWidth 64) <<< shift : DWord)).toNat : Int) =
      ((if s then b.toInt else b.toNat) * 2 ^ shift) % 2 ^ 64 := by
    rw [BitVec.toNat_shiftLeft, Nat.shiftLeft_eq]
    push_cast
    cases s with
    | false =>
      simp only [Bool.false_eq_true, if_false, BitVec.toNat_setWidth]
      push_cast
      exact hm _ _
    | true =>
      simp only [if_true, BitVec.signExtend, BitVec.toNat_ofInt]
      rw [Int.toNat_of_nonneg (Int.emod_nonneg _ (by decide))]
      push_cast
      exact hm _ _
  simp only [leaRule, leaFn, BitVec.toNat_add]
  push_cast
  rw [h]
  simp

end Sys2Proof.Machine
end

