-- ==== Sys2Proof/Laws/Encoding.lean ====
section
/-! SUPPORT. Cutting an encoded form gives the form back: every field of the word forms lies where the decoder looks for it. -/

namespace Sys2Proof

theorem bits_append_hi (x : BitVec a) (y : BitVec b) (lo n : Nat) (h : b ≤ lo) : bits (x ++ y) lo n = bits x (lo - b) n := by
  apply BitVec.eq_of_getLsbD_eq; intro i hi
  simp [bits, BitVec.getLsbD_append, hi, Nat.not_lt.mpr (Nat.le_trans h (Nat.le_add_right lo i)), Nat.sub_add_comm h]
theorem bits_append_lo (x : BitVec a) (y : BitVec b) (lo n : Nat) (h : lo + n ≤ b) : bits (x ++ y) lo n = bits y lo n := by
  apply BitVec.eq_of_getLsbD_eq; intro i hi
  simp [bits, BitVec.getLsbD_append, hi, show lo + i < b by omega]
theorem bits_self (x : BitVec n) : bits x 0 n = x := by
  apply BitVec.eq_of_getLsbD_eq; intro i hi
  simp [bits, hi]
theorem bit_eq (x : BitVec n) (i : Nat) : bit x i = (bits x i 1).getLsbD 0 := by simp [bit, bits]

/-- The first word of layout G at the width of its fields. -/
theorem FG.bits_word1 (f : FG) (lo n : Nat) : bits f.word1 lo n =
   @bits (3 + 3 + 3 + 3 + 4 + 3 + 1 + 3 + 7 + (1 + 1)) (f.d.cls ++ f.a.cls ++ f.b.cls ++ f.c.cls ++ f.sop ++ f.mod ++ b1 f.g.pn ++ f.g.pg ++ f.op
    ++ (b1 f.lit.isSome ++ (1 : BitVec 1))) lo n := rfl
theorem FG.cut_word1 (f : FG) : bits f.word1 2 7 = f.op ∧ bits f.word1 29 3 = f.d.cls ∧ bits f.word1 26 3 = f.a.cls
  ∧ bits f.word1 23 3 = f.b.cls ∧ bits f.word1 20 3 = f.c.cls ∧ bits f.word1 16 4 = f.sop ∧ bits f.word1 13 3 = f.mod
  ∧ bits f.word1 12 1 = b1 f.g.pn ∧ bits f.word1 9 3 = f.g.pg ∧ bits f.word1 1 1 = b1 f.lit.isSome ∧ bits f.word1 0 1 = 1 := by
  refine ⟨?_, ?_, ?_, ?_, ?_, ?_, ?_, ?_, ?_, ?_, ?_⟩ <;> rw [FG.bits_word1] <;>
    simp (disch := decide) only [bits_append_hi, bits_append_lo] <;> exact bits_self _

theorem FT.bits_word1 (f : FT) (lo n : Nat) : bits f.word1 lo n =
    @bits (3 + 3 + 3 + 3 + 1 + 3 + 3 + 1 + 3 + 7 + (1 + 1)) (f.d.cls ++ f.a.cls ++ f.b.cls ++ f.t.tok ++ b1 f.t.te ++ f.sop ++ f.mod
      ++ b1 f.g.pn ++ f.g.pg ++ f.op ++ (b1 f.lit.isSome ++ (1 : BitVec 1))) lo n := rfl
theorem FT.cut_word1 (f : FT) : bits f.word1 2 7 = f.op ∧ bits f.word1 29 3 = f.d.cls ∧ bits f.word1 26 3 = f.a.cls
    ∧ bits f.word1 23 3 = f.b.cls ∧ bits f.word1 20 3 = f.t.tok ∧ bits f.word1 19 1 = b1 f.t.te ∧ bits f.word1 16 3 = f.sop
    ∧ bits f.word1 13 3 = f.mod ∧ bits f.word1 12 1 = b1 f.g.pn ∧ bits f.word1 9 3 = f.g.pg
    ∧ bits f.word1 1 1 = b1 f.lit.isSome ∧ bits f.word1 0 1 = 1 := by
  refine ⟨?_, ?_, ?_, ?_, ?_, ?_, ?_, ?_, ?_, ?_, ?_, ?_⟩ <;> rw [FT.bits_word1] <;>
    simp (disch := decide) only [bits_append_hi, bits_append_lo] <;> exact bits_self _

theorem FB.bits_word1 (f : FB) (lo n : Nat) : bits f.word1 lo n =
    @bits (12 + 4 + 3 + 1 + 3 + 7 + 2) ((0xFFF : BitVec 12) ++ f.sop ++ (0 : BitVec 3) ++ b1 f.g.pn ++ f.g.pg ++ f.op
      ++ (1 : BitVec 2)) lo n := rfl
theorem FB.cut_word1 (f : FB) : bits f.word1 2 7 = f.op ∧ bits f.word1 20 12 = 0xFFF ∧ bits f.word1 16 4 = f.sop
    ∧ bits f.word1 13 3 = 0 ∧ bits f.word1 12 1 = b1 f.g.pn ∧ bits f.word1 9 3 = f.g.pg
    ∧ bits f.word1 1 1 = 0 ∧ bits f.word1 0 1 = 1 := by
  refine ⟨?_, ?_, ?_, ?_, ?_, ?_, ?_, ?_⟩ <;> rw [FB.bits_word1] <;>
    simp (disch := decide) only [bits_append_hi, bits_append_lo] <;> first | exact bits_self _ | decide

theorem FBase.bits_word (f : FBase) (lo n : Nat) : bits f.word lo n =
    @bits (6 + 6 + 6 + 1 + 1 + 3 + 7 + (1 + 1)) (f.b ++ f.a ++ f.d ++ b1 f.m ++ b1 f.f ++ f.pg ++ f.op
      ++ (b1 f.lit.isSome ++ (0 : BitVec 1))) lo n := rfl
theorem FBase.cut_word (f : FBase) : bits f.word 2 7 = f.op ∧ bits f.word 26 6 = f.b ∧ bits f.word 20 6 = f.a
    ∧ bits f.word 14 6 = f.d ∧ bits f.word 13 1 = b1 f.m ∧ bits f.word 12 1 = b1 f.f ∧ bits f.word 9 3 = f.pg
    ∧ bits f.word 1 1 = b1 f.lit.isSome ∧ bits f.word 0 1 = 0 := by
  refine ⟨?_, ?_, ?_, ?_, ?_, ?_, ?_, ?_, ?_⟩ <;> rw [FBase.bits_word] <;>
    simp (disch := decide) only [bits_append_hi, bits_append_lo] <;> exact bits_self _

theorem bits_four (c b a d : BitVec 8) :
    bits (m := 32) (c ++ b ++ a ++ d) 0 8 = d ∧ bits (m := 32) (c ++ b ++ a ++ d) 8 8 = a ∧ bits (m := 32) (c ++ b ++ a ++ d) 16 8 = b ∧ bits (m := 32) (c ++ b ++ a ++ d) 24 8 = c := by
  refine ⟨?_, ?_, ?_, ?_⟩ <;> change @bits (8 + 8 + 8 + 8) (c ++ b ++ a ++ d) _ 8 = _ <;>
    simp (disch := decide) only [bits_append_hi, bits_append_lo] <;> exact bits_self _

theorem bit_of_bits {x : BitVec n} {i : Nat} {b : Bool} (h : bits x i 1 = b1 b) : bit x i = b := by
  rw [bit_eq, h]; cases b <;> rfl

theorem Special.ofCode_code (c : Special) : Special.ofCode c.code = some c := by cases c <;> rfl
theorem Opnd.ofCode_code (o : Opnd) : Opnd.ofCode o.cls o.field = some o := by
  cases o with
  | v n => rfl
  | k n => revert n; decide
  | p n => revert n; decide
  | x n => rfl
  | tok n => revert n; decide
  | tile n => revert n; decide
  | cask n => revert n; decide
  | cur n => revert n; decide
  | sp c => cases c <;> rfl
  | imm n => rfl
  | none => rfl
theorem opnd_code (o : Opnd) : opnd o.cls o.field = .ok o := by simp [opnd, Opnd.ofCode_code]

theorem takeLit_words (l : Option DWord) (rest : List Word) : takeLit l.isSome (litWords l ++ rest) = .ok l := by
  cases l with
  | none => rfl
  | some x =>
    have h : bits x 32 32 ++ bits x 0 32 = x := by
      apply BitVec.eq_of_getLsbD_eq; intro i hi
      simp only [bits, BitVec.getLsbD_append, BitVec.getLsbD_extractLsb']
      by_cases h : i < 32
      · simp [h]
      · simp [h, show i - 32 < 32 by omega, show 32 + (i - 32) = i by omega]
    simp [takeLit, litWords, h]

/-- A form that its first word names: its opcode belongs to its layout (R55, R61, R72, R75). -/
def Code.ok : Code → Bool
  | .base f => opcodeAssigned f.op.toNat && (!(f.op == 0) || !(f.word != 0))
  | .g f => opcodeAssigned f.op.toNat && !(f.op == 0) && !isBranchOp f.op.toNat && !isTokenOp f.op.toNat
  | .t f => opcodeAssigned f.op.toNat && !(f.op == 0) && !isBranchOp f.op.toNat && isTokenOp f.op.toNat
  | .br f => opcodeAssigned f.op.toNat && !(f.op == 0) && isBranchOp f.op.toNat
  | .raw w => !opcodeAssigned (bits w 2 7).toNat || (bits w 2 7 == 0 && w != 0)

theorem toNat_eq_zero_iff (x : BitVec n) : (x.toNat == 0) = (x == 0) := by
  by_cases h : x = 0
  · subst h; simp
  · have : x.toNat ≠ 0 := fun e => h (BitVec.eq_of_toNat_eq (by simpa using e))
    rw [beq_eq_false_iff_ne.mpr this, beq_eq_false_iff_ne.mpr h]


theorem cutG_words (f : FG) : cutG f.word1 (f.c.field ++ f.b.field ++ f.a.field ++ f.d.field) f.w3 f.lit = .ok (.g f) := by
  obtain ⟨h1, h2, h3, h4, h5, h6, h7, h8, h9, -⟩ := f.cut_word1
  obtain ⟨e1, e2, e3, e4⟩ := bits_four f.c.field f.b.field f.a.field f.d.field
  rw [cutG, guardOf, h1, h2, h3, h4, h5, h6, h7, h9, e1, e2, e3, e4, bit_of_bits h8, opnd_code, opnd_code, opnd_code, opnd_code]
  rfl
theorem cutT_words (f : FT) : cutT f.word1 ((0 : BitVec 8) ++ f.b.field ++ f.a.field ++ f.d.field) f.w3 f.lit = .ok (.t f) := by
  obtain ⟨h1, h2, h3, h4, h5, h6, h7, h8, h9, h10, -⟩ := f.cut_word1
  obtain ⟨e1, e2, e3, e4⟩ := bits_four 0 f.b.field f.a.field f.d.field
  rw [cutT, guardOf, h1, h2, h3, h4, h5, h7, h8, h10, e1, e2, e3, e4, bit_of_bits h9, bit_of_bits h6, opnd_code, opnd_code, opnd_code]
  rfl
theorem cutBr_words (f : FB) : cutBr f.word1 (f.rc ++ (0 : BitVec 16)) f.off = .ok (.br f) := by
  obtain ⟨h1, h2, h3, h4, h5, h6, -⟩ := f.cut_word1
  have e1 : bits (m := 32) (f.rc ++ (0 : BitVec 16)) 0 16 = 0 := by
    change @bits (16 + 16) (f.rc ++ (0 : BitVec 16)) 0 16 = 0
    rw [bits_append_lo _ _ _ _ (by decide)]; exact bits_self _
  have e2 : bits (m := 32) (f.rc ++ (0 : BitVec 16)) 16 16 = f.rc := by
    change @bits (16 + 16) (f.rc ++ (0 : BitVec 16)) 16 16 = f.rc
    rw [bits_append_hi _ _ _ _ (by decide)]; exact bits_self _
  rw [cutBr, guardOf, h1, h2, h3, h4, h6, e1, e2, bit_of_bits h5]
  rfl

theorem cut_cons (w : Word) (ws : List Word) : cut (w :: ws) =
    if (!opcodeAssigned (bits w 2 7).toNat || ((bits w 2 7).toNat == 0 && w != 0)) = true then .ok (.raw w)
    else if bit w 0 = true then
      match ws with
      | w2 :: w3 :: rest =>
        if isBranchOp (bits w 2 7).toNat = true then (if bit w 1 = true then .error .badLiteral else cutBr w w2 w3)
        else match takeLit (bit w 1) rest with
          | .error e => Except.error e
          | .ok lit => if isTokenOp (bits w 2 7).toNat = true then cutT w w2 w3 lit else cutG w w2 w3 lit
      | _ => .error .truncated
    else
      match takeLit (bit w 1) ws with
      | .error e => Except.error e
      | .ok lit =>
        .ok (.base { op := bits w 2 7, pg := bits w 9 3, f := bit w 12, m := bit w 13, d := bits w 14 6
                     a := bits w 20 6, b := bits w 26 6, lit }) := rfl

/-- Cutting the words of a form gives the form back, whatever follows them. -/
theorem cut_words (c : Code) (h : c.ok = true) (rest : List Word) : cut (c.words ++ rest) = .ok c := by
  cases c with
  | raw w =>
    simp only [Code.ok, Bool.or_eq_true, Bool.and_eq_true] at h
    simp only [Code.words, List.cons_append, List.nil_append, cut_cons, toNat_eq_zero_iff]
    rw [if_pos (by simpa using h)]
  | base f =>
    obtain ⟨h1, h2, h3, h4, h5, h6, h7, h8, h9⟩ := f.cut_word
    have hl : bit f.word 0 = false := bit_of_bits h9
    simp only [Code.ok, Bool.or_eq_true, Bool.and_eq_true, Bool.not_eq_true'] at h
    have hc : (!opcodeAssigned f.op.toNat || f.op == 0 && f.word != 0) = false := by
      rcases h with ⟨ha, hb | hb⟩ <;> simp only [ha, hb] <;> simp
    rw [Code.words, List.cons_append, cut_cons, h1, h2, h3, h4, h7, hl, bit_of_bits h5, bit_of_bits h6, bit_of_bits h8,
      takeLit_words, toNat_eq_zero_iff, hc]
    rfl
  | g f =>
    obtain ⟨h1, -, -, -, -, -, -, -, -, h10, h11⟩ := f.cut_word1
    have hl : bit f.word1 0 = true := bit_of_bits (b := true) h11
    simp only [Code.ok, Bool.and_eq_true, Bool.not_eq_true'] at h
    obtain ⟨⟨⟨ha, h0⟩, hb⟩, ht⟩ := h
    simp only [Code.words, List.cons_append, List.nil_append]
    rw [cut_cons, h1, hl, bit_of_bits h10, toNat_eq_zero_iff, ha, h0, hb, ht]
    change (match takeLit f.lit.isSome (litWords f.lit ++ rest) with
      | .error e => Except.error e
      | .ok lit => cutG f.word1 (f.c.field ++ f.b.field ++ f.a.field ++ f.d.field) f.w3 lit) = _
    rw [takeLit_words]
    exact cutG_words f
  | t f =>
    obtain ⟨h1, -, -, -, -, -, -, -, -, -, h11, h12⟩ := f.cut_word1
    have hl : bit f.word1 0 = true := bit_of_bits (b := true) h12
    simp only [Code.ok, Bool.and_eq_true, Bool.not_eq_true'] at h
    obtain ⟨⟨⟨ha, h0⟩, hb⟩, ht⟩ := h
    simp only [Code.words, List.cons_append, List.nil_append]
    rw [cut_cons, h1, hl, bit_of_bits h11, toNat_eq_zero_iff, ha, h0, hb, ht]
    change (match takeLit f.lit.isSome (litWords f.lit ++ rest) with
      | .error e => Except.error e
      | .ok lit => cutT f.word1 ((0 : BitVec 8) ++ f.b.field ++ f.a.field ++ f.d.field) f.w3 lit) = _
    rw [takeLit_words]
    exact cutT_words f
  | br f =>
    obtain ⟨h1, -, -, -, -, -, h7, h8⟩ := f.cut_word1
    have hl : bit f.word1 0 = true := bit_of_bits (b := true) h8
    have hn : bit f.word1 1 = false := bit_of_bits (b := false) h7
    simp only [Code.ok, Bool.and_eq_true, Bool.not_eq_true'] at h
    obtain ⟨⟨ha, h0⟩, hb⟩ := h
    simp only [Code.words, List.cons_append, List.nil_append]
    rw [cut_cons, h1, hl, hn, toNat_eq_zero_iff, ha, h0, hb]
    exact cutBr_words f
end Sys2Proof
end

