-- ==== Sys2Proof/Laws/Store.lean ====
section
/-! SUPPORT. Laws of sparse tables and of memory: a read after a write, and the canonical form. -/

namespace Sys2Proof.Machine

/-! ### Looking up -/

@[simp] theorem Store.find_nil (k : Nat) : Store.find ([] : Store α) k = none := rfl

@[simp] theorem Store.find_insert (m : Store α) (k : Nat) (v : α) (j : Nat) :
    Store.find (Store.insert m k v) j = if j = k then some v else Store.find m j := by
  induction m with
  | nil => simp [Store.insert, Store.find]
  | cons e r ih =>
    obtain ⟨a, x⟩ := e
    simp only [Store.insert]
    by_cases hj : j = k
    · subst hj
      repeat' split
      all_goals simp_all [Store.find]
    · repeat' split
      all_goals simp_all [Store.find]

@[simp] theorem Store.find_erase (m : Store α) (k j : Nat) :
    Store.find (Store.erase m k) j = if j = k then none else Store.find m j := by
  induction m with
  | nil => simp [Store.erase]
  | cons e r ih =>
    obtain ⟨a, x⟩ := e
    simp only [Store.erase]
    by_cases hj : j = k
    · subst hj
      split
      all_goals simp_all [Store.find]
    · split
      all_goals simp_all [Store.find]

@[simp] theorem Store.get_insert (d : α) (m : Store α) (k : Nat) (v : α) (j : Nat) :
    Store.get d (Store.insert m k v) j = if j = k then v else Store.get d m j := by
  simp only [Store.get, Store.find_insert]
  by_cases h : j = k <;> simp [h]

/-- The value put is read; every other key reads as before. -/
@[simp] theorem Store.get_put [DecidableEq α] (d : α) (m : Store α) (k : Nat) (v : α) (j : Nat) :
    Store.get d (Store.put d m k v) j = if j = k then v else Store.get d m j := by
  simp only [Store.put]
  by_cases hv : v = d
  · simp only [hv, if_true, Store.get, Store.find_erase]
    by_cases h : j = k <;> simp [h]
  · simp only [hv, if_false, Store.get_insert]

@[simp] theorem Store.find_mapVals (f : Nat → α → β) (m : Store α) (k : Nat) :
    Store.find (Store.mapVals f m) k = (Store.find m k).map (f k) := by
  induction m with
  | nil => rfl
  | cons e r ih =>
    obtain ⟨a, x⟩ := e
    simp only [Store.mapVals, List.map_cons, Store.find] at ih ⊢
    by_cases h : k = a
    · subst h; simp
    · simp only [h, if_false]; exact ih

/-! ### The canonical form -/

theorem Store.sortedFrom_mono (m : Store α) (lo lo' : Nat) (h : lo ≤ lo') (hm : Store.sortedFrom lo' m = true) :
    Store.sortedFrom lo m = true := by
  cases m with
  | nil => rfl
  | cons e r =>
    simp only [Store.sortedFrom, Bool.and_eq_true, decide_eq_true_eq] at hm ⊢
    exact ⟨by omega, hm.2⟩

theorem Store.sorted_insert (m : Store α) (lo k : Nat) (v : α) (hk : lo ≤ k) (hm : Store.sortedFrom lo m = true) :
    Store.sortedFrom lo (Store.insert m k v) = true := by
  induction m generalizing lo with
  | nil => simp [Store.insert, Store.sortedFrom, hk]
  | cons e r ih =>
    obtain ⟨a, x⟩ := e
    simp only [Store.sortedFrom, Bool.and_eq_true, decide_eq_true_eq] at hm
    simp only [Store.insert]
    split
    · simp only [Store.sortedFrom, Bool.and_eq_true, decide_eq_true_eq]
      exact ⟨hk, by omega, hm.2⟩
    · split
      · subst_vars
        simp only [Store.sortedFrom, Bool.and_eq_true, decide_eq_true_eq]
        exact ⟨hk, hm.2⟩
      · simp only [Store.sortedFrom, Bool.and_eq_true, decide_eq_true_eq]
        exact ⟨hm.1, ih (a + 1) (by omega) hm.2⟩

theorem Store.sorted_erase (m : Store α) (lo k : Nat) (hm : Store.sortedFrom lo m = true) :
    Store.sortedFrom lo (Store.erase m k) = true := by
  induction m generalizing lo with
  | nil => rfl
  | cons e r ih =>
    obtain ⟨a, x⟩ := e
    simp only [Store.sortedFrom, Bool.and_eq_true, decide_eq_true_eq] at hm
    simp only [Store.erase]
    split
    · exact Store.sortedFrom_mono _ lo (a + 1) (by omega) (ih (a + 1) hm.2)
    · simp only [Store.sortedFrom, Bool.and_eq_true, decide_eq_true_eq]
      exact ⟨hm.1, ih (a + 1) hm.2⟩

theorem Store.mem_insert (m : Store α) (k : Nat) (v : α) (e : Nat × α) (h : e ∈ Store.insert m k v) : e = (k, v) ∨ e ∈ m := by
  induction m with
  | nil => simpa [Store.insert] using h
  | cons f r ih =>
    obtain ⟨a, x⟩ := f
    simp only [Store.insert] at h
    split at h
    · simpa using h
    · split at h
      · rcases List.mem_cons.mp h with h | h
        · exact .inl h
        · exact .inr (List.mem_cons_of_mem _ h)
      · rcases List.mem_cons.mp h with h | h
        · exact .inr (by simp [h])
        · rcases ih h with h | h
          · exact .inl h
          · exact .inr (List.mem_cons_of_mem _ h)

theorem Store.mem_erase (m : Store α) (k : Nat) (e : Nat × α) (h : e ∈ Store.erase m k) : e ∈ m := by
  induction m with
  | nil => exact h
  | cons f r ih =>
    obtain ⟨a, x⟩ := f
    simp only [Store.erase] at h
    split at h
    · exact List.mem_cons_of_mem _ (ih h)
    · rcases List.mem_cons.mp h with h | h
      · simp [h]
      · exact List.mem_cons_of_mem _ (ih h)

/-- A write keeps the canonical form. -/
theorem Store.wf_put [DecidableEq α] (d : α) (m : Store α) (k : Nat) (v : α) (hm : Store.wf d m = true) :
    Store.wf d (Store.put d m k v) = true := by
  simp only [Store.wf, Bool.and_eq_true, List.all_eq_true, decide_eq_true_eq] at hm ⊢
  unfold Store.put
  split
  · exact ⟨Store.sorted_erase m 0 k hm.1, fun e he => hm.2 e (Store.mem_erase m k e he)⟩
  · rename_i hv
    refine ⟨Store.sorted_insert m 0 k v (Nat.zero_le _) hm.1, fun e he => ?_⟩
    rcases Store.mem_insert m k v e he with h | h
    · subst h; exact hv
    · exact hm.2 e h

/-- Keeping some entries keeps the canonical form. -/
theorem Store.sorted_keep (p : Nat → Bool) (m : Store α) (lo : Nat) (hm : Store.sortedFrom lo m = true) :
    Store.sortedFrom lo (Store.keep p m) = true := by
  induction m generalizing lo with
  | nil => rfl
  | cons e r ih =>
    obtain ⟨a, x⟩ := e
    simp only [Store.sortedFrom, Bool.and_eq_true, decide_eq_true_eq] at hm
    simp only [Store.keep, List.filter_cons]
    split
    · simp only [Store.sortedFrom, Bool.and_eq_true, decide_eq_true_eq]
      exact ⟨hm.1, ih (a + 1) hm.2⟩
    · exact Store.sortedFrom_mono _ lo (a + 1) (by omega) (ih (a + 1) hm.2)

theorem Store.wf_keep [DecidableEq α] (d : α) (p : Nat → Bool) (m : Store α) (hm : Store.wf d m = true) :
    Store.wf d (Store.keep p m) = true := by
  simp only [Store.wf, Bool.and_eq_true, List.all_eq_true, decide_eq_true_eq] at hm ⊢
  exact ⟨Store.sorted_keep p m 0 hm.1, fun e he => hm.2 e (List.mem_filter.mp he).1⟩

/-! ### Memory -/

/-- A byte write keeps the canonical form of a memory. -/
theorem Memory.wf_write (m : Memory) (a : Nat) (b : Byte) (h : Memory.wf m = true) : Memory.wf (m.write a b) = true :=
  Store.wf_put 0 m a b h

theorem Memory.wf_writeBytes (bs : List Byte) (m : Memory) (a : Nat) (h : Memory.wf m = true) : Memory.wf (m.writeBytes a bs) = true := by
  induction bs generalizing m a with
  | nil => exact h
  | cons b r ih => exact ih (m.write a b) (a + 1) (Memory.wf_write m a b h)

/-- The byte written is read; every other byte is as before. -/
@[simp] theorem Memory.read_write (m : Memory) (a : Nat) (b : Byte) (j : Nat) :
    (m.write a b).read j = if j = a then b else m.read j := Store.get_put 0 m a b j

/-- Bytes outside those written are as before. -/
theorem Memory.read_writeBytes_outside (bs : List Byte) (m : Memory) (a j : Nat) (hj : j < a ∨ a + bs.length ≤ j) :
    (m.writeBytes a bs).read j = m.read j := by
  induction bs generalizing m a with
  | nil => rfl
  | cons b r ih =>
    simp only [List.length_cons] at hj
    rw [Memory.writeBytes, ih _ _ (by omega), Memory.read_write, if_neg (by omega)]

/-- The bytes written are read. -/
theorem Memory.read_writeBytes_inside (bs : List Byte) (m : Memory) (a i : Nat) (hi : i < bs.length) :
    (m.writeBytes a bs).read (a + i) = bs[i] := by
  induction bs generalizing m a i with
  | nil => exact absurd hi (by simp)
  | cons b r ih =>
    cases i with
    | zero => rw [Memory.writeBytes, Memory.read_writeBytes_outside r _ _ _ (by omega)]; simp
    | succ i =>
      have := ih (m.write a b) (a + 1) i (by simpa using hi)
      rw [Memory.writeBytes, show a + (i + 1) = a + 1 + i by omega, this]
      rfl

end Sys2Proof.Machine
end

