-- ==== Sys2Proof/Laws/State.lean ====
section
/-! SUPPORT. What each named update of a state or a bunch leaves: one lemma per field per update. -/

namespace Sys2Proof.Machine

/-! ### setBunch -/

@[simp] theorem State.setBunch_now (s : State) (i : Nat) (b : Bunch) : (s.setBunch i b).now = s.now := rfl
@[simp] theorem State.setBunch_time (s : State) (i : Nat) (b : Bunch) : (s.setBunch i b).time = s.time := rfl
@[simp] theorem State.setBunch_owed (s : State) (i : Nat) (b : Bunch) : (s.setBunch i b).owed = s.owed := rfl
@[simp] theorem State.setBunch_choices (s : State) (i : Nat) (b : Bunch) : (s.setBunch i b).choices = s.choices := rfl
@[simp] theorem State.setBunch_inputs (s : State) (i : Nat) (b : Bunch) : (s.setBunch i b).inputs = s.inputs := rfl
@[simp] theorem State.setBunch_freeCount (s : State) (i : Nat) (b : Bunch) : (s.setBunch i b).freeCount = s.freeCount := rfl
@[simp] theorem State.setBunch_issuer (s : State) (i : Nat) (b : Bunch) : (s.setBunch i b).issuer = s.issuer := rfl
@[simp] theorem State.setBunch_nextId (s : State) (i : Nat) (b : Bunch) : (s.setBunch i b).nextId = s.nextId := rfl
@[simp] theorem State.setBunch_mem (s : State) (i : Nat) (b : Bunch) : (s.setBunch i b).mem = s.mem := rfl
@[simp] theorem State.setBunch_full (s : State) (i : Nat) (b : Bunch) : (s.setBunch i b).full = s.full := rfl
@[simp] theorem State.setBunch_tags (s : State) (i : Nat) (b : Bunch) : (s.setBunch i b).tags = s.tags := rfl
@[simp] theorem State.setBunch_pads (s : State) (i : Nat) (b : Bunch) : (s.setBunch i b).pads = s.pads := rfl
@[simp] theorem State.setBunch_poison (s : State) (i : Nat) (b : Bunch) : (s.setBunch i b).poison = s.poison := rfl
@[simp] theorem State.setBunch_bunches (s : State) (i : Nat) (b : Bunch) : (s.setBunch i b).bunches = (Store.insert s.bunches i b) := rfl
@[simp] theorem State.setBunch_teams (s : State) (i : Nat) (b : Bunch) : (s.setBunch i b).teams = s.teams := rfl
@[simp] theorem State.setBunch_cores (s : State) (i : Nat) (b : Bunch) : (s.setBunch i b).cores = s.cores := rfl
@[simp] theorem State.setBunch_ctxs (s : State) (i : Nat) (b : Bunch) : (s.setBunch i b).ctxs = s.ctxs := rfl
@[simp] theorem State.setBunch_launches (s : State) (i : Nat) (b : Bunch) : (s.setBunch i b).launches = s.launches := rfl
@[simp] theorem State.setBunch_plqs (s : State) (i : Nat) (b : Bunch) : (s.setBunch i b).plqs = s.plqs := rfl
@[simp] theorem State.setBunch_queues (s : State) (i : Nat) (b : Bunch) : (s.setBunch i b).queues = s.queues := rfl
@[simp] theorem State.setBunch_commands (s : State) (i : Nat) (b : Bunch) : (s.setBunch i b).commands = s.commands := rfl
@[simp] theorem State.setBunch_agents (s : State) (i : Nat) (b : Bunch) : (s.setBunch i b).agents = s.agents := rfl
@[simp] theorem State.setBunch_rr (s : State) (i : Nat) (b : Bunch) : (s.setBunch i b).rr = s.rr := rfl
@[simp] theorem State.setBunch_rr512 (s : State) (i : Nat) (b : Bunch) : (s.setBunch i b).rr512 = s.rr512 := rfl
@[simp] theorem State.setBunch_jseq (s : State) (i : Nat) (b : Bunch) : (s.setBunch i b).jseq = s.jseq := rfl
@[simp] theorem State.setBunch_journal (s : State) (i : Nat) (b : Bunch) : (s.setBunch i b).journal = s.journal := rfl
@[simp] theorem State.setBunch_jbase (s : State) (i : Nat) (b : Bunch) : (s.setBunch i b).jbase = s.jbase := rfl
@[simp] theorem State.setBunch_jsize (s : State) (i : Nat) (b : Bunch) : (s.setBunch i b).jsize = s.jsize := rfl
@[simp] theorem State.setBunch_depRecs (s : State) (i : Nat) (b : Bunch) : (s.setBunch i b).depRecs = s.depRecs := rfl
@[simp] theorem State.setBunch_upcalls (s : State) (i : Nat) (b : Bunch) : (s.setBunch i b).upcalls = s.upcalls := rfl
@[simp] theorem State.setBunch_graphs (s : State) (i : Nat) (b : Bunch) : (s.setBunch i b).graphs = s.graphs := rfl
@[simp] theorem State.setBunch_caskHid (s : State) (i : Nat) (b : Bunch) : (s.setBunch i b).caskHid = s.caskHid := rfl
@[simp] theorem State.setBunch_bankQ (s : State) (i : Nat) (b : Bunch) : (s.setBunch i b).bankQ = s.bankQ := rfl
@[simp] theorem State.setBunch_cooperQ (s : State) (i : Nat) (b : Bunch) : (s.setBunch i b).cooperQ = s.cooperQ := rfl
@[simp] theorem State.setBunch_cooperTo (s : State) (i : Nat) (b : Bunch) : (s.setBunch i b).cooperTo = s.cooperTo := rfl
@[simp] theorem State.setBunch_walks (s : State) (i : Nat) (b : Bunch) : (s.setBunch i b).walks = s.walks := rfl
@[simp] theorem State.setBunch_rowTlb (s : State) (i : Nat) (b : Bunch) : (s.setBunch i b).rowTlb = s.rowTlb := rfl
@[simp] theorem State.setBunch_raster (s : State) (i : Nat) (b : Bunch) : (s.setBunch i b).raster = s.raster := rfl
@[simp] theorem State.setBunch_fence (s : State) (i : Nat) (b : Bunch) : (s.setBunch i b).fence = s.fence := rfl
@[simp] theorem State.setBunch_lost (s : State) (i : Nat) (b : Bunch) : (s.setBunch i b).lost = s.lost := rfl
@[simp] theorem State.setBunch_ports (s : State) (i : Nat) (b : Bunch) : (s.setBunch i b).ports = s.ports := rfl
@[simp] theorem State.setBunch_msix (s : State) (i : Nat) (b : Bunch) : (s.setBunch i b).msix = s.msix := rfl
@[simp] theorem State.setBunch_errLog (s : State) (i : Nat) (b : Bunch) : (s.setBunch i b).errLog = s.errLog := rfl
@[simp] theorem State.setBunch_errThresh (s : State) (i : Nat) (b : Bunch) : (s.setBunch i b).errThresh = s.errThresh := rfl
@[simp] theorem State.setBunch_ebase (s : State) (i : Nat) (b : Bunch) : (s.setBunch i b).ebase = s.ebase := rfl
@[simp] theorem State.setBunch_esize (s : State) (i : Nat) (b : Bunch) : (s.setBunch i b).esize = s.esize := rfl
@[simp] theorem State.setBunch_dbase (s : State) (i : Nat) (b : Bunch) : (s.setBunch i b).dbase = s.dbase := rfl
@[simp] theorem State.setBunch_ckptState (s : State) (i : Nat) (b : Bunch) : (s.setBunch i b).ckptState = s.ckptState := rfl
@[simp] theorem State.setBunch_ckptCtx (s : State) (i : Nat) (b : Bunch) : (s.setBunch i b).ckptCtx = s.ckptCtx := rfl
@[simp] theorem State.setBunch_image (s : State) (i : Nat) (b : Bunch) : (s.setBunch i b).image = s.image := rfl
@[simp] theorem State.setBunch_power (s : State) (i : Nat) (b : Bunch) : (s.setBunch i b).power = s.power := rfl
@[simp] theorem State.setBunch_dvfs (s : State) (i : Nat) (b : Bunch) : (s.setBunch i b).dvfs = s.dvfs := rfl
@[simp] theorem State.setBunch_cap (s : State) (i : Nat) (b : Bunch) : (s.setBunch i b).cap = s.cap := rfl
@[simp] theorem State.setBunch_watts (s : State) (i : Nat) (b : Bunch) : (s.setBunch i b).watts = s.watts := rfl
@[simp] theorem State.setBunch_celsius (s : State) (i : Nat) (b : Bunch) : (s.setBunch i b).celsius = s.celsius := rfl
@[simp] theorem State.setBunch_halved (s : State) (i : Nat) (b : Bunch) : (s.setBunch i b).halved = s.halved := rfl
@[simp] theorem State.setBunch_stallTo (s : State) (i : Nat) (b : Bunch) : (s.setBunch i b).stallTo = s.stallTo := rfl
@[simp] theorem State.setBunch_idleSince (s : State) (i : Nat) (b : Bunch) : (s.setBunch i b).idleSince = s.idleSince := rfl
@[simp] theorem State.setBunch_selfRefresh (s : State) (i : Nat) (b : Bunch) : (s.setBunch i b).selfRefresh = s.selfRefresh := rfl
@[simp] theorem State.setBunch_fatal (s : State) (i : Nat) (b : Bunch) : (s.setBunch i b).fatal = s.fatal := rfl
@[simp] theorem State.setBunch_dump (s : State) (i : Nat) (b : Bunch) : (s.setBunch i b).dump = s.dump := rfl
@[simp] theorem State.setBunch_ready (s : State) (i : Nat) (b : Bunch) : (s.setBunch i b).ready = s.ready := rfl
@[simp] theorem State.setBunch_recovery (s : State) (i : Nat) (b : Bunch) : (s.setBunch i b).recovery = s.recovery := rfl
@[simp] theorem State.setBunch_fwVersion (s : State) (i : Nat) (b : Bunch) : (s.setBunch i b).fwVersion = s.fwVersion := rfl
@[simp] theorem State.setBunch_rollback (s : State) (i : Nat) (b : Bunch) : (s.setBunch i b).rollback = s.rollback := rfl
@[simp] theorem State.setBunch_flash (s : State) (i : Nat) (b : Bunch) : (s.setBunch i b).flash = s.flash := rfl
@[simp] theorem State.setBunch_measures (s : State) (i : Nat) (b : Bunch) : (s.setBunch i b).measures = s.measures := rfl
@[simp] theorem State.setBunch_identity (s : State) (i : Nat) (b : Bunch) : (s.setBunch i b).identity = s.identity := rfl
@[simp] theorem State.setBunch_cert (s : State) (i : Nat) (b : Bunch) : (s.setBunch i b).cert = s.cert := rfl
@[simp] theorem State.setBunch_quotes (s : State) (i : Nat) (b : Bunch) : (s.setBunch i b).quotes = s.quotes := rfl
@[simp] theorem State.setBunch_device (s : State) (i : Nat) (b : Bunch) : (s.setBunch i b).device = s.device := rfl
@[simp] theorem State.setBunch_devices (s : State) (i : Nat) (b : Bunch) : (s.setBunch i b).devices = s.devices := rfl
@[simp] theorem State.setBunch_retiredLinks (s : State) (i : Nat) (b : Bunch) : (s.setBunch i b).retiredLinks = s.retiredLinks := rfl
@[simp] theorem State.setBunch_retiredUnits (s : State) (i : Nat) (b : Bunch) : (s.setBunch i b).retiredUnits = s.retiredUnits := rfl

/-! ### setCtx -/

@[simp] theorem State.setCtx_now (s : State) (c : Nat) (x : Context) : (s.setCtx c x).now = s.now := rfl
@[simp] theorem State.setCtx_time (s : State) (c : Nat) (x : Context) : (s.setCtx c x).time = s.time := rfl
@[simp] theorem State.setCtx_owed (s : State) (c : Nat) (x : Context) : (s.setCtx c x).owed = s.owed := rfl
@[simp] theorem State.setCtx_choices (s : State) (c : Nat) (x : Context) : (s.setCtx c x).choices = s.choices := rfl
@[simp] theorem State.setCtx_inputs (s : State) (c : Nat) (x : Context) : (s.setCtx c x).inputs = s.inputs := rfl
@[simp] theorem State.setCtx_freeCount (s : State) (c : Nat) (x : Context) : (s.setCtx c x).freeCount = s.freeCount := rfl
@[simp] theorem State.setCtx_issuer (s : State) (c : Nat) (x : Context) : (s.setCtx c x).issuer = s.issuer := rfl
@[simp] theorem State.setCtx_nextId (s : State) (c : Nat) (x : Context) : (s.setCtx c x).nextId = s.nextId := rfl
@[simp] theorem State.setCtx_mem (s : State) (c : Nat) (x : Context) : (s.setCtx c x).mem = s.mem := rfl
@[simp] theorem State.setCtx_full (s : State) (c : Nat) (x : Context) : (s.setCtx c x).full = s.full := rfl
@[simp] theorem State.setCtx_tags (s : State) (c : Nat) (x : Context) : (s.setCtx c x).tags = s.tags := rfl
@[simp] theorem State.setCtx_pads (s : State) (c : Nat) (x : Context) : (s.setCtx c x).pads = s.pads := rfl
@[simp] theorem State.setCtx_poison (s : State) (c : Nat) (x : Context) : (s.setCtx c x).poison = s.poison := rfl
@[simp] theorem State.setCtx_bunches (s : State) (c : Nat) (x : Context) : (s.setCtx c x).bunches = s.bunches := rfl
@[simp] theorem State.setCtx_teams (s : State) (c : Nat) (x : Context) : (s.setCtx c x).teams = s.teams := rfl
@[simp] theorem State.setCtx_cores (s : State) (c : Nat) (x : Context) : (s.setCtx c x).cores = s.cores := rfl
@[simp] theorem State.setCtx_ctxs (s : State) (c : Nat) (x : Context) : (s.setCtx c x).ctxs = (Store.insert s.ctxs c x) := rfl
@[simp] theorem State.setCtx_launches (s : State) (c : Nat) (x : Context) : (s.setCtx c x).launches = s.launches := rfl
@[simp] theorem State.setCtx_plqs (s : State) (c : Nat) (x : Context) : (s.setCtx c x).plqs = s.plqs := rfl
@[simp] theorem State.setCtx_queues (s : State) (c : Nat) (x : Context) : (s.setCtx c x).queues = s.queues := rfl
@[simp] theorem State.setCtx_commands (s : State) (c : Nat) (x : Context) : (s.setCtx c x).commands = s.commands := rfl
@[simp] theorem State.setCtx_agents (s : State) (c : Nat) (x : Context) : (s.setCtx c x).agents = s.agents := rfl
@[simp] theorem State.setCtx_rr (s : State) (c : Nat) (x : Context) : (s.setCtx c x).rr = s.rr := rfl
@[simp] theorem State.setCtx_rr512 (s : State) (c : Nat) (x : Context) : (s.setCtx c x).rr512 = s.rr512 := rfl
@[simp] theorem State.setCtx_jseq (s : State) (c : Nat) (x : Context) : (s.setCtx c x).jseq = s.jseq := rfl
@[simp] theorem State.setCtx_journal (s : State) (c : Nat) (x : Context) : (s.setCtx c x).journal = s.journal := rfl
@[simp] theorem State.setCtx_jbase (s : State) (c : Nat) (x : Context) : (s.setCtx c x).jbase = s.jbase := rfl
@[simp] theorem State.setCtx_jsize (s : State) (c : Nat) (x : Context) : (s.setCtx c x).jsize = s.jsize := rfl
@[simp] theorem State.setCtx_depRecs (s : State) (c : Nat) (x : Context) : (s.setCtx c x).depRecs = s.depRecs := rfl
@[simp] theorem State.setCtx_upcalls (s : State) (c : Nat) (x : Context) : (s.setCtx c x).upcalls = s.upcalls := rfl
@[simp] theorem State.setCtx_graphs (s : State) (c : Nat) (x : Context) : (s.setCtx c x).graphs = s.graphs := rfl
@[simp] theorem State.setCtx_caskHid (s : State) (c : Nat) (x : Context) : (s.setCtx c x).caskHid = s.caskHid := rfl
@[simp] theorem State.setCtx_bankQ (s : State) (c : Nat) (x : Context) : (s.setCtx c x).bankQ = s.bankQ := rfl
@[simp] theorem State.setCtx_cooperQ (s : State) (c : Nat) (x : Context) : (s.setCtx c x).cooperQ = s.cooperQ := rfl
@[simp] theorem State.setCtx_cooperTo (s : State) (c : Nat) (x : Context) : (s.setCtx c x).cooperTo = s.cooperTo := rfl
@[simp] theorem State.setCtx_walks (s : State) (c : Nat) (x : Context) : (s.setCtx c x).walks = s.walks := rfl
@[simp] theorem State.setCtx_rowTlb (s : State) (c : Nat) (x : Context) : (s.setCtx c x).rowTlb = s.rowTlb := rfl
@[simp] theorem State.setCtx_raster (s : State) (c : Nat) (x : Context) : (s.setCtx c x).raster = s.raster := rfl
@[simp] theorem State.setCtx_fence (s : State) (c : Nat) (x : Context) : (s.setCtx c x).fence = s.fence := rfl
@[simp] theorem State.setCtx_lost (s : State) (c : Nat) (x : Context) : (s.setCtx c x).lost = s.lost := rfl
@[simp] theorem State.setCtx_ports (s : State) (c : Nat) (x : Context) : (s.setCtx c x).ports = s.ports := rfl
@[simp] theorem State.setCtx_msix (s : State) (c : Nat) (x : Context) : (s.setCtx c x).msix = s.msix := rfl
@[simp] theorem State.setCtx_errLog (s : State) (c : Nat) (x : Context) : (s.setCtx c x).errLog = s.errLog := rfl
@[simp] theorem State.setCtx_errThresh (s : State) (c : Nat) (x : Context) : (s.setCtx c x).errThresh = s.errThresh := rfl
@[simp] theorem State.setCtx_ebase (s : State) (c : Nat) (x : Context) : (s.setCtx c x).ebase = s.ebase := rfl
@[simp] theorem State.setCtx_esize (s : State) (c : Nat) (x : Context) : (s.setCtx c x).esize = s.esize := rfl
@[simp] theorem State.setCtx_dbase (s : State) (c : Nat) (x : Context) : (s.setCtx c x).dbase = s.dbase := rfl
@[simp] theorem State.setCtx_ckptState (s : State) (c : Nat) (x : Context) : (s.setCtx c x).ckptState = s.ckptState := rfl
@[simp] theorem State.setCtx_ckptCtx (s : State) (c : Nat) (x : Context) : (s.setCtx c x).ckptCtx = s.ckptCtx := rfl
@[simp] theorem State.setCtx_image (s : State) (c : Nat) (x : Context) : (s.setCtx c x).image = s.image := rfl
@[simp] theorem State.setCtx_power (s : State) (c : Nat) (x : Context) : (s.setCtx c x).power = s.power := rfl
@[simp] theorem State.setCtx_dvfs (s : State) (c : Nat) (x : Context) : (s.setCtx c x).dvfs = s.dvfs := rfl
@[simp] theorem State.setCtx_cap (s : State) (c : Nat) (x : Context) : (s.setCtx c x).cap = s.cap := rfl
@[simp] theorem State.setCtx_watts (s : State) (c : Nat) (x : Context) : (s.setCtx c x).watts = s.watts := rfl
@[simp] theorem State.setCtx_celsius (s : State) (c : Nat) (x : Context) : (s.setCtx c x).celsius = s.celsius := rfl
@[simp] theorem State.setCtx_halved (s : State) (c : Nat) (x : Context) : (s.setCtx c x).halved = s.halved := rfl
@[simp] theorem State.setCtx_stallTo (s : State) (c : Nat) (x : Context) : (s.setCtx c x).stallTo = s.stallTo := rfl
@[simp] theorem State.setCtx_idleSince (s : State) (c : Nat) (x : Context) : (s.setCtx c x).idleSince = s.idleSince := rfl
@[simp] theorem State.setCtx_selfRefresh (s : State) (c : Nat) (x : Context) : (s.setCtx c x).selfRefresh = s.selfRefresh := rfl
@[simp] theorem State.setCtx_fatal (s : State) (c : Nat) (x : Context) : (s.setCtx c x).fatal = s.fatal := rfl
@[simp] theorem State.setCtx_dump (s : State) (c : Nat) (x : Context) : (s.setCtx c x).dump = s.dump := rfl
@[simp] theorem State.setCtx_ready (s : State) (c : Nat) (x : Context) : (s.setCtx c x).ready = s.ready := rfl
@[simp] theorem State.setCtx_recovery (s : State) (c : Nat) (x : Context) : (s.setCtx c x).recovery = s.recovery := rfl
@[simp] theorem State.setCtx_fwVersion (s : State) (c : Nat) (x : Context) : (s.setCtx c x).fwVersion = s.fwVersion := rfl
@[simp] theorem State.setCtx_rollback (s : State) (c : Nat) (x : Context) : (s.setCtx c x).rollback = s.rollback := rfl
@[simp] theorem State.setCtx_flash (s : State) (c : Nat) (x : Context) : (s.setCtx c x).flash = s.flash := rfl
@[simp] theorem State.setCtx_measures (s : State) (c : Nat) (x : Context) : (s.setCtx c x).measures = s.measures := rfl
@[simp] theorem State.setCtx_identity (s : State) (c : Nat) (x : Context) : (s.setCtx c x).identity = s.identity := rfl
@[simp] theorem State.setCtx_cert (s : State) (c : Nat) (x : Context) : (s.setCtx c x).cert = s.cert := rfl
@[simp] theorem State.setCtx_quotes (s : State) (c : Nat) (x : Context) : (s.setCtx c x).quotes = s.quotes := rfl
@[simp] theorem State.setCtx_device (s : State) (c : Nat) (x : Context) : (s.setCtx c x).device = s.device := rfl
@[simp] theorem State.setCtx_devices (s : State) (c : Nat) (x : Context) : (s.setCtx c x).devices = s.devices := rfl
@[simp] theorem State.setCtx_retiredLinks (s : State) (c : Nat) (x : Context) : (s.setCtx c x).retiredLinks = s.retiredLinks := rfl
@[simp] theorem State.setCtx_retiredUnits (s : State) (c : Nat) (x : Context) : (s.setCtx c x).retiredUnits = s.retiredUnits := rfl

/-! ### setCore -/

@[simp] theorem State.setCore_now (s : State) (c : Nat) (x : Core) : (s.setCore c x).now = s.now := rfl
@[simp] theorem State.setCore_time (s : State) (c : Nat) (x : Core) : (s.setCore c x).time = s.time := rfl
@[simp] theorem State.setCore_owed (s : State) (c : Nat) (x : Core) : (s.setCore c x).owed = s.owed := rfl
@[simp] theorem State.setCore_choices (s : State) (c : Nat) (x : Core) : (s.setCore c x).choices = s.choices := rfl
@[simp] theorem State.setCore_inputs (s : State) (c : Nat) (x : Core) : (s.setCore c x).inputs = s.inputs := rfl
@[simp] theorem State.setCore_freeCount (s : State) (c : Nat) (x : Core) : (s.setCore c x).freeCount = s.freeCount := rfl
@[simp] theorem State.setCore_issuer (s : State) (c : Nat) (x : Core) : (s.setCore c x).issuer = s.issuer := rfl
@[simp] theorem State.setCore_nextId (s : State) (c : Nat) (x : Core) : (s.setCore c x).nextId = s.nextId := rfl
@[simp] theorem State.setCore_mem (s : State) (c : Nat) (x : Core) : (s.setCore c x).mem = s.mem := rfl
@[simp] theorem State.setCore_full (s : State) (c : Nat) (x : Core) : (s.setCore c x).full = s.full := rfl
@[simp] theorem State.setCore_tags (s : State) (c : Nat) (x : Core) : (s.setCore c x).tags = s.tags := rfl
@[simp] theorem State.setCore_pads (s : State) (c : Nat) (x : Core) : (s.setCore c x).pads = s.pads := rfl
@[simp] theorem State.setCore_poison (s : State) (c : Nat) (x : Core) : (s.setCore c x).poison = s.poison := rfl
@[simp] theorem State.setCore_bunches (s : State) (c : Nat) (x : Core) : (s.setCore c x).bunches = s.bunches := rfl
@[simp] theorem State.setCore_teams (s : State) (c : Nat) (x : Core) : (s.setCore c x).teams = s.teams := rfl
@[simp] theorem State.setCore_cores (s : State) (c : Nat) (x : Core) : (s.setCore c x).cores = (Store.insert s.cores c x) := rfl
@[simp] theorem State.setCore_ctxs (s : State) (c : Nat) (x : Core) : (s.setCore c x).ctxs = s.ctxs := rfl
@[simp] theorem State.setCore_launches (s : State) (c : Nat) (x : Core) : (s.setCore c x).launches = s.launches := rfl
@[simp] theorem State.setCore_plqs (s : State) (c : Nat) (x : Core) : (s.setCore c x).plqs = s.plqs := rfl
@[simp] theorem State.setCore_queues (s : State) (c : Nat) (x : Core) : (s.setCore c x).queues = s.queues := rfl
@[simp] theorem State.setCore_commands (s : State) (c : Nat) (x : Core) : (s.setCore c x).commands = s.commands := rfl
@[simp] theorem State.setCore_agents (s : State) (c : Nat) (x : Core) : (s.setCore c x).agents = s.agents := rfl
@[simp] theorem State.setCore_rr (s : State) (c : Nat) (x : Core) : (s.setCore c x).rr = s.rr := rfl
@[simp] theorem State.setCore_rr512 (s : State) (c : Nat) (x : Core) : (s.setCore c x).rr512 = s.rr512 := rfl
@[simp] theorem State.setCore_jseq (s : State) (c : Nat) (x : Core) : (s.setCore c x).jseq = s.jseq := rfl
@[simp] theorem State.setCore_journal (s : State) (c : Nat) (x : Core) : (s.setCore c x).journal = s.journal := rfl
@[simp] theorem State.setCore_jbase (s : State) (c : Nat) (x : Core) : (s.setCore c x).jbase = s.jbase := rfl
@[simp] theorem State.setCore_jsize (s : State) (c : Nat) (x : Core) : (s.setCore c x).jsize = s.jsize := rfl
@[simp] theorem State.setCore_depRecs (s : State) (c : Nat) (x : Core) : (s.setCore c x).depRecs = s.depRecs := rfl
@[simp] theorem State.setCore_upcalls (s : State) (c : Nat) (x : Core) : (s.setCore c x).upcalls = s.upcalls := rfl
@[simp] theorem State.setCore_graphs (s : State) (c : Nat) (x : Core) : (s.setCore c x).graphs = s.graphs := rfl
@[simp] theorem State.setCore_caskHid (s : State) (c : Nat) (x : Core) : (s.setCore c x).caskHid = s.caskHid := rfl
@[simp] theorem State.setCore_bankQ (s : State) (c : Nat) (x : Core) : (s.setCore c x).bankQ = s.bankQ := rfl
@[simp] theorem State.setCore_cooperQ (s : State) (c : Nat) (x : Core) : (s.setCore c x).cooperQ = s.cooperQ := rfl
@[simp] theorem State.setCore_cooperTo (s : State) (c : Nat) (x : Core) : (s.setCore c x).cooperTo = s.cooperTo := rfl
@[simp] theorem State.setCore_walks (s : State) (c : Nat) (x : Core) : (s.setCore c x).walks = s.walks := rfl
@[simp] theorem State.setCore_rowTlb (s : State) (c : Nat) (x : Core) : (s.setCore c x).rowTlb = s.rowTlb := rfl
@[simp] theorem State.setCore_raster (s : State) (c : Nat) (x : Core) : (s.setCore c x).raster = s.raster := rfl
@[simp] theorem State.setCore_fence (s : State) (c : Nat) (x : Core) : (s.setCore c x).fence = s.fence := rfl
@[simp] theorem State.setCore_lost (s : State) (c : Nat) (x : Core) : (s.setCore c x).lost = s.lost := rfl
@[simp] theorem State.setCore_ports (s : State) (c : Nat) (x : Core) : (s.setCore c x).ports = s.ports := rfl
@[simp] theorem State.setCore_msix (s : State) (c : Nat) (x : Core) : (s.setCore c x).msix = s.msix := rfl
@[simp] theorem State.setCore_errLog (s : State) (c : Nat) (x : Core) : (s.setCore c x).errLog = s.errLog := rfl
@[simp] theorem State.setCore_errThresh (s : State) (c : Nat) (x : Core) : (s.setCore c x).errThresh = s.errThresh := rfl
@[simp] theorem State.setCore_ebase (s : State) (c : Nat) (x : Core) : (s.setCore c x).ebase = s.ebase := rfl
@[simp] theorem State.setCore_esize (s : State) (c : Nat) (x : Core) : (s.setCore c x).esize = s.esize := rfl
@[simp] theorem State.setCore_dbase (s : State) (c : Nat) (x : Core) : (s.setCore c x).dbase = s.dbase := rfl
@[simp] theorem State.setCore_ckptState (s : State) (c : Nat) (x : Core) : (s.setCore c x).ckptState = s.ckptState := rfl
@[simp] theorem State.setCore_ckptCtx (s : State) (c : Nat) (x : Core) : (s.setCore c x).ckptCtx = s.ckptCtx := rfl
@[simp] theorem State.setCore_image (s : State) (c : Nat) (x : Core) : (s.setCore c x).image = s.image := rfl
@[simp] theorem State.setCore_power (s : State) (c : Nat) (x : Core) : (s.setCore c x).power = s.power := rfl
@[simp] theorem State.setCore_dvfs (s : State) (c : Nat) (x : Core) : (s.setCore c x).dvfs = s.dvfs := rfl
@[simp] theorem State.setCore_cap (s : State) (c : Nat) (x : Core) : (s.setCore c x).cap = s.cap := rfl
@[simp] theorem State.setCore_watts (s : State) (c : Nat) (x : Core) : (s.setCore c x).watts = s.watts := rfl
@[simp] theorem State.setCore_celsius (s : State) (c : Nat) (x : Core) : (s.setCore c x).celsius = s.celsius := rfl
@[simp] theorem State.setCore_halved (s : State) (c : Nat) (x : Core) : (s.setCore c x).halved = s.halved := rfl
@[simp] theorem State.setCore_stallTo (s : State) (c : Nat) (x : Core) : (s.setCore c x).stallTo = s.stallTo := rfl
@[simp] theorem State.setCore_idleSince (s : State) (c : Nat) (x : Core) : (s.setCore c x).idleSince = s.idleSince := rfl
@[simp] theorem State.setCore_selfRefresh (s : State) (c : Nat) (x : Core) : (s.setCore c x).selfRefresh = s.selfRefresh := rfl
@[simp] theorem State.setCore_fatal (s : State) (c : Nat) (x : Core) : (s.setCore c x).fatal = s.fatal := rfl
@[simp] theorem State.setCore_dump (s : State) (c : Nat) (x : Core) : (s.setCore c x).dump = s.dump := rfl
@[simp] theorem State.setCore_ready (s : State) (c : Nat) (x : Core) : (s.setCore c x).ready = s.ready := rfl
@[simp] theorem State.setCore_recovery (s : State) (c : Nat) (x : Core) : (s.setCore c x).recovery = s.recovery := rfl
@[simp] theorem State.setCore_fwVersion (s : State) (c : Nat) (x : Core) : (s.setCore c x).fwVersion = s.fwVersion := rfl
@[simp] theorem State.setCore_rollback (s : State) (c : Nat) (x : Core) : (s.setCore c x).rollback = s.rollback := rfl
@[simp] theorem State.setCore_flash (s : State) (c : Nat) (x : Core) : (s.setCore c x).flash = s.flash := rfl
@[simp] theorem State.setCore_measures (s : State) (c : Nat) (x : Core) : (s.setCore c x).measures = s.measures := rfl
@[simp] theorem State.setCore_identity (s : State) (c : Nat) (x : Core) : (s.setCore c x).identity = s.identity := rfl
@[simp] theorem State.setCore_cert (s : State) (c : Nat) (x : Core) : (s.setCore c x).cert = s.cert := rfl
@[simp] theorem State.setCore_quotes (s : State) (c : Nat) (x : Core) : (s.setCore c x).quotes = s.quotes := rfl
@[simp] theorem State.setCore_device (s : State) (c : Nat) (x : Core) : (s.setCore c x).device = s.device := rfl
@[simp] theorem State.setCore_devices (s : State) (c : Nat) (x : Core) : (s.setCore c x).devices = s.devices := rfl
@[simp] theorem State.setCore_retiredLinks (s : State) (c : Nat) (x : Core) : (s.setCore c x).retiredLinks = s.retiredLinks := rfl
@[simp] theorem State.setCore_retiredUnits (s : State) (c : Nat) (x : Core) : (s.setCore c x).retiredUnits = s.retiredUnits := rfl

/-! ### setLaunch -/

@[simp] theorem State.setLaunch_now (s : State) (l : Nat) (x : Launch) : (s.setLaunch l x).now = s.now := rfl
@[simp] theorem State.setLaunch_time (s : State) (l : Nat) (x : Launch) : (s.setLaunch l x).time = s.time := rfl
@[simp] theorem State.setLaunch_owed (s : State) (l : Nat) (x : Launch) : (s.setLaunch l x).owed = s.owed := rfl
@[simp] theorem State.setLaunch_choices (s : State) (l : Nat) (x : Launch) : (s.setLaunch l x).choices = s.choices := rfl
@[simp] theorem State.setLaunch_inputs (s : State) (l : Nat) (x : Launch) : (s.setLaunch l x).inputs = s.inputs := rfl
@[simp] theorem State.setLaunch_freeCount (s : State) (l : Nat) (x : Launch) : (s.setLaunch l x).freeCount = s.freeCount := rfl
@[simp] theorem State.setLaunch_issuer (s : State) (l : Nat) (x : Launch) : (s.setLaunch l x).issuer = s.issuer := rfl
@[simp] theorem State.setLaunch_nextId (s : State) (l : Nat) (x : Launch) : (s.setLaunch l x).nextId = s.nextId := rfl
@[simp] theorem State.setLaunch_mem (s : State) (l : Nat) (x : Launch) : (s.setLaunch l x).mem = s.mem := rfl
@[simp] theorem State.setLaunch_full (s : State) (l : Nat) (x : Launch) : (s.setLaunch l x).full = s.full := rfl
@[simp] theorem State.setLaunch_tags (s : State) (l : Nat) (x : Launch) : (s.setLaunch l x).tags = s.tags := rfl
@[simp] theorem State.setLaunch_pads (s : State) (l : Nat) (x : Launch) : (s.setLaunch l x).pads = s.pads := rfl
@[simp] theorem State.setLaunch_poison (s : State) (l : Nat) (x : Launch) : (s.setLaunch l x).poison = s.poison := rfl
@[simp] theorem State.setLaunch_bunches (s : State) (l : Nat) (x : Launch) : (s.setLaunch l x).bunches = s.bunches := rfl
@[simp] theorem State.setLaunch_teams (s : State) (l : Nat) (x : Launch) : (s.setLaunch l x).teams = s.teams := rfl
@[simp] theorem State.setLaunch_cores (s : State) (l : Nat) (x : Launch) : (s.setLaunch l x).cores = s.cores := rfl
@[simp] theorem State.setLaunch_ctxs (s : State) (l : Nat) (x : Launch) : (s.setLaunch l x).ctxs = s.ctxs := rfl
@[simp] theorem State.setLaunch_launches (s : State) (l : Nat) (x : Launch) : (s.setLaunch l x).launches = (Store.insert s.launches l x) := rfl
@[simp] theorem State.setLaunch_plqs (s : State) (l : Nat) (x : Launch) : (s.setLaunch l x).plqs = s.plqs := rfl
@[simp] theorem State.setLaunch_queues (s : State) (l : Nat) (x : Launch) : (s.setLaunch l x).queues = s.queues := rfl
@[simp] theorem State.setLaunch_commands (s : State) (l : Nat) (x : Launch) : (s.setLaunch l x).commands = s.commands := rfl
@[simp] theorem State.setLaunch_agents (s : State) (l : Nat) (x : Launch) : (s.setLaunch l x).agents = s.agents := rfl
@[simp] theorem State.setLaunch_rr (s : State) (l : Nat) (x : Launch) : (s.setLaunch l x).rr = s.rr := rfl
@[simp] theorem State.setLaunch_rr512 (s : State) (l : Nat) (x : Launch) : (s.setLaunch l x).rr512 = s.rr512 := rfl
@[simp] theorem State.setLaunch_jseq (s : State) (l : Nat) (x : Launch) : (s.setLaunch l x).jseq = s.jseq := rfl
@[simp] theorem State.setLaunch_journal (s : State) (l : Nat) (x : Launch) : (s.setLaunch l x).journal = s.journal := rfl
@[simp] theorem State.setLaunch_jbase (s : State) (l : Nat) (x : Launch) : (s.setLaunch l x).jbase = s.jbase := rfl
@[simp] theorem State.setLaunch_jsize (s : State) (l : Nat) (x : Launch) : (s.setLaunch l x).jsize = s.jsize := rfl
@[simp] theorem State.setLaunch_depRecs (s : State) (l : Nat) (x : Launch) : (s.setLaunch l x).depRecs = s.depRecs := rfl
@[simp] theorem State.setLaunch_upcalls (s : State) (l : Nat) (x : Launch) : (s.setLaunch l x).upcalls = s.upcalls := rfl
@[simp] theorem State.setLaunch_graphs (s : State) (l : Nat) (x : Launch) : (s.setLaunch l x).graphs = s.graphs := rfl
@[simp] theorem State.setLaunch_caskHid (s : State) (l : Nat) (x : Launch) : (s.setLaunch l x).caskHid = s.caskHid := rfl
@[simp] theorem State.setLaunch_bankQ (s : State) (l : Nat) (x : Launch) : (s.setLaunch l x).bankQ = s.bankQ := rfl
@[simp] theorem State.setLaunch_cooperQ (s : State) (l : Nat) (x : Launch) : (s.setLaunch l x).cooperQ = s.cooperQ := rfl
@[simp] theorem State.setLaunch_cooperTo (s : State) (l : Nat) (x : Launch) : (s.setLaunch l x).cooperTo = s.cooperTo := rfl
@[simp] theorem State.setLaunch_walks (s : State) (l : Nat) (x : Launch) : (s.setLaunch l x).walks = s.walks := rfl
@[simp] theorem State.setLaunch_rowTlb (s : State) (l : Nat) (x : Launch) : (s.setLaunch l x).rowTlb = s.rowTlb := rfl
@[simp] theorem State.setLaunch_raster (s : State) (l : Nat) (x : Launch) : (s.setLaunch l x).raster = s.raster := rfl
@[simp] theorem State.setLaunch_fence (s : State) (l : Nat) (x : Launch) : (s.setLaunch l x).fence = s.fence := rfl
@[simp] theorem State.setLaunch_lost (s : State) (l : Nat) (x : Launch) : (s.setLaunch l x).lost = s.lost := rfl
@[simp] theorem State.setLaunch_ports (s : State) (l : Nat) (x : Launch) : (s.setLaunch l x).ports = s.ports := rfl
@[simp] theorem State.setLaunch_msix (s : State) (l : Nat) (x : Launch) : (s.setLaunch l x).msix = s.msix := rfl
@[simp] theorem State.setLaunch_errLog (s : State) (l : Nat) (x : Launch) : (s.setLaunch l x).errLog = s.errLog := rfl
@[simp] theorem State.setLaunch_errThresh (s : State) (l : Nat) (x : Launch) : (s.setLaunch l x).errThresh = s.errThresh := rfl
@[simp] theorem State.setLaunch_ebase (s : State) (l : Nat) (x : Launch) : (s.setLaunch l x).ebase = s.ebase := rfl
@[simp] theorem State.setLaunch_esize (s : State) (l : Nat) (x : Launch) : (s.setLaunch l x).esize = s.esize := rfl
@[simp] theorem State.setLaunch_dbase (s : State) (l : Nat) (x : Launch) : (s.setLaunch l x).dbase = s.dbase := rfl
@[simp] theorem State.setLaunch_ckptState (s : State) (l : Nat) (x : Launch) : (s.setLaunch l x).ckptState = s.ckptState := rfl
@[simp] theorem State.setLaunch_ckptCtx (s : State) (l : Nat) (x : Launch) : (s.setLaunch l x).ckptCtx = s.ckptCtx := rfl
@[simp] theorem State.setLaunch_image (s : State) (l : Nat) (x : Launch) : (s.setLaunch l x).image = s.image := rfl
@[simp] theorem State.setLaunch_power (s : State) (l : Nat) (x : Launch) : (s.setLaunch l x).power = s.power := rfl
@[simp] theorem State.setLaunch_dvfs (s : State) (l : Nat) (x : Launch) : (s.setLaunch l x).dvfs = s.dvfs := rfl
@[simp] theorem State.setLaunch_cap (s : State) (l : Nat) (x : Launch) : (s.setLaunch l x).cap = s.cap := rfl
@[simp] theorem State.setLaunch_watts (s : State) (l : Nat) (x : Launch) : (s.setLaunch l x).watts = s.watts := rfl
@[simp] theorem State.setLaunch_celsius (s : State) (l : Nat) (x : Launch) : (s.setLaunch l x).celsius = s.celsius := rfl
@[simp] theorem State.setLaunch_halved (s : State) (l : Nat) (x : Launch) : (s.setLaunch l x).halved = s.halved := rfl
@[simp] theorem State.setLaunch_stallTo (s : State) (l : Nat) (x : Launch) : (s.setLaunch l x).stallTo = s.stallTo := rfl
@[simp] theorem State.setLaunch_idleSince (s : State) (l : Nat) (x : Launch) : (s.setLaunch l x).idleSince = s.idleSince := rfl
@[simp] theorem State.setLaunch_selfRefresh (s : State) (l : Nat) (x : Launch) : (s.setLaunch l x).selfRefresh = s.selfRefresh := rfl
@[simp] theorem State.setLaunch_fatal (s : State) (l : Nat) (x : Launch) : (s.setLaunch l x).fatal = s.fatal := rfl
@[simp] theorem State.setLaunch_dump (s : State) (l : Nat) (x : Launch) : (s.setLaunch l x).dump = s.dump := rfl
@[simp] theorem State.setLaunch_ready (s : State) (l : Nat) (x : Launch) : (s.setLaunch l x).ready = s.ready := rfl
@[simp] theorem State.setLaunch_recovery (s : State) (l : Nat) (x : Launch) : (s.setLaunch l x).recovery = s.recovery := rfl
@[simp] theorem State.setLaunch_fwVersion (s : State) (l : Nat) (x : Launch) : (s.setLaunch l x).fwVersion = s.fwVersion := rfl
@[simp] theorem State.setLaunch_rollback (s : State) (l : Nat) (x : Launch) : (s.setLaunch l x).rollback = s.rollback := rfl
@[simp] theorem State.setLaunch_flash (s : State) (l : Nat) (x : Launch) : (s.setLaunch l x).flash = s.flash := rfl
@[simp] theorem State.setLaunch_measures (s : State) (l : Nat) (x : Launch) : (s.setLaunch l x).measures = s.measures := rfl
@[simp] theorem State.setLaunch_identity (s : State) (l : Nat) (x : Launch) : (s.setLaunch l x).identity = s.identity := rfl
@[simp] theorem State.setLaunch_cert (s : State) (l : Nat) (x : Launch) : (s.setLaunch l x).cert = s.cert := rfl
@[simp] theorem State.setLaunch_quotes (s : State) (l : Nat) (x : Launch) : (s.setLaunch l x).quotes = s.quotes := rfl
@[simp] theorem State.setLaunch_device (s : State) (l : Nat) (x : Launch) : (s.setLaunch l x).device = s.device := rfl
@[simp] theorem State.setLaunch_devices (s : State) (l : Nat) (x : Launch) : (s.setLaunch l x).devices = s.devices := rfl
@[simp] theorem State.setLaunch_retiredLinks (s : State) (l : Nat) (x : Launch) : (s.setLaunch l x).retiredLinks = s.retiredLinks := rfl
@[simp] theorem State.setLaunch_retiredUnits (s : State) (l : Nat) (x : Launch) : (s.setLaunch l x).retiredUnits = s.retiredUnits := rfl

/-! ### usedFree -/

@[simp] theorem State.usedFree_now (s : State) (n : Nat) : (s.usedFree n).now = s.now := rfl
@[simp] theorem State.usedFree_time (s : State) (n : Nat) : (s.usedFree n).time = s.time := rfl
@[simp] theorem State.usedFree_owed (s : State) (n : Nat) : (s.usedFree n).owed = s.owed := rfl
@[simp] theorem State.usedFree_choices (s : State) (n : Nat) : (s.usedFree n).choices = s.choices := rfl
@[simp] theorem State.usedFree_inputs (s : State) (n : Nat) : (s.usedFree n).inputs = s.inputs := rfl
@[simp] theorem State.usedFree_freeCount (s : State) (n : Nat) : (s.usedFree n).freeCount = (s.freeCount + n) := rfl
@[simp] theorem State.usedFree_issuer (s : State) (n : Nat) : (s.usedFree n).issuer = s.issuer := rfl
@[simp] theorem State.usedFree_nextId (s : State) (n : Nat) : (s.usedFree n).nextId = s.nextId := rfl
@[simp] theorem State.usedFree_mem (s : State) (n : Nat) : (s.usedFree n).mem = s.mem := rfl
@[simp] theorem State.usedFree_full (s : State) (n : Nat) : (s.usedFree n).full = s.full := rfl
@[simp] theorem State.usedFree_tags (s : State) (n : Nat) : (s.usedFree n).tags = s.tags := rfl
@[simp] theorem State.usedFree_pads (s : State) (n : Nat) : (s.usedFree n).pads = s.pads := rfl
@[simp] theorem State.usedFree_poison (s : State) (n : Nat) : (s.usedFree n).poison = s.poison := rfl
@[simp] theorem State.usedFree_bunches (s : State) (n : Nat) : (s.usedFree n).bunches = s.bunches := rfl
@[simp] theorem State.usedFree_teams (s : State) (n : Nat) : (s.usedFree n).teams = s.teams := rfl
@[simp] theorem State.usedFree_cores (s : State) (n : Nat) : (s.usedFree n).cores = s.cores := rfl
@[simp] theorem State.usedFree_ctxs (s : State) (n : Nat) : (s.usedFree n).ctxs = s.ctxs := rfl
@[simp] theorem State.usedFree_launches (s : State) (n : Nat) : (s.usedFree n).launches = s.launches := rfl
@[simp] theorem State.usedFree_plqs (s : State) (n : Nat) : (s.usedFree n).plqs = s.plqs := rfl
@[simp] theorem State.usedFree_queues (s : State) (n : Nat) : (s.usedFree n).queues = s.queues := rfl
@[simp] theorem State.usedFree_commands (s : State) (n : Nat) : (s.usedFree n).commands = s.commands := rfl
@[simp] theorem State.usedFree_agents (s : State) (n : Nat) : (s.usedFree n).agents = s.agents := rfl
@[simp] theorem State.usedFree_rr (s : State) (n : Nat) : (s.usedFree n).rr = s.rr := rfl
@[simp] theorem State.usedFree_rr512 (s : State) (n : Nat) : (s.usedFree n).rr512 = s.rr512 := rfl
@[simp] theorem State.usedFree_jseq (s : State) (n : Nat) : (s.usedFree n).jseq = s.jseq := rfl
@[simp] theorem State.usedFree_journal (s : State) (n : Nat) : (s.usedFree n).journal = s.journal := rfl
@[simp] theorem State.usedFree_jbase (s : State) (n : Nat) : (s.usedFree n).jbase = s.jbase := rfl
@[simp] theorem State.usedFree_jsize (s : State) (n : Nat) : (s.usedFree n).jsize = s.jsize := rfl
@[simp] theorem State.usedFree_depRecs (s : State) (n : Nat) : (s.usedFree n).depRecs = s.depRecs := rfl
@[simp] theorem State.usedFree_upcalls (s : State) (n : Nat) : (s.usedFree n).upcalls = s.upcalls := rfl
@[simp] theorem State.usedFree_graphs (s : State) (n : Nat) : (s.usedFree n).graphs = s.graphs := rfl
@[simp] theorem State.usedFree_caskHid (s : State) (n : Nat) : (s.usedFree n).caskHid = s.caskHid := rfl
@[simp] theorem State.usedFree_bankQ (s : State) (n : Nat) : (s.usedFree n).bankQ = s.bankQ := rfl
@[simp] theorem State.usedFree_cooperQ (s : State) (n : Nat) : (s.usedFree n).cooperQ = s.cooperQ := rfl
@[simp] theorem State.usedFree_cooperTo (s : State) (n : Nat) : (s.usedFree n).cooperTo = s.cooperTo := rfl
@[simp] theorem State.usedFree_walks (s : State) (n : Nat) : (s.usedFree n).walks = s.walks := rfl
@[simp] theorem State.usedFree_rowTlb (s : State) (n : Nat) : (s.usedFree n).rowTlb = s.rowTlb := rfl
@[simp] theorem State.usedFree_raster (s : State) (n : Nat) : (s.usedFree n).raster = s.raster := rfl
@[simp] theorem State.usedFree_fence (s : State) (n : Nat) : (s.usedFree n).fence = s.fence := rfl
@[simp] theorem State.usedFree_lost (s : State) (n : Nat) : (s.usedFree n).lost = s.lost := rfl
@[simp] theorem State.usedFree_ports (s : State) (n : Nat) : (s.usedFree n).ports = s.ports := rfl
@[simp] theorem State.usedFree_msix (s : State) (n : Nat) : (s.usedFree n).msix = s.msix := rfl
@[simp] theorem State.usedFree_errLog (s : State) (n : Nat) : (s.usedFree n).errLog = s.errLog := rfl
@[simp] theorem State.usedFree_errThresh (s : State) (n : Nat) : (s.usedFree n).errThresh = s.errThresh := rfl
@[simp] theorem State.usedFree_ebase (s : State) (n : Nat) : (s.usedFree n).ebase = s.ebase := rfl
@[simp] theorem State.usedFree_esize (s : State) (n : Nat) : (s.usedFree n).esize = s.esize := rfl
@[simp] theorem State.usedFree_dbase (s : State) (n : Nat) : (s.usedFree n).dbase = s.dbase := rfl
@[simp] theorem State.usedFree_ckptState (s : State) (n : Nat) : (s.usedFree n).ckptState = s.ckptState := rfl
@[simp] theorem State.usedFree_ckptCtx (s : State) (n : Nat) : (s.usedFree n).ckptCtx = s.ckptCtx := rfl
@[simp] theorem State.usedFree_image (s : State) (n : Nat) : (s.usedFree n).image = s.image := rfl
@[simp] theorem State.usedFree_power (s : State) (n : Nat) : (s.usedFree n).power = s.power := rfl
@[simp] theorem State.usedFree_dvfs (s : State) (n : Nat) : (s.usedFree n).dvfs = s.dvfs := rfl
@[simp] theorem State.usedFree_cap (s : State) (n : Nat) : (s.usedFree n).cap = s.cap := rfl
@[simp] theorem State.usedFree_watts (s : State) (n : Nat) : (s.usedFree n).watts = s.watts := rfl
@[simp] theorem State.usedFree_celsius (s : State) (n : Nat) : (s.usedFree n).celsius = s.celsius := rfl
@[simp] theorem State.usedFree_halved (s : State) (n : Nat) : (s.usedFree n).halved = s.halved := rfl
@[simp] theorem State.usedFree_stallTo (s : State) (n : Nat) : (s.usedFree n).stallTo = s.stallTo := rfl
@[simp] theorem State.usedFree_idleSince (s : State) (n : Nat) : (s.usedFree n).idleSince = s.idleSince := rfl
@[simp] theorem State.usedFree_selfRefresh (s : State) (n : Nat) : (s.usedFree n).selfRefresh = s.selfRefresh := rfl
@[simp] theorem State.usedFree_fatal (s : State) (n : Nat) : (s.usedFree n).fatal = s.fatal := rfl
@[simp] theorem State.usedFree_dump (s : State) (n : Nat) : (s.usedFree n).dump = s.dump := rfl
@[simp] theorem State.usedFree_ready (s : State) (n : Nat) : (s.usedFree n).ready = s.ready := rfl
@[simp] theorem State.usedFree_recovery (s : State) (n : Nat) : (s.usedFree n).recovery = s.recovery := rfl
@[simp] theorem State.usedFree_fwVersion (s : State) (n : Nat) : (s.usedFree n).fwVersion = s.fwVersion := rfl
@[simp] theorem State.usedFree_rollback (s : State) (n : Nat) : (s.usedFree n).rollback = s.rollback := rfl
@[simp] theorem State.usedFree_flash (s : State) (n : Nat) : (s.usedFree n).flash = s.flash := rfl
@[simp] theorem State.usedFree_measures (s : State) (n : Nat) : (s.usedFree n).measures = s.measures := rfl
@[simp] theorem State.usedFree_identity (s : State) (n : Nat) : (s.usedFree n).identity = s.identity := rfl
@[simp] theorem State.usedFree_cert (s : State) (n : Nat) : (s.usedFree n).cert = s.cert := rfl
@[simp] theorem State.usedFree_quotes (s : State) (n : Nat) : (s.usedFree n).quotes = s.quotes := rfl
@[simp] theorem State.usedFree_device (s : State) (n : Nat) : (s.usedFree n).device = s.device := rfl
@[simp] theorem State.usedFree_devices (s : State) (n : Nat) : (s.usedFree n).devices = s.devices := rfl
@[simp] theorem State.usedFree_retiredLinks (s : State) (n : Nat) : (s.usedFree n).retiredLinks = s.retiredLinks := rfl
@[simp] theorem State.usedFree_retiredUnits (s : State) (n : Nat) : (s.usedFree n).retiredUnits = s.retiredUnits := rfl

/-! ### raise -/

@[simp] theorem State.raise_now (s : State) (fn vec : Nat) : (s.raise fn vec).now = s.now := rfl
@[simp] theorem State.raise_time (s : State) (fn vec : Nat) : (s.raise fn vec).time = s.time := rfl
@[simp] theorem State.raise_owed (s : State) (fn vec : Nat) : (s.raise fn vec).owed = s.owed := rfl
@[simp] theorem State.raise_choices (s : State) (fn vec : Nat) : (s.raise fn vec).choices = s.choices := rfl
@[simp] theorem State.raise_inputs (s : State) (fn vec : Nat) : (s.raise fn vec).inputs = s.inputs := rfl
@[simp] theorem State.raise_freeCount (s : State) (fn vec : Nat) : (s.raise fn vec).freeCount = s.freeCount := rfl
@[simp] theorem State.raise_issuer (s : State) (fn vec : Nat) : (s.raise fn vec).issuer = s.issuer := rfl
@[simp] theorem State.raise_nextId (s : State) (fn vec : Nat) : (s.raise fn vec).nextId = s.nextId := rfl
@[simp] theorem State.raise_mem (s : State) (fn vec : Nat) : (s.raise fn vec).mem = s.mem := rfl
@[simp] theorem State.raise_full (s : State) (fn vec : Nat) : (s.raise fn vec).full = s.full := rfl
@[simp] theorem State.raise_tags (s : State) (fn vec : Nat) : (s.raise fn vec).tags = s.tags := rfl
@[simp] theorem State.raise_pads (s : State) (fn vec : Nat) : (s.raise fn vec).pads = s.pads := rfl
@[simp] theorem State.raise_poison (s : State) (fn vec : Nat) : (s.raise fn vec).poison = s.poison := rfl
@[simp] theorem State.raise_bunches (s : State) (fn vec : Nat) : (s.raise fn vec).bunches = s.bunches := rfl
@[simp] theorem State.raise_teams (s : State) (fn vec : Nat) : (s.raise fn vec).teams = s.teams := rfl
@[simp] theorem State.raise_cores (s : State) (fn vec : Nat) : (s.raise fn vec).cores = s.cores := rfl
@[simp] theorem State.raise_ctxs (s : State) (fn vec : Nat) : (s.raise fn vec).ctxs = s.ctxs := rfl
@[simp] theorem State.raise_launches (s : State) (fn vec : Nat) : (s.raise fn vec).launches = s.launches := rfl
@[simp] theorem State.raise_plqs (s : State) (fn vec : Nat) : (s.raise fn vec).plqs = s.plqs := rfl
@[simp] theorem State.raise_queues (s : State) (fn vec : Nat) : (s.raise fn vec).queues = s.queues := rfl
@[simp] theorem State.raise_commands (s : State) (fn vec : Nat) : (s.raise fn vec).commands = s.commands := rfl
@[simp] theorem State.raise_agents (s : State) (fn vec : Nat) : (s.raise fn vec).agents = s.agents := rfl
@[simp] theorem State.raise_rr (s : State) (fn vec : Nat) : (s.raise fn vec).rr = s.rr := rfl
@[simp] theorem State.raise_rr512 (s : State) (fn vec : Nat) : (s.raise fn vec).rr512 = s.rr512 := rfl
@[simp] theorem State.raise_jseq (s : State) (fn vec : Nat) : (s.raise fn vec).jseq = s.jseq := rfl
@[simp] theorem State.raise_journal (s : State) (fn vec : Nat) : (s.raise fn vec).journal = s.journal := rfl
@[simp] theorem State.raise_jbase (s : State) (fn vec : Nat) : (s.raise fn vec).jbase = s.jbase := rfl
@[simp] theorem State.raise_jsize (s : State) (fn vec : Nat) : (s.raise fn vec).jsize = s.jsize := rfl
@[simp] theorem State.raise_depRecs (s : State) (fn vec : Nat) : (s.raise fn vec).depRecs = s.depRecs := rfl
@[simp] theorem State.raise_upcalls (s : State) (fn vec : Nat) : (s.raise fn vec).upcalls = s.upcalls := rfl
@[simp] theorem State.raise_graphs (s : State) (fn vec : Nat) : (s.raise fn vec).graphs = s.graphs := rfl
@[simp] theorem State.raise_caskHid (s : State) (fn vec : Nat) : (s.raise fn vec).caskHid = s.caskHid := rfl
@[simp] theorem State.raise_bankQ (s : State) (fn vec : Nat) : (s.raise fn vec).bankQ = s.bankQ := rfl
@[simp] theorem State.raise_cooperQ (s : State) (fn vec : Nat) : (s.raise fn vec).cooperQ = s.cooperQ := rfl
@[simp] theorem State.raise_cooperTo (s : State) (fn vec : Nat) : (s.raise fn vec).cooperTo = s.cooperTo := rfl
@[simp] theorem State.raise_walks (s : State) (fn vec : Nat) : (s.raise fn vec).walks = s.walks := rfl
@[simp] theorem State.raise_rowTlb (s : State) (fn vec : Nat) : (s.raise fn vec).rowTlb = s.rowTlb := rfl
@[simp] theorem State.raise_raster (s : State) (fn vec : Nat) : (s.raise fn vec).raster = s.raster := rfl
@[simp] theorem State.raise_fence (s : State) (fn vec : Nat) : (s.raise fn vec).fence = s.fence := rfl
@[simp] theorem State.raise_lost (s : State) (fn vec : Nat) : (s.raise fn vec).lost = s.lost := rfl
@[simp] theorem State.raise_ports (s : State) (fn vec : Nat) : (s.raise fn vec).ports = s.ports := rfl
@[simp] theorem State.raise_msix (s : State) (fn vec : Nat) : (s.raise fn vec).msix = (s.msix ++ [(fn, vec)]) := rfl
@[simp] theorem State.raise_errLog (s : State) (fn vec : Nat) : (s.raise fn vec).errLog = s.errLog := rfl
@[simp] theorem State.raise_errThresh (s : State) (fn vec : Nat) : (s.raise fn vec).errThresh = s.errThresh := rfl
@[simp] theorem State.raise_ebase (s : State) (fn vec : Nat) : (s.raise fn vec).ebase = s.ebase := rfl
@[simp] theorem State.raise_esize (s : State) (fn vec : Nat) : (s.raise fn vec).esize = s.esize := rfl
@[simp] theorem State.raise_dbase (s : State) (fn vec : Nat) : (s.raise fn vec).dbase = s.dbase := rfl
@[simp] theorem State.raise_ckptState (s : State) (fn vec : Nat) : (s.raise fn vec).ckptState = s.ckptState := rfl
@[simp] theorem State.raise_ckptCtx (s : State) (fn vec : Nat) : (s.raise fn vec).ckptCtx = s.ckptCtx := rfl
@[simp] theorem State.raise_image (s : State) (fn vec : Nat) : (s.raise fn vec).image = s.image := rfl
@[simp] theorem State.raise_power (s : State) (fn vec : Nat) : (s.raise fn vec).power = s.power := rfl
@[simp] theorem State.raise_dvfs (s : State) (fn vec : Nat) : (s.raise fn vec).dvfs = s.dvfs := rfl
@[simp] theorem State.raise_cap (s : State) (fn vec : Nat) : (s.raise fn vec).cap = s.cap := rfl
@[simp] theorem State.raise_watts (s : State) (fn vec : Nat) : (s.raise fn vec).watts = s.watts := rfl
@[simp] theorem State.raise_celsius (s : State) (fn vec : Nat) : (s.raise fn vec).celsius = s.celsius := rfl
@[simp] theorem State.raise_halved (s : State) (fn vec : Nat) : (s.raise fn vec).halved = s.halved := rfl
@[simp] theorem State.raise_stallTo (s : State) (fn vec : Nat) : (s.raise fn vec).stallTo = s.stallTo := rfl
@[simp] theorem State.raise_idleSince (s : State) (fn vec : Nat) : (s.raise fn vec).idleSince = s.idleSince := rfl
@[simp] theorem State.raise_selfRefresh (s : State) (fn vec : Nat) : (s.raise fn vec).selfRefresh = s.selfRefresh := rfl
@[simp] theorem State.raise_fatal (s : State) (fn vec : Nat) : (s.raise fn vec).fatal = s.fatal := rfl
@[simp] theorem State.raise_dump (s : State) (fn vec : Nat) : (s.raise fn vec).dump = s.dump := rfl
@[simp] theorem State.raise_ready (s : State) (fn vec : Nat) : (s.raise fn vec).ready = s.ready := rfl
@[simp] theorem State.raise_recovery (s : State) (fn vec : Nat) : (s.raise fn vec).recovery = s.recovery := rfl
@[simp] theorem State.raise_fwVersion (s : State) (fn vec : Nat) : (s.raise fn vec).fwVersion = s.fwVersion := rfl
@[simp] theorem State.raise_rollback (s : State) (fn vec : Nat) : (s.raise fn vec).rollback = s.rollback := rfl
@[simp] theorem State.raise_flash (s : State) (fn vec : Nat) : (s.raise fn vec).flash = s.flash := rfl
@[simp] theorem State.raise_measures (s : State) (fn vec : Nat) : (s.raise fn vec).measures = s.measures := rfl
@[simp] theorem State.raise_identity (s : State) (fn vec : Nat) : (s.raise fn vec).identity = s.identity := rfl
@[simp] theorem State.raise_cert (s : State) (fn vec : Nat) : (s.raise fn vec).cert = s.cert := rfl
@[simp] theorem State.raise_quotes (s : State) (fn vec : Nat) : (s.raise fn vec).quotes = s.quotes := rfl
@[simp] theorem State.raise_device (s : State) (fn vec : Nat) : (s.raise fn vec).device = s.device := rfl
@[simp] theorem State.raise_devices (s : State) (fn vec : Nat) : (s.raise fn vec).devices = s.devices := rfl
@[simp] theorem State.raise_retiredLinks (s : State) (fn vec : Nat) : (s.raise fn vec).retiredLinks = s.retiredLinks := rfl
@[simp] theorem State.raise_retiredUnits (s : State) (fn vec : Nat) : (s.raise fn vec).retiredUnits = s.retiredUnits := rfl

/-! ### setPort -/

@[simp] theorem State.setPort_now (s : State) (p : Nat) (x : Port) : (s.setPort p x).now = s.now := rfl
@[simp] theorem State.setPort_time (s : State) (p : Nat) (x : Port) : (s.setPort p x).time = s.time := rfl
@[simp] theorem State.setPort_owed (s : State) (p : Nat) (x : Port) : (s.setPort p x).owed = s.owed := rfl
@[simp] theorem State.setPort_choices (s : State) (p : Nat) (x : Port) : (s.setPort p x).choices = s.choices := rfl
@[simp] theorem State.setPort_inputs (s : State) (p : Nat) (x : Port) : (s.setPort p x).inputs = s.inputs := rfl
@[simp] theorem State.setPort_freeCount (s : State) (p : Nat) (x : Port) : (s.setPort p x).freeCount = s.freeCount := rfl
@[simp] theorem State.setPort_issuer (s : State) (p : Nat) (x : Port) : (s.setPort p x).issuer = s.issuer := rfl
@[simp] theorem State.setPort_nextId (s : State) (p : Nat) (x : Port) : (s.setPort p x).nextId = s.nextId := rfl
@[simp] theorem State.setPort_mem (s : State) (p : Nat) (x : Port) : (s.setPort p x).mem = s.mem := rfl
@[simp] theorem State.setPort_full (s : State) (p : Nat) (x : Port) : (s.setPort p x).full = s.full := rfl
@[simp] theorem State.setPort_tags (s : State) (p : Nat) (x : Port) : (s.setPort p x).tags = s.tags := rfl
@[simp] theorem State.setPort_pads (s : State) (p : Nat) (x : Port) : (s.setPort p x).pads = s.pads := rfl
@[simp] theorem State.setPort_poison (s : State) (p : Nat) (x : Port) : (s.setPort p x).poison = s.poison := rfl
@[simp] theorem State.setPort_bunches (s : State) (p : Nat) (x : Port) : (s.setPort p x).bunches = s.bunches := rfl
@[simp] theorem State.setPort_teams (s : State) (p : Nat) (x : Port) : (s.setPort p x).teams = s.teams := rfl
@[simp] theorem State.setPort_cores (s : State) (p : Nat) (x : Port) : (s.setPort p x).cores = s.cores := rfl
@[simp] theorem State.setPort_ctxs (s : State) (p : Nat) (x : Port) : (s.setPort p x).ctxs = s.ctxs := rfl
@[simp] theorem State.setPort_launches (s : State) (p : Nat) (x : Port) : (s.setPort p x).launches = s.launches := rfl
@[simp] theorem State.setPort_plqs (s : State) (p : Nat) (x : Port) : (s.setPort p x).plqs = s.plqs := rfl
@[simp] theorem State.setPort_queues (s : State) (p : Nat) (x : Port) : (s.setPort p x).queues = s.queues := rfl
@[simp] theorem State.setPort_commands (s : State) (p : Nat) (x : Port) : (s.setPort p x).commands = s.commands := rfl
@[simp] theorem State.setPort_agents (s : State) (p : Nat) (x : Port) : (s.setPort p x).agents = s.agents := rfl
@[simp] theorem State.setPort_rr (s : State) (p : Nat) (x : Port) : (s.setPort p x).rr = s.rr := rfl
@[simp] theorem State.setPort_rr512 (s : State) (p : Nat) (x : Port) : (s.setPort p x).rr512 = s.rr512 := rfl
@[simp] theorem State.setPort_jseq (s : State) (p : Nat) (x : Port) : (s.setPort p x).jseq = s.jseq := rfl
@[simp] theorem State.setPort_journal (s : State) (p : Nat) (x : Port) : (s.setPort p x).journal = s.journal := rfl
@[simp] theorem State.setPort_jbase (s : State) (p : Nat) (x : Port) : (s.setPort p x).jbase = s.jbase := rfl
@[simp] theorem State.setPort_jsize (s : State) (p : Nat) (x : Port) : (s.setPort p x).jsize = s.jsize := rfl
@[simp] theorem State.setPort_depRecs (s : State) (p : Nat) (x : Port) : (s.setPort p x).depRecs = s.depRecs := rfl
@[simp] theorem State.setPort_upcalls (s : State) (p : Nat) (x : Port) : (s.setPort p x).upcalls = s.upcalls := rfl
@[simp] theorem State.setPort_graphs (s : State) (p : Nat) (x : Port) : (s.setPort p x).graphs = s.graphs := rfl
@[simp] theorem State.setPort_caskHid (s : State) (p : Nat) (x : Port) : (s.setPort p x).caskHid = s.caskHid := rfl
@[simp] theorem State.setPort_bankQ (s : State) (p : Nat) (x : Port) : (s.setPort p x).bankQ = s.bankQ := rfl
@[simp] theorem State.setPort_cooperQ (s : State) (p : Nat) (x : Port) : (s.setPort p x).cooperQ = s.cooperQ := rfl
@[simp] theorem State.setPort_cooperTo (s : State) (p : Nat) (x : Port) : (s.setPort p x).cooperTo = s.cooperTo := rfl
@[simp] theorem State.setPort_walks (s : State) (p : Nat) (x : Port) : (s.setPort p x).walks = s.walks := rfl
@[simp] theorem State.setPort_rowTlb (s : State) (p : Nat) (x : Port) : (s.setPort p x).rowTlb = s.rowTlb := rfl
@[simp] theorem State.setPort_raster (s : State) (p : Nat) (x : Port) : (s.setPort p x).raster = s.raster := rfl
@[simp] theorem State.setPort_fence (s : State) (p : Nat) (x : Port) : (s.setPort p x).fence = s.fence := rfl
@[simp] theorem State.setPort_lost (s : State) (p : Nat) (x : Port) : (s.setPort p x).lost = s.lost := rfl
@[simp] theorem State.setPort_ports (s : State) (p : Nat) (x : Port) : (s.setPort p x).ports = (Store.insert s.ports p x) := rfl
@[simp] theorem State.setPort_msix (s : State) (p : Nat) (x : Port) : (s.setPort p x).msix = s.msix := rfl
@[simp] theorem State.setPort_errLog (s : State) (p : Nat) (x : Port) : (s.setPort p x).errLog = s.errLog := rfl
@[simp] theorem State.setPort_errThresh (s : State) (p : Nat) (x : Port) : (s.setPort p x).errThresh = s.errThresh := rfl
@[simp] theorem State.setPort_ebase (s : State) (p : Nat) (x : Port) : (s.setPort p x).ebase = s.ebase := rfl
@[simp] theorem State.setPort_esize (s : State) (p : Nat) (x : Port) : (s.setPort p x).esize = s.esize := rfl
@[simp] theorem State.setPort_dbase (s : State) (p : Nat) (x : Port) : (s.setPort p x).dbase = s.dbase := rfl
@[simp] theorem State.setPort_ckptState (s : State) (p : Nat) (x : Port) : (s.setPort p x).ckptState = s.ckptState := rfl
@[simp] theorem State.setPort_ckptCtx (s : State) (p : Nat) (x : Port) : (s.setPort p x).ckptCtx = s.ckptCtx := rfl
@[simp] theorem State.setPort_image (s : State) (p : Nat) (x : Port) : (s.setPort p x).image = s.image := rfl
@[simp] theorem State.setPort_power (s : State) (p : Nat) (x : Port) : (s.setPort p x).power = s.power := rfl
@[simp] theorem State.setPort_dvfs (s : State) (p : Nat) (x : Port) : (s.setPort p x).dvfs = s.dvfs := rfl
@[simp] theorem State.setPort_cap (s : State) (p : Nat) (x : Port) : (s.setPort p x).cap = s.cap := rfl
@[simp] theorem State.setPort_watts (s : State) (p : Nat) (x : Port) : (s.setPort p x).watts = s.watts := rfl
@[simp] theorem State.setPort_celsius (s : State) (p : Nat) (x : Port) : (s.setPort p x).celsius = s.celsius := rfl
@[simp] theorem State.setPort_halved (s : State) (p : Nat) (x : Port) : (s.setPort p x).halved = s.halved := rfl
@[simp] theorem State.setPort_stallTo (s : State) (p : Nat) (x : Port) : (s.setPort p x).stallTo = s.stallTo := rfl
@[simp] theorem State.setPort_idleSince (s : State) (p : Nat) (x : Port) : (s.setPort p x).idleSince = s.idleSince := rfl
@[simp] theorem State.setPort_selfRefresh (s : State) (p : Nat) (x : Port) : (s.setPort p x).selfRefresh = s.selfRefresh := rfl
@[simp] theorem State.setPort_fatal (s : State) (p : Nat) (x : Port) : (s.setPort p x).fatal = s.fatal := rfl
@[simp] theorem State.setPort_dump (s : State) (p : Nat) (x : Port) : (s.setPort p x).dump = s.dump := rfl
@[simp] theorem State.setPort_ready (s : State) (p : Nat) (x : Port) : (s.setPort p x).ready = s.ready := rfl
@[simp] theorem State.setPort_recovery (s : State) (p : Nat) (x : Port) : (s.setPort p x).recovery = s.recovery := rfl
@[simp] theorem State.setPort_fwVersion (s : State) (p : Nat) (x : Port) : (s.setPort p x).fwVersion = s.fwVersion := rfl
@[simp] theorem State.setPort_rollback (s : State) (p : Nat) (x : Port) : (s.setPort p x).rollback = s.rollback := rfl
@[simp] theorem State.setPort_flash (s : State) (p : Nat) (x : Port) : (s.setPort p x).flash = s.flash := rfl
@[simp] theorem State.setPort_measures (s : State) (p : Nat) (x : Port) : (s.setPort p x).measures = s.measures := rfl
@[simp] theorem State.setPort_identity (s : State) (p : Nat) (x : Port) : (s.setPort p x).identity = s.identity := rfl
@[simp] theorem State.setPort_cert (s : State) (p : Nat) (x : Port) : (s.setPort p x).cert = s.cert := rfl
@[simp] theorem State.setPort_quotes (s : State) (p : Nat) (x : Port) : (s.setPort p x).quotes = s.quotes := rfl
@[simp] theorem State.setPort_device (s : State) (p : Nat) (x : Port) : (s.setPort p x).device = s.device := rfl
@[simp] theorem State.setPort_devices (s : State) (p : Nat) (x : Port) : (s.setPort p x).devices = s.devices := rfl
@[simp] theorem State.setPort_retiredLinks (s : State) (p : Nat) (x : Port) : (s.setPort p x).retiredLinks = s.retiredLinks := rfl
@[simp] theorem State.setPort_retiredUnits (s : State) (p : Nat) (x : Port) : (s.setPort p x).retiredUnits = s.retiredUnits := rfl

/-! ### setRun -/

@[simp] theorem State.setRun_now (s : State) (g : GraphRun) : (s.setRun g).now = s.now := rfl
@[simp] theorem State.setRun_time (s : State) (g : GraphRun) : (s.setRun g).time = s.time := rfl
@[simp] theorem State.setRun_owed (s : State) (g : GraphRun) : (s.setRun g).owed = s.owed := rfl
@[simp] theorem State.setRun_choices (s : State) (g : GraphRun) : (s.setRun g).choices = s.choices := rfl
@[simp] theorem State.setRun_inputs (s : State) (g : GraphRun) : (s.setRun g).inputs = s.inputs := rfl
@[simp] theorem State.setRun_freeCount (s : State) (g : GraphRun) : (s.setRun g).freeCount = s.freeCount := rfl
@[simp] theorem State.setRun_issuer (s : State) (g : GraphRun) : (s.setRun g).issuer = s.issuer := rfl
@[simp] theorem State.setRun_nextId (s : State) (g : GraphRun) : (s.setRun g).nextId = s.nextId := rfl
@[simp] theorem State.setRun_mem (s : State) (g : GraphRun) : (s.setRun g).mem = s.mem := rfl
@[simp] theorem State.setRun_full (s : State) (g : GraphRun) : (s.setRun g).full = s.full := rfl
@[simp] theorem State.setRun_tags (s : State) (g : GraphRun) : (s.setRun g).tags = s.tags := rfl
@[simp] theorem State.setRun_pads (s : State) (g : GraphRun) : (s.setRun g).pads = s.pads := rfl
@[simp] theorem State.setRun_poison (s : State) (g : GraphRun) : (s.setRun g).poison = s.poison := rfl
@[simp] theorem State.setRun_bunches (s : State) (g : GraphRun) : (s.setRun g).bunches = s.bunches := rfl
@[simp] theorem State.setRun_teams (s : State) (g : GraphRun) : (s.setRun g).teams = s.teams := rfl
@[simp] theorem State.setRun_cores (s : State) (g : GraphRun) : (s.setRun g).cores = s.cores := rfl
@[simp] theorem State.setRun_ctxs (s : State) (g : GraphRun) : (s.setRun g).ctxs = s.ctxs := rfl
@[simp] theorem State.setRun_launches (s : State) (g : GraphRun) : (s.setRun g).launches = s.launches := rfl
@[simp] theorem State.setRun_plqs (s : State) (g : GraphRun) : (s.setRun g).plqs = s.plqs := rfl
@[simp] theorem State.setRun_queues (s : State) (g : GraphRun) : (s.setRun g).queues = s.queues := rfl
@[simp] theorem State.setRun_commands (s : State) (g : GraphRun) : (s.setRun g).commands = s.commands := rfl
@[simp] theorem State.setRun_agents (s : State) (g : GraphRun) : (s.setRun g).agents = s.agents := rfl
@[simp] theorem State.setRun_rr (s : State) (g : GraphRun) : (s.setRun g).rr = s.rr := rfl
@[simp] theorem State.setRun_rr512 (s : State) (g : GraphRun) : (s.setRun g).rr512 = s.rr512 := rfl
@[simp] theorem State.setRun_jseq (s : State) (g : GraphRun) : (s.setRun g).jseq = s.jseq := rfl
@[simp] theorem State.setRun_journal (s : State) (g : GraphRun) : (s.setRun g).journal = s.journal := rfl
@[simp] theorem State.setRun_jbase (s : State) (g : GraphRun) : (s.setRun g).jbase = s.jbase := rfl
@[simp] theorem State.setRun_jsize (s : State) (g : GraphRun) : (s.setRun g).jsize = s.jsize := rfl
@[simp] theorem State.setRun_depRecs (s : State) (g : GraphRun) : (s.setRun g).depRecs = s.depRecs := rfl
@[simp] theorem State.setRun_upcalls (s : State) (g : GraphRun) : (s.setRun g).upcalls = s.upcalls := rfl
@[simp] theorem State.setRun_graphs (s : State) (g : GraphRun) : (s.setRun g).graphs = (s.graphs.map fun x => if x.id = g.id then g else x) := rfl
@[simp] theorem State.setRun_caskHid (s : State) (g : GraphRun) : (s.setRun g).caskHid = s.caskHid := rfl
@[simp] theorem State.setRun_bankQ (s : State) (g : GraphRun) : (s.setRun g).bankQ = s.bankQ := rfl
@[simp] theorem State.setRun_cooperQ (s : State) (g : GraphRun) : (s.setRun g).cooperQ = s.cooperQ := rfl
@[simp] theorem State.setRun_cooperTo (s : State) (g : GraphRun) : (s.setRun g).cooperTo = s.cooperTo := rfl
@[simp] theorem State.setRun_walks (s : State) (g : GraphRun) : (s.setRun g).walks = s.walks := rfl
@[simp] theorem State.setRun_rowTlb (s : State) (g : GraphRun) : (s.setRun g).rowTlb = s.rowTlb := rfl
@[simp] theorem State.setRun_raster (s : State) (g : GraphRun) : (s.setRun g).raster = s.raster := rfl
@[simp] theorem State.setRun_fence (s : State) (g : GraphRun) : (s.setRun g).fence = s.fence := rfl
@[simp] theorem State.setRun_lost (s : State) (g : GraphRun) : (s.setRun g).lost = s.lost := rfl
@[simp] theorem State.setRun_ports (s : State) (g : GraphRun) : (s.setRun g).ports = s.ports := rfl
@[simp] theorem State.setRun_msix (s : State) (g : GraphRun) : (s.setRun g).msix = s.msix := rfl
@[simp] theorem State.setRun_errLog (s : State) (g : GraphRun) : (s.setRun g).errLog = s.errLog := rfl
@[simp] theorem State.setRun_errThresh (s : State) (g : GraphRun) : (s.setRun g).errThresh = s.errThresh := rfl
@[simp] theorem State.setRun_ebase (s : State) (g : GraphRun) : (s.setRun g).ebase = s.ebase := rfl
@[simp] theorem State.setRun_esize (s : State) (g : GraphRun) : (s.setRun g).esize = s.esize := rfl
@[simp] theorem State.setRun_dbase (s : State) (g : GraphRun) : (s.setRun g).dbase = s.dbase := rfl
@[simp] theorem State.setRun_ckptState (s : State) (g : GraphRun) : (s.setRun g).ckptState = s.ckptState := rfl
@[simp] theorem State.setRun_ckptCtx (s : State) (g : GraphRun) : (s.setRun g).ckptCtx = s.ckptCtx := rfl
@[simp] theorem State.setRun_image (s : State) (g : GraphRun) : (s.setRun g).image = s.image := rfl
@[simp] theorem State.setRun_power (s : State) (g : GraphRun) : (s.setRun g).power = s.power := rfl
@[simp] theorem State.setRun_dvfs (s : State) (g : GraphRun) : (s.setRun g).dvfs = s.dvfs := rfl
@[simp] theorem State.setRun_cap (s : State) (g : GraphRun) : (s.setRun g).cap = s.cap := rfl
@[simp] theorem State.setRun_watts (s : State) (g : GraphRun) : (s.setRun g).watts = s.watts := rfl
@[simp] theorem State.setRun_celsius (s : State) (g : GraphRun) : (s.setRun g).celsius = s.celsius := rfl
@[simp] theorem State.setRun_halved (s : State) (g : GraphRun) : (s.setRun g).halved = s.halved := rfl
@[simp] theorem State.setRun_stallTo (s : State) (g : GraphRun) : (s.setRun g).stallTo = s.stallTo := rfl
@[simp] theorem State.setRun_idleSince (s : State) (g : GraphRun) : (s.setRun g).idleSince = s.idleSince := rfl
@[simp] theorem State.setRun_selfRefresh (s : State) (g : GraphRun) : (s.setRun g).selfRefresh = s.selfRefresh := rfl
@[simp] theorem State.setRun_fatal (s : State) (g : GraphRun) : (s.setRun g).fatal = s.fatal := rfl
@[simp] theorem State.setRun_dump (s : State) (g : GraphRun) : (s.setRun g).dump = s.dump := rfl
@[simp] theorem State.setRun_ready (s : State) (g : GraphRun) : (s.setRun g).ready = s.ready := rfl
@[simp] theorem State.setRun_recovery (s : State) (g : GraphRun) : (s.setRun g).recovery = s.recovery := rfl
@[simp] theorem State.setRun_fwVersion (s : State) (g : GraphRun) : (s.setRun g).fwVersion = s.fwVersion := rfl
@[simp] theorem State.setRun_rollback (s : State) (g : GraphRun) : (s.setRun g).rollback = s.rollback := rfl
@[simp] theorem State.setRun_flash (s : State) (g : GraphRun) : (s.setRun g).flash = s.flash := rfl
@[simp] theorem State.setRun_measures (s : State) (g : GraphRun) : (s.setRun g).measures = s.measures := rfl
@[simp] theorem State.setRun_identity (s : State) (g : GraphRun) : (s.setRun g).identity = s.identity := rfl
@[simp] theorem State.setRun_cert (s : State) (g : GraphRun) : (s.setRun g).cert = s.cert := rfl
@[simp] theorem State.setRun_quotes (s : State) (g : GraphRun) : (s.setRun g).quotes = s.quotes := rfl
@[simp] theorem State.setRun_device (s : State) (g : GraphRun) : (s.setRun g).device = s.device := rfl
@[simp] theorem State.setRun_devices (s : State) (g : GraphRun) : (s.setRun g).devices = s.devices := rfl
@[simp] theorem State.setRun_retiredLinks (s : State) (g : GraphRun) : (s.setRun g).retiredLinks = s.retiredLinks := rfl
@[simp] theorem State.setRun_retiredUnits (s : State) (g : GraphRun) : (s.setRun g).retiredUnits = s.retiredUnits := rfl

/-! ### setSplit -/

@[simp] theorem Bunch.setSplit_ctx (b : Bunch) (e : Nat) (sp : Split) : (b.setSplit e sp).ctx = b.ctx := rfl
@[simp] theorem Bunch.setSplit_launch (b : Bunch) (e : Nat) (sp : Split) : (b.setSplit e sp).launch = b.launch := rfl
@[simp] theorem Bunch.setSplit_team (b : Bunch) (e : Nat) (sp : Split) : (b.setSplit e sp).team = b.team := rfl
@[simp] theorem Bunch.setSplit_core (b : Bunch) (e : Nat) (sp : Split) : (b.setSplit e sp).core = b.core := rfl
@[simp] theorem Bunch.setSplit_pad (b : Bunch) (e : Nat) (sp : Split) : (b.setSplit e sp).pad = b.pad := rfl
@[simp] theorem Bunch.setSplit_slot (b : Bunch) (e : Nat) (sp : Split) : (b.setSplit e sp).slot = b.slot := rfl
@[simp] theorem Bunch.setSplit_home (b : Bunch) (e : Nat) (sp : Split) : (b.setSplit e sp).home = b.home := rfl
@[simp] theorem Bunch.setSplit_num (b : Bunch) (e : Nat) (sp : Split) : (b.setSplit e sp).num = b.num := rfl
@[simp] theorem Bunch.setSplit_role (b : Bunch) (e : Nat) (sp : Split) : (b.setSplit e sp).role = b.role := rfl
@[simp] theorem Bunch.setSplit_width (b : Bunch) (e : Nat) (sp : Split) : (b.setSplit e sp).width = b.width := rfl
@[simp] theorem Bunch.setSplit_budget (b : Bunch) (e : Nat) (sp : Split) : (b.setSplit e sp).budget = b.budget := rfl
@[simp] theorem Bunch.setSplit_active (b : Bunch) (e : Nat) (sp : Split) : (b.setSplit e sp).active = b.active := rfl
@[simp] theorem Bunch.setSplit_helper (b : Bunch) (e : Nat) (sp : Split) : (b.setSplit e sp).helper = b.helper := rfl
@[simp] theorem Bunch.setSplit_items (b : Bunch) (e : Nat) (sp : Split) : (b.setSplit e sp).items = b.items := rfl
@[simp] theorem Bunch.setSplit_gens (b : Bunch) (e : Nat) (sp : Split) : (b.setSplit e sp).gens = b.gens := rfl
@[simp] theorem Bunch.setSplit_noItems (b : Bunch) (e : Nat) (sp : Split) : (b.setSplit e sp).noItems = b.noItems := rfl
@[simp] theorem Bunch.setSplit_v (b : Bunch) (e : Nat) (sp : Split) : (b.setSplit e sp).v = b.v := rfl
@[simp] theorem Bunch.setSplit_p (b : Bunch) (e : Nat) (sp : Split) : (b.setSplit e sp).p = b.p := rfl
@[simp] theorem Bunch.setSplit_k (b : Bunch) (e : Nat) (sp : Split) : (b.setSplit e sp).k = b.k := rfl
@[simp] theorem Bunch.setSplit_splits (b : Bunch) (e : Nat) (sp : Split) : (b.setSplit e sp).splits = (Store.insert b.splits e sp) := rfl
@[simp] theorem Bunch.setSplit_nextDiv (b : Bunch) (e : Nat) (sp : Split) : (b.setSplit e sp).nextDiv = b.nextDiv := rfl
@[simp] theorem Bunch.setSplit_drained (b : Bunch) (e : Nat) (sp : Split) : (b.setSplit e sp).drained = b.drained := rfl
@[simp] theorem Bunch.setSplit_bars (b : Bunch) (e : Nat) (sp : Split) : (b.setSplit e sp).bars = b.bars := rfl
@[simp] theorem Bunch.setSplit_pends (b : Bunch) (e : Nat) (sp : Split) : (b.setSplit e sp).pends = b.pends := rfl
@[simp] theorem Bunch.setSplit_ops (b : Bunch) (e : Nat) (sp : Split) : (b.setSplit e sp).ops = b.ops := rfl
@[simp] theorem Bunch.setSplit_fpStat (b : Bunch) (e : Nat) (sp : Split) : (b.setSplit e sp).fpStat = b.fpStat := rfl
@[simp] theorem Bunch.setSplit_tokRec (b : Bunch) (e : Nat) (sp : Split) : (b.setSplit e sp).tokRec = b.tokRec := rfl
@[simp] theorem Bunch.setSplit_tokCrc (b : Bunch) (e : Nat) (sp : Split) : (b.setSplit e sp).tokCrc = b.tokCrc := rfl
@[simp] theorem Bunch.setSplit_tokCrcOp (b : Bunch) (e : Nat) (sp : Split) : (b.setSplit e sp).tokCrcOp = b.tokCrcOp := rfl
@[simp] theorem Bunch.setSplit_fltCause (b : Bunch) (e : Nat) (sp : Split) : (b.setSplit e sp).fltCause = b.fltCause := rfl
@[simp] theorem Bunch.setSplit_fltAddr (b : Bunch) (e : Nat) (sp : Split) : (b.setSplit e sp).fltAddr = b.fltAddr := rfl
@[simp] theorem Bunch.setSplit_fltMask (b : Bunch) (e : Nat) (sp : Split) : (b.setSplit e sp).fltMask = b.fltMask := rfl
@[simp] theorem Bunch.setSplit_fltPc (b : Bunch) (e : Nat) (sp : Split) : (b.setSplit e sp).fltPc = b.fltPc := rfl
@[simp] theorem Bunch.setSplit_laneFlt (b : Bunch) (e : Nat) (sp : Split) : (b.setSplit e sp).laneFlt = b.laneFlt := rfl
@[simp] theorem Bunch.setSplit_fltNext (b : Bunch) (e : Nat) (sp : Split) : (b.setSplit e sp).fltNext = b.fltNext := rfl
@[simp] theorem Bunch.setSplit_fltStall (b : Bunch) (e : Nat) (sp : Split) : (b.setSplit e sp).fltStall = b.fltStall := rfl
@[simp] theorem Bunch.setSplit_fltAfter (b : Bunch) (e : Nat) (sp : Split) : (b.setSplit e sp).fltAfter = b.fltAfter := rfl
@[simp] theorem Bunch.setSplit_fltWait (b : Bunch) (e : Nat) (sp : Split) : (b.setSplit e sp).fltWait = b.fltWait := rfl
@[simp] theorem Bunch.setSplit_fltOps (b : Bunch) (e : Nat) (sp : Split) : (b.setSplit e sp).fltOps = b.fltOps := rfl
@[simp] theorem Bunch.setSplit_shMask (b : Bunch) (e : Nat) (sp : Split) : (b.setSplit e sp).shMask = b.shMask := rfl
@[simp] theorem Bunch.setSplit_shV (b : Bunch) (e : Nat) (sp : Split) : (b.setSplit e sp).shV = b.shV := rfl
@[simp] theorem Bunch.setSplit_shP (b : Bunch) (e : Nat) (sp : Split) : (b.setSplit e sp).shP = b.shP := rfl
@[simp] theorem Bunch.setSplit_shK (b : Bunch) (e : Nat) (sp : Split) : (b.setSplit e sp).shK = b.shK := rfl
@[simp] theorem Bunch.setSplit_futures (b : Bunch) (e : Nat) (sp : Split) : (b.setSplit e sp).futures = b.futures := rfl
@[simp] theorem Bunch.setSplit_newFuts (b : Bunch) (e : Nat) (sp : Split) : (b.setSplit e sp).newFuts = b.newFuts := rfl
@[simp] theorem Bunch.setSplit_futSwap (b : Bunch) (e : Nat) (sp : Split) : (b.setSplit e sp).futSwap = b.futSwap := rfl
@[simp] theorem Bunch.setSplit_cursors (b : Bunch) (e : Nat) (sp : Split) : (b.setSplit e sp).cursors = b.cursors := rfl
@[simp] theorem Bunch.setSplit_deadline (b : Bunch) (e : Nat) (sp : Split) : (b.setSplit e sp).deadline = b.deadline := rfl
@[simp] theorem Bunch.setSplit_heldTrip (b : Bunch) (e : Nat) (sp : Split) : (b.setSplit e sp).heldTrip = b.heldTrip := rfl
@[simp] theorem Bunch.setSplit_record (b : Bunch) (e : Nat) (sp : Split) : (b.setSplit e sp).record = b.record := rfl
@[simp] theorem Bunch.setSplit_poison (b : Bunch) (e : Nat) (sp : Split) : (b.setSplit e sp).poison = b.poison := rfl
@[simp] theorem Bunch.setSplit_lastPc (b : Bunch) (e : Nat) (sp : Split) : (b.setSplit e sp).lastPc = b.lastPc := rfl

/-! ### dropSplit -/

@[simp] theorem Bunch.dropSplit_ctx (b : Bunch) (e : Nat) : (b.dropSplit e).ctx = b.ctx := rfl
@[simp] theorem Bunch.dropSplit_launch (b : Bunch) (e : Nat) : (b.dropSplit e).launch = b.launch := rfl
@[simp] theorem Bunch.dropSplit_team (b : Bunch) (e : Nat) : (b.dropSplit e).team = b.team := rfl
@[simp] theorem Bunch.dropSplit_core (b : Bunch) (e : Nat) : (b.dropSplit e).core = b.core := rfl
@[simp] theorem Bunch.dropSplit_pad (b : Bunch) (e : Nat) : (b.dropSplit e).pad = b.pad := rfl
@[simp] theorem Bunch.dropSplit_slot (b : Bunch) (e : Nat) : (b.dropSplit e).slot = b.slot := rfl
@[simp] theorem Bunch.dropSplit_home (b : Bunch) (e : Nat) : (b.dropSplit e).home = b.home := rfl
@[simp] theorem Bunch.dropSplit_num (b : Bunch) (e : Nat) : (b.dropSplit e).num = b.num := rfl
@[simp] theorem Bunch.dropSplit_role (b : Bunch) (e : Nat) : (b.dropSplit e).role = b.role := rfl
@[simp] theorem Bunch.dropSplit_width (b : Bunch) (e : Nat) : (b.dropSplit e).width = b.width := rfl
@[simp] theorem Bunch.dropSplit_budget (b : Bunch) (e : Nat) : (b.dropSplit e).budget = b.budget := rfl
@[simp] theorem Bunch.dropSplit_active (b : Bunch) (e : Nat) : (b.dropSplit e).active = b.active := rfl
@[simp] theorem Bunch.dropSplit_helper (b : Bunch) (e : Nat) : (b.dropSplit e).helper = b.helper := rfl
@[simp] theorem Bunch.dropSplit_items (b : Bunch) (e : Nat) : (b.dropSplit e).items = b.items := rfl
@[simp] theorem Bunch.dropSplit_gens (b : Bunch) (e : Nat) : (b.dropSplit e).gens = b.gens := rfl
@[simp] theorem Bunch.dropSplit_noItems (b : Bunch) (e : Nat) : (b.dropSplit e).noItems = b.noItems := rfl
@[simp] theorem Bunch.dropSplit_v (b : Bunch) (e : Nat) : (b.dropSplit e).v = b.v := rfl
@[simp] theorem Bunch.dropSplit_p (b : Bunch) (e : Nat) : (b.dropSplit e).p = b.p := rfl
@[simp] theorem Bunch.dropSplit_k (b : Bunch) (e : Nat) : (b.dropSplit e).k = b.k := rfl
@[simp] theorem Bunch.dropSplit_splits (b : Bunch) (e : Nat) : (b.dropSplit e).splits = (Store.erase b.splits e) := rfl
@[simp] theorem Bunch.dropSplit_nextDiv (b : Bunch) (e : Nat) : (b.dropSplit e).nextDiv = b.nextDiv := rfl
@[simp] theorem Bunch.dropSplit_drained (b : Bunch) (e : Nat) : (b.dropSplit e).drained = b.drained := rfl
@[simp] theorem Bunch.dropSplit_bars (b : Bunch) (e : Nat) : (b.dropSplit e).bars = b.bars := rfl
@[simp] theorem Bunch.dropSplit_pends (b : Bunch) (e : Nat) : (b.dropSplit e).pends = b.pends := rfl
@[simp] theorem Bunch.dropSplit_ops (b : Bunch) (e : Nat) : (b.dropSplit e).ops = b.ops := rfl
@[simp] theorem Bunch.dropSplit_fpStat (b : Bunch) (e : Nat) : (b.dropSplit e).fpStat = b.fpStat := rfl
@[simp] theorem Bunch.dropSplit_tokRec (b : Bunch) (e : Nat) : (b.dropSplit e).tokRec = b.tokRec := rfl
@[simp] theorem Bunch.dropSplit_tokCrc (b : Bunch) (e : Nat) : (b.dropSplit e).tokCrc = b.tokCrc := rfl
@[simp] theorem Bunch.dropSplit_tokCrcOp (b : Bunch) (e : Nat) : (b.dropSplit e).tokCrcOp = b.tokCrcOp := rfl
@[simp] theorem Bunch.dropSplit_fltCause (b : Bunch) (e : Nat) : (b.dropSplit e).fltCause = b.fltCause := rfl
@[simp] theorem Bunch.dropSplit_fltAddr (b : Bunch) (e : Nat) : (b.dropSplit e).fltAddr = b.fltAddr := rfl
@[simp] theorem Bunch.dropSplit_fltMask (b : Bunch) (e : Nat) : (b.dropSplit e).fltMask = b.fltMask := rfl
@[simp] theorem Bunch.dropSplit_fltPc (b : Bunch) (e : Nat) : (b.dropSplit e).fltPc = b.fltPc := rfl
@[simp] theorem Bunch.dropSplit_laneFlt (b : Bunch) (e : Nat) : (b.dropSplit e).laneFlt = b.laneFlt := rfl
@[simp] theorem Bunch.dropSplit_fltNext (b : Bunch) (e : Nat) : (b.dropSplit e).fltNext = b.fltNext := rfl
@[simp] theorem Bunch.dropSplit_fltStall (b : Bunch) (e : Nat) : (b.dropSplit e).fltStall = b.fltStall := rfl
@[simp] theorem Bunch.dropSplit_fltAfter (b : Bunch) (e : Nat) : (b.dropSplit e).fltAfter = b.fltAfter := rfl
@[simp] theorem Bunch.dropSplit_fltWait (b : Bunch) (e : Nat) : (b.dropSplit e).fltWait = b.fltWait := rfl
@[simp] theorem Bunch.dropSplit_fltOps (b : Bunch) (e : Nat) : (b.dropSplit e).fltOps = b.fltOps := rfl
@[simp] theorem Bunch.dropSplit_shMask (b : Bunch) (e : Nat) : (b.dropSplit e).shMask = b.shMask := rfl
@[simp] theorem Bunch.dropSplit_shV (b : Bunch) (e : Nat) : (b.dropSplit e).shV = b.shV := rfl
@[simp] theorem Bunch.dropSplit_shP (b : Bunch) (e : Nat) : (b.dropSplit e).shP = b.shP := rfl
@[simp] theorem Bunch.dropSplit_shK (b : Bunch) (e : Nat) : (b.dropSplit e).shK = b.shK := rfl
@[simp] theorem Bunch.dropSplit_futures (b : Bunch) (e : Nat) : (b.dropSplit e).futures = b.futures := rfl
@[simp] theorem Bunch.dropSplit_newFuts (b : Bunch) (e : Nat) : (b.dropSplit e).newFuts = b.newFuts := rfl
@[simp] theorem Bunch.dropSplit_futSwap (b : Bunch) (e : Nat) : (b.dropSplit e).futSwap = b.futSwap := rfl
@[simp] theorem Bunch.dropSplit_cursors (b : Bunch) (e : Nat) : (b.dropSplit e).cursors = b.cursors := rfl
@[simp] theorem Bunch.dropSplit_deadline (b : Bunch) (e : Nat) : (b.dropSplit e).deadline = b.deadline := rfl
@[simp] theorem Bunch.dropSplit_heldTrip (b : Bunch) (e : Nat) : (b.dropSplit e).heldTrip = b.heldTrip := rfl
@[simp] theorem Bunch.dropSplit_record (b : Bunch) (e : Nat) : (b.dropSplit e).record = b.record := rfl
@[simp] theorem Bunch.dropSplit_poison (b : Bunch) (e : Nat) : (b.dropSplit e).poison = b.poison := rfl
@[simp] theorem Bunch.dropSplit_lastPc (b : Bunch) (e : Nat) : (b.dropSplit e).lastPc = b.lastPc := rfl

/-! ### setV -/

@[simp] theorem Bunch.setV_ctx (b : Bunch) (n lane : Nat) (x : Word) : (b.setV n lane x).ctx = b.ctx := rfl
@[simp] theorem Bunch.setV_launch (b : Bunch) (n lane : Nat) (x : Word) : (b.setV n lane x).launch = b.launch := rfl
@[simp] theorem Bunch.setV_team (b : Bunch) (n lane : Nat) (x : Word) : (b.setV n lane x).team = b.team := rfl
@[simp] theorem Bunch.setV_core (b : Bunch) (n lane : Nat) (x : Word) : (b.setV n lane x).core = b.core := rfl
@[simp] theorem Bunch.setV_pad (b : Bunch) (n lane : Nat) (x : Word) : (b.setV n lane x).pad = b.pad := rfl
@[simp] theorem Bunch.setV_slot (b : Bunch) (n lane : Nat) (x : Word) : (b.setV n lane x).slot = b.slot := rfl
@[simp] theorem Bunch.setV_home (b : Bunch) (n lane : Nat) (x : Word) : (b.setV n lane x).home = b.home := rfl
@[simp] theorem Bunch.setV_num (b : Bunch) (n lane : Nat) (x : Word) : (b.setV n lane x).num = b.num := rfl
@[simp] theorem Bunch.setV_role (b : Bunch) (n lane : Nat) (x : Word) : (b.setV n lane x).role = b.role := rfl
@[simp] theorem Bunch.setV_width (b : Bunch) (n lane : Nat) (x : Word) : (b.setV n lane x).width = b.width := rfl
@[simp] theorem Bunch.setV_budget (b : Bunch) (n lane : Nat) (x : Word) : (b.setV n lane x).budget = b.budget := rfl
@[simp] theorem Bunch.setV_active (b : Bunch) (n lane : Nat) (x : Word) : (b.setV n lane x).active = b.active := rfl
@[simp] theorem Bunch.setV_helper (b : Bunch) (n lane : Nat) (x : Word) : (b.setV n lane x).helper = b.helper := rfl
@[simp] theorem Bunch.setV_items (b : Bunch) (n lane : Nat) (x : Word) : (b.setV n lane x).items = b.items := rfl
@[simp] theorem Bunch.setV_gens (b : Bunch) (n lane : Nat) (x : Word) : (b.setV n lane x).gens = b.gens := rfl
@[simp] theorem Bunch.setV_noItems (b : Bunch) (n lane : Nat) (x : Word) : (b.setV n lane x).noItems = b.noItems := rfl
@[simp] theorem Bunch.setV_v (b : Bunch) (n lane : Nat) (x : Word) : (b.setV n lane x).v = (Store.put 0 b.v (32 * n + lane) x) := rfl
@[simp] theorem Bunch.setV_p (b : Bunch) (n lane : Nat) (x : Word) : (b.setV n lane x).p = b.p := rfl
@[simp] theorem Bunch.setV_k (b : Bunch) (n lane : Nat) (x : Word) : (b.setV n lane x).k = b.k := rfl
@[simp] theorem Bunch.setV_splits (b : Bunch) (n lane : Nat) (x : Word) : (b.setV n lane x).splits = b.splits := rfl
@[simp] theorem Bunch.setV_nextDiv (b : Bunch) (n lane : Nat) (x : Word) : (b.setV n lane x).nextDiv = b.nextDiv := rfl
@[simp] theorem Bunch.setV_drained (b : Bunch) (n lane : Nat) (x : Word) : (b.setV n lane x).drained = b.drained := rfl
@[simp] theorem Bunch.setV_bars (b : Bunch) (n lane : Nat) (x : Word) : (b.setV n lane x).bars = b.bars := rfl
@[simp] theorem Bunch.setV_pends (b : Bunch) (n lane : Nat) (x : Word) : (b.setV n lane x).pends = b.pends := rfl
@[simp] theorem Bunch.setV_ops (b : Bunch) (n lane : Nat) (x : Word) : (b.setV n lane x).ops = b.ops := rfl
@[simp] theorem Bunch.setV_fpStat (b : Bunch) (n lane : Nat) (x : Word) : (b.setV n lane x).fpStat = b.fpStat := rfl
@[simp] theorem Bunch.setV_tokRec (b : Bunch) (n lane : Nat) (x : Word) : (b.setV n lane x).tokRec = b.tokRec := rfl
@[simp] theorem Bunch.setV_tokCrc (b : Bunch) (n lane : Nat) (x : Word) : (b.setV n lane x).tokCrc = b.tokCrc := rfl
@[simp] theorem Bunch.setV_tokCrcOp (b : Bunch) (n lane : Nat) (x : Word) : (b.setV n lane x).tokCrcOp = b.tokCrcOp := rfl
@[simp] theorem Bunch.setV_fltCause (b : Bunch) (n lane : Nat) (x : Word) : (b.setV n lane x).fltCause = b.fltCause := rfl
@[simp] theorem Bunch.setV_fltAddr (b : Bunch) (n lane : Nat) (x : Word) : (b.setV n lane x).fltAddr = b.fltAddr := rfl
@[simp] theorem Bunch.setV_fltMask (b : Bunch) (n lane : Nat) (x : Word) : (b.setV n lane x).fltMask = b.fltMask := rfl
@[simp] theorem Bunch.setV_fltPc (b : Bunch) (n lane : Nat) (x : Word) : (b.setV n lane x).fltPc = b.fltPc := rfl
@[simp] theorem Bunch.setV_laneFlt (b : Bunch) (n lane : Nat) (x : Word) : (b.setV n lane x).laneFlt = b.laneFlt := rfl
@[simp] theorem Bunch.setV_fltNext (b : Bunch) (n lane : Nat) (x : Word) : (b.setV n lane x).fltNext = b.fltNext := rfl
@[simp] theorem Bunch.setV_fltStall (b : Bunch) (n lane : Nat) (x : Word) : (b.setV n lane x).fltStall = b.fltStall := rfl
@[simp] theorem Bunch.setV_fltAfter (b : Bunch) (n lane : Nat) (x : Word) : (b.setV n lane x).fltAfter = b.fltAfter := rfl
@[simp] theorem Bunch.setV_fltWait (b : Bunch) (n lane : Nat) (x : Word) : (b.setV n lane x).fltWait = b.fltWait := rfl
@[simp] theorem Bunch.setV_fltOps (b : Bunch) (n lane : Nat) (x : Word) : (b.setV n lane x).fltOps = b.fltOps := rfl
@[simp] theorem Bunch.setV_shMask (b : Bunch) (n lane : Nat) (x : Word) : (b.setV n lane x).shMask = b.shMask := rfl
@[simp] theorem Bunch.setV_shV (b : Bunch) (n lane : Nat) (x : Word) : (b.setV n lane x).shV = b.shV := rfl
@[simp] theorem Bunch.setV_shP (b : Bunch) (n lane : Nat) (x : Word) : (b.setV n lane x).shP = b.shP := rfl
@[simp] theorem Bunch.setV_shK (b : Bunch) (n lane : Nat) (x : Word) : (b.setV n lane x).shK = b.shK := rfl
@[simp] theorem Bunch.setV_futures (b : Bunch) (n lane : Nat) (x : Word) : (b.setV n lane x).futures = b.futures := rfl
@[simp] theorem Bunch.setV_newFuts (b : Bunch) (n lane : Nat) (x : Word) : (b.setV n lane x).newFuts = b.newFuts := rfl
@[simp] theorem Bunch.setV_futSwap (b : Bunch) (n lane : Nat) (x : Word) : (b.setV n lane x).futSwap = b.futSwap := rfl
@[simp] theorem Bunch.setV_cursors (b : Bunch) (n lane : Nat) (x : Word) : (b.setV n lane x).cursors = b.cursors := rfl
@[simp] theorem Bunch.setV_deadline (b : Bunch) (n lane : Nat) (x : Word) : (b.setV n lane x).deadline = b.deadline := rfl
@[simp] theorem Bunch.setV_heldTrip (b : Bunch) (n lane : Nat) (x : Word) : (b.setV n lane x).heldTrip = b.heldTrip := rfl
@[simp] theorem Bunch.setV_record (b : Bunch) (n lane : Nat) (x : Word) : (b.setV n lane x).record = b.record := rfl
@[simp] theorem Bunch.setV_poison (b : Bunch) (n lane : Nat) (x : Word) : (b.setV n lane x).poison = b.poison := rfl
@[simp] theorem Bunch.setV_lastPc (b : Bunch) (n lane : Nat) (x : Word) : (b.setV n lane x).lastPc = b.lastPc := rfl

/-! ### setK -/

@[simp] theorem Bunch.setK_ctx (b : Bunch) (n : Nat) (x : Word) : (b.setK n x).ctx = b.ctx := rfl
@[simp] theorem Bunch.setK_launch (b : Bunch) (n : Nat) (x : Word) : (b.setK n x).launch = b.launch := rfl
@[simp] theorem Bunch.setK_team (b : Bunch) (n : Nat) (x : Word) : (b.setK n x).team = b.team := rfl
@[simp] theorem Bunch.setK_core (b : Bunch) (n : Nat) (x : Word) : (b.setK n x).core = b.core := rfl
@[simp] theorem Bunch.setK_pad (b : Bunch) (n : Nat) (x : Word) : (b.setK n x).pad = b.pad := rfl
@[simp] theorem Bunch.setK_slot (b : Bunch) (n : Nat) (x : Word) : (b.setK n x).slot = b.slot := rfl
@[simp] theorem Bunch.setK_home (b : Bunch) (n : Nat) (x : Word) : (b.setK n x).home = b.home := rfl
@[simp] theorem Bunch.setK_num (b : Bunch) (n : Nat) (x : Word) : (b.setK n x).num = b.num := rfl
@[simp] theorem Bunch.setK_role (b : Bunch) (n : Nat) (x : Word) : (b.setK n x).role = b.role := rfl
@[simp] theorem Bunch.setK_width (b : Bunch) (n : Nat) (x : Word) : (b.setK n x).width = b.width := rfl
@[simp] theorem Bunch.setK_budget (b : Bunch) (n : Nat) (x : Word) : (b.setK n x).budget = b.budget := rfl
@[simp] theorem Bunch.setK_active (b : Bunch) (n : Nat) (x : Word) : (b.setK n x).active = b.active := rfl
@[simp] theorem Bunch.setK_helper (b : Bunch) (n : Nat) (x : Word) : (b.setK n x).helper = b.helper := rfl
@[simp] theorem Bunch.setK_items (b : Bunch) (n : Nat) (x : Word) : (b.setK n x).items = b.items := rfl
@[simp] theorem Bunch.setK_gens (b : Bunch) (n : Nat) (x : Word) : (b.setK n x).gens = b.gens := rfl
@[simp] theorem Bunch.setK_noItems (b : Bunch) (n : Nat) (x : Word) : (b.setK n x).noItems = b.noItems := rfl
@[simp] theorem Bunch.setK_v (b : Bunch) (n : Nat) (x : Word) : (b.setK n x).v = b.v := rfl
@[simp] theorem Bunch.setK_p (b : Bunch) (n : Nat) (x : Word) : (b.setK n x).p = b.p := rfl
@[simp] theorem Bunch.setK_k (b : Bunch) (n : Nat) (x : Word) : (b.setK n x).k = (Store.put 0 b.k n x) := rfl
@[simp] theorem Bunch.setK_splits (b : Bunch) (n : Nat) (x : Word) : (b.setK n x).splits = b.splits := rfl
@[simp] theorem Bunch.setK_nextDiv (b : Bunch) (n : Nat) (x : Word) : (b.setK n x).nextDiv = b.nextDiv := rfl
@[simp] theorem Bunch.setK_drained (b : Bunch) (n : Nat) (x : Word) : (b.setK n x).drained = b.drained := rfl
@[simp] theorem Bunch.setK_bars (b : Bunch) (n : Nat) (x : Word) : (b.setK n x).bars = b.bars := rfl
@[simp] theorem Bunch.setK_pends (b : Bunch) (n : Nat) (x : Word) : (b.setK n x).pends = b.pends := rfl
@[simp] theorem Bunch.setK_ops (b : Bunch) (n : Nat) (x : Word) : (b.setK n x).ops = b.ops := rfl
@[simp] theorem Bunch.setK_fpStat (b : Bunch) (n : Nat) (x : Word) : (b.setK n x).fpStat = b.fpStat := rfl
@[simp] theorem Bunch.setK_tokRec (b : Bunch) (n : Nat) (x : Word) : (b.setK n x).tokRec = b.tokRec := rfl
@[simp] theorem Bunch.setK_tokCrc (b : Bunch) (n : Nat) (x : Word) : (b.setK n x).tokCrc = b.tokCrc := rfl
@[simp] theorem Bunch.setK_tokCrcOp (b : Bunch) (n : Nat) (x : Word) : (b.setK n x).tokCrcOp = b.tokCrcOp := rfl
@[simp] theorem Bunch.setK_fltCause (b : Bunch) (n : Nat) (x : Word) : (b.setK n x).fltCause = b.fltCause := rfl
@[simp] theorem Bunch.setK_fltAddr (b : Bunch) (n : Nat) (x : Word) : (b.setK n x).fltAddr = b.fltAddr := rfl
@[simp] theorem Bunch.setK_fltMask (b : Bunch) (n : Nat) (x : Word) : (b.setK n x).fltMask = b.fltMask := rfl
@[simp] theorem Bunch.setK_fltPc (b : Bunch) (n : Nat) (x : Word) : (b.setK n x).fltPc = b.fltPc := rfl
@[simp] theorem Bunch.setK_laneFlt (b : Bunch) (n : Nat) (x : Word) : (b.setK n x).laneFlt = b.laneFlt := rfl
@[simp] theorem Bunch.setK_fltNext (b : Bunch) (n : Nat) (x : Word) : (b.setK n x).fltNext = b.fltNext := rfl
@[simp] theorem Bunch.setK_fltStall (b : Bunch) (n : Nat) (x : Word) : (b.setK n x).fltStall = b.fltStall := rfl
@[simp] theorem Bunch.setK_fltAfter (b : Bunch) (n : Nat) (x : Word) : (b.setK n x).fltAfter = b.fltAfter := rfl
@[simp] theorem Bunch.setK_fltWait (b : Bunch) (n : Nat) (x : Word) : (b.setK n x).fltWait = b.fltWait := rfl
@[simp] theorem Bunch.setK_fltOps (b : Bunch) (n : Nat) (x : Word) : (b.setK n x).fltOps = b.fltOps := rfl
@[simp] theorem Bunch.setK_shMask (b : Bunch) (n : Nat) (x : Word) : (b.setK n x).shMask = b.shMask := rfl
@[simp] theorem Bunch.setK_shV (b : Bunch) (n : Nat) (x : Word) : (b.setK n x).shV = b.shV := rfl
@[simp] theorem Bunch.setK_shP (b : Bunch) (n : Nat) (x : Word) : (b.setK n x).shP = b.shP := rfl
@[simp] theorem Bunch.setK_shK (b : Bunch) (n : Nat) (x : Word) : (b.setK n x).shK = b.shK := rfl
@[simp] theorem Bunch.setK_futures (b : Bunch) (n : Nat) (x : Word) : (b.setK n x).futures = b.futures := rfl
@[simp] theorem Bunch.setK_newFuts (b : Bunch) (n : Nat) (x : Word) : (b.setK n x).newFuts = b.newFuts := rfl
@[simp] theorem Bunch.setK_futSwap (b : Bunch) (n : Nat) (x : Word) : (b.setK n x).futSwap = b.futSwap := rfl
@[simp] theorem Bunch.setK_cursors (b : Bunch) (n : Nat) (x : Word) : (b.setK n x).cursors = b.cursors := rfl
@[simp] theorem Bunch.setK_deadline (b : Bunch) (n : Nat) (x : Word) : (b.setK n x).deadline = b.deadline := rfl
@[simp] theorem Bunch.setK_heldTrip (b : Bunch) (n : Nat) (x : Word) : (b.setK n x).heldTrip = b.heldTrip := rfl
@[simp] theorem Bunch.setK_record (b : Bunch) (n : Nat) (x : Word) : (b.setK n x).record = b.record := rfl
@[simp] theorem Bunch.setK_poison (b : Bunch) (n : Nat) (x : Word) : (b.setK n x).poison = b.poison := rfl
@[simp] theorem Bunch.setK_lastPc (b : Bunch) (n : Nat) (x : Word) : (b.setK n x).lastPc = b.lastPc := rfl

/-! ### setP -/

@[simp] theorem Bunch.setP_ctx (b : Bunch) (n : Nat) (m x : Mask) : (b.setP n m x).ctx = b.ctx := by
  unfold Bunch.setP; split <;> rfl
@[simp] theorem Bunch.setP_launch (b : Bunch) (n : Nat) (m x : Mask) : (b.setP n m x).launch = b.launch := by
  unfold Bunch.setP; split <;> rfl
@[simp] theorem Bunch.setP_team (b : Bunch) (n : Nat) (m x : Mask) : (b.setP n m x).team = b.team := by
  unfold Bunch.setP; split <;> rfl
@[simp] theorem Bunch.setP_core (b : Bunch) (n : Nat) (m x : Mask) : (b.setP n m x).core = b.core := by
  unfold Bunch.setP; split <;> rfl
@[simp] theorem Bunch.setP_slot (b : Bunch) (n : Nat) (m x : Mask) : (b.setP n m x).slot = b.slot := by
  unfold Bunch.setP; split <;> rfl
@[simp] theorem Bunch.setP_home (b : Bunch) (n : Nat) (m x : Mask) : (b.setP n m x).home = b.home := by
  unfold Bunch.setP; split <;> rfl
@[simp] theorem Bunch.setP_num (b : Bunch) (n : Nat) (m x : Mask) : (b.setP n m x).num = b.num := by
  unfold Bunch.setP; split <;> rfl
@[simp] theorem Bunch.setP_role (b : Bunch) (n : Nat) (m x : Mask) : (b.setP n m x).role = b.role := by
  unfold Bunch.setP; split <;> rfl
@[simp] theorem Bunch.setP_width (b : Bunch) (n : Nat) (m x : Mask) : (b.setP n m x).width = b.width := by
  unfold Bunch.setP; split <;> rfl
@[simp] theorem Bunch.setP_budget (b : Bunch) (n : Nat) (m x : Mask) : (b.setP n m x).budget = b.budget := by
  unfold Bunch.setP; split <;> rfl
@[simp] theorem Bunch.setP_active (b : Bunch) (n : Nat) (m x : Mask) : (b.setP n m x).active = b.active := by
  unfold Bunch.setP; split <;> rfl
@[simp] theorem Bunch.setP_helper (b : Bunch) (n : Nat) (m x : Mask) : (b.setP n m x).helper = b.helper := by
  unfold Bunch.setP; split <;> rfl
@[simp] theorem Bunch.setP_items (b : Bunch) (n : Nat) (m x : Mask) : (b.setP n m x).items = b.items := by
  unfold Bunch.setP; split <;> rfl
@[simp] theorem Bunch.setP_gens (b : Bunch) (n : Nat) (m x : Mask) : (b.setP n m x).gens = b.gens := by
  unfold Bunch.setP; split <;> rfl
@[simp] theorem Bunch.setP_noItems (b : Bunch) (n : Nat) (m x : Mask) : (b.setP n m x).noItems = b.noItems := by
  unfold Bunch.setP; split <;> rfl
@[simp] theorem Bunch.setP_v (b : Bunch) (n : Nat) (m x : Mask) : (b.setP n m x).v = b.v := by
  unfold Bunch.setP; split <;> rfl
@[simp] theorem Bunch.setP_k (b : Bunch) (n : Nat) (m x : Mask) : (b.setP n m x).k = b.k := by
  unfold Bunch.setP; split <;> rfl
@[simp] theorem Bunch.setP_splits (b : Bunch) (n : Nat) (m x : Mask) : (b.setP n m x).splits = b.splits := by
  unfold Bunch.setP; split <;> rfl
@[simp] theorem Bunch.setP_nextDiv (b : Bunch) (n : Nat) (m x : Mask) : (b.setP n m x).nextDiv = b.nextDiv := by
  unfold Bunch.setP; split <;> rfl
@[simp] theorem Bunch.setP_drained (b : Bunch) (n : Nat) (m x : Mask) : (b.setP n m x).drained = b.drained := by
  unfold Bunch.setP; split <;> rfl
@[simp] theorem Bunch.setP_bars (b : Bunch) (n : Nat) (m x : Mask) : (b.setP n m x).bars = b.bars := by
  unfold Bunch.setP; split <;> rfl
@[simp] theorem Bunch.setP_pends (b : Bunch) (n : Nat) (m x : Mask) : (b.setP n m x).pends = b.pends := by
  unfold Bunch.setP; split <;> rfl
@[simp] theorem Bunch.setP_ops (b : Bunch) (n : Nat) (m x : Mask) : (b.setP n m x).ops = b.ops := by
  unfold Bunch.setP; split <;> rfl
@[simp] theorem Bunch.setP_fpStat (b : Bunch) (n : Nat) (m x : Mask) : (b.setP n m x).fpStat = b.fpStat := by
  unfold Bunch.setP; split <;> rfl
@[simp] theorem Bunch.setP_tokRec (b : Bunch) (n : Nat) (m x : Mask) : (b.setP n m x).tokRec = b.tokRec := by
  unfold Bunch.setP; split <;> rfl
@[simp] theorem Bunch.setP_tokCrc (b : Bunch) (n : Nat) (m x : Mask) : (b.setP n m x).tokCrc = b.tokCrc := by
  unfold Bunch.setP; split <;> rfl
@[simp] theorem Bunch.setP_tokCrcOp (b : Bunch) (n : Nat) (m x : Mask) : (b.setP n m x).tokCrcOp = b.tokCrcOp := by
  unfold Bunch.setP; split <;> rfl
@[simp] theorem Bunch.setP_fltCause (b : Bunch) (n : Nat) (m x : Mask) : (b.setP n m x).fltCause = b.fltCause := by
  unfold Bunch.setP; split <;> rfl
@[simp] theorem Bunch.setP_fltAddr (b : Bunch) (n : Nat) (m x : Mask) : (b.setP n m x).fltAddr = b.fltAddr := by
  unfold Bunch.setP; split <;> rfl
@[simp] theorem Bunch.setP_fltMask (b : Bunch) (n : Nat) (m x : Mask) : (b.setP n m x).fltMask = b.fltMask := by
  unfold Bunch.setP; split <;> rfl
@[simp] theorem Bunch.setP_fltPc (b : Bunch) (n : Nat) (m x : Mask) : (b.setP n m x).fltPc = b.fltPc := by
  unfold Bunch.setP; split <;> rfl
@[simp] theorem Bunch.setP_laneFlt (b : Bunch) (n : Nat) (m x : Mask) : (b.setP n m x).laneFlt = b.laneFlt := by
  unfold Bunch.setP; split <;> rfl
@[simp] theorem Bunch.setP_fltNext (b : Bunch) (n : Nat) (m x : Mask) : (b.setP n m x).fltNext = b.fltNext := by
  unfold Bunch.setP; split <;> rfl
@[simp] theorem Bunch.setP_fltStall (b : Bunch) (n : Nat) (m x : Mask) : (b.setP n m x).fltStall = b.fltStall := by
  unfold Bunch.setP; split <;> rfl
@[simp] theorem Bunch.setP_fltWait (b : Bunch) (n : Nat) (m x : Mask) : (b.setP n m x).fltWait = b.fltWait := by
  unfold Bunch.setP; split <;> rfl
@[simp] theorem Bunch.setP_fltOps (b : Bunch) (n : Nat) (m x : Mask) : (b.setP n m x).fltOps = b.fltOps := by
  unfold Bunch.setP; split <;> rfl
@[simp] theorem Bunch.setP_shMask (b : Bunch) (n : Nat) (m x : Mask) : (b.setP n m x).shMask = b.shMask := by
  unfold Bunch.setP; split <;> rfl
@[simp] theorem Bunch.setP_shV (b : Bunch) (n : Nat) (m x : Mask) : (b.setP n m x).shV = b.shV := by
  unfold Bunch.setP; split <;> rfl
@[simp] theorem Bunch.setP_shP (b : Bunch) (n : Nat) (m x : Mask) : (b.setP n m x).shP = b.shP := by
  unfold Bunch.setP; split <;> rfl
@[simp] theorem Bunch.setP_shK (b : Bunch) (n : Nat) (m x : Mask) : (b.setP n m x).shK = b.shK := by
  unfold Bunch.setP; split <;> rfl
@[simp] theorem Bunch.setP_futures (b : Bunch) (n : Nat) (m x : Mask) : (b.setP n m x).futures = b.futures := by
  unfold Bunch.setP; split <;> rfl
@[simp] theorem Bunch.setP_newFuts (b : Bunch) (n : Nat) (m x : Mask) : (b.setP n m x).newFuts = b.newFuts := by
  unfold Bunch.setP; split <;> rfl
@[simp] theorem Bunch.setP_futSwap (b : Bunch) (n : Nat) (m x : Mask) : (b.setP n m x).futSwap = b.futSwap := by
  unfold Bunch.setP; split <;> rfl
@[simp] theorem Bunch.setP_cursors (b : Bunch) (n : Nat) (m x : Mask) : (b.setP n m x).cursors = b.cursors := by
  unfold Bunch.setP; split <;> rfl
@[simp] theorem Bunch.setP_deadline (b : Bunch) (n : Nat) (m x : Mask) : (b.setP n m x).deadline = b.deadline := by
  unfold Bunch.setP; split <;> rfl
@[simp] theorem Bunch.setP_heldTrip (b : Bunch) (n : Nat) (m x : Mask) : (b.setP n m x).heldTrip = b.heldTrip := by
  unfold Bunch.setP; split <;> rfl
@[simp] theorem Bunch.setP_record (b : Bunch) (n : Nat) (m x : Mask) : (b.setP n m x).record = b.record := by
  unfold Bunch.setP; split <;> rfl
@[simp] theorem Bunch.setP_poison (b : Bunch) (n : Nat) (m x : Mask) : (b.setP n m x).poison = b.poison := by
  unfold Bunch.setP; split <;> rfl
@[simp] theorem Bunch.setP_pad (b : Bunch) (n : Nat) (m x : Mask) : (b.setP n m x).pad = b.pad := by
  unfold Bunch.setP; split <;> rfl
@[simp] theorem Bunch.setP_fltAfter (b : Bunch) (n : Nat) (m x : Mask) : (b.setP n m x).fltAfter = b.fltAfter := by
  unfold Bunch.setP; split <;> rfl
@[simp] theorem Bunch.setP_lastPc (b : Bunch) (n : Nat) (m x : Mask) : (b.setP n m x).lastPc = b.lastPc := by
  unfold Bunch.setP; split <;> rfl

/-! ### Reading back -/

@[simp] theorem State.ctx_setCtx (s : State) (c : Nat) (x : Context) (d : Nat) :
    (s.setCtx c x).ctx d = if d = c then x else s.ctx d := by simp [State.ctx]
@[simp] theorem State.core_setCore (s : State) (c : Nat) (x : Core) (d : Nat) :
    (s.setCore c x).core d = if d = c then x else s.core d := by simp [State.core]
@[simp] theorem State.ctx_setBunch (s : State) (i : Nat) (b : Bunch) (c : Nat) : (s.setBunch i b).ctx c = s.ctx c := rfl
@[simp] theorem State.core_setBunch (s : State) (i : Nat) (b : Bunch) (c : Nat) : (s.setBunch i b).core c = s.core c := rfl
@[simp] theorem State.ctx_setCore (s : State) (d : Nat) (x : Core) (c : Nat) : (s.setCore d x).ctx c = s.ctx c := rfl
@[simp] theorem State.launch_setBunch (s : State) (i : Nat) (b : Bunch) (l : Nat) : (s.setBunch i b).launch l = s.launch l := rfl
@[simp] theorem State.launch_setCore (s : State) (d : Nat) (x : Core) (l : Nat) : (s.setCore d x).launch l = s.launch l := rfl
@[simp] theorem State.launch_setLaunch (s : State) (l : Nat) (x : Launch) (m : Nat) :
    (s.setLaunch l x).launch m = if m = l then some x else s.launch m := Store.find_insert s.launches l x m
@[simp] theorem State.choice_setBunch (s : State) (i : Nat) (b : Bunch) (n : Nat) : (s.setBunch i b).choice n = s.choice n := rfl

@[simp] theorem Bunch.kAt_setK (b : Bunch) (n : Nat) (x : Word) (m : Nat) :
    (b.setK n x).kAt m = if m = n then x else b.kAt m := Store.get_put 0 b.k n x m
@[simp] theorem Bunch.vAt_setV (b : Bunch) (n l : Nat) (x : Word) (m j : Nat) :
    (b.setV n l x).vAt m j = if 32 * m + j = 32 * n + l then x else b.vAt m j := Store.get_put 0 b.v (32 * n + l) x (32 * m + j)
@[simp] theorem Bunch.vAt_setK (b : Bunch) (n : Nat) (x : Word) (m j : Nat) : (b.setK n x).vAt m j = b.vAt m j := rfl
@[simp] theorem Bunch.kAt_setV (b : Bunch) (n l : Nat) (x : Word) (m : Nat) : (b.setV n l x).kAt m = b.kAt m := rfl
@[simp] theorem Bunch.pAt_setV (b : Bunch) (n l : Nat) (x : Word) (m : Nat) : (b.setV n l x).pAt m = b.pAt m := rfl
@[simp] theorem Bunch.pAt_setK (b : Bunch) (n : Nat) (x : Word) (m : Nat) : (b.setK n x).pAt m = b.pAt m := rfl
@[simp] theorem Bunch.vAt_setP (b : Bunch) (n : Nat) (m x : Mask) (i j : Nat) : (b.setP n m x).vAt i j = b.vAt i j := by
  simp [Bunch.vAt]
@[simp] theorem Bunch.kAt_setP (b : Bunch) (n : Nat) (m x : Mask) (i : Nat) : (b.setP n m x).kAt i = b.kAt i := by simp [Bunch.kAt]
/-- A predicate written in the lanes of a mask; p7 discards the write and reads true (R57). -/
@[simp] theorem Bunch.pAt_setP (b : Bunch) (n : Nat) (m x : Mask) (i : Nat) :
    (b.setP n m x).pAt i = if i = n ∧ n ≠ 7 then (b.pAt n &&& ~~~m) ||| (x &&& m) else b.pAt i := by
  by_cases h7 : n = 7
  · simp [Bunch.setP, h7]
  · simp only [Bunch.setP, h7, if_false, ne_eq, not_false_eq_true, and_true]
    by_cases hi : i = 7
    · have : ¬ i = n := fun e => h7 (e ▸ hi)
      simp [Bunch.pAt, hi, Ne.symm h7]
    · simp only [Bunch.pAt, hi, if_false, Store.get_put]

end Sys2Proof.Machine
end

