-- ==== Sys2Proof/Laws/Issue.lean ====
section
/-! SUPPORT. What issuing an instruction does, once for all meanings: an instruction that runs reaches its meaning and then
moves on; one that traps takes the exception. -/

namespace Sys2Proof.Machine

/-! ### Masks and lanes -/

theorem mem_lanesOf (m : Mask) (l : Nat) : l ∈ lanesOf m ↔ m.getLsbD l = true := by
  simp only [lanesOf, List.mem_filter, List.mem_range]
  constructor
  · exact fun h => h.2
  · intro h
    refine ⟨?_, h⟩
    by_cases hl : l < 32
    · exact hl
    · rw [BitVec.getLsbD_of_ge _ _ (by omega)] at h; cases h

theorem lanesOf_lt {m : Mask} {l : Nat} (h : l ∈ lanesOf m) : l < 32 := by
  simp only [lanesOf, List.mem_filter, List.mem_range] at h
  exact h.1

theorem pAt_seven (b : Bunch) : b.pAt 7 = -1 := rfl

/-! ### Hazards -/

theorem Bunch.quiet_not_early {b : Bunch} {now : Nat} {r : Reg} (h : b.quiet now r) (e : Nat) (m : Mask) (w : Bool) :
    b.early now e m w r = false := by
  rcases h with h | ⟨hp, ho⟩
  · simp [Bunch.early, h]
  · simp only [Bunch.early, Bool.and_eq_false_iff, Bool.or_eq_false_iff, List.any_eq_false]
    refine .inr ⟨fun p hp' => ?_, fun o ho' => ?_⟩
    · by_cases hr : p.reg = r
      · have := hp p hp' hr
        simp [hr, Nat.not_lt.mpr this]
      · simp [hr]
    · intro hc
      obtain ⟨w, hw, hw'⟩ := List.any_eq_true.mp (Bool.and_eq_true_iff.mp hc).2
      exact ho o ho' w hw (by simpa using (Bool.and_eq_true_iff.mp hw').1)

theorem filter_not_early {b : Bunch} {now e : Nat} {m : Mask} {w : Bool} {rs : List Reg} (h : ∀ r ∈ rs, b.quiet now r) :
    rs.filter (b.early now e m w) = [] := by
  simp only [List.filter_eq_nil_iff]
  intro r hr
  simp [Bunch.quiet_not_early (h r hr)]

theorem filter_reads_not_early {b : Bunch} {now e : Nat} {f : Reg → Mask} {rs : List Reg} (h : ∀ r ∈ rs, b.quiet now r) :
    rs.filter (fun r => b.early now e (f r) false r) = [] := by
  simp only [List.filter_eq_nil_iff]
  intro r hr
  simp [Bunch.quiet_not_early (h r hr)]

theorem any_reads_not_early {b : Bunch} {now e : Nat} {f : Reg → Mask} {rs : List Reg} (h : ∀ r ∈ rs, b.quiet now r) :
    rs.any (fun r => b.early now e (f r) false r) = false := by
  simp only [List.any_eq_false]
  intro r hr
  simp [Bunch.quiet_not_early (h r hr)]

theorem any_not_early {b : Bunch} {now e : Nat} {m : Mask} {w : Bool} {rs : List Reg} (h : ∀ r ∈ rs, b.quiet now r) :
    rs.any (b.early now e m w) = false := by
  simp only [List.any_eq_false]
  intro r hr
  simp [Bunch.quiet_not_early (h r hr)]

/-! ### The issuing split -/

theorem issuing_some {s : State} {y : View} (h : s.issuing = some y) :
    y.s = s ∧ y.old = [] ∧ y.exec = y.lanes ∧ Store.find s.bunches y.id = some y.b ∧ Store.find y.b.splits y.entry = some y.sp ∧
      y.sp.frozen = false := by
  unfold State.issuing at h
  split at h
  · cases h
  · split at h
    · cases h
    · rename_i b hb
      split at h
      · cases h
      · rename_i sp hsp
        split at h
        · cases h
        · rename_i hf
          cases h
          exact ⟨rfl, rfl, rfl, hb, hsp, by simpa using hf⟩

theorem Runs.s_eq (h : Runs s x g u roles rs) : x.s = s := (issuing_some h.issuing).1
theorem Runs.old_eq (h : Runs s x g u roles rs) : x.old = [] := (issuing_some h.issuing).2.1
theorem Runs.find (h : Runs s x g u roles rs) : Store.find s.bunches x.id = some x.b := (issuing_some h.issuing).2.2.2.1
theorem Runs.split (h : Runs s x g u roles rs) : Store.find x.b.splits x.entry = some x.sp := (issuing_some h.issuing).2.2.2.2.1

/-! ### An instruction that runs reaches its meaning -/

theorem View.withGuard_exec (x : View) (a : Attr) (hg : a.noGuard = true → a.guard = Guard.always ∧ a.uniform = false) :
    x.withGuard a = { x with exec := x.guarded a.guard a.uniform } := by
  unfold View.withGuard View.guarded
  by_cases hn : a.noGuard = true
  · obtain ⟨h1, h2⟩ := hg hn
    rw [hn, h1, h2]
    simp only [if_true, Bool.false_eq_true, if_false]
    rfl
  · cases a.uniform <;> simp [hn]

/-- The meaning of an instruction that runs is reached with the view `x`, and what follows it is `finish`. -/
theorem issue_runs (a : Attr) (body : View → Result) (h : Runs s x a.guard a.uniform a.roles (a.reads ++ a.writes))
    (hg : a.noGuard = true → a.guard = Guard.always ∧ a.uniform = false) (hill : a.ill x = false)
    (hh : a.hnd = .any ∨ (a.hnd = .only ∧ 4 ≤ x.entry) ∨ (a.hnd = .forbidden ∧ x.entry < 4)) :
    issue a body s = .next (finish a x (body x)) := by
  have hs := h.s_eq
  have hq : ∀ r ∈ a.reads, x.b.quiet s.now r := fun r hr => h.quiet r (by simp [hr])
  have hqw : ∀ r ∈ a.writes, x.b.quiet s.now r := fun r hr => h.quiet r (by simp [hr])
  have hqg : x.b.quiet s.now (.p a.guard.pg.toNat) := h.quiet _ (by simp)
  have hx : x = { x with exec := x.guarded a.guard a.uniform } := by
    rw [← h.exec]
  have hview : ({ x with exec := x.lanes } : View).spoilGuard a = { x with exec := x.lanes } := by
    unfold View.spoilGuard
    rw [if_pos]
    simp only [hs, Bunch.quiet_not_early hqg]
    simp
  have hwith : ({ x with exec := x.lanes } : View).withGuard a = x := by
    rw [View.withGuard_exec _ _ hg]
    exact hx.symm
  have hcheck : check a x = none := by
    unfold check
    have h1 : (a.reads ++ a.writes).any (overBudget x.b) = false := by
      simp only [List.any_eq_false]
      intro r hr
      cases r with
      | v n => simp [overBudget, h.budget n hr]
      | k n => simp [overBudget]
      | p n => simp [overBudget]
    have h2 : a.roles.contains x.b.role = true := by simpa using h.role
    have h3 : (x.b.role == .matrix && !a.noGuard && (a.guard.pg != 7 || a.guard.pn || (a.reads ++ a.writes).any notUniform)) = false := by
      by_cases hm : x.b.role = .matrix
      · obtain ⟨e, er⟩ := h.matrix hm
        have : (a.reads ++ a.writes).any notUniform = false := by
          simp only [List.any_eq_false]
          intro r hr
          obtain ⟨n, rfl⟩ := er r hr
          simp [notUniform]
        rw [this, e]
        simp [Guard.always]
      · simp [hm]
    rw [if_neg (by simp only [h1, hill]; simp), if_neg (by rw [h2, h3]; simp)]
    rw [if_neg (by rcases hh with e | ⟨e, e'⟩ | ⟨e, e'⟩ <;> simp [e]; try omega)]
    rw [if_neg (by rcases hh with e | ⟨e, e'⟩ | ⟨e, e'⟩ <;> simp [e]; try omega)]
    rw [if_neg]
    simp only [hs, Bunch.quiet_not_early hqg, any_reads_not_early hq, any_not_early hqw]
    simp
  have hold : x.oldK a = [] := by
    unfold View.oldK
    split
    · simp only [List.filterMap_eq_nil_iff]
      intro r hr
      cases r with
      | k n =>
        have : (x.b.pends.find? fun p => p.reg == .k n && decide (x.s.now < p.ready) && p.entry != x.entry &&
            (Store.find x.b.splits p.entry).isSome) = none := by
          simp only [List.find?_eq_none]
          intro p hp
          rcases hq _ hr with e | ⟨e, -⟩
          · cases e
          · by_cases hr : p.reg = .k n
            · have := e p hp hr
              simp [hr, hs, Nat.not_lt.mpr this]
            · simp [hr]
        simp [this]
      | v n => rfl
      | p n => rfl
    · rfl
  have hpl : x.poisonLanes a = [] := by simp [View.poisonLanes, h.clean]
  have hperf : perform a body x = finish a x (body x) := by
    unfold perform
    rw [hs, filter_reads_not_early hq]
    simp only [List.foldl_nil, List.isEmpty_nil, if_true, hpl, h.find, Bool.not_true, Bool.and_false]
    have : ({ x with s := s, b := x.b, exec := x.exec &&& ~~~(maskOf []), old := x.oldK a } : View) = x := by
      rw [hold, ← h.old_eq, ← hs]
      have : x.exec &&& ~~~(maskOf []) = x.exec := by
        rw [show ~~~(maskOf []) = BitVec.allOnes 32 by decide, BitVec.and_allOnes]
      rw [this]
    simp only [Bool.false_eq_true, if_false]
    rw [this]
  unfold issue
  rw [h.issuing]
  simp only [hview, hwith, hcheck, hperf]

/-! ### After an instruction -/

/-- Moving on changes nothing of the bunch but its splits. -/
theorem setSplit_only (b : Bunch) (e : Nat) (sp : Split) : b.setSplit e sp = { b with splits := (b.setSplit e sp).splits } := rfl

theorem arriveN_only (n : Nat) : ∀ (b : Bunch) (e : Nat), arriveN b e n = { b with splits := (arriveN b e n).splits } := by
  induction n with
  | zero => intro b e; rfl
  | succ n ih =>
    intro b e
    have hfold : ∀ (l : List (Nat × Mask)) (c : Bunch),
        l.foldl (fun c x => c.dropSplit x.1) c = { c with splits := (l.foldl (fun c x => c.dropSplit x.1) c).splits } := by
      intro l
      induction l with
      | nil => intro c; rfl
      | cons x r ihl => intro c; rw [List.foldl_cons, ihl]; rfl
    unfold arriveN
    split
    · rfl
    · split
      · split <;> rfl
      · split
        · split
          · rw [ih]; rfl
          · rfl
        · rfl
      · simp only
        split
        · split
          · rfl
          · split
            · rw [hfold]; rfl
            · split
              · rw [ih, hfold]; rfl
              · split
                · split
                  · rw [ih, hfold]; rfl
                  · rw [hfold]; rfl
                · rw [hfold]; rfl
        · rfl

theorem arriveIf_only (b : Bunch) (e : Nat) : arriveIf b e = { b with splits := (arriveIf b e).splits } := by
  unfold arriveIf arrive
  split
  · rfl
  · split
    · split
      · split
        · rw [arriveN_only]
        · rfl
      · rfl
    · rfl

theorem advance_only (b : Bunch) (x : View) (f : Flow) : b.advance x f = { b with splits := (b.advance x f).splits } := by
  unfold Bunch.advance
  split
  · rfl
  · split
    · rw [arriveIf_only]; rfl
    · rw [arriveIf_only]; rfl
    · rfl
    · rfl
    · split
      · rw [arriveIf_only]; rfl
      · rfl
    · rfl

theorem curePoison_only (b : Bunch) (m : Mask) (rs : List Reg) : b.curePoison m rs = { b with poison := (b.curePoison m rs).poison } := by
  unfold Bunch.curePoison
  split <;> rfl

/-! ### Moving on -/

theorem MovedOn.refl {s : State} {id : Nat} {b : Bunch} (h : Store.find s.bunches id = some b) : MovedOn s s id :=
  ⟨rfl, fun _ _ => rfl, ⟨b, b, h, h, rfl⟩, fun _ => rfl⟩

theorem MovedOn.trans {s t u : State} {id : Nat} (h : MovedOn s t id) (g : MovedOn t u id) : MovedOn s u id := by
  obtain ⟨h1, h2, ⟨b, b', hb, hb', he⟩, h4⟩ := h
  obtain ⟨g1, g2, ⟨c, c', hc, hc', ge⟩, g4⟩ := g
  refine ⟨?_, fun i hi => (g2 i hi).trans (h2 i hi), ⟨b, c', hb, hc', ?_⟩, fun c => ?_⟩
  · rw [g1, h1]
  · rw [hb'] at hc; cases hc; rw [ge, he]
  · rw [g4 c, h4 c]

theorem MovedOn.set {s : State} {id : Nat} {b b' : Bunch} (h : Store.find s.bunches id = some b)
    (e : b' = { b with splits := b'.splits, pends := b'.pends, poison := b'.poison, lastPc := b'.lastPc }) :
    MovedOn s (s.setBunch id b') id :=
  ⟨rfl, fun i hi => by simp [hi], ⟨b, b', h, by simp, e⟩, fun _ => rfl⟩

theorem MovedOn.find {s t : State} {id : Nat} (h : MovedOn s t id) : ∃ b, Store.find t.bunches id = some b := by
  obtain ⟨-, -, ⟨b, b', -, hb', -⟩, -⟩ := h
  exact ⟨b', hb'⟩

theorem MovedOn.onBunch {s : State} {id : Nat} {b : Bunch} {f : Bunch → Bunch} (h : Store.find s.bunches id = some b)
    (e : f b = { b with splits := (f b).splits, pends := (f b).pends, poison := (f b).poison, lastPc := (f b).lastPc }) :
    MovedOn s (s.onBunch id f) id := by
  rw [State.onBunch, h]
  exact MovedOn.set h e

theorem noteIssue_movedOn {s : State} {id : Nat} {b : Bunch} (h : Store.find s.bunches id = some b) (x : View) :
    MovedOn s (s.noteIssue x) id := by
  refine ⟨rfl, fun _ _ => rfl, ⟨b, b, h, h, rfl⟩, fun c => ?_⟩
  unfold State.noteIssue
  simp only [State.core_setCore]
  split <;> rename_i h
  · rw [h]
  · rfl

theorem afterLastSplit_movedOn {s : State} {id : Nat} {b : Bunch} (h : Store.find s.bunches id = some b) :
    MovedOn s (s.afterLastSplit id) id := by
  unfold State.afterLastSplit
  rw [h]
  simp only
  split
  · exact .refl h
  · split
    · split
      · exact .set h rfl
      · exact .refl h
    · exact .refl h

theorem ifEmpty_movedOn {s : State} {id : Nat} {b : Bunch} (h : Store.find s.bunches id = some b) (pc : Pc) :
    MovedOn s (s.ifEmpty id pc) id := by
  unfold State.ifEmpty
  rw [h]
  simp only
  split
  · have : MovedOn s (s.setBunch id { b with lastPc := pc }) id := .set h rfl
    exact this.trans (afterLastSplit_movedOn (b := { b with lastPc := pc }) (by simp))
  · exact .refl h

@[simp] theorem ordered_plain (s : State) (x : View) : s.ordered x false false = s := rfl

/-- The state a meaning leaves, once its acquire or release has acted. -/
abbrev Result.left (r : Result) (a : Attr) (x : View) : State := r.s.ordered x (a.acq && !r.flow.waits) (a.rel && !r.flow.again)

theorem Result.left_plain (r : Result) {a : Attr} (x : View) (ha : a.acq = false) (hr : a.rel = false) : r.left a x = r.s := by
  simp [Result.left, ha, hr]

/-- What follows a meaning without a fault: the bunch moves on from the state the meaning leaves. -/
theorem finish_movedOn (a : Attr) (x : View) (r : Result) (hf : r.faults = []) (hq : ∀ q ∈ a.writes, x.b.quiet x.s.now q)
    {b : Bunch} (hb : Store.find (r.left a x).bunches x.id = some b) : MovedOn (r.left a x) (finish a x r) x.id := by
  unfold finish
  rw [hf, filter_not_early hq]
  simp only [List.isEmpty_nil, if_true]
  have h2 := MovedOn.onBunch (f := fun b => Bunch.advance { b.curePoison x.exec a.writes with
      pends := (b.pends.filter fun p => decide (x.s.now < p.ready)) ++ x.newPends a } x r.flow) hb
    (by rw [advance_only, curePoison_only])
  obtain ⟨b2, hb2⟩ := h2.find
  refine h2.trans ?_
  generalize State.onBunch (r.left a x) x.id _ = s2 at hb2 ⊢
  have h3 : MovedOn s2 (if r.yields then s2.onBunch x.id fun b =>
        match Store.find b.splits x.entry with
        | some sp => b.setSplit x.entry { sp with noGreedy := true }
        | none => b
      else s2) x.id := by
    split
    · refine MovedOn.onBunch hb2 ?_
      split <;> rfl
    · exact .refl hb2
  obtain ⟨b3, hb3⟩ := h3.find
  refine h3.trans ?_
  generalize (if r.yields = true then _ else _) = s3 at hb3 ⊢
  exact (noteIssue_movedOn hb3 x).trans (ifEmpty_movedOn (s := s3.noteIssue x) hb3 _)

/-- What an instruction that runs leaves, where its meaning meets no fault. -/
theorem acts_of (a : Attr) (body : View → Result) (h : Runs s x a.guard a.uniform a.roles (a.reads ++ a.writes))
    (hg : a.noGuard = true → a.guard = Guard.always ∧ a.uniform = false) (hill : a.ill x = false)
    (hh : a.hnd = .any ∨ (a.hnd = .only ∧ 4 ≤ x.entry) ∨ (a.hnd = .forbidden ∧ x.entry < 4))
    (hf : (body x).faults = []) (hb : Store.find ((body x).left a x).bunches x.id = some b) :
    ∃ t, issue a body s = .next t ∧ MovedOn ((body x).left a x) t x.id :=
  ⟨_, issue_runs a body h hg hill hh, finish_movedOn a x (body x) hf
    (fun q hq => by rw [h.s_eq]; exact h.quiet q (by simp [hq])) hb⟩

/-- An instruction that runs and whose meaning meets a fault takes the exception. -/
theorem traps_of (a : Attr) (body : View → Result) (h : Runs s x a.guard a.uniform a.roles (a.reads ++ a.writes))
    (hg : a.noGuard = true → a.guard = Guard.always ∧ a.uniform = false) (hill : a.ill x = false)
    (hh : a.hnd = .any ∨ (a.hnd = .only ∧ 4 ≤ x.entry) ∨ (a.hnd = .forbidden ∧ x.entry < 4))
    (hf : (body x).faults ≠ []) :
    issue a body s = .next (((body x).s.noteIssue x).takeFault x.id x.entry (body x).faults x.sp.pc x.nextPc x.stallToks
      (body x).waitOps x.after) := by
  rw [issue_runs a body h hg hill hh]
  have hc : (body x).s.cured a x (body x).faults = (body x).s := by simp [State.cured, h.clean]
  unfold finish
  split
  · rename_i e; exact absurd e hf
  · rw [hc]

/-- Where a split stands after an instruction that goes on at `pc`. -/
theorem arriveIf_goes {b : Bunch} {sp : Split} {x : View} {pc : Pc} (hs : sp.stack = x.sp.stack) (hpc : sp.pc = pc)
    (hr : ¬ x.reconverges pc) : arriveIf (b.setSplit x.entry sp) x.entry = b.setSplit x.entry sp := by
  unfold arriveIf
  rw [Bunch.setSplit_splits, Store.find_insert, if_pos rfl]
  simp only
  split
  · split
    · rename_i n rc j a hj
      rw [if_neg]
      intro e
      exact hr ⟨n, rc, j, a, by rw [← hs, hj], by rw [← hpc, e]⟩
    · rfl
  · rfl

theorem noteIssue_bunches (s : State) (x : View) : (s.noteIssue x).bunches = s.bunches := rfl

theorem ifEmpty_split {s : State} {id e : Nat} {b : Bunch} {sp : Split} (h : Store.find s.bunches id = some b)
    (hs : Store.find b.splits e = some sp) (pc : Pc) : s.ifEmpty id pc = s := by
  unfold State.ifEmpty
  rw [h]
  simp only
  rw [if_neg]
  intro he
  rw [List.isEmpty_iff.mp he] at hs
  cases hs

/-- The split stands at `pc` with its mask, state and stack. -/
def StandsAt (x : View) (t : State) (pc : Pc) : Prop := ∃ b sp, Store.find t.bunches x.id = some b ∧ Store.find b.splits x.entry = some sp ∧
  sp.pc = pc ∧ sp.mask = x.sp.mask ∧ sp.state = x.sp.state ∧ sp.stack = x.sp.stack

theorem finish_goesOn (a : Attr) (x : View) (r : Result) (pc : Pc) (hf : r.faults = [])
    (hw : ∀ q ∈ a.writes, x.b.quiet x.s.now q) (hb : Store.find (r.left a x).bunches x.id = some b) (hs : Store.find b.splits x.entry = some sp)
    (hr : ¬ x.reconverges pc) (hm : sp.mask = x.sp.mask ∧ sp.state = x.sp.state ∧ sp.stack = x.sp.stack)
    (hpc : (r.flow = .next ∧ pc = x.nextPc) ∨ ∃ g, r.flow = .goto g ∧ pc = { bundle := g, slot := 0 }) :
    StandsAt x (finish a x r) pc := by
  have hadv : ∀ c : Bunch, c.splits = b.splits → ∃ sp', c.advance x r.flow = c.setSplit x.entry sp' ∧ sp'.pc = pc ∧
      sp'.mask = x.sp.mask ∧ sp'.state = x.sp.state ∧ sp'.stack = x.sp.stack := by
    intro c hc
    unfold Bunch.advance
    rw [hc, hs]
    rcases hpc with ⟨e, rfl⟩ | ⟨g, e, rfl⟩
    · rw [e]
      exact ⟨{ sp.after x c false with pc := x.nextPc }, arriveIf_goes hm.2.2 rfl hr, rfl, hm.1, hm.2.1, hm.2.2⟩
    · rw [e]
      exact ⟨{ sp.after x c true with pc := { bundle := g, slot := 0 } }, arriveIf_goes hm.2.2 rfl hr, rfl, hm.1, hm.2.1, hm.2.2⟩
  unfold finish
  rw [hf, filter_not_early hw]
  simp only [List.isEmpty_nil, if_true]
  rw [show ∀ F : Bunch → Bunch, (r.left a x).onBunch x.id F = (r.left a x).setBunch x.id (F b) from fun F => by rw [State.onBunch, hb]]
  obtain ⟨sp', e, h1, h2, h3, h4⟩ := hadv { b.curePoison x.exec a.writes with
      pends := (b.pends.filter fun p => decide (x.s.now < p.ready)) ++ x.newPends a } (by rw [curePoison_only])
  rw [e]
  generalize hB : Bunch.setSplit _ x.entry sp' = B
  have hBs : Store.find B.splits x.entry = some sp' := by rw [← hB]; simp
  split
  · rw [State.onBunch]
    rw [show Store.find ((r.left a x).setBunch x.id B).bunches x.id = some B by simp]
    simp only [hBs]
    rw [ifEmpty_split (b := B.setSplit x.entry { sp' with noGreedy := true }) (sp := { sp' with noGreedy := true }) (e := x.entry)
      (by rw [noteIssue_bunches]; simp) (by simp)]
    exact ⟨B.setSplit x.entry { sp' with noGreedy := true }, { sp' with noGreedy := true }, by rw [noteIssue_bunches]; simp, by simp,
      h1, h2, h3, h4⟩
  · rw [ifEmpty_split (b := B) (sp := sp') (e := x.entry) (by rw [noteIssue_bunches]; simp) hBs]
    exact ⟨B, sp', by rw [noteIssue_bunches]; simp, hBs, h1, h2, h3, h4⟩

theorem exec_ne_zero (x : View) : x.on = true ↔ x.exec ≠ 0 := by simp [View.on]

/-! ### Branches and traps -/

theorem aligned128_iff (a : DWord) : aligned128 a = true ↔ onBundle a := by
  unfold aligned128 onBundle bits
  simp only [beq_iff_eq]
  rw [← BitVec.toNat_inj]
  simp

theorem faultAll_ne_nil (m : Mask) (c : Cause) (addr : DWord) (k : Kind) : faultAll m c addr k ≠ [] := by
  unfold faultAll
  split
  · simp
  · rename_i h
    intro e
    rw [List.map_eq_nil_iff] at e
    refine h (BitVec.eq_of_getLsbD_eq fun i _ => ?_)
    cases hi : m.getLsbD i
    · simp
    · have := (mem_lanesOf m i).mpr hi
      rw [e] at this
      cases this

/-- An instruction that changes nothing but where its split goes on. -/
theorem goes_of (a : Attr) (ha : a.acq = false) (hrl : a.rel = false) (body : View → Result) (h : Runs s x a.guard a.uniform a.roles (a.reads ++ a.writes))
    (hg : a.noGuard = true → a.guard = Guard.always ∧ a.uniform = false) (hill : a.ill x = false)
    (hh : a.hnd = .any ∨ (a.hnd = .only ∧ 4 ≤ x.entry) ∨ (a.hnd = .forbidden ∧ x.entry < 4)) (f : Flow) (pc : Pc)
    (hb : body x = { s := x.s, flow := f }) (hpc : (f = .next ∧ pc = x.nextPc) ∨ ∃ g, f = .goto g ∧ pc = { bundle := g, slot := 0 }) :
    ∃ t, issue a body s = .next t ∧ MovedOn s t x.id ∧ (¬ x.reconverges pc → StandsAt x t pc) := by
  have hfind := h.find
  have e : (body x).left a x = s := by rw [Result.left_plain _ _ ha hrl, hb]; exact h.s_eq
  refine ⟨_, issue_runs a body h hg hill hh, ?_, fun hr => ?_⟩
  · have := finish_movedOn a x (body x) (by rw [hb]) (fun q hq => by rw [h.s_eq]; exact h.quiet q (by simp [hq])) (b := x.b)
      (by rw [e]; exact hfind)
    rwa [e] at this
  · exact finish_goesOn a x (body x) pc (by rw [hb]) (fun q hq => by rw [h.s_eq]; exact h.quiet q (by simp [hq]))
      (by rw [e]; exact hfind) h.split hr ⟨rfl, rfl, rfl⟩ (by rw [hb]; exact hpc)

/-- A branch that tests its target whatever the guard. -/
theorem branch_of (a : Attr) (ha : a.acq = false) (hrl : a.rel = false) (body : View → Result)
    (h : Runs s x a.guard a.uniform a.roles (a.reads ++ a.writes)) (hg : a.noGuard = true → a.guard = Guard.always ∧ a.uniform = false)
    (hill : a.ill x = false) (hh : a.hnd = .any) (tgt : DWord)
    (hb : body x = x.branch tgt) :
    (onBundle tgt → ∃ t, issue a body s = .next t ∧ MovedOn s t x.id ∧
      ∀ pc, pc = (if x.exec = 0 then x.nextPc else { bundle := tgt, slot := 0 }) → ¬ x.reconverges pc → StandsAt x t pc) ∧
    (¬ onBundle tgt →
      issue a body s = .next ((s.noteIssue x).takeFault x.id x.entry (faultAll x.lanes .branchAlign tgt) x.sp.pc x.nextPc x.stallToks
        none x.after)) := by
  constructor
  · intro ho
    have hbr : body x = { s := x.s, flow := if x.on then .goto tgt else .next } := by
      rw [hb]; unfold View.branch; rw [(aligned128_iff _).mpr ho]; simp
    by_cases he : x.exec = 0
    · obtain ⟨t, h1, h2, h3⟩ := goes_of a ha hrl body h hg hill (.inl hh) _ x.nextPc hbr (.inl ⟨by simp [View.on, he], rfl⟩)
      exact ⟨t, h1, h2, fun pc hp => by rw [hp, if_pos he]; exact h3⟩
    · obtain ⟨t, h1, h2, h3⟩ := goes_of a ha hrl body h hg hill (.inl hh) _ { bundle := tgt, slot := 0 } hbr
        (.inr ⟨tgt, by rw [if_pos ((exec_ne_zero x).mpr he)], rfl⟩)
      exact ⟨t, h1, h2, fun pc hp => by rw [hp, if_neg he]; exact h3⟩
  · intro ho
    have hn : aligned128 tgt = false := by
      cases hq : aligned128 tgt
      · rfl
      · exact absurd ((aligned128_iff _).mp hq) ho
    have hb' : body x = x.trap .branchAlign tgt := by rw [hb]; unfold View.branch; simp [hn]
    rw [traps_of a body h hg hill (.inl hh) (by rw [hb']; exact faultAll_ne_nil _ _ _ _), hb']
    simp only [View.trap, faulted, h.s_eq]

/-- A split that blocks. -/
theorem finish_blocked (a : Attr) (x : View) (r : Result) (hf : r.faults = []) (hw : ∀ q ∈ a.writes, x.b.quiet x.s.now q)
    (hb : Store.find (r.left a x).bunches x.id = some b) (hs : Store.find b.splits x.entry = some sp)
    (hm : sp.mask = x.sp.mask ∧ sp.pc = x.sp.pc) (w : Wait) (again : Bool) (hfl : r.flow = .wait w (!again)) (hy : r.yields = false) :
    BlockedOn x (finish a x r) w (if again then none else some x.nextPc) := by
  unfold finish
  rw [hf, filter_not_early hw]
  simp only [List.isEmpty_nil, if_true, hy, Bool.false_eq_true, if_false]
  rw [show ∀ F : Bunch → Bunch, (r.left a x).onBunch x.id F = (r.left a x).setBunch x.id (F b) from fun F => by rw [State.onBunch, hb]]
  have hc : (b.curePoison x.exec a.writes).splits = b.splits := by rw [curePoison_only]
  unfold Bunch.advance
  simp only [hc, hs, hfl]
  cases again
  · simp only [Bool.not_false, Bool.false_eq_true, if_false]
    generalize hB : Bunch.setSplit _ x.entry _ = B
    have hBs : ∃ sp', Store.find B.splits x.entry = some sp' ∧ sp'.state = .blocked w (some x.nextPc) ∧ sp'.mask = sp.mask ∧ sp'.pc = sp.pc := by
      rw [← hB]; simp only [Bunch.setSplit_splits, Store.find_insert, if_true]; exact ⟨_, rfl, rfl, rfl, rfl⟩
    obtain ⟨sp', hBs, h1, h2, h3⟩ := hBs
    rw [ifEmpty_split (b := B) (e := x.entry) (by rw [noteIssue_bunches]; simp) hBs]
    exact ⟨B, sp', by rw [noteIssue_bunches]; simp, hBs, h1, h2.trans hm.1, h3.trans hm.2⟩
  · simp only [Bool.not_true, if_true]
    generalize hB : Bunch.setSplit _ x.entry _ = B
    have hBs : Store.find B.splits x.entry = some { sp with state := .blocked w none, readyAt := x.s.now + 1 } := by
      rw [← hB]; simp
    rw [ifEmpty_split (b := B) (e := x.entry) (by rw [noteIssue_bunches]; simp) hBs]
    exact ⟨B, _, by rw [noteIssue_bunches]; simp, hBs, rfl, hm.1, hm.2⟩

/-! ### Results in registers -/

/-- Writing a lane register in lanes below 32. -/
theorem fold_setV (f : Nat → Word) (n : Nat) (ls : List Nat) (b : Bunch) (hl : ∀ l ∈ ls, l < 32) (m j : Nat) (hj : j < 32) :
    (ls.foldl (fun c l => c.setV n l (f l)) b).vAt m j = if m = n ∧ j ∈ ls then f j else b.vAt m j := by
  induction ls generalizing b with
  | nil => simp
  | cons l r ih =>
    have hl' := hl l (by simp)
    rw [List.foldl_cons, ih _ (fun i hi => hl i (by simp [hi])), Bunch.vAt_setV]
    by_cases h1 : m = n ∧ j ∈ r
    · simp [h1]
    · rw [if_neg h1]
      by_cases h2 : 32 * m + j = 32 * n + l
      · have : m = n ∧ j = l := by omega
        simp [this]
      · have : ¬ (m = n ∧ j = l) := by omega
        rw [if_neg h2, if_neg]
        simp only [List.mem_cons]
        rintro ⟨e1, e2 | e2⟩
        · exact this ⟨e1, e2⟩
        · exact h1 ⟨e1, e2⟩

theorem fold_setV_only (f : Nat → Word) (n : Nat) (ls : List Nat) (b : Bunch) :
    ls.foldl (fun c l => c.setV n l (f l)) b = { b with v := (ls.foldl (fun c l => c.setV n l (f l)) b).v } := by
  induction ls generalizing b with
  | nil => rfl
  | cons l r ih => rw [List.foldl_cons, ih]; rfl


theorem setVK_only (x : View) (d : VK) (f : Nat → Word) :
    x.setVK d f = { x.b with v := (x.setVK d f).v, k := (x.setVK d f).k } := by
  cases d with
  | v n => simp only [View.setVK]; rw [fold_setV_only]
  | k n => simp only [View.setVK]; split <;> rfl

theorem setVK_reg (x : View) (d : VK) (f : Nat → Word) (r : Reg) (l : Nat) (hl : l < 32) :
    (x.setVK d f).reg r l = (x.one d f r l).getD (x.b.reg r l) := by
  cases d with
  | v n =>
    cases r with
    | v m =>
      simp only [Bunch.reg, View.setVK, View.one]
      rw [fold_setV f n.toNat (lanesOf x.exec) x.b (fun i hi => lanesOf_lt hi) m l hl]
      have e : (m = n.toNat ∧ l ∈ lanesOf x.exec) ↔ (VK.v n = .v (BitVec.ofNat 8 m) ∧ m < 256 ∧ x.exec.getLsbD l = true) := by
        rw [mem_lanesOf]
        constructor
        · rintro ⟨rfl, h⟩; exact ⟨by simp, n.isLt, h⟩
        · rintro ⟨h1, h2, h3⟩
          refine ⟨?_, h3⟩
          injection h1 with h1
          rw [h1]
          simp [Nat.mod_eq_of_lt h2]
      by_cases h : m = n.toNat ∧ l ∈ lanesOf x.exec
      · rw [if_pos h, if_pos (e.mp h)]; rfl
      · rw [if_neg h, if_neg (fun q => h (e.mpr q))]; rfl
    | k m => simp only [Bunch.reg, View.setVK, View.one]; rw [fold_setV_only]; simp [Bunch.kAt]
    | p m => simp only [Bunch.reg, View.setVK, View.one]; rw [fold_setV_only]; simp [Bunch.pAt]
  | k n =>
    cases r with
    | v m => simp only [Bunch.reg, View.setVK, View.one]; split <;> simp
    | k m =>
      simp only [Bunch.reg, View.setVK, View.one]
      by_cases h : x.exec = 0
      · rw [if_neg (by simp [View.on, h])]; simp [h]
      · rw [if_pos ((exec_ne_zero x).mpr h), Bunch.kAt_setK]
        have e : m = n.toNat ↔ (VK.k n = .k (BitVec.ofNat 6 m) ∧ m < 64 ∧ x.exec ≠ 0) := by
          constructor
          · rintro rfl; exact ⟨by simp, n.isLt, h⟩
          · rintro ⟨h1, h2, -⟩
            injection h1 with h1
            rw [h1]
            simp [Nat.mod_eq_of_lt h2]
        by_cases hm : m = n.toNat
        · rw [if_pos hm, if_pos (e.mp hm)]; rfl
        · rw [if_neg hm, if_neg (fun q => hm (e.mpr q))]; rfl
    | p m => simp only [Bunch.reg, View.setVK, View.one]; split <;> simp

theorem setPred_reg (x : View) (d : BitVec 3) (f : Nat → Bool) (r : Reg) (l : Nat) (hl : l < 32) :
    (x.setPred d.toNat f).reg r l = (x.pred d f r l).getD (x.b.reg r l) := by
  cases r with
  | v m => simp [Bunch.reg, View.setPred, View.pred]
  | k m => simp [Bunch.reg, View.setPred, View.pred]
  | p m =>
    have hm : ∀ ls : List Nat, (∀ i ∈ ls, i < 32) → ∀ m0 : Mask,
        (ls.foldl (fun m l => m ||| laneBit l) m0).getLsbD l = (m0.getLsbD l || decide (l ∈ ls)) := by
      intro ls
      induction ls with
      | nil => simp
      | cons i r ih =>
        intro hi m0
        have h1 : i < 32 := hi i (by simp)
        rw [List.foldl_cons, ih (fun j hj => hi j (by simp [hj]))]
        have : (laneBit i).getLsbD l = decide (l = i) := by
          simp only [laneBit, BitVec.getLsbD_shiftLeft, hl, decide_true, Bool.true_and]
          by_cases h : l = i
          · simp [h]
          · by_cases h' : l < i
            · simp [h, h']
            · simp [h, show ¬ (l < i) from h', show l - i ≠ 0 by omega]
        rw [BitVec.getLsbD_or, this]
        by_cases h : l = i <;> simp [h]
    have hw : (x.where_ f).getLsbD l = (x.exec.getLsbD l && f l) := by
      unfold View.where_ maskOf
      rw [hm _ (fun i hi => lanesOf_lt (List.mem_filter.mp hi).1)]
      simp only [List.mem_filter, mem_lanesOf]
      cases x.exec.getLsbD l <;> cases f l <;> simp
    simp only [Bunch.reg, View.setPred, View.pred, Bunch.pAt_setP]
    by_cases h : m = d.toNat ∧ m ≠ 7
    · obtain ⟨rfl, h7⟩ := h
      rw [if_pos ⟨rfl, h7⟩]
      simp only [BitVec.getLsbD_or, BitVec.getLsbD_and, BitVec.getLsbD_not, hl, decide_true, Bool.true_and, hw]
      by_cases hx : x.exec.getLsbD l = true
      · rw [if_pos (by exact ⟨trivial, h7, hx⟩)]; simp [hx]
      · rw [if_neg (fun q => hx q.2.2)]; simp [hx]
    · have e : ¬ (m = d.toNat ∧ d.toNat ≠ 7) := fun q => h ⟨q.1, q.1 ▸ q.2⟩
      have e' : ¬ (m = d.toNat ∧ m ≠ 7 ∧ x.exec.getLsbD l = true) := fun q => h ⟨q.1, q.2.1⟩
      rw [if_neg e, if_neg e']
      rfl

theorem setPred_only (x : View) (d : Nat) (f : Nat → Bool) : x.setPred d f = { x.b with p := (x.setPred d f).p } := by
  unfold View.setPred Bunch.setP
  split <;> rfl

/-- The result of a meaning that changes registers and FP_STAT only. -/
theorem answer_wrote {a : Attr} (ha : a.acq = false) (hrl : a.rel = false) {x : View} {b : Bunch} {stat : BitVec 4} {w : Reg → Nat → Option Word}
    (h : Runs s x g u roles rs) (hw : ∀ r ∈ a.writes, r ∈ rs)
    (hb : b = { x.b with v := b.v, k := b.k, p := b.p, fpStat := stat }) (hr : ∀ r l, l < 32 → b.reg r l = (w r l).getD (x.b.reg r l)) :
    Wrote s x (finish a x (x.answer b)) stat w := by
  refine ⟨b, ?_, hb, hr⟩
  have e : (x.answer b).left a x = s.setBunch x.id b := by rw [Result.left_plain _ _ ha hrl, View.answer, h.s_eq]
  have := finish_movedOn a x (x.answer b) rfl (fun q hq => by rw [h.s_eq]; exact h.quiet q (by simp [hw q hq])) (b := b)
    (by rw [e]; simp)
  rwa [e] at this

/-! ### Element-wise shapes -/

theorem alu1_runs (lat : Nat) (op : Word → Word) (h : Runs s x f.g f.d.isK roles (f.a.regs ++ f.d.regs)) :
    ∃ t, alu1 roles lat f op s = .next t ∧ Wrote s x t x.b.fpStat (x.one f.d fun l => op (x.word f.a l)) := by
  refine ⟨_, issue_runs _ _ h (by simp) rfl (.inl rfl), answer_wrote rfl rfl h (fun r hr => by simp at hr ⊢; exact .inr hr) ?_
    (fun r l hl => setVK_reg x f.d _ r l hl)⟩
  rw [setVK_only]

theorem alu2_runs (lat : Nat) (op : Word → Word → Word) (h : Runs s x f.g f.d.isK roles (f.a.regs ++ f.b.regs ++ f.d.regs)) :
    ∃ t, alu2 roles lat f op s = .next t ∧
      Wrote s x t x.b.fpStat (x.one f.d fun l => op (x.word f.a l) (x.wordL f.b l)) := by
  refine ⟨_, issue_runs _ _ h (by simp) rfl (.inl rfl), answer_wrote rfl rfl h (fun r hr => by simp at hr ⊢; exact .inr (.inr hr)) ?_
    (fun r l hl => setVK_reg x f.d _ r l hl)⟩
  rw [setVK_only]

theorem alu3_runs (lat : Nat) (op : Word → Word → Word → Word)
    (h : Runs s x f.g f.d.isK roles (f.a.regs ++ f.b.regs ++ f.c.regs ++ f.d.regs)) :
    ∃ t, alu3 roles lat f op s = .next t ∧
      Wrote s x t x.b.fpStat (x.one f.d fun l => op (x.word f.a l) (x.wordL f.b l) (x.word f.c l)) := by
  refine ⟨_, issue_runs _ _ h (by simp) rfl (.inl rfl), answer_wrote rfl rfl h (fun r hr => by simp at hr ⊢; exact .inr (.inr (.inr hr))) ?_
    (fun r l hl => setVK_reg x f.d _ r l hl)⟩
  rw [setVK_only]

theorem cmp2_runs (lat : Nat) (op : Word → Word → Bool)
    (h : Runs s x f.g false roles (f.a.regs ++ f.b.regs ++ [.p f.d.toNat])) :
    ∃ t, cmp2 roles lat f op s = .next t ∧
      Wrote s x t x.b.fpStat (x.pred f.d fun l => op (x.word f.a l) (x.wordL f.b l)) := by
  refine ⟨_, issue_runs _ _ h (by simp) rfl (.inl rfl), answer_wrote rfl rfl h (fun r hr => by simp at hr ⊢; exact .inr (.inr hr)) ?_
    (fun r l hl => setPred_reg x f.d _ r l hl)⟩
  rw [setPred_only]

/-! ### Pairs and flags -/

theorem fold_setPair (f : Nat → DWord) (n : Nat) (ls : List Nat) (b : Bunch) (hl : ∀ l ∈ ls, l < 32) (m j : Nat) (hj : j < 32) :
    (ls.foldl (fun c l => (c.setV n l (lowHalf (f l))).setV (n + 1) l (highHalf (f l))) b).vAt m j =
      if j ∈ ls then (if m = n + 1 then highHalf (f j) else if m = n then lowHalf (f j) else b.vAt m j) else b.vAt m j := by
  induction ls generalizing b with
  | nil => simp
  | cons l r ih =>
    have hl' := hl l (by simp)
    rw [List.foldl_cons, ih _ (fun i hi => hl i (by simp [hi])), Bunch.vAt_setV, Bunch.vAt_setV]
    by_cases hjl : j = l
    · subst hjl
      by_cases h1 : m = n + 1
      · simp [h1]
      · by_cases h2 : m = n
        · simp [h2] <;> (intro _ _; omega)
        · rw [if_neg (show ¬ 32 * m + j = 32 * (n + 1) + j by omega), if_neg (show ¬ 32 * m + j = 32 * n + j by omega)]
          simp [h1, h2]
    · have e1 : ¬ 32 * m + j = 32 * (n + 1) + l := by omega
      have e2 : ¬ 32 * m + j = 32 * n + l := by omega
      simp [hjl, e1, e2]

theorem fold_setPair_only (f : Nat → DWord) (n : Nat) (ls : List Nat) (b : Bunch) :
    ls.foldl (fun c l => (c.setV n l (lowHalf (f l))).setV (n + 1) l (highHalf (f l))) b =
      { b with v := (ls.foldl (fun c l => (c.setV n l (lowHalf (f l))).setV (n + 1) l (highHalf (f l))) b).v } := by
  induction ls generalizing b with
  | nil => rfl
  | cons l r ih => rw [List.foldl_cons, ih]; rfl

theorem setPair_only (x : View) (d : VK) (f : Nat → DWord) :
    x.setPair d f = { x.b with v := (x.setPair d f).v, k := (x.setPair d f).k } := by
  cases d with
  | v n => simp only [View.setPair]; rw [fold_setPair_only]
  | k n => simp only [View.setPair]; split <;> rfl

theorem setPair_reg (x : View) (d : VK) (f : Nat → DWord) (r : Reg) (l : Nat) (hl : l < 32) :
    (x.setPair d f).reg r l = (x.pair d f r l).getD (x.b.reg r l) := by
  cases d with
  | v n =>
    cases r with
    | v m =>
      simp only [Bunch.reg, View.setPair, View.pair]
      rw [fold_setPair f n.toNat (lanesOf x.exec) x.b (fun i hi => lanesOf_lt hi) m l hl]
      simp only [mem_lanesOf]
      repeat' split
      all_goals rfl
    | k m =>
      simp only [Bunch.reg, View.setPair, View.pair]
      rw [fold_setPair_only]
      split <;> simp [Bunch.kAt]
    | p m => simp only [Bunch.reg, View.setPair, View.pair]; rw [fold_setPair_only]; simp [Bunch.pAt]
  | k n =>
    cases r with
    | v m => simp only [Bunch.reg, View.setPair, View.pair]; repeat' split
             all_goals simp
    | k m =>
      simp only [Bunch.reg, View.setPair, View.pair]
      by_cases h : x.exec = 0
      · rw [if_neg (by simp [View.on, h])]; simp [h]
      · rw [if_pos ((exec_ne_zero x).mpr h), if_pos h, Bunch.kAt_setK, Bunch.kAt_setK]
        repeat' split
        all_goals rfl
    | p m => simp only [Bunch.reg, View.setPair, View.pair]; split <;> simp

theorem setFlagged_only (x : View) (d : VK) (f : Nat → Word × FlagBits) :
    x.setFlagged d f = { x.b with v := (x.setFlagged d f).v, k := (x.setFlagged d f).k, fpStat := x.sticky d fun l => (f l).2 } := by
  have h := setVK_only x d fun l => (f l).1
  unfold View.setFlagged View.sticky
  rw [h]
  cases d with
  | v n => rfl
  | k n =>
    by_cases he : x.exec = 0
    · simp [View.on, he]
    · simp [View.on]

theorem setFlagged_reg (x : View) (d : VK) (f : Nat → Word × FlagBits) (r : Reg) (l : Nat) (hl : l < 32) :
    (x.setFlagged d f).reg r l = (x.one d (fun l => (f l).1) r l).getD (x.b.reg r l) := by
  rw [← setVK_reg x d (fun l => (f l).1) r l hl]
  cases r <;> rfl

theorem falu1_runs (lat : Nat) (op : Bool → Word → Word × FlagBits) (h : Runs s x f.g f.d.isK vecEpi (f.a.regs ++ f.d.regs)) :
    ∃ t, falu1 lat f op s = .next t ∧ Wrote s x t (x.sticky f.d fun l => (op x.ftz (x.word f.a l)).2)
      (x.one f.d fun l => (op x.ftz (x.word f.a l)).1) := by
  refine ⟨_, issue_runs _ _ h (by simp) rfl (.inl rfl), answer_wrote rfl rfl h (fun r hr => by simp at hr ⊢; exact .inr hr) ?_
    (fun r l hl => setFlagged_reg x f.d _ r l hl)⟩
  rw [setFlagged_only]

theorem falu2_runs (lat : Nat) (op : Bool → Word → Word → Word × FlagBits)
    (h : Runs s x f.g f.d.isK vecEpi (f.a.regs ++ f.b.regs ++ f.d.regs)) :
    ∃ t, falu2 lat f op s = .next t ∧ Wrote s x t (x.sticky f.d fun l => (op x.ftz (x.word f.a l) (x.wordL f.b l)).2)
      (x.one f.d fun l => (op x.ftz (x.word f.a l) (x.wordL f.b l)).1) := by
  refine ⟨_, issue_runs _ _ h (by simp) rfl (.inl rfl), answer_wrote rfl rfl h (fun r hr => by simp at hr ⊢; exact .inr (.inr hr)) ?_
    (fun r l hl => setFlagged_reg x f.d _ r l hl)⟩
  rw [setFlagged_only]

theorem falu3_runs (lat : Nat) (op : Bool → Word → Word → Word → Word × FlagBits)
    (h : Runs s x f.g f.d.isK vecEpi (f.a.regs ++ f.b.regs ++ f.c.regs ++ f.d.regs)) :
    ∃ t, falu3 lat f op s = .next t ∧
      Wrote s x t (x.sticky f.d fun l => (op x.ftz (x.word f.a l) (x.wordL f.b l) (x.word f.c l)).2)
        (x.one f.d fun l => (op x.ftz (x.word f.a l) (x.wordL f.b l) (x.word f.c l)).1) := by
  refine ⟨_, issue_runs _ _ h (by simp) rfl (.inl rfl), answer_wrote rfl rfl h (fun r hr => by simp at hr ⊢; exact .inr (.inr (.inr hr))) ?_
    (fun r l hl => setFlagged_reg x f.d _ r l hl)⟩
  rw [setFlagged_only]

/-! ### What an instruction asks is what it is issued with -/

/-- Two lists of what an instruction asks agree in what is checked. -/
structure Attr.Same (a b : Attr) : Prop where
  guard : a.guard = b.guard
  roles : a.roles = b.roles
  hnd : a.hnd = b.hnd
  uniform : a.uniform = b.uniform
  noGuard : a.noGuard = true → a.guard = Guard.always
  reads : a.reads = b.reads
  writes : a.writes = b.writes
  wide : a.wide = b.wide
  lane : a.lane = b.lane
  spread : a.spread = b.spread
  ill : a.ill = b.ill
/-- An instruction issues with what `asks` says of it. -/
theorem exec_asks (i : Instr) (s : State) (a : Attr) (h : asks s i = some a) : ∃ a' body, exec i s = issue a' body s ∧ a'.Same a := by
  cases i <;> simp only [asks, Option.some.injEq, reduceCtorEq] at h <;> subst h
  case imad m f => cases m <;> exact ⟨_, _, rfl, ⟨rfl, rfl, rfl, rfl, fun h => Bool.noConfusion h, rfl, rfl, rfl, rfl, rfl, rfl⟩⟩
  case movk g d a l => rcases l with _ | l; rotate_left; cases l
                       all_goals exact ⟨_, _, rfl, ⟨rfl, rfl, rfl, rfl, fun h => Bool.noConfusion h, rfl, rfl, rfl, rfl, rfl, rfl⟩⟩
  case vote o g d a => cases d <;> exact ⟨_, _, rfl, ⟨rfl, rfl, rfl, rfl, fun h => Bool.noConfusion h, rfl, rfl, rfl, rfl, rfl, rfl⟩⟩
  case matchl g d a => cases d <;> exact ⟨_, _, rfl, ⟨rfl, rfl, rfl, rfl, fun h => Bool.noConfusion h, rfl, rfl, rfl, rfl, rfl, rfl⟩⟩
  case tld s32 g d xn b fill tok =>
    refine ⟨_, _, rfl, ⟨rfl, rfl, rfl, rfl, fun h => Bool.noConfusion h, ?_, rfl, rfl, rfl, rfl, ?_⟩⟩
    all_goals cases s.issuing with
      | none => cases b <;> rfl
      | some x => rcases h : s.descriptor x.b.ctx x.id xn.toNat with _ | c <;> cases b <;> simp only [Option.bind_some, h] <;> rfl
  case unassignedOpcode w =>
    refine ⟨{ guard := Guard.always, roles := allRoles, noGuard := true, ill := fun _ => true }, fun x => { s := x.s }, rfl, ⟨rfl, rfl, rfl, rfl, fun _ => rfl, rfl, rfl, rfl, rfl, rfl, rfl⟩⟩
  all_goals
    exact ⟨_, _, rfl, ⟨rfl, rfl, rfl, rfl, (by first | exact fun _ => rfl | exact fun h => Bool.noConfusion h), rfl, rfl, rfl, rfl, rfl, rfl⟩⟩

end Sys2Proof.Machine
end

