-- ==== Sys2Proof/Laws/PerInstr.lean ====
section
/-! SUPPORT. Reading the form of each instruction back: one lemma per constructor, from which decode and encode agree. -/

set_option linter.unusedSimpArgs false

namespace Sys2Proof

/-! ### Operands and codes go there and back -/

@[simp] theorem VK.vk_opnd (d : VK) : d.opnd.vk = .ok d := by cases d <;> rfl
@[simp] theorem Src.src_opnd (d : Src) : d.opnd.src = .ok d := by cases d <;> rfl
@[simp] theorem SrcL.srcL_opnd (b : SrcL) : b.opnd.srcL b.litOf = .ok b := by
  cases b with
  | src s => cases s <;> rfl
  | lit x => rfl
@[simp] theorem FBase.bOf_base (op : BitVec 7) (pg : BitVec 3) (m : Bool) (d a : BitVec 6) (b : BaseB) :
    FBase.bOf { op, pg, f := b.flag, m, d, a, b := b.field, lit := b.litOf } = .ok b := by cases b <;> rfl
@[simp] theorem AddMode.ofCode_code (m : AddMode) : AddMode.ofCode m.code = some m := by cases m <;> rfl
@[simp] theorem MadMode.ofCode_code (m : MadMode) : MadMode.ofCode m.code = some m := by cases m <;> rfl
@[simp] theorem LopOp.ofCode_code (m : LopOp) : LopOp.ofCode m.code = some m := by cases m <;> rfl
@[simp] theorem ShfOp.ofCode_code (m : ShfOp) : ShfOp.ofCode m.code = some m := by cases m <;> rfl
@[simp] theorem ICond.ofCode_code (m : ICond) : ICond.ofCode m.code = some m := by cases m <;> rfl
@[simp] theorem FCond.ofCode_code (m : FCond) : FCond.ofCode m.code = some m := by cases m <;> rfl
@[simp] theorem FtrnFn.ofCode_code (m : FtrnFn) : FtrnFn.ofCode m.code = some m := by cases m <;> rfl
@[simp] theorem RMode.ofCode_code (m : RMode) : RMode.ofCode m.code = m := by cases m <;> rfl
@[simp] theorem VoteOp.ofCode_code (m : VoteOp) : VoteOp.ofCode m.code = some m := by cases m <;> rfl
@[simp] theorem ShflOp.ofCode_code (m : ShflOp) : ShflOp.ofCode m.code = some m := by cases m <;> rfl
@[simp] theorem RedOp.ofCode_code (m : RedOp) : RedOp.ofCode m.code = some m := by cases m <;> rfl
@[simp] theorem PlopOp.ofCode_code (m : PlopOp) : PlopOp.ofCode m.code = some m := by cases m <;> rfl
@[simp] theorem Scope.ofCode_code (m : Scope) : Scope.ofCode m.code = some m := by cases m <;> rfl
@[simp] theorem LoadSize.ofCode_code (m : LoadSize) : LoadSize.ofCode m.code = some m := by cases m <;> rfl
@[simp] theorem StoreSize.ofCode_code (m : StoreSize) : StoreSize.ofCode m.code = some m := by cases m <;> rfl
@[simp] theorem LdsMode.ofCode_code (m : LdsMode) : LdsMode.ofCode m.code = some m := by cases m <;> rfl
@[simp] theorem StsMode.ofCode_code (m : StsMode) : StsMode.ofCode m.code = some m := by cases m <;> rfl
@[simp] theorem CctlOp.ofCode_num (m : CctlOp) : CctlOp.ofCode m.num = some m := by cases m <;> rfl
@[simp] theorem AtomOrd.ofCode_code (m : AtomOrd) : AtomOrd.ofCode m.code = m := by cases m <;> rfl
@[simp] theorem CpyDir.ofCode_code (m : CpyDir) : CpyDir.ofCode m.code = some m := by cases m <;> rfl
@[simp] theorem CpySize.ofCode_code (m : CpySize) : CpySize.ofCode m.code = some m := by cases m <;> rfl
@[simp] theorem TriMode.ofCode_code (m : TriMode) : TriMode.ofCode m.code = some m := by cases m <;> rfl
@[simp] theorem SegKind.ofCode_code (m : SegKind) : SegKind.ofCode m.code = some m := by cases m <;> rfl

/-! ### The pieces of a reading -/

@[simp] theorem ok_bind (a : α) (f : α → Except ε β) : (Except.ok a >>= f) = f a := rfl
@[simp] theorem must_true (e : DecodeErr) : must true e = .ok () := rfl
@[simp] theorem orErr_some (e : DecodeErr) (a : α) : orErr e (some a) = .ok a := rfl
@[simp] theorem bit_mod3_0 (a b c : Bool) : bit (mod3 a b c) 0 = a := by cases a <;> cases b <;> cases c <;> rfl
@[simp] theorem bit_mod3_1 (a b c : Bool) : bit (mod3 a b c) 1 = b := by cases a <;> cases b <;> cases c <;> rfl
@[simp] theorem bit_mod3_2 (a b c : Bool) : bit (mod3 a b c) 2 = c := by cases a <;> cases b <;> cases c <;> rfl
@[simp] theorem mod3_lt_2 (a : Bool) : (mod3 a false false).toNat < 2 := by cases a <;> decide
@[simp] theorem mod3_le_1 (a : Bool) : (mod3 a false false).toNat ≤ 1 := by cases a <;> decide
@[simp] theorem mod3_lt_4 (a b : Bool) : (mod3 a b false).toNat < 4 := by cases a <;> cases b <;> decide
@[simp] theorem scope_wordM (sc : Scope) (off : BitVec 29) : bits (wordM sc off) 29 3 = sc.code := by
  change @bits (3 + 29) (sc.code ++ off) 29 3 = _
  rw [bits_append_hi _ _ _ _ (by decide)]; exact bits_self _
@[simp] theorem off_wordM (sc : Scope) (off : BitVec 29) : bits (wordM sc off) 0 29 = off := by
  change @bits (3 + 29) (sc.code ++ off) 0 29 = _
  rw [bits_append_lo _ _ _ _ (by decide)]; exact bits_self _

/-- The form of an instruction is one its first word names, and reads back as the instruction. -/
def Laws.Reads.Statement (i : Instr) : Prop := i.wf = true → ∀ c, i.code = some c → c.ok = true ∧ c.read = .ok i

/-! ### Third words -/

@[simp] theorem team_code : (Scope.team.code == 0#3) = true := rfl
@[simp] theorem toNat_mod_lt (x : BitVec w) (m n : Nat) (h : 2 ^ w ≤ n) : x.toNat % m < n :=
  Nat.lt_of_le_of_lt (Nat.mod_le _ _) (Nat.lt_of_lt_of_le x.isLt h)
@[simp] theorem toNat_mod_le (x : BitVec w) (m n : Nat) (h : 2 ^ w ≤ n + 1) : x.toNat % m ≤ n :=
  Nat.le_of_lt_succ (toNat_mod_lt x m (n + 1) h)
theorem bits_setWidth (x : BitVec w) (h : w ≤ n) : bits (x.setWidth n) 0 w = x := by
  apply BitVec.eq_of_getLsbD_eq; intro i hi
  simp [bits, hi, Nat.lt_of_lt_of_le hi h]
@[simp] theorem flag_lt (b : Bool) : (0#3 ++ b1 b).toNat < 2 := by cases b <;> decide
@[simp] theorem flag_lt' (b : Bool) : (0#2 ++ b1 b).toNat < 2 := by cases b <;> decide
@[simp] theorem rmode_lt (m : RMode) : (0#1 ++ m.code).toNat < 4 := by cases m <;> decide
@[simp] theorem flag_le (b : Bool) : (0#3 ++ b1 b).toNat ≤ 1 := by cases b <;> decide
@[simp] theorem flag_le' (b : Bool) : (0#2 ++ b1 b).toNat ≤ 1 := by cases b <;> decide
@[simp] theorem bit_flag (b : Bool) : bit (0#3 ++ b1 b) 0 = b := by cases b <;> rfl
@[simp] theorem bit_flag' (b : Bool) : bit (0#2 ++ b1 b) 0 = b := by cases b <;> rfl
@[simp] theorem bits_crc (c : Bool) : bits (mod3 false false c) 0 2 = 0#2 := by cases c <;> rfl
@[simp] theorem mod3_store (r : Bool) : (mod3 false r false == 0#3 || mod3 false r false == 2#3) = true := by cases r <;> rfl
theorem bra_off (off : BitVec 18) : bits off 12 6 ++ bits off 6 6 ++ bits off 0 6 = off := by
  apply BitVec.eq_of_getLsbD_eq; intro i hi
  simp only [bits, BitVec.getLsbD_append, BitVec.getLsbD_extractLsb']
  by_cases h : i < 6
  · simp [h]
  · by_cases h' : i < 12
    · simp [h, show i - 6 < 6 by omega, show 6 + (i - 6) = i by omega]
    · simp [h, show ¬ i - 6 < 6 by omega, show i - 6 - 6 < 6 by omega, show 12 + (i - 6 - 6) = i by omega]
/-- BFX and BFI (R317), and the barriers (R60). -/
theorem two_fields (a : Nat) (x : BitVec b) (y : BitVec c) : bits ((0 : BitVec a) ++ x ++ y) 0 c = y ∧ bits ((0 : BitVec a) ++ x ++ y) c b = x
    ∧ ((0 : BitVec a) ++ x ++ y).toNat < 2 ^ (c + b) := by
  refine ⟨?_, ?_, ?_⟩
  · rw [bits_append_lo _ _ _ _ (by omega), bits_self]
  · rw [bits_append_hi _ _ _ _ (by omega), bits_append_lo _ _ _ _ (by omega), Nat.sub_self, bits_self]
  · have hx := x.isLt
    have hy := y.isLt
    have e : (((0 : BitVec a) ++ x) ++ y).toNat = x.toNat * 2 ^ c + y.toNat := by
      rw [BitVec.toNat_append, BitVec.toNat_append, ← Nat.shiftLeft_add_eq_or_of_lt hy, Nat.shiftLeft_eq]
      simp
    rw [e]
    calc x.toNat * 2 ^ c + y.toNat < x.toNat * 2 ^ c + 2 ^ c := by omega
      _ = (x.toNat + 1) * 2 ^ c := by rw [Nat.add_mul, Nat.one_mul]
      _ ≤ 2 ^ b * 2 ^ c := Nat.mul_le_mul_right _ hx
      _ = 2 ^ (c + b) := by rw [Nat.pow_add, Nat.mul_comm]
theorem cvt_word (rm : BitVec 2) (dst src : BitVec 5) :
    let w : Word := (0 : BitVec 14) ++ rm ++ (0 : BitVec 3) ++ dst ++ (0 : BitVec 3) ++ src
    bits w 5 3 = 0 ∧ bits w 13 3 = 0 ∧ bits w 18 14 = 0 ∧ bits w 0 5 = src ∧ bits w 8 5 = dst ∧ bits w 16 2 = rm := by
  refine ⟨?_, ?_, ?_, ?_, ?_, ?_⟩ <;>
    change @bits (14 + 2 + 3 + 5 + 3 + 5) ((0 : BitVec 14) ++ rm ++ (0 : BitVec 3) ++ dst ++ (0 : BitVec 3) ++ src) _ _ = _ <;>
    simp (disch := decide) only [bits_append_hi, bits_append_lo] <;> exact bits_self _
theorem mms_word (sps : Bool) (trow rows : BitVec 8) (promo : BitVec 7) :
    let w : Word := b1 sps ++ (0 : BitVec 7) ++ trow ++ (0 : BitVec 1) ++ promo ++ rows
    bits w 15 1 = 0 ∧ bits w 24 7 = 0 ∧ bits w 0 8 = rows ∧ bits w 8 7 = promo ∧ bits w 16 8 = trow ∧ bits w 31 1 = b1 sps := by
  refine ⟨?_, ?_, ?_, ?_, ?_, ?_⟩ <;>
    change @bits (1 + 7 + 8 + 1 + 7 + 8) (b1 sps ++ (0 : BitVec 7) ++ trow ++ (0 : BitVec 1) ++ promo ++ rows) _ _ = _ <;>
    simp (disch := decide) only [bits_append_hi, bits_append_lo] <;> exact bits_self _
theorem adrn_word (spd : Bool) (trow rows : BitVec 8) :
    let w : Word := b1 spd ++ (0 : BitVec 15) ++ trow ++ rows
    bits w 16 15 = 0 ∧ bits w 0 8 = rows ∧ bits w 8 8 = trow ∧ bits w 31 1 = b1 spd := by
  refine ⟨?_, ?_, ?_, ?_⟩ <;>
    change @bits (1 + 15 + 8 + 8) (b1 spd ++ (0 : BitVec 15) ++ trow ++ rows) _ _ = _ <;>
    simp (disch := decide) only [bits_append_hi, bits_append_lo] <;> exact bits_self _
theorem cknxt_word (pf px : BitVec 3) (kc : BitVec 6) (n : BitVec 5) (map : BitVec 8) :
    let w : Word := pf ++ px ++ kc ++ (0 : BitVec 7) ++ n ++ map
    bits w 13 7 = 0 ∧ bits w 0 8 = map ∧ bits w 8 5 = n ∧ bits w 20 6 = kc ∧ bits w 26 3 = px ∧ bits w 29 3 = pf := by
  refine ⟨?_, ?_, ?_, ?_, ?_, ?_⟩ <;>
    change @bits (3 + 3 + 6 + 7 + 5 + 8) (pf ++ px ++ kc ++ (0 : BitVec 7) ++ n ++ map) _ _ = _ <;>
    simp (disch := decide) only [bits_append_hi, bits_append_lo] <;> exact bits_self _
theorem hmap_word (m : HmapMods) :
    let w : Word := (0 : BitVec 23) ++ m.cache ++ b1 m.comp ++ m.layout ++ b1 m.x ++ b1 m.w ++ m.size
    bits w 9 23 = 0 ∧ bits w 0 2 = m.size ∧ bits w 2 1 = b1 m.w ∧ bits w 3 1 = b1 m.x ∧ bits w 4 2 = m.layout
      ∧ bits w 6 1 = b1 m.comp ∧ bits w 7 2 = m.cache := by
  refine ⟨?_, ?_, ?_, ?_, ?_, ?_, ?_⟩ <;>
    change @bits (23 + 2 + 1 + 2 + 1 + 1 + 2)
      ((0 : BitVec 23) ++ m.cache ++ b1 m.comp ++ m.layout ++ b1 m.x ++ b1 m.w ++ m.size) _ _ = _ <;>
    simp (disch := decide) only [bits_append_hi, bits_append_lo] <;> exact bits_self _
/-- OPC and the ordering of an atomic (R311). -/
theorem opc_back (op : BitVec 4) : bits op 3 1 ++ bits op 0 3 = op := by revert op; decide
theorem opc_mod (op : BitVec 1) (o : BitVec 2) : bits (op ++ o) 2 1 = op ∧ bits (op ++ o) 0 2 = o := by revert op o; decide
theorem opc_red (op : BitVec 1) (r : Bool) : bits (op ++ b1 r ++ 0#1) 2 1 = op ∧ bit (op ++ b1 r ++ 0#1) 0 = false
    ∧ bit (op ++ b1 r ++ 0#1) 1 = r := by revert op r; decide
theorem barWait_word (b : BitVec 4) : bits (b.setWidth 32) 4 5 = 0#5 := by revert b; decide
theorem cpyl_word (spd sps : Bool) (prog : BitVec 4) :
    let w : Word := flag31 spd ||| flag30 sps ||| prog.setWidth 32
    bits w 4 26 = 0 ∧ bit w 31 = spd ∧ bit w 30 = sps ∧ bits w 0 4 = prog := by revert spd sps prog; decide
theorem wld_word (sps : Bool) (krows : BitVec 7) :
    let w : Word := flag31 sps ||| krows.setWidth 32
    bits w 7 24 = 0 ∧ bit w 31 = sps ∧ bits w 0 7 = krows := by revert sps krows; decide
theorem toNat_small {x : Word} {n m : Nat} (h : bits x n m = 0) (e : n + m = 32) : x.toNat < 2 ^ n := by
  have := congrArg BitVec.toNat h
  simp only [bits, BitVec.extractLsb'_toNat, BitVec.toNat_ofNat, Nat.zero_mod] at this
  have hx := x.isLt
  rw [Nat.shiftRight_eq_div_pow] at this
  have h2 : x.toNat / 2 ^ n < 2 ^ m := by
    rw [Nat.div_lt_iff_lt_mul (Nat.two_pow_pos n), ← Nat.pow_add, Nat.add_comm, e]; exact hx
  rw [Nat.mod_eq_of_lt h2] at this
  exact Nat.lt_of_div_eq_zero (Nat.two_pow_pos n) this

/-! ### One lemma per constructor -/

theorem Laws.Reads.nop : Laws.Reads.Statement (.nop) := by
  intro _ c h
  cases h
  exact ⟨rfl, by simp [Code.read, Base2.code, Base1.code, bareCode, FBase.instr, FBase.two, FBase.oneSrc, FBase.bare, noM, bits]⟩
theorem Laws.Reads.braBase (pg : BitVec 3) (off : BitVec 18) : Laws.Reads.Statement (.braBase pg off) := by
  intro _ c h
  cases h
  exact ⟨rfl, by simp [Code.read, Base2.code, Base1.code, bareCode, FBase.instr, FBase.two, FBase.oneSrc, FBase.bare, noM, bits]; exact bra_off off⟩
theorem Laws.Reads.bra (g : Guard) (off : BitVec 32) : Laws.Reads.Statement (.bra g off) := by
  intro _ c h
  cases h
  exact ⟨rfl, by simp [Code.read, FB.instr]⟩
theorem Laws.Reads.braD (g : Guard) (off : BitVec 32) (rc : BitVec 16) : Laws.Reads.Statement (.braD g off rc) := by
  intro _ c h
  cases h
  exact ⟨rfl, by simp [Code.read, FB.instr]⟩
theorem Laws.Reads.brx (g : Guard) (a : BitVec 6) : Laws.Reads.Statement (.brx g a) := by
  intro _ c h
  cases h
  exact ⟨rfl, by simp [Code.read, Alu1.code, Alu2.code, Alu3.code, Cmp.code, gCode, FG.instr, FG.z, FG.noLit, FG.sop0, FG.mod0, FG.modBelow, FG.alu1, FG.alu2, FG.alu3, FG.cmp, FG.bare, Opnd.isNone, Opnd.getV, Opnd.getK, Opnd.getP, Opnd.getX, Opnd.getTile]⟩
theorem Laws.Reads.brxD (g : Guard) (a : BitVec 8) (b : BitVec 6) : Laws.Reads.Statement (.brxD g a b) := by
  intro _ c h
  cases h
  exact ⟨rfl, by simp [Code.read, Alu1.code, Alu2.code, Alu3.code, Cmp.code, gCode, FG.instr, FG.z, FG.noLit, FG.sop0, FG.mod0, FG.modBelow, FG.alu1, FG.alu2, FG.alu3, FG.cmp, FG.bare, Opnd.isNone, Opnd.getV, Opnd.getK, Opnd.getP, Opnd.getX, Opnd.getTile]⟩
theorem Laws.Reads.call (g : Guard) (off : BitVec 32) : Laws.Reads.Statement (.call g off) := by
  intro _ c h
  cases h
  exact ⟨rfl, by simp [Code.read, FB.instr]⟩
theorem Laws.Reads.ret (pg : BitVec 3) : Laws.Reads.Statement (.ret pg) := by
  intro _ c h
  cases h
  exact ⟨rfl, by simp [Code.read, Base2.code, Base1.code, bareCode, FBase.instr, FBase.two, FBase.oneSrc, FBase.bare, noM, bits]⟩
theorem Laws.Reads.exit (pg : BitVec 3) : Laws.Reads.Statement (.exit pg) := by
  intro _ c h
  cases h
  exact ⟨rfl, by simp [Code.read, Base2.code, Base1.code, bareCode, FBase.instr, FBase.two, FBase.oneSrc, FBase.bare, noM, bits]⟩
theorem Laws.Reads.rfill (map : BitVec 6) : Laws.Reads.Statement (.rfill map) := by
  intro _ c h
  cases h
  exact ⟨rfl, by simp [Code.read, Base2.code, Base1.code, bareCode, FBase.instr, FBase.two, FBase.oneSrc, FBase.bare, noM, bits]⟩
theorem Laws.Reads.drain : Laws.Reads.Statement (.drain) := by
  intro _ c h
  cases h
  exact ⟨rfl, by simp [Code.read, Base2.code, Base1.code, bareCode, FBase.instr, FBase.two, FBase.oneSrc, FBase.bare, noM, bits]⟩
theorem Laws.Reads.yield (pg : BitVec 3) : Laws.Reads.Statement (.yield pg) := by
  intro _ c h
  cases h
  exact ⟨rfl, by simp [Code.read, Base2.code, Base1.code, bareCode, FBase.instr, FBase.two, FBase.oneSrc, FBase.bare, noM, bits]⟩
theorem Laws.Reads.trap (g : Guard) (code : BitVec 32) : Laws.Reads.Statement (.trap g code) := by
  intro _ c h
  cases h
  exact ⟨rfl, by simp [Code.read, Alu1.code, Alu2.code, Alu3.code, Cmp.code, gCode, FG.instr, FG.z, FG.noLit, FG.sop0, FG.mod0, FG.modBelow, FG.alu1, FG.alu2, FG.alu3, FG.cmp, FG.bare, Opnd.isNone, Opnd.getV, Opnd.getK, Opnd.getP, Opnd.getX, Opnd.getTile]⟩
theorem Laws.Reads.bkpt (pg : BitVec 3) : Laws.Reads.Statement (.bkpt pg) := by
  intro _ c h
  cases h
  exact ⟨rfl, by simp [Code.read, Base2.code, Base1.code, bareCode, FBase.instr, FBase.two, FBase.oneSrc, FBase.bare, noM, bits]⟩
theorem Laws.Reads.cfetch (g : Guard) (d : BitVec 6) (seg : BitVec 8) (tok : BitVec 3) : Laws.Reads.Statement (.cfetch g d seg tok) := by
  intro _ c h
  cases h
  exact ⟨rfl, by simp [Code.read, tCode, storeCode, atomCode, onTok, FT.instr, FT.noLit, FT.z, FT.sop0, FT.mod0, FT.tok, FT.scope, FT.off0, FT.off, FT.load, FT.store, FT.atomic, FT.cpyMods, FT.onlyCrc, FT.xxk, FT.kk, Opnd.isNone, Opnd.getV, Opnd.getK, Opnd.getP, Opnd.getX, Opnd.getTile, Opnd.getCask, Opnd.getCur, bits_setWidth]⟩
theorem Laws.Reads.jmpf (g : Guard) (off : BitVec 32) : Laws.Reads.Statement (.jmpf g off) := by
  intro _ c h
  cases h
  exact ⟨rfl, by simp [Code.read, FB.instr]⟩
theorem Laws.Reads.eret : Laws.Reads.Statement (.eret) := by
  intro _ c h
  cases h
  exact ⟨rfl, by simp [Code.read, Base2.code, Base1.code, bareCode, FBase.instr, FBase.two, FBase.oneSrc, FBase.bare, noM, bits]⟩
theorem Laws.Reads.iaddBase (sat : Bool) (f : Base2) : Laws.Reads.Statement (.iaddBase sat f) := by
  intro _ c h
  cases h
  exact ⟨rfl, by simp [Code.read, Base2.code, Base1.code, bareCode, FBase.instr, FBase.two, FBase.oneSrc, FBase.bare, noM, bits]⟩
theorem Laws.Reads.iadd (m : AddMode) (f : Alu2) : Laws.Reads.Statement (.iadd m f) := by
  intro _ c h
  cases h
  exact ⟨rfl, by simp [Code.read, Alu1.code, Alu2.code, Alu3.code, Cmp.code, gCode, FG.instr, FG.z, FG.noLit, FG.sop0, FG.mod0, FG.modBelow, FG.alu1, FG.alu2, FG.alu3, FG.cmp, FG.bare, Opnd.isNone, Opnd.getV, Opnd.getK, Opnd.getP, Opnd.getX, Opnd.getTile]⟩
theorem Laws.Reads.isubBase (sat : Bool) (f : Base2) : Laws.Reads.Statement (.isubBase sat f) := by
  intro _ c h
  cases h
  exact ⟨rfl, by simp [Code.read, Base2.code, Base1.code, bareCode, FBase.instr, FBase.two, FBase.oneSrc, FBase.bare, noM, bits]⟩
theorem Laws.Reads.isub (m : AddMode) (f : Alu2) : Laws.Reads.Statement (.isub m f) := by
  intro _ c h
  cases h
  exact ⟨rfl, by simp [Code.read, Alu1.code, Alu2.code, Alu3.code, Cmp.code, gCode, FG.instr, FG.z, FG.noLit, FG.sop0, FG.mod0, FG.modBelow, FG.alu1, FG.alu2, FG.alu3, FG.cmp, FG.bare, Opnd.isNone, Opnd.getV, Opnd.getK, Opnd.getP, Opnd.getX, Opnd.getTile]⟩
theorem Laws.Reads.imulBase (f : Base2) : Laws.Reads.Statement (.imulBase f) := by
  intro _ c h
  cases h
  exact ⟨rfl, by simp [Code.read, Base2.code, Base1.code, bareCode, FBase.instr, FBase.two, FBase.oneSrc, FBase.bare, noM, bits]⟩
theorem Laws.Reads.imul (f : Alu2) : Laws.Reads.Statement (.imul f) := by
  intro _ c h
  cases h
  exact ⟨rfl, by simp [Code.read, Alu1.code, Alu2.code, Alu3.code, Cmp.code, gCode, FG.instr, FG.z, FG.noLit, FG.sop0, FG.mod0, FG.modBelow, FG.alu1, FG.alu2, FG.alu3, FG.cmp, FG.bare, Opnd.isNone, Opnd.getV, Opnd.getK, Opnd.getP, Opnd.getX, Opnd.getTile]⟩
theorem Laws.Reads.imulhBase (u : Bool) (f : Base2) : Laws.Reads.Statement (.imulhBase u f) := by
  intro _ c h
  cases h
  exact ⟨rfl, by simp [Code.read, Base2.code, Base1.code, bareCode, FBase.instr, FBase.two, FBase.oneSrc, FBase.bare, noM, bits]⟩
theorem Laws.Reads.imulh (u : Bool) (f : Alu2) : Laws.Reads.Statement (.imulh u f) := by
  intro _ c h
  cases h
  exact ⟨rfl, by simp [Code.read, Alu1.code, Alu2.code, Alu3.code, Cmp.code, gCode, FG.instr, FG.z, FG.noLit, FG.sop0, FG.mod0, FG.modBelow, FG.alu1, FG.alu2, FG.alu3, FG.cmp, FG.bare, Opnd.isNone, Opnd.getV, Opnd.getK, Opnd.getP, Opnd.getX, Opnd.getTile]⟩
theorem Laws.Reads.imad (m : MadMode) (f : Alu3) : Laws.Reads.Statement (.imad m f) := by
  intro _ c h
  cases h
  exact ⟨rfl, by simp [Code.read, Alu1.code, Alu2.code, Alu3.code, Cmp.code, gCode, FG.instr, FG.z, FG.noLit, FG.sop0, FG.mod0, FG.modBelow, FG.alu1, FG.alu2, FG.alu3, FG.cmp, FG.bare, Opnd.isNone, Opnd.getV, Opnd.getK, Opnd.getP, Opnd.getX, Opnd.getTile]⟩
theorem Laws.Reads.iminBase (f : Base2) : Laws.Reads.Statement (.iminBase f) := by
  intro _ c h
  cases h
  exact ⟨rfl, by simp [Code.read, Base2.code, Base1.code, bareCode, FBase.instr, FBase.two, FBase.oneSrc, FBase.bare, noM, bits]⟩
theorem Laws.Reads.imin (u : Bool) (f : Alu2) : Laws.Reads.Statement (.imin u f) := by
  intro _ c h
  cases h
  exact ⟨rfl, by simp [Code.read, Alu1.code, Alu2.code, Alu3.code, Cmp.code, gCode, FG.instr, FG.z, FG.noLit, FG.sop0, FG.mod0, FG.modBelow, FG.alu1, FG.alu2, FG.alu3, FG.cmp, FG.bare, Opnd.isNone, Opnd.getV, Opnd.getK, Opnd.getP, Opnd.getX, Opnd.getTile]⟩
theorem Laws.Reads.imaxBase (f : Base2) : Laws.Reads.Statement (.imaxBase f) := by
  intro _ c h
  cases h
  exact ⟨rfl, by simp [Code.read, Base2.code, Base1.code, bareCode, FBase.instr, FBase.two, FBase.oneSrc, FBase.bare, noM, bits]⟩
theorem Laws.Reads.imax (u : Bool) (f : Alu2) : Laws.Reads.Statement (.imax u f) := by
  intro _ c h
  cases h
  exact ⟨rfl, by simp [Code.read, Alu1.code, Alu2.code, Alu3.code, Cmp.code, gCode, FG.instr, FG.z, FG.noLit, FG.sop0, FG.mod0, FG.modBelow, FG.alu1, FG.alu2, FG.alu3, FG.cmp, FG.bare, Opnd.isNone, Opnd.getV, Opnd.getK, Opnd.getP, Opnd.getX, Opnd.getTile]⟩
theorem Laws.Reads.iabsBase (sat : Bool) (f : Base1) : Laws.Reads.Statement (.iabsBase sat f) := by
  intro _ c h
  cases h
  exact ⟨rfl, by simp [Code.read, Base2.code, Base1.code, bareCode, FBase.instr, FBase.two, FBase.oneSrc, FBase.bare, noM, bits]⟩
theorem Laws.Reads.iabs (sat : Bool) (f : Alu1) : Laws.Reads.Statement (.iabs sat f) := by
  intro _ c h
  cases h
  exact ⟨rfl, by simp [Code.read, Alu1.code, Alu2.code, Alu3.code, Cmp.code, gCode, FG.instr, FG.z, FG.noLit, FG.sop0, FG.mod0, FG.modBelow, FG.alu1, FG.alu2, FG.alu3, FG.cmp, FG.bare, Opnd.isNone, Opnd.getV, Opnd.getK, Opnd.getP, Opnd.getX, Opnd.getTile]⟩
theorem Laws.Reads.lopBase (or : Bool) (f : Base2) : Laws.Reads.Statement (.lopBase or f) := by
  intro _ c h
  cases h
  exact ⟨rfl, by simp [Code.read, Base2.code, Base1.code, bareCode, FBase.instr, FBase.two, FBase.oneSrc, FBase.bare, noM, bits]⟩
theorem Laws.Reads.lop (op : LopOp) (g : Guard) (d : VK) (a : Src) (b : Option SrcL) : Laws.Reads.Statement (.lop op g d a b) := by
  intro w c h
  cases h
  refine ⟨by rfl, ?_⟩
  cases b with
  | none =>
    have e : op = .not := by cases op <;> simp_all [Instr.wf]
    subst e
    simp [Code.read, Alu1.code, Alu2.code, Alu3.code, Cmp.code, gCode, FG.instr, FG.z, FG.noLit, FG.sop0, FG.mod0, FG.modBelow, FG.alu1, FG.alu2, FG.alu3, FG.cmp, FG.bare, Opnd.isNone, Opnd.getV, Opnd.getK, Opnd.getP, Opnd.getX, Opnd.getTile, FG.lopB]
  | some y =>
    have e : ¬ op = .not := by
      cases op <;> simp_all [Instr.wf]
    simp [Code.read, Alu1.code, Alu2.code, Alu3.code, Cmp.code, gCode, FG.instr, FG.z, FG.noLit, FG.sop0, FG.mod0, FG.modBelow, FG.alu1, FG.alu2, FG.alu3, FG.cmp, FG.bare, Opnd.isNone, Opnd.getV, Opnd.getK, Opnd.getP, Opnd.getX, Opnd.getTile, FG.lopB, e]
theorem Laws.Reads.shfBase (r : Bool) (f : Base2) : Laws.Reads.Statement (.shfBase r f) := by
  intro _ c h
  cases h
  exact ⟨rfl, by simp [Code.read, Base2.code, Base1.code, bareCode, FBase.instr, FBase.two, FBase.oneSrc, FBase.bare, noM, bits]⟩
theorem Laws.Reads.shf (op : ShfOp) (g : Guard) (d : VK) (a : Src) (b : SrcL) (c : Option Src) : Laws.Reads.Statement (.shf op g d a b c) := by
  intro w c h
  cases h
  refine ⟨by rfl, ?_⟩
  cases c with
  | none =>
    have e : ¬ op = .f := by
      cases op <;> simp_all [Instr.wf]
    simp [Code.read, Alu1.code, Alu2.code, Alu3.code, Cmp.code, gCode, FG.instr, FG.z, FG.noLit, FG.sop0, FG.mod0, FG.modBelow, FG.alu1, FG.alu2, FG.alu3, FG.cmp, FG.bare, Opnd.isNone, Opnd.getV, Opnd.getK, Opnd.getP, Opnd.getX, Opnd.getTile, FG.shfC, e]
  | some y =>
    have e : op = .f := by
      cases op <;> simp_all [Instr.wf]
    subst e
    simp [Code.read, Alu1.code, Alu2.code, Alu3.code, Cmp.code, gCode, FG.instr, FG.z, FG.noLit, FG.sop0, FG.mod0, FG.modBelow, FG.alu1, FG.alu2, FG.alu3, FG.cmp, FG.bare, Opnd.isNone, Opnd.getV, Opnd.getK, Opnd.getP, Opnd.getX, Opnd.getTile, FG.shfC]
theorem Laws.Reads.bfx (s : Bool) (pos wm1 : BitVec 5) (f : Alu1) : Laws.Reads.Statement (.bfx s pos wm1 f) := by
  intro _ c h
  cases h
  obtain ⟨h1, h2, h3⟩ := two_fields 22 wm1 pos
  exact ⟨rfl, by simp [Code.read, Alu1.code, Alu2.code, Alu3.code, Cmp.code, gCode, FG.instr, FG.z, FG.noLit, FG.sop0, FG.mod0, FG.modBelow, FG.alu1, FG.alu2, FG.alu3, FG.cmp, FG.bare, Opnd.isNone, Opnd.getV, Opnd.getK, Opnd.getP, Opnd.getX, Opnd.getTile, FG.field]; simp_all⟩
theorem Laws.Reads.bfi (pos wm1 : BitVec 5) (g : Guard) (d : VK) (a b : Src) : Laws.Reads.Statement (.bfi pos wm1 g d a b) := by
  intro _ c h
  cases h
  obtain ⟨h1, h2, h3⟩ := two_fields 22 wm1 pos
  exact ⟨rfl, by simp [Code.read, Alu1.code, Alu2.code, Alu3.code, Cmp.code, gCode, FG.instr, FG.z, FG.noLit, FG.sop0, FG.mod0, FG.modBelow, FG.alu1, FG.alu2, FG.alu3, FG.cmp, FG.bare, Opnd.isNone, Opnd.getV, Opnd.getK, Opnd.getP, Opnd.getX, Opnd.getTile, FG.field]; simp_all⟩
theorem Laws.Reads.popcBase (f : Base1) : Laws.Reads.Statement (.popcBase f) := by
  intro _ c h
  cases h
  exact ⟨rfl, by simp [Code.read, Base2.code, Base1.code, bareCode, FBase.instr, FBase.two, FBase.oneSrc, FBase.bare, noM, bits]⟩
theorem Laws.Reads.popc (f : Alu1) : Laws.Reads.Statement (.popc f) := by
  intro _ c h
  cases h
  exact ⟨rfl, by simp [Code.read, Alu1.code, Alu2.code, Alu3.code, Cmp.code, gCode, FG.instr, FG.z, FG.noLit, FG.sop0, FG.mod0, FG.modBelow, FG.alu1, FG.alu2, FG.alu3, FG.cmp, FG.bare, Opnd.isNone, Opnd.getV, Opnd.getK, Opnd.getP, Opnd.getX, Opnd.getTile]⟩
theorem Laws.Reads.clzBase (f : Base1) : Laws.Reads.Statement (.clzBase f) := by
  intro _ c h
  cases h
  exact ⟨rfl, by simp [Code.read, Base2.code, Base1.code, bareCode, FBase.instr, FBase.two, FBase.oneSrc, FBase.bare, noM, bits]⟩
theorem Laws.Reads.clz (f : Alu1) : Laws.Reads.Statement (.clz f) := by
  intro _ c h
  cases h
  exact ⟨rfl, by simp [Code.read, Alu1.code, Alu2.code, Alu3.code, Cmp.code, gCode, FG.instr, FG.z, FG.noLit, FG.sop0, FG.mod0, FG.modBelow, FG.alu1, FG.alu2, FG.alu3, FG.cmp, FG.bare, Opnd.isNone, Opnd.getV, Opnd.getK, Opnd.getP, Opnd.getX, Opnd.getTile]⟩
theorem Laws.Reads.leaBase (s : Bool) (f : Base2) : Laws.Reads.Statement (.leaBase s f) := by
  intro _ c h
  cases h
  exact ⟨rfl, by simp [Code.read, Base2.code, Base1.code, bareCode, FBase.instr, FBase.two, FBase.oneSrc, FBase.bare, noM, bits]⟩
theorem Laws.Reads.lea (s : Bool) (shift : BitVec 3) (g : Guard) (d a : VK) (b : SrcL) : Laws.Reads.Statement (.lea s shift g d a b) := by
  intro _ c h
  cases h
  exact ⟨rfl, by simp [Code.read, Alu1.code, Alu2.code, Alu3.code, Cmp.code, gCode, FG.instr, FG.z, FG.noLit, FG.sop0, FG.mod0, FG.modBelow, FG.alu1, FG.alu2, FG.alu3, FG.cmp, FG.bare, Opnd.isNone, Opnd.getV, Opnd.getK, Opnd.getP, Opnd.getX, Opnd.getTile, bits_setWidth]⟩
theorem Laws.Reads.icmp (c : ICond) (u : Bool) (f : Cmp) : Laws.Reads.Statement (.icmp c u f) := by
  intro _ c h
  cases h
  exact ⟨rfl, by simp [Code.read, Alu1.code, Alu2.code, Alu3.code, Cmp.code, gCode, FG.instr, FG.z, FG.noLit, FG.sop0, FG.mod0, FG.modBelow, FG.alu1, FG.alu2, FG.alu3, FG.cmp, FG.bare, Opnd.isNone, Opnd.getV, Opnd.getK, Opnd.getP, Opnd.getX, Opnd.getTile]⟩
theorem Laws.Reads.sel (wide : Bool) (g : Guard) (d : VK) (a : Src) (b : SrcL) (c : SelCond) : Laws.Reads.Statement (.sel wide g d a b c) := by
  intro _ c h
  cases h
  refine ⟨by rfl, ?_⟩
  cases c <;> simp [Code.read, Alu1.code, Alu2.code, Alu3.code, Cmp.code, gCode, FG.instr, FG.z, FG.noLit, FG.sop0, FG.mod0, FG.modBelow, FG.alu1, FG.alu2, FG.alu3, FG.cmp, FG.bare, Opnd.isNone, Opnd.getV, Opnd.getK, Opnd.getP, Opnd.getX, Opnd.getTile, Opnd.selCond]
theorem Laws.Reads.movBase (wide : Bool) (pg : BitVec 3) (d : BitVec 6) (b : BaseB) : Laws.Reads.Statement (.movBase wide pg d b) := by
  intro _ c h
  cases h
  exact ⟨rfl, by simp [Code.read, Base2.code, Base1.code, bareCode, FBase.instr, FBase.two, FBase.oneSrc, FBase.bare, noM, bits]⟩
theorem Laws.Reads.mov (wide : Bool) (g : Guard) (d : VK) (b : SrcL) : Laws.Reads.Statement (.mov wide g d b) := by
  intro _ c h
  cases h
  exact ⟨rfl, by simp [Code.read, Alu1.code, Alu2.code, Alu3.code, Cmp.code, gCode, FG.instr, FG.z, FG.noLit, FG.sop0, FG.mod0, FG.modBelow, FG.alu1, FG.alu2, FG.alu3, FG.cmp, FG.bare, Opnd.isNone, Opnd.getV, Opnd.getK, Opnd.getP, Opnd.getX, Opnd.getTile]⟩
theorem Laws.Reads.movk (g : Guard) (d : BitVec 6) (a : BitVec 8) (lane : Option LaneNo) : Laws.Reads.Statement (.movk g d a lane) := by
  intro _ c h
  cases h
  rcases lane with _ | _ | _ <;> exact ⟨rfl, by simp [Code.read, Alu1.code, Alu2.code, Alu3.code, Cmp.code, gCode, FG.instr, FG.z, FG.noLit, FG.sop0, FG.mod0, FG.modBelow, FG.alu1, FG.alu2, FG.alu3, FG.cmp, FG.bare, Opnd.isNone, Opnd.getV, Opnd.getK, Opnd.getP, Opnd.getX, Opnd.getTile, Opnd.laneNo]⟩
theorem Laws.Reads.faddBase (sat : Bool) (f : Base2) : Laws.Reads.Statement (.faddBase sat f) := by
  intro _ c h
  cases h
  exact ⟨rfl, by simp [Code.read, Base2.code, Base1.code, bareCode, FBase.instr, FBase.two, FBase.oneSrc, FBase.bare, noM, bits]⟩
theorem Laws.Reads.fadd (sat : Bool) (f : Alu2) : Laws.Reads.Statement (.fadd sat f) := by
  intro _ c h
  cases h
  exact ⟨rfl, by simp [Code.read, Alu1.code, Alu2.code, Alu3.code, Cmp.code, gCode, FG.instr, FG.z, FG.noLit, FG.sop0, FG.mod0, FG.modBelow, FG.alu1, FG.alu2, FG.alu3, FG.cmp, FG.bare, Opnd.isNone, Opnd.getV, Opnd.getK, Opnd.getP, Opnd.getX, Opnd.getTile]⟩
theorem Laws.Reads.fmulBase (sat : Bool) (f : Base2) : Laws.Reads.Statement (.fmulBase sat f) := by
  intro _ c h
  cases h
  exact ⟨rfl, by simp [Code.read, Base2.code, Base1.code, bareCode, FBase.instr, FBase.two, FBase.oneSrc, FBase.bare, noM, bits]⟩
theorem Laws.Reads.fmul (sat : Bool) (f : Alu2) : Laws.Reads.Statement (.fmul sat f) := by
  intro _ c h
  cases h
  exact ⟨rfl, by simp [Code.read, Alu1.code, Alu2.code, Alu3.code, Cmp.code, gCode, FG.instr, FG.z, FG.noLit, FG.sop0, FG.mod0, FG.modBelow, FG.alu1, FG.alu2, FG.alu3, FG.cmp, FG.bare, Opnd.isNone, Opnd.getV, Opnd.getK, Opnd.getP, Opnd.getX, Opnd.getTile]⟩
theorem Laws.Reads.ffma (sat nega negc : Bool) (f : Alu3) : Laws.Reads.Statement (.ffma sat nega negc f) := by
  intro _ c h
  cases h
  exact ⟨rfl, by simp [Code.read, Alu1.code, Alu2.code, Alu3.code, Cmp.code, gCode, FG.instr, FG.z, FG.noLit, FG.sop0, FG.mod0, FG.modBelow, FG.alu1, FG.alu2, FG.alu3, FG.cmp, FG.bare, Opnd.isNone, Opnd.getV, Opnd.getK, Opnd.getP, Opnd.getX, Opnd.getTile]⟩
theorem Laws.Reads.fminBase (f : Base2) : Laws.Reads.Statement (.fminBase f) := by
  intro _ c h
  cases h
  exact ⟨rfl, by simp [Code.read, Base2.code, Base1.code, bareCode, FBase.instr, FBase.two, FBase.oneSrc, FBase.bare, noM, bits]⟩
theorem Laws.Reads.fmin (f : Alu2) : Laws.Reads.Statement (.fmin f) := by
  intro _ c h
  cases h
  exact ⟨rfl, by simp [Code.read, Alu1.code, Alu2.code, Alu3.code, Cmp.code, gCode, FG.instr, FG.z, FG.noLit, FG.sop0, FG.mod0, FG.modBelow, FG.alu1, FG.alu2, FG.alu3, FG.cmp, FG.bare, Opnd.isNone, Opnd.getV, Opnd.getK, Opnd.getP, Opnd.getX, Opnd.getTile]; rfl⟩
theorem Laws.Reads.fmaxBase (f : Base2) : Laws.Reads.Statement (.fmaxBase f) := by
  intro _ c h
  cases h
  exact ⟨rfl, by simp [Code.read, Base2.code, Base1.code, bareCode, FBase.instr, FBase.two, FBase.oneSrc, FBase.bare, noM, bits]⟩
theorem Laws.Reads.fmax (f : Alu2) : Laws.Reads.Statement (.fmax f) := by
  intro _ c h
  cases h
  exact ⟨rfl, by simp [Code.read, Alu1.code, Alu2.code, Alu3.code, Cmp.code, gCode, FG.instr, FG.z, FG.noLit, FG.sop0, FG.mod0, FG.modBelow, FG.alu1, FG.alu2, FG.alu3, FG.cmp, FG.bare, Opnd.isNone, Opnd.getV, Opnd.getK, Opnd.getP, Opnd.getX, Opnd.getTile]; rfl⟩
theorem Laws.Reads.fcmp (c : FCond) (f : Cmp) : Laws.Reads.Statement (.fcmp c f) := by
  intro _ c h
  cases h
  exact ⟨rfl, by simp [Code.read, Alu1.code, Alu2.code, Alu3.code, Cmp.code, gCode, FG.instr, FG.z, FG.noLit, FG.sop0, FG.mod0, FG.modBelow, FG.alu1, FG.alu2, FG.alu3, FG.cmp, FG.bare, Opnd.isNone, Opnd.getV, Opnd.getK, Opnd.getP, Opnd.getX, Opnd.getTile]⟩
theorem Laws.Reads.ftrnRcpBase (f : Base1) : Laws.Reads.Statement (.ftrnRcpBase f) := by
  intro _ c h
  cases h
  exact ⟨rfl, by simp [Code.read, Base2.code, Base1.code, bareCode, FBase.instr, FBase.two, FBase.oneSrc, FBase.bare, noM, bits]⟩
theorem Laws.Reads.ftrn (fn : FtrnFn) (f : Alu1) : Laws.Reads.Statement (.ftrn fn f) := by
  intro _ c h
  cases h
  exact ⟨rfl, by simp [Code.read, Alu1.code, Alu2.code, Alu3.code, Cmp.code, gCode, FG.instr, FG.z, FG.noLit, FG.sop0, FG.mod0, FG.modBelow, FG.alu1, FG.alu2, FG.alu3, FG.cmp, FG.bare, Opnd.isNone, Opnd.getV, Opnd.getK, Opnd.getP, Opnd.getX, Opnd.getTile]⟩
theorem Laws.Reads.pfma (bf sat nega negc : Bool) (f : Alu3) : Laws.Reads.Statement (.pfma bf sat nega negc f) := by
  intro _ c h
  cases h
  exact ⟨rfl, by simp [Code.read, Alu1.code, Alu2.code, Alu3.code, Cmp.code, gCode, FG.instr, FG.z, FG.noLit, FG.sop0, FG.mod0, FG.modBelow, FG.alu1, FG.alu2, FG.alu3, FG.cmp, FG.bare, Opnd.isNone, Opnd.getV, Opnd.getK, Opnd.getP, Opnd.getX, Opnd.getTile]⟩
theorem Laws.Reads.idp4 (ua ub sat : Bool) (f : Alu3) : Laws.Reads.Statement (.idp4 ua ub sat f) := by
  intro _ c h
  cases h
  exact ⟨rfl, by simp [Code.read, Alu1.code, Alu2.code, Alu3.code, Cmp.code, gCode, FG.instr, FG.z, FG.noLit, FG.sop0, FG.mod0, FG.modBelow, FG.alu1, FG.alu2, FG.alu3, FG.cmp, FG.bare, Opnd.isNone, Opnd.getV, Opnd.getK, Opnd.getP, Opnd.getX, Opnd.getTile]⟩
theorem Laws.Reads.cvt (sat : Bool) (src dst : BitVec 5) (rm : RMode) (f : Alu1) : Laws.Reads.Statement (.cvt sat src dst rm f) := by
  intro _ c h
  cases h
  obtain ⟨h1, h2, h3, h4, h5, h6⟩ := cvt_word rm.code dst src
  exact ⟨rfl, by simp [Code.read, Alu1.code, Alu2.code, Alu3.code, Cmp.code, gCode, FG.instr, FG.z, FG.noLit, FG.sop0, FG.mod0, FG.modBelow, FG.alu1, FG.alu2, FG.alu3, FG.cmp, FG.bare, Opnd.isNone, Opnd.getV, Opnd.getK, Opnd.getP, Opnd.getX, Opnd.getTile]; simp_all⟩
theorem Laws.Reads.frnd (rm : RMode) (f : Alu1) : Laws.Reads.Statement (.frnd rm f) := by
  intro _ c h
  cases h
  have h1 : bits (0#1 ++ rm.code) 0 2 = rm.code := by cases rm <;> rfl
  exact ⟨rfl, by simp [Code.read, Alu1.code, Alu2.code, Alu3.code, Cmp.code, gCode, FG.instr, FG.z, FG.noLit, FG.sop0, FG.mod0, FG.modBelow, FG.alu1, FG.alu2, FG.alu3, FG.cmp, FG.bare, Opnd.isNone, Opnd.getV, Opnd.getK, Opnd.getP, Opnd.getX, Opnd.getTile]; simp_all⟩
theorem Laws.Reads.vote (op : VoteOp) (g : Guard) (d : VKP) (a : BitVec 3) : Laws.Reads.Statement (.vote op g d a) := by
  intro _ c h
  cases h
  refine ⟨by rfl, ?_⟩
  cases d <;> simp [Code.read, Alu1.code, Alu2.code, Alu3.code, Cmp.code, gCode, FG.instr, FG.z, FG.noLit, FG.sop0, FG.mod0, FG.modBelow, FG.alu1, FG.alu2, FG.alu3, FG.cmp, FG.bare, Opnd.isNone, Opnd.getV, Opnd.getK, Opnd.getP, Opnd.getX, Opnd.getTile, Opnd.vkp]
theorem Laws.Reads.shfl (op : ShflOp) (g : Guard) (d a : BitVec 8) (b : SrcL) : Laws.Reads.Statement (.shfl op g d a b) := by
  intro _ c h
  cases h
  exact ⟨rfl, by simp [Code.read, Alu1.code, Alu2.code, Alu3.code, Cmp.code, gCode, FG.instr, FG.z, FG.noLit, FG.sop0, FG.mod0, FG.modBelow, FG.alu1, FG.alu2, FG.alu3, FG.cmp, FG.bare, Opnd.isNone, Opnd.getV, Opnd.getK, Opnd.getP, Opnd.getX, Opnd.getTile]⟩
theorem Laws.Reads.bred (op : RedOp) (g : Guard) (d : VK) (a : BitVec 8) : Laws.Reads.Statement (.bred op g d a) := by
  intro _ c h
  cases h
  exact ⟨rfl, by simp [Code.read, Alu1.code, Alu2.code, Alu3.code, Cmp.code, gCode, FG.instr, FG.z, FG.noLit, FG.sop0, FG.mod0, FG.modBelow, FG.alu1, FG.alu2, FG.alu3, FG.cmp, FG.bare, Opnd.isNone, Opnd.getV, Opnd.getK, Opnd.getP, Opnd.getX, Opnd.getTile]⟩
theorem Laws.Reads.bscan (op : RedOp) (excl : Bool) (g : Guard) (d a : BitVec 8) : Laws.Reads.Statement (.bscan op excl g d a) := by
  intro _ c h
  cases h
  exact ⟨rfl, by simp [Code.read, Alu1.code, Alu2.code, Alu3.code, Cmp.code, gCode, FG.instr, FG.z, FG.noLit, FG.sop0, FG.mod0, FG.modBelow, FG.alu1, FG.alu2, FG.alu3, FG.cmp, FG.bare, Opnd.isNone, Opnd.getV, Opnd.getK, Opnd.getP, Opnd.getX, Opnd.getTile]⟩
theorem Laws.Reads.matchl (g : Guard) (d : MatchD) (a : BitVec 8) : Laws.Reads.Statement (.matchl g d a) := by
  intro _ c h
  cases h
  cases d <;> exact ⟨rfl, by simp [Code.read, Alu1.code, Alu2.code, Alu3.code, Cmp.code, gCode, FG.instr, FG.z, FG.noLit, FG.sop0, FG.mod0, FG.modBelow, FG.alu1, FG.alu2, FG.alu3, FG.cmp, FG.bare, Opnd.isNone, Opnd.getV, Opnd.getK, Opnd.getP, Opnd.getX, Opnd.getTile]⟩
theorem Laws.Reads.qdif (y : Bool) (g : Guard) (d a : BitVec 8) : Laws.Reads.Statement (.qdif y g d a) := by
  intro _ c h
  cases h
  exact ⟨rfl, by simp [Code.read, Alu1.code, Alu2.code, Alu3.code, Cmp.code, gCode, FG.instr, FG.z, FG.noLit, FG.sop0, FG.mod0, FG.modBelow, FG.alu1, FG.alu2, FG.alu3, FG.cmp, FG.bare, Opnd.isNone, Opnd.getV, Opnd.getK, Opnd.getP, Opnd.getX, Opnd.getTile]⟩
theorem Laws.Reads.plop (op : PlopOp) (g : Guard) (d a : BitVec 3) (b : Option (BitVec 3)) : Laws.Reads.Statement (.plop op g d a b) := by
  intro w c h
  cases h
  refine ⟨by rfl, ?_⟩
  cases b <;> cases op <;> simp_all [Instr.wf, Code.read, Alu1.code, Alu2.code, Alu3.code, Cmp.code, gCode, FG.instr, FG.z, FG.noLit, FG.sop0, FG.mod0, FG.modBelow, FG.alu1, FG.alu2, FG.alu3, FG.cmp, FG.bare, Opnd.isNone, Opnd.getV, Opnd.getK, Opnd.getP, Opnd.getX, Opnd.getTile, PlopOp.code, PlopOp.ofCode]
theorem Laws.Reads.ld (g : Guard) (sz : LoadSize) (acq : Bool) (sc : Scope) (d base : VK) (off : BitVec 29) (tok : BitVec 3) : Laws.Reads.Statement (.ld g sz acq sc d base off tok) := by
  intro _ c h
  cases h
  exact ⟨rfl, by simp [Code.read, tCode, storeCode, atomCode, onTok, FT.instr, FT.noLit, FT.z, FT.sop0, FT.mod0, FT.tok, FT.scope, FT.off0, FT.off, FT.load, FT.store, FT.atomic, FT.cpyMods, FT.onlyCrc, FT.xxk, FT.kk, Opnd.isNone, Opnd.getV, Opnd.getK, Opnd.getP, Opnd.getX, Opnd.getTile, Opnd.getCask, Opnd.getCur]⟩
theorem Laws.Reads.st (g : Guard) (sz : StoreSize) (rel : Bool) (sc : Scope) (base : VK) (off : BitVec 29) (b : SrcL) (t : TokOpt) : Laws.Reads.Statement (.st g sz rel sc base off b t) := by
  intro _ c h
  cases h
  exact ⟨rfl, by simp [Code.read, tCode, storeCode, atomCode, onTok, FT.instr, FT.noLit, FT.z, FT.sop0, FT.mod0, FT.tok, FT.scope, FT.off0, FT.off, FT.load, FT.store, FT.atomic, FT.cpyMods, FT.onlyCrc, FT.xxk, FT.kk, Opnd.isNone, Opnd.getV, Opnd.getK, Opnd.getP, Opnd.getX, Opnd.getTile, Opnd.getCask, Opnd.getCur]⟩
theorem Laws.Reads.lds (g : Guard) (sz : LoadSize) (m : LdsMode) (d base : VK) (off : BitVec 29) (tok : BitVec 3) : Laws.Reads.Statement (.lds g sz m d base off tok) := by
  intro _ c h
  cases h
  exact ⟨rfl, by simp [Code.read, tCode, storeCode, atomCode, onTok, FT.instr, FT.noLit, FT.z, FT.sop0, FT.mod0, FT.tok, FT.scope, FT.off0, FT.off, FT.load, FT.store, FT.atomic, FT.cpyMods, FT.onlyCrc, FT.xxk, FT.kk, Opnd.isNone, Opnd.getV, Opnd.getK, Opnd.getP, Opnd.getX, Opnd.getTile, Opnd.getCask, Opnd.getCur]⟩
theorem Laws.Reads.sts (g : Guard) (sz : StoreSize) (m : StsMode) (base : VK) (off : BitVec 29) (b : SrcL) (t : TokOpt) : Laws.Reads.Statement (.sts g sz m base off b t) := by
  intro _ c h
  cases h
  exact ⟨rfl, by simp [Code.read, tCode, storeCode, atomCode, onTok, FT.instr, FT.noLit, FT.z, FT.sop0, FT.mod0, FT.tok, FT.scope, FT.off0, FT.off, FT.load, FT.store, FT.atomic, FT.cpyMods, FT.onlyCrc, FT.xxk, FT.kk, Opnd.isNone, Opnd.getV, Opnd.getK, Opnd.getP, Opnd.getX, Opnd.getTile, Opnd.getCask, Opnd.getCur]⟩
theorem Laws.Reads.ldc (g : Guard) (sz : LoadSize) (acq : Bool) (sc : Scope) (d base : VK) (off : BitVec 29) (tok : BitVec 3) : Laws.Reads.Statement (.ldc g sz acq sc d base off tok) := by
  intro _ c h
  cases h
  exact ⟨rfl, by simp [Code.read, tCode, storeCode, atomCode, onTok, FT.instr, FT.noLit, FT.z, FT.sop0, FT.mod0, FT.tok, FT.scope, FT.off0, FT.off, FT.load, FT.store, FT.atomic, FT.cpyMods, FT.onlyCrc, FT.xxk, FT.kk, Opnd.isNone, Opnd.getV, Opnd.getK, Opnd.getP, Opnd.getX, Opnd.getTile, Opnd.getCask, Opnd.getCur]⟩
theorem Laws.Reads.stc (g : Guard) (sz : StoreSize) (rel : Bool) (sc : Scope) (base : VK) (off : BitVec 29) (b : SrcL) (t : TokOpt) : Laws.Reads.Statement (.stc g sz rel sc base off b t) := by
  intro _ c h
  cases h
  exact ⟨rfl, by simp [Code.read, tCode, storeCode, atomCode, onTok, FT.instr, FT.noLit, FT.z, FT.sop0, FT.mod0, FT.tok, FT.scope, FT.off0, FT.off, FT.load, FT.store, FT.atomic, FT.cpyMods, FT.onlyCrc, FT.xxk, FT.kk, Opnd.isNone, Opnd.getV, Opnd.getK, Opnd.getP, Opnd.getX, Opnd.getTile, Opnd.getCask, Opnd.getCur]⟩
theorem Laws.Reads.ldk (g : Guard) (sz : LoadSize) (acq : Bool) (sc : Scope) (d base : BitVec 6) (off : BitVec 29) (tok : BitVec 3) : Laws.Reads.Statement (.ldk g sz acq sc d base off tok) := by
  intro _ c h
  cases h
  exact ⟨rfl, by simp [Code.read, tCode, storeCode, atomCode, onTok, FT.instr, FT.noLit, FT.z, FT.sop0, FT.mod0, FT.tok, FT.scope, FT.off0, FT.off, FT.load, FT.store, FT.atomic, FT.cpyMods, FT.onlyCrc, FT.xxk, FT.kk, Opnd.isNone, Opnd.getV, Opnd.getK, Opnd.getP, Opnd.getX, Opnd.getTile, Opnd.getCask, Opnd.getCur]⟩
theorem Laws.Reads.tld (s32 : Bool) (g : Guard) (d : VK) (x : BitVec 8) (b : VK) (fill : Word) (tok : BitVec 3) : Laws.Reads.Statement (.tld s32 g d x b fill tok) := by
  intro _ c h
  cases h
  exact ⟨rfl, by simp [Code.read, tCode, storeCode, atomCode, onTok, FT.instr, FT.noLit, FT.z, FT.sop0, FT.mod0, FT.tok, FT.scope, FT.off0, FT.off, FT.load, FT.store, FT.atomic, FT.cpyMods, FT.onlyCrc, FT.xxk, FT.kk, Opnd.isNone, Opnd.getV, Opnd.getK, Opnd.getP, Opnd.getX, Opnd.getTile, Opnd.getCask, Opnd.getCur]⟩
theorem Laws.Reads.pref (l1 : Bool) (g : Guard) (base : VK) (off : BitVec 29) (t : TokOpt) : Laws.Reads.Statement (.pref l1 g base off t) := by
  intro _ c h
  cases h
  exact ⟨rfl, by simp [Code.read, tCode, storeCode, atomCode, onTok, FT.instr, FT.noLit, FT.z, FT.sop0, FT.mod0, FT.tok, FT.scope, FT.off0, FT.off, FT.load, FT.store, FT.atomic, FT.cpyMods, FT.onlyCrc, FT.xxk, FT.kk, Opnd.isNone, Opnd.getV, Opnd.getK, Opnd.getP, Opnd.getX, Opnd.getTile, Opnd.getCask, Opnd.getCur]⟩
theorem Laws.Reads.cctl (op : CctlOp) (sc : Scope) (g : Guard) (a : BitVec 6) (len : SrcL) (off : BitVec 29) (tok : BitVec 3) : Laws.Reads.Statement (.cctl op sc g a len off tok) := by
  intro _ c h
  cases h
  exact ⟨rfl, by simp [Code.read, tCode, storeCode, atomCode, onTok, FT.instr, FT.noLit, FT.z, FT.sop0, FT.mod0, FT.tok, FT.scope, FT.off0, FT.off, FT.load, FT.store, FT.atomic, FT.cpyMods, FT.onlyCrc, FT.xxk, FT.kk, Opnd.isNone, Opnd.getV, Opnd.getK, Opnd.getP, Opnd.getX, Opnd.getTile, Opnd.getCask, Opnd.getCur]⟩
theorem Laws.Reads.atom (op : BitVec 4) (ord : AtomOrd) (sc : Scope) (g : Guard) (d base : VK) (off : BitVec 29) (b : SrcL) (tok : BitVec 3) : Laws.Reads.Statement (.atom op ord sc g d base off b tok) := by
  intro _ c h
  cases h
  obtain ⟨h1, h2⟩ := opc_mod (bits op 3 1) ord.code
  exact ⟨rfl, by simp [Code.read, tCode, storeCode, atomCode, onTok, FT.instr, FT.noLit, FT.z, FT.sop0, FT.mod0, FT.tok, FT.scope, FT.off0, FT.off, FT.load, FT.store, FT.atomic, FT.cpyMods, FT.onlyCrc, FT.xxk, FT.kk, Opnd.isNone, Opnd.getV, Opnd.getK, Opnd.getP, Opnd.getX, Opnd.getTile, Opnd.getCask, Opnd.getCur]; simp [h1, h2, opc_back]⟩
theorem Laws.Reads.atoms (op : BitVec 4) (ord : AtomOrd) (sc : Scope) (g : Guard) (d base : VK) (off : BitVec 29) (b : SrcL) (tok : BitVec 3) : Laws.Reads.Statement (.atoms op ord sc g d base off b tok) := by
  intro _ c h
  cases h
  obtain ⟨h1, h2⟩ := opc_mod (bits op 3 1) ord.code
  exact ⟨rfl, by simp [Code.read, tCode, storeCode, atomCode, onTok, FT.instr, FT.noLit, FT.z, FT.sop0, FT.mod0, FT.tok, FT.scope, FT.off0, FT.off, FT.load, FT.store, FT.atomic, FT.cpyMods, FT.onlyCrc, FT.xxk, FT.kk, Opnd.isNone, Opnd.getV, Opnd.getK, Opnd.getP, Opnd.getX, Opnd.getTile, Opnd.getCask, Opnd.getCur]; simp [h1, h2, opc_back]⟩
theorem Laws.Reads.atomc (op : BitVec 4) (ord : AtomOrd) (sc : Scope) (g : Guard) (d base : VK) (off : BitVec 29) (b : SrcL) (tok : BitVec 3) : Laws.Reads.Statement (.atomc op ord sc g d base off b tok) := by
  intro _ c h
  cases h
  obtain ⟨h1, h2⟩ := opc_mod (bits op 3 1) ord.code
  exact ⟨rfl, by simp [Code.read, tCode, storeCode, atomCode, onTok, FT.instr, FT.noLit, FT.z, FT.sop0, FT.mod0, FT.tok, FT.scope, FT.off0, FT.off, FT.load, FT.store, FT.atomic, FT.cpyMods, FT.onlyCrc, FT.xxk, FT.kk, Opnd.isNone, Opnd.getV, Opnd.getK, Opnd.getP, Opnd.getX, Opnd.getTile, Opnd.getCask, Opnd.getCur]; simp [h1, h2, opc_back]⟩
theorem Laws.Reads.red (op : BitVec 4) (rel : Bool) (sc : Scope) (g : Guard) (base : VK) (off : BitVec 29) (b : SrcL) (t : TokOpt) : Laws.Reads.Statement (.red op rel sc g base off b t) := by
  intro _ c h
  cases h
  obtain ⟨h1, h2, h3⟩ := opc_red (bits op 3 1) rel
  exact ⟨rfl, by simp [Code.read, tCode, storeCode, atomCode, onTok, FT.instr, FT.noLit, FT.z, FT.sop0, FT.mod0, FT.tok, FT.scope, FT.off0, FT.off, FT.load, FT.store, FT.atomic, FT.cpyMods, FT.onlyCrc, FT.xxk, FT.kk, Opnd.isNone, Opnd.getV, Opnd.getK, Opnd.getP, Opnd.getX, Opnd.getTile, Opnd.getCask, Opnd.getCur]; simp [h1, h2, h3, opc_back]⟩
theorem Laws.Reads.fence (sc : Scope) (g : Guard) : Laws.Reads.Statement (.fence sc g) := by
  intro _ c h
  cases h
  exact ⟨rfl, by simp [Code.read, Alu1.code, Alu2.code, Alu3.code, Cmp.code, gCode, FG.instr, FG.z, FG.noLit, FG.sop0, FG.mod0, FG.modBelow, FG.alu1, FG.alu2, FG.alu3, FG.cmp, FG.bare, Opnd.isNone, Opnd.getV, Opnd.getK, Opnd.getP, Opnd.getX, Opnd.getTile]⟩
theorem Laws.Reads.fenceOpnd (g : Guard) : Laws.Reads.Statement (.fenceOpnd g) := by
  intro _ c h
  cases h
  exact ⟨rfl, by simp [Code.read, Alu1.code, Alu2.code, Alu3.code, Cmp.code, gCode, FG.instr, FG.z, FG.noLit, FG.sop0, FG.mod0, FG.modBelow, FG.alu1, FG.alu2, FG.alu3, FG.cmp, FG.bare, Opnd.isNone, Opnd.getV, Opnd.getK, Opnd.getP, Opnd.getX, Opnd.getTile]⟩
theorem Laws.Reads.bar (g : Guard) (b : BitVec 4) (n : BitVec 5) : Laws.Reads.Statement (.bar g b n) := by
  intro _ c h
  cases h
  obtain ⟨h1, h2, h3⟩ := two_fields 23 n b
  exact ⟨rfl, by simp [Code.read, Alu1.code, Alu2.code, Alu3.code, Cmp.code, gCode, FG.instr, FG.z, FG.noLit, FG.sop0, FG.mod0, FG.modBelow, FG.alu1, FG.alu2, FG.alu3, FG.cmp, FG.bare, Opnd.isNone, Opnd.getV, Opnd.getK, Opnd.getP, Opnd.getX, Opnd.getTile]; simp_all⟩
theorem Laws.Reads.barArrive (g : Guard) (b : BitVec 4) (n : BitVec 5) : Laws.Reads.Statement (.barArrive g b n) := by
  intro _ c h
  cases h
  obtain ⟨h1, h2, h3⟩ := two_fields 23 n b
  exact ⟨rfl, by simp [Code.read, Alu1.code, Alu2.code, Alu3.code, Cmp.code, gCode, FG.instr, FG.z, FG.noLit, FG.sop0, FG.mod0, FG.modBelow, FG.alu1, FG.alu2, FG.alu3, FG.cmp, FG.bare, Opnd.isNone, Opnd.getV, Opnd.getK, Opnd.getP, Opnd.getX, Opnd.getTile]; simp_all⟩
theorem Laws.Reads.barWait (g : Guard) (b : BitVec 4) : Laws.Reads.Statement (.barWait g b) := by
  intro _ c h
  cases h
  exact ⟨rfl, by simp [Code.read, Alu1.code, Alu2.code, Alu3.code, Cmp.code, gCode, FG.instr, FG.z, FG.noLit, FG.sop0, FG.mod0, FG.modBelow, FG.alu1, FG.alu2, FG.alu3, FG.cmp, FG.bare, Opnd.isNone, Opnd.getV, Opnd.getK, Opnd.getP, Opnd.getX, Opnd.getTile, bits_setWidth, barWait_word]⟩
theorem Laws.Reads.wtok (g : Guard) (t : WtokSel) : Laws.Reads.Statement (.wtok g t) := by
  intro _ c h
  cases h
  cases t <;> exact ⟨rfl, by simp [Code.read, Alu1.code, Alu2.code, Alu3.code, Cmp.code, gCode, FG.instr, FG.z, FG.noLit, FG.sop0, FG.mod0, FG.modBelow, FG.alu1, FG.alu2, FG.alu3, FG.cmp, FG.bare, Opnd.isNone, Opnd.getV, Opnd.getK, Opnd.getP, Opnd.getX, Opnd.getTile]⟩
theorem Laws.Reads.mwait (g : Guard) (mask : BitVec 5) : Laws.Reads.Statement (.mwait g mask) := by
  intro _ c h
  cases h
  exact ⟨rfl, by simp [Code.read, Alu1.code, Alu2.code, Alu3.code, Cmp.code, gCode, FG.instr, FG.z, FG.noLit, FG.sop0, FG.mod0, FG.modBelow, FG.alu1, FG.alu2, FG.alu3, FG.cmp, FG.bare, Opnd.isNone, Opnd.getV, Opnd.getK, Opnd.getP, Opnd.getX, Opnd.getTile, bits_setWidth]⟩
theorem Laws.Reads.cpy (dir : CpyDir) (sz : CpySize) (crc : Bool) (g : Guard) (d a : BitVec 8) (off : BitVec 29) (tok : BitVec 3) : Laws.Reads.Statement (.cpy dir sz crc g d a off tok) := by
  intro _ c h
  cases h
  have h1 : bits (b1 crc ++ sz.code) 0 2 = sz.code := by cases crc <;> cases sz <;> rfl
  have h2 : bit (b1 crc ++ sz.code) 2 = crc := by cases crc <;> cases sz <;> rfl
  exact ⟨rfl, by simp [Code.read, tCode, storeCode, atomCode, onTok, FT.instr, FT.noLit, FT.z, FT.sop0, FT.mod0, FT.tok, FT.scope, FT.off0, FT.off, FT.load, FT.store, FT.atomic, FT.cpyMods, FT.onlyCrc, FT.xxk, FT.kk, Opnd.isNone, Opnd.getV, Opnd.getK, Opnd.getP, Opnd.getX, Opnd.getTile, Opnd.getCask, Opnd.getCur]; simp [h1, h2]⟩
theorem Laws.Reads.cpya (m : CpyMods) (spd sps x24 : Bool) (g : Guard) (d a : BitVec 8) (b : BitVec 6) (tok : BitVec 3) : Laws.Reads.Statement (.cpya m spd sps x24 g d a b tok) := by
  intro _ c h
  cases h
  have h1 : bits (flag31 spd ||| flag30 sps ||| flag29 x24) 0 29 = 0#29 := by cases spd <;> cases sps <;> cases x24 <;> rfl
  have h2 : bit (flag31 spd ||| flag30 sps ||| flag29 x24) 31 = spd := by cases spd <;> cases sps <;> cases x24 <;> rfl
  have h3 : bit (flag31 spd ||| flag30 sps ||| flag29 x24) 30 = sps := by cases spd <;> cases sps <;> cases x24 <;> rfl
  have h4 : bit (flag31 spd ||| flag30 sps ||| flag29 x24) 29 = x24 := by cases spd <;> cases sps <;> cases x24 <;> rfl
  exact ⟨rfl, by simp [Code.read, tCode, storeCode, atomCode, onTok, FT.instr, FT.noLit, FT.z, FT.sop0, FT.mod0, FT.tok, FT.scope, FT.off0, FT.off, FT.load, FT.store, FT.atomic, FT.cpyMods, FT.onlyCrc, FT.xxk, FT.kk, Opnd.isNone, Opnd.getV, Opnd.getK, Opnd.getP, Opnd.getX, Opnd.getTile, Opnd.getCask, Opnd.getCur, CpyMods.code]; simp [h1, h2, h3, h4]⟩
theorem Laws.Reads.cpyg (crc spd sps spi : Bool) (g : Guard) (d a : BitVec 8) (b : BitVec 6) (tok : BitVec 3) : Laws.Reads.Statement (.cpyg crc spd sps spi g d a b tok) := by
  intro _ c h
  cases h
  have h1 : bits (flag31 spd ||| flag30 sps ||| flag29 spi) 0 29 = 0#29 := by cases spd <;> cases sps <;> cases spi <;> rfl
  have h2 : bit (flag31 spd ||| flag30 sps ||| flag29 spi) 31 = spd := by cases spd <;> cases sps <;> cases spi <;> rfl
  have h3 : bit (flag31 spd ||| flag30 sps ||| flag29 spi) 30 = sps := by cases spd <;> cases sps <;> cases spi <;> rfl
  have h4 : bit (flag31 spd ||| flag30 sps ||| flag29 spi) 29 = spi := by cases spd <;> cases sps <;> cases spi <;> rfl
  exact ⟨rfl, by simp [Code.read, tCode, storeCode, atomCode, onTok, FT.instr, FT.noLit, FT.z, FT.sop0, FT.mod0, FT.tok, FT.scope, FT.off0, FT.off, FT.load, FT.store, FT.atomic, FT.cpyMods, FT.onlyCrc, FT.xxk, FT.kk, Opnd.isNone, Opnd.getV, Opnd.getK, Opnd.getP, Opnd.getX, Opnd.getTile, Opnd.getCask, Opnd.getCur]; simp [h1, h2, h3, h4]⟩
theorem Laws.Reads.cpys (crc spd : Bool) (g : Guard) (d a : BitVec 8) (b : BitVec 6) (tok : BitVec 3) : Laws.Reads.Statement (.cpys crc spd g d a b tok) := by
  intro _ c h
  cases h
  have h1 : bits (flag31 spd) 0 31 = 0#31 := by cases spd <;> rfl
  have h2 : bit (flag31 spd) 31 = spd := by cases spd <;> rfl
  exact ⟨rfl, by simp [Code.read, tCode, storeCode, atomCode, onTok, FT.instr, FT.noLit, FT.z, FT.sop0, FT.mod0, FT.tok, FT.scope, FT.off0, FT.off, FT.load, FT.store, FT.atomic, FT.cpyMods, FT.onlyCrc, FT.xxk, FT.kk, Opnd.isNone, Opnd.getV, Opnd.getK, Opnd.getP, Opnd.getX, Opnd.getTile, Opnd.getCask, Opnd.getCur]; simp [h1, h2]⟩
theorem Laws.Reads.cpyq (crc spd sps : Bool) (g : Guard) (d a : BitVec 8) (b : BitVec 6) (tok : BitVec 3) : Laws.Reads.Statement (.cpyq crc spd sps g d a b tok) := by
  intro _ c h
  cases h
  have h1 : bits (flag31 spd ||| flag30 sps) 0 30 = 0#30 := by cases spd <;> cases sps <;> rfl
  have h2 : bit (flag31 spd ||| flag30 sps) 31 = spd := by cases spd <;> cases sps <;> rfl
  have h3 : bit (flag31 spd ||| flag30 sps) 30 = sps := by cases spd <;> cases sps <;> rfl
  exact ⟨rfl, by simp [Code.read, tCode, storeCode, atomCode, onTok, FT.instr, FT.noLit, FT.z, FT.sop0, FT.mod0, FT.tok, FT.scope, FT.off0, FT.off, FT.load, FT.store, FT.atomic, FT.cpyMods, FT.onlyCrc, FT.xxk, FT.kk, Opnd.isNone, Opnd.getV, Opnd.getK, Opnd.getP, Opnd.getX, Opnd.getTile, Opnd.getCask, Opnd.getCur]; simp [h1, h2, h3]⟩
theorem Laws.Reads.cpyl (crc spd sps : Bool) (prog : BitVec 4) (g : Guard) (d a : BitVec 8) (tok : BitVec 3) : Laws.Reads.Statement (.cpyl crc spd sps prog g d a tok) := by
  intro _ c h
  cases h
  obtain ⟨h1, h2, h3, h4⟩ := cpyl_word spd sps prog
  exact ⟨rfl, by simp [Code.read, tCode, storeCode, atomCode, onTok, FT.instr, FT.noLit, FT.z, FT.sop0, FT.mod0, FT.tok, FT.scope, FT.off0, FT.off, FT.load, FT.store, FT.atomic, FT.cpyMods, FT.onlyCrc, FT.xxk, FT.kk, Opnd.isNone, Opnd.getV, Opnd.getK, Opnd.getP, Opnd.getX, Opnd.getTile, Opnd.getCask, Opnd.getCur]; simp_all⟩
theorem Laws.Reads.cpyx (m : CpyMods) (sps : Bool) (route : Route) (g : Guard) (d a b : BitVec 6) (tok : BitVec 3) : Laws.Reads.Statement (.cpyx m sps route g d a b tok) := by
  intro _ c h
  cases h
  cases route with
  | short r =>
    have h1 : bits (m := 32) (0#2 ++ r) 30 2 = 0#2 := by
      change @bits (2 + 30) (0#2 ++ r) 30 2 = _
      rw [bits_append_hi _ _ _ _ (by decide)]; exact bits_self _
    have h2 : bits (m := 32) (0#2 ++ r) 0 30 = r := by
      change @bits (2 + 30) (0#2 ++ r) 0 30 = _
      rw [bits_append_lo _ _ _ _ (by decide)]; exact bits_self _
    exact ⟨rfl, by simp [Code.read, tCode, storeCode, atomCode, onTok, FT.instr, FT.noLit, FT.z, FT.sop0, FT.mod0, FT.tok, FT.scope, FT.off0, FT.off, FT.load, FT.store, FT.atomic, FT.cpyMods, FT.onlyCrc, FT.xxk, FT.kk, Opnd.isNone, Opnd.getV, Opnd.getK, Opnd.getP, Opnd.getX, Opnd.getTile, Opnd.getCask, Opnd.getCur, CpyMods.code]; simp_all⟩
  | lit x => exact ⟨rfl, by simp [Code.read, tCode, storeCode, atomCode, onTok, FT.instr, FT.noLit, FT.z, FT.sop0, FT.mod0, FT.tok, FT.scope, FT.off0, FT.off, FT.load, FT.store, FT.atomic, FT.cpyMods, FT.onlyCrc, FT.xxk, FT.kk, Opnd.isNone, Opnd.getV, Opnd.getK, Opnd.getP, Opnd.getX, Opnd.getTile, Opnd.getCask, Opnd.getCur, CpyMods.code]⟩
theorem Laws.Reads.wld (sps : Bool) (g : Guard) (x : BitVec 8) (b : BitVec 6) (krows : BitVec 7) : Laws.Reads.Statement (.wld sps g x b krows) := by
  intro _ c h
  cases h
  obtain ⟨h1, h2, h3⟩ := wld_word sps krows
  exact ⟨rfl, by simp [Code.read, Alu1.code, Alu2.code, Alu3.code, Cmp.code, gCode, FG.instr, FG.z, FG.noLit, FG.sop0, FG.mod0, FG.modBelow, FG.alu1, FG.alu2, FG.alu3, FG.cmp, FG.bare, Opnd.isNone, Opnd.getV, Opnd.getK, Opnd.getP, Opnd.getX, Opnd.getTile]; simp_all⟩
theorem Laws.Reads.wswp (g : Guard) : Laws.Reads.Statement (.wswp g) := by
  intro _ c h
  cases h
  exact ⟨rfl, by simp [Code.read, Alu1.code, Alu2.code, Alu3.code, Cmp.code, gCode, FG.instr, FG.z, FG.noLit, FG.sop0, FG.mod0, FG.modBelow, FG.alu1, FG.alu2, FG.alu3, FG.cmp, FG.bare, Opnd.isNone, Opnd.getV, Opnd.getK, Opnd.getP, Opnd.getX, Opnd.getTile]⟩
theorem Laws.Reads.mms (m : TriMode) (clr sps : Bool) (g : Guard) (t : BitVec 2) (x : BitVec 8) (b : BitVec 6) (c : Option (BitVec 6)) (rows : BitVec 8) (promo : BitVec 7) (trow : BitVec 8) : Laws.Reads.Statement (.mms m clr sps g t x b c rows promo trow) := by
  intro w c h
  cases h
  obtain ⟨h1, h2, h3, h4, h5, h6⟩ := mms_word sps trow rows promo
  have h7 := bit_of_bits h6
  refine ⟨by rfl, ?_⟩
  cases c with
  | none =>
    have e : m = .plain := by cases m <;> simp_all [Instr.wf]
    subst e
    simp [Code.read, Alu1.code, Alu2.code, Alu3.code, Cmp.code, gCode, FG.instr, FG.z, FG.noLit, FG.sop0, FG.mod0, FG.modBelow, FG.alu1, FG.alu2, FG.alu3, FG.cmp, FG.bare, Opnd.isNone, Opnd.getV, Opnd.getK, Opnd.getP, Opnd.getX, Opnd.getTile]; simp_all
  | some y =>
    have e : (m == .plain) = false := by cases m <;> simp_all [Instr.wf]
    simp [Code.read, Alu1.code, Alu2.code, Alu3.code, Cmp.code, gCode, FG.instr, FG.z, FG.noLit, FG.sop0, FG.mod0, FG.modBelow, FG.alu1, FG.alu2, FG.alu3, FG.cmp, FG.bare, Opnd.isNone, Opnd.getV, Opnd.getK, Opnd.getP, Opnd.getX, Opnd.getTile]; simp_all
theorem Laws.Reads.aprm (g : Guard) (t : BitVec 2) : Laws.Reads.Statement (.aprm g t) := by
  intro _ c h
  cases h
  exact ⟨rfl, by simp [Code.read, Alu1.code, Alu2.code, Alu3.code, Cmp.code, gCode, FG.instr, FG.z, FG.noLit, FG.sop0, FG.mod0, FG.modBelow, FG.alu1, FG.alu2, FG.alu3, FG.cmp, FG.bare, Opnd.isNone, Opnd.getV, Opnd.getK, Opnd.getP, Opnd.getX, Opnd.getTile]⟩
theorem Laws.Reads.aclr (g : Guard) (t : BitVec 2) : Laws.Reads.Statement (.aclr g t) := by
  intro _ c h
  cases h
  exact ⟨rfl, by simp [Code.read, Alu1.code, Alu2.code, Alu3.code, Cmp.code, gCode, FG.instr, FG.z, FG.noLit, FG.sop0, FG.mod0, FG.modBelow, FG.alu1, FG.alu2, FG.alu3, FG.cmp, FG.bare, Opnd.isNone, Opnd.getV, Opnd.getK, Opnd.getP, Opnd.getX, Opnd.getTile]⟩
theorem Laws.Reads.adrn (bias spd : Bool) (g : Guard) (x : BitVec 8) (t : BitVec 2) (b : BitVec 6) (rows trow : BitVec 8) (tok : BitVec 3) : Laws.Reads.Statement (.adrn bias spd g x t b rows trow tok) := by
  intro _ c h
  cases h
  obtain ⟨h1, h2, h3, h4⟩ := adrn_word spd trow rows
  have h5 := bit_of_bits h4
  exact ⟨rfl, by simp [Code.read, tCode, storeCode, atomCode, onTok, FT.instr, FT.noLit, FT.z, FT.sop0, FT.mod0, FT.tok, FT.scope, FT.off0, FT.off, FT.load, FT.store, FT.atomic, FT.cpyMods, FT.onlyCrc, FT.xxk, FT.kk, Opnd.isNone, Opnd.getV, Opnd.getK, Opnd.getP, Opnd.getX, Opnd.getTile, Opnd.getCask, Opnd.getCur]; simp_all⟩
theorem Laws.Reads.tdsc (g : Guard) (x : BitVec 8) (a : BitVec 6) (off : BitVec 29) (tok : BitVec 3) : Laws.Reads.Statement (.tdsc g x a off tok) := by
  intro _ c h
  cases h
  exact ⟨rfl, by simp [Code.read, tCode, storeCode, atomCode, onTok, FT.instr, FT.noLit, FT.z, FT.sop0, FT.mod0, FT.tok, FT.scope, FT.off0, FT.off, FT.load, FT.store, FT.atomic, FT.cpyMods, FT.onlyCrc, FT.xxk, FT.kk, Opnd.isNone, Opnd.getV, Opnd.getK, Opnd.getP, Opnd.getX, Opnd.getTile, Opnd.getCask, Opnd.getCur]⟩
theorem Laws.Reads.tcod (g : Guard) (tbl : BitVec 4) (a : BitVec 6) (off : BitVec 29) (tok : BitVec 3) : Laws.Reads.Statement (.tcod g tbl a off tok) := by
  intro _ c h
  cases h
  exact ⟨rfl, by simp [Code.read, tCode, storeCode, atomCode, onTok, FT.instr, FT.noLit, FT.z, FT.sop0, FT.mod0, FT.tok, FT.scope, FT.off0, FT.off, FT.load, FT.store, FT.atomic, FT.cpyMods, FT.onlyCrc, FT.xxk, FT.kk, Opnd.isNone, Opnd.getV, Opnd.getK, Opnd.getP, Opnd.getX, Opnd.getTile, Opnd.getCask, Opnd.getCur, bits_setWidth]⟩
theorem Laws.Reads.tsyn (g : Guard) : Laws.Reads.Statement (.tsyn g) := by
  intro _ c h
  cases h
  exact ⟨rfl, by simp [Code.read, Alu1.code, Alu2.code, Alu3.code, Cmp.code, gCode, FG.instr, FG.z, FG.noLit, FG.sop0, FG.mod0, FG.modBelow, FG.alu1, FG.alu2, FG.alu3, FG.cmp, FG.bare, Opnd.isNone, Opnd.getV, Opnd.getK, Opnd.getP, Opnd.getX, Opnd.getTile]⟩
theorem Laws.Reads.tqry (g : Guard) (d : BitVec 6) (x : BitVec 8) (sel : BitVec 8) (tok : BitVec 3) : Laws.Reads.Statement (.tqry g d x sel tok) := by
  intro _ c h
  cases h
  exact ⟨rfl, by simp [Code.read, tCode, storeCode, atomCode, onTok, FT.instr, FT.noLit, FT.z, FT.sop0, FT.mod0, FT.tok, FT.scope, FT.off0, FT.off, FT.load, FT.store, FT.atomic, FT.cpyMods, FT.onlyCrc, FT.xxk, FT.kk, Opnd.isNone, Opnd.getV, Opnd.getK, Opnd.getP, Opnd.getX, Opnd.getTile, Opnd.getCask, Opnd.getCur, bits_setWidth]⟩
theorem Laws.Reads.ckopn (g : Guard) (c : BitVec 4) (a : BitVec 6) (off : BitVec 29) (tok : BitVec 3) : Laws.Reads.Statement (.ckopn g c a off tok) := by
  intro _ c h
  cases h
  exact ⟨rfl, by simp [Code.read, tCode, storeCode, atomCode, onTok, FT.instr, FT.noLit, FT.z, FT.sop0, FT.mod0, FT.tok, FT.scope, FT.off0, FT.off, FT.load, FT.store, FT.atomic, FT.cpyMods, FT.onlyCrc, FT.xxk, FT.kk, Opnd.isNone, Opnd.getV, Opnd.getK, Opnd.getP, Opnd.getX, Opnd.getTile, Opnd.getCask, Opnd.getCur]⟩
theorem Laws.Reads.ckcls (g : Guard) (c : BitVec 4) (tok : BitVec 3) : Laws.Reads.Statement (.ckcls g c tok) := by
  intro _ c h
  cases h
  exact ⟨rfl, by simp [Code.read, tCode, storeCode, atomCode, onTok, FT.instr, FT.noLit, FT.z, FT.sop0, FT.mod0, FT.tok, FT.scope, FT.off0, FT.off, FT.load, FT.store, FT.atomic, FT.cpyMods, FT.onlyCrc, FT.xxk, FT.kk, Opnd.isNone, Opnd.getV, Opnd.getK, Opnd.getP, Opnd.getX, Opnd.getTile, Opnd.getCask, Opnd.getCur]⟩
theorem Laws.Reads.ckrak (g : Guard) (d : BitVec 6) (c : BitVec 4) (tok : BitVec 3) : Laws.Reads.Statement (.ckrak g d c tok) := by
  intro _ c h
  cases h
  exact ⟨rfl, by simp [Code.read, tCode, storeCode, atomCode, onTok, FT.instr, FT.noLit, FT.z, FT.sop0, FT.mod0, FT.tok, FT.scope, FT.off0, FT.off, FT.load, FT.store, FT.atomic, FT.cpyMods, FT.onlyCrc, FT.xxk, FT.kk, Opnd.isNone, Opnd.getV, Opnd.getK, Opnd.getP, Opnd.getX, Opnd.getTile, Opnd.getCask, Opnd.getCur]⟩
theorem Laws.Reads.ckcnt (g : Guard) (d : BitVec 6) (c : BitVec 4) (tok : BitVec 3) : Laws.Reads.Statement (.ckcnt g d c tok) := by
  intro _ c h
  cases h
  exact ⟨rfl, by simp [Code.read, tCode, storeCode, atomCode, onTok, FT.instr, FT.noLit, FT.z, FT.sop0, FT.mod0, FT.tok, FT.scope, FT.off0, FT.off, FT.load, FT.store, FT.atomic, FT.cpyMods, FT.onlyCrc, FT.xxk, FT.kk, Opnd.isNone, Opnd.getV, Opnd.getK, Opnd.getP, Opnd.getX, Opnd.getTile, Opnd.getCask, Opnd.getCur]⟩
theorem Laws.Reads.ckins (now : Bool) (g : Guard) (d : BitVec 8) (c : BitVec 4) (b : BitVec 8) (tok : BitVec 3) : Laws.Reads.Statement (.ckins now g d c b tok) := by
  intro _ c h
  cases h
  exact ⟨rfl, by simp [Code.read, tCode, storeCode, atomCode, onTok, FT.instr, FT.noLit, FT.z, FT.sop0, FT.mod0, FT.tok, FT.scope, FT.off0, FT.off, FT.load, FT.store, FT.atomic, FT.cpyMods, FT.onlyCrc, FT.xxk, FT.kk, Opnd.isNone, Opnd.getV, Opnd.getK, Opnd.getP, Opnd.getX, Opnd.getTile, Opnd.getCask, Opnd.getCur]⟩
theorem Laws.Reads.ckrem (g : Guard) (d : BitVec 8) (c : BitVec 4) (b : BitVec 8) (tok : BitVec 3) : Laws.Reads.Statement (.ckrem g d c b tok) := by
  intro _ c h
  cases h
  exact ⟨rfl, by simp [Code.read, tCode, storeCode, atomCode, onTok, FT.instr, FT.noLit, FT.z, FT.sop0, FT.mod0, FT.tok, FT.scope, FT.off0, FT.off, FT.load, FT.store, FT.atomic, FT.cpyMods, FT.onlyCrc, FT.xxk, FT.kk, Opnd.isNone, Opnd.getV, Opnd.getK, Opnd.getP, Opnd.getX, Opnd.getTile, Opnd.getCask, Opnd.getCur]⟩
theorem Laws.Reads.ckmov (now : Bool) (g : Guard) (d : BitVec 8) (c : BitVec 4) (b : BitVec 8) (tok : BitVec 3) : Laws.Reads.Statement (.ckmov now g d c b tok) := by
  intro _ c h
  cases h
  exact ⟨rfl, by simp [Code.read, tCode, storeCode, atomCode, onTok, FT.instr, FT.noLit, FT.z, FT.sop0, FT.mod0, FT.tok, FT.scope, FT.off0, FT.off, FT.load, FT.store, FT.atomic, FT.cpyMods, FT.onlyCrc, FT.xxk, FT.kk, Opnd.isNone, Opnd.getV, Opnd.getK, Opnd.getP, Opnd.getX, Opnd.getTile, Opnd.getCask, Opnd.getCur]⟩
theorem Laws.Reads.ckitr (m : ItrMode) (g : Guard) (j : BitVec 3) (tok : BitVec 3) : Laws.Reads.Statement (.ckitr m g j tok) := by
  intro _ c h
  cases h
  cases m with
  | voxel c b p => exact ⟨rfl, by simp [Code.read, tCode, storeCode, atomCode, onTok, FT.instr, FT.noLit, FT.z, FT.sop0, FT.mod0, FT.tok, FT.scope, FT.off0, FT.off, FT.load, FT.store, FT.atomic, FT.cpyMods, FT.onlyCrc, FT.xxk, FT.kk, Opnd.isNone, Opnd.getV, Opnd.getK, Opnd.getP, Opnd.getX, Opnd.getTile, Opnd.getCask, Opnd.getCur, FT.itr, bits_setWidth]⟩
  | range c b => exact ⟨rfl, by simp [Code.read, tCode, storeCode, atomCode, onTok, FT.instr, FT.noLit, FT.z, FT.sop0, FT.mod0, FT.tok, FT.scope, FT.off0, FT.off, FT.load, FT.store, FT.atomic, FT.cpyMods, FT.onlyCrc, FT.xxk, FT.kk, Opnd.isNone, Opnd.getV, Opnd.getK, Opnd.getP, Opnd.getX, Opnd.getTile, Opnd.getCask, Opnd.getCur, FT.itr]⟩
  | box c b => exact ⟨rfl, by simp [Code.read, tCode, storeCode, atomCode, onTok, FT.instr, FT.noLit, FT.z, FT.sop0, FT.mod0, FT.tok, FT.scope, FT.off0, FT.off, FT.load, FT.store, FT.atomic, FT.cpyMods, FT.onlyCrc, FT.xxk, FT.kk, Opnd.isNone, Opnd.getV, Opnd.getK, Opnd.getP, Opnd.getX, Opnd.getTile, Opnd.getCask, Opnd.getCur, FT.itr]⟩
  | scan c b => exact ⟨rfl, by simp [Code.read, tCode, storeCode, atomCode, onTok, FT.instr, FT.noLit, FT.z, FT.sop0, FT.mod0, FT.tok, FT.scope, FT.off0, FT.off, FT.load, FT.store, FT.atomic, FT.cpyMods, FT.onlyCrc, FT.xxk, FT.kk, Opnd.isNone, Opnd.getV, Opnd.getK, Opnd.getP, Opnd.getX, Opnd.getTile, Opnd.getCask, Opnd.getCur, FT.itr]⟩
  | close => exact ⟨rfl, by simp [Code.read, tCode, storeCode, atomCode, onTok, FT.instr, FT.noLit, FT.z, FT.sop0, FT.mod0, FT.tok, FT.scope, FT.off0, FT.off, FT.load, FT.store, FT.atomic, FT.cpyMods, FT.onlyCrc, FT.xxk, FT.kk, Opnd.isNone, Opnd.getV, Opnd.getK, Opnd.getP, Opnd.getX, Opnd.getTile, Opnd.getCask, Opnd.getCur, FT.itr]⟩
theorem Laws.Reads.cknxt (g : Guard) (d : BitVec 8) (j : BitVec 3) (n : BitVec 5) (kc : BitVec 6) (pf px : BitVec 3) (map : BitVec 8) (tok : BitVec 3) : Laws.Reads.Statement (.cknxt g d j n kc pf px map tok) := by
  intro _ c h
  cases h
  obtain ⟨h1, h2, h3, h4, h5, h6⟩ := cknxt_word pf px kc n map
  exact ⟨rfl, by simp [Code.read, tCode, storeCode, atomCode, onTok, FT.instr, FT.noLit, FT.z, FT.sop0, FT.mod0, FT.tok, FT.scope, FT.off0, FT.off, FT.load, FT.store, FT.atomic, FT.cpyMods, FT.onlyCrc, FT.xxk, FT.kk, Opnd.isNone, Opnd.getV, Opnd.getK, Opnd.getP, Opnd.getX, Opnd.getTile, Opnd.getCask, Opnd.getCur]; simp_all⟩
theorem Laws.Reads.ckpay (g : Guard) (d : BitVec 8) (c : BitVec 4) (b : BitVec 8) (map : BitVec 8) (tok : BitVec 3) : Laws.Reads.Statement (.ckpay g d c b map tok) := by
  intro _ c h
  cases h
  exact ⟨rfl, by simp [Code.read, tCode, storeCode, atomCode, onTok, FT.instr, FT.noLit, FT.z, FT.sop0, FT.mod0, FT.tok, FT.scope, FT.off0, FT.off, FT.load, FT.store, FT.atomic, FT.cpyMods, FT.onlyCrc, FT.xxk, FT.kk, Opnd.isNone, Opnd.getV, Opnd.getK, Opnd.getP, Opnd.getX, Opnd.getTile, Opnd.getCask, Opnd.getCur, bits_setWidth]⟩
theorem Laws.Reads.ckwr (g : Guard) (d : BitVec 8) (c : BitVec 4) (b : BitVec 8) (map : BitVec 8) (tok : BitVec 3) : Laws.Reads.Statement (.ckwr g d c b map tok) := by
  intro _ c h
  cases h
  exact ⟨rfl, by simp [Code.read, tCode, storeCode, atomCode, onTok, FT.instr, FT.noLit, FT.z, FT.sop0, FT.mod0, FT.tok, FT.scope, FT.off0, FT.off, FT.load, FT.store, FT.atomic, FT.cpyMods, FT.onlyCrc, FT.xxk, FT.kk, Opnd.isNone, Opnd.getV, Opnd.getK, Opnd.getP, Opnd.getX, Opnd.getTile, Opnd.getCask, Opnd.getCur, bits_setWidth]⟩
theorem Laws.Reads.dpst (g : Guard) (d a b : BitVec 8) (tok : BitVec 3) : Laws.Reads.Statement (.dpst g d a b tok) := by
  intro _ c h
  cases h
  exact ⟨rfl, by simp [Code.read, tCode, storeCode, atomCode, onTok, FT.instr, FT.noLit, FT.z, FT.sop0, FT.mod0, FT.tok, FT.scope, FT.off0, FT.off, FT.load, FT.store, FT.atomic, FT.cpyMods, FT.onlyCrc, FT.xxk, FT.kk, Opnd.isNone, Opnd.getV, Opnd.getK, Opnd.getP, Opnd.getX, Opnd.getTile, Opnd.getCask, Opnd.getCur]⟩
theorem Laws.Reads.lnch (g : Guard) (d a : BitVec 6) (off : BitVec 29) (tok : BitVec 3) : Laws.Reads.Statement (.lnch g d a off tok) := by
  intro _ c h
  cases h
  exact ⟨rfl, by simp [Code.read, tCode, storeCode, atomCode, onTok, FT.instr, FT.noLit, FT.z, FT.sop0, FT.mod0, FT.tok, FT.scope, FT.off0, FT.off, FT.load, FT.store, FT.atomic, FT.cpyMods, FT.onlyCrc, FT.xxk, FT.kk, Opnd.isNone, Opnd.getV, Opnd.getK, Opnd.getP, Opnd.getX, Opnd.getTile, Opnd.getCask, Opnd.getCur]⟩
theorem Laws.Reads.task (g : Guard) (d a : BitVec 6) (off : BitVec 29) (tok : BitVec 3) : Laws.Reads.Statement (.task g d a off tok) := by
  intro _ c h
  cases h
  exact ⟨rfl, by simp [Code.read, tCode, storeCode, atomCode, onTok, FT.instr, FT.noLit, FT.z, FT.sop0, FT.mod0, FT.tok, FT.scope, FT.off0, FT.off, FT.load, FT.store, FT.atomic, FT.cpyMods, FT.onlyCrc, FT.xxk, FT.kk, Opnd.isNone, Opnd.getV, Opnd.getK, Opnd.getP, Opnd.getX, Opnd.getTile, Opnd.getCask, Opnd.getCur]⟩
theorem Laws.Reads.depd (g : Guard) (d a : BitVec 6) (off : BitVec 29) (tok : BitVec 3) : Laws.Reads.Statement (.depd g d a off tok) := by
  intro _ c h
  cases h
  exact ⟨rfl, by simp [Code.read, tCode, storeCode, atomCode, onTok, FT.instr, FT.noLit, FT.z, FT.sop0, FT.mod0, FT.tok, FT.scope, FT.off0, FT.off, FT.load, FT.store, FT.atomic, FT.cpyMods, FT.onlyCrc, FT.xxk, FT.kk, Opnd.isNone, Opnd.getV, Opnd.getK, Opnd.getP, Opnd.getX, Opnd.getTile, Opnd.getCask, Opnd.getCur]⟩
theorem Laws.Reads.cwait (sc : Scope) (g : Guard) (d a : BitVec 6) (off : BitVec 29) (b : BitVec 6) (tok : BitVec 3) : Laws.Reads.Statement (.cwait sc g d a off b tok) := by
  intro _ c h
  cases h
  exact ⟨rfl, by simp [Code.read, tCode, storeCode, atomCode, onTok, FT.instr, FT.noLit, FT.z, FT.sop0, FT.mod0, FT.tok, FT.scope, FT.off0, FT.off, FT.load, FT.store, FT.atomic, FT.cpyMods, FT.onlyCrc, FT.xxk, FT.kk, Opnd.isNone, Opnd.getV, Opnd.getK, Opnd.getP, Opnd.getX, Opnd.getTile, Opnd.getCask, Opnd.getCur]⟩
theorem Laws.Reads.garm (g : Guard) (d a : BitVec 6) (off : BitVec 29) (b : BitVec 6) (tok : BitVec 3) : Laws.Reads.Statement (.garm g d a off b tok) := by
  intro _ c h
  cases h
  exact ⟨rfl, by simp [Code.read, tCode, storeCode, atomCode, onTok, FT.instr, FT.noLit, FT.z, FT.sop0, FT.mod0, FT.tok, FT.scope, FT.off0, FT.off, FT.load, FT.store, FT.atomic, FT.cpyMods, FT.onlyCrc, FT.xxk, FT.kk, Opnd.isNone, Opnd.getV, Opnd.getK, Opnd.getP, Opnd.getX, Opnd.getTile, Opnd.getCask, Opnd.getCur]⟩
theorem Laws.Reads.hpost (g : Guard) (d : BitVec 6) (ring : BitVec 4) (b : BitVec 6) (tok : BitVec 3) : Laws.Reads.Statement (.hpost g d ring b tok) := by
  intro _ c h
  cases h
  exact ⟨rfl, by simp [Code.read, tCode, storeCode, atomCode, onTok, FT.instr, FT.noLit, FT.z, FT.sop0, FT.mod0, FT.tok, FT.scope, FT.off0, FT.off, FT.load, FT.store, FT.atomic, FT.cpyMods, FT.onlyCrc, FT.xxk, FT.kk, Opnd.isNone, Opnd.getV, Opnd.getK, Opnd.getP, Opnd.getX, Opnd.getTile, Opnd.getCask, Opnd.getCur, bits_setWidth]⟩
theorem Laws.Reads.hpostFlush (g : Guard) (d : BitVec 6) (ring : BitVec 4) (tok : BitVec 3) : Laws.Reads.Statement (.hpostFlush g d ring tok) := by
  intro _ c h
  cases h
  exact ⟨rfl, by simp [Code.read, tCode, storeCode, atomCode, onTok, FT.instr, FT.noLit, FT.z, FT.sop0, FT.mod0, FT.tok, FT.scope, FT.off0, FT.off, FT.load, FT.store, FT.atomic, FT.cpyMods, FT.onlyCrc, FT.xxk, FT.kk, Opnd.isNone, Opnd.getV, Opnd.getK, Opnd.getP, Opnd.getX, Opnd.getTile, Opnd.getCask, Opnd.getCur, bits_setWidth]⟩
theorem Laws.Reads.prim (g : Guard) (d a b : BitVec 6) (tok : BitVec 3) : Laws.Reads.Statement (.prim g d a b tok) := by
  intro _ c h
  cases h
  exact ⟨rfl, by simp [Code.read, tCode, storeCode, atomCode, onTok, FT.instr, FT.noLit, FT.z, FT.sop0, FT.mod0, FT.tok, FT.scope, FT.off0, FT.off, FT.load, FT.store, FT.atomic, FT.cpyMods, FT.onlyCrc, FT.xxk, FT.kk, Opnd.isNone, Opnd.getV, Opnd.getK, Opnd.getP, Opnd.getX, Opnd.getTile, Opnd.getCask, Opnd.getCur]⟩
theorem Laws.Reads.primSplat (g : Guard) (d a b : BitVec 6) (c : BitVec 4) (tok : BitVec 3) : Laws.Reads.Statement (.primSplat g d a b c tok) := by
  intro _ c h
  cases h
  exact ⟨rfl, by simp [Code.read, tCode, storeCode, atomCode, onTok, FT.instr, FT.noLit, FT.z, FT.sop0, FT.mod0, FT.tok, FT.scope, FT.off0, FT.off, FT.load, FT.store, FT.atomic, FT.cpyMods, FT.onlyCrc, FT.xxk, FT.kk, Opnd.isNone, Opnd.getV, Opnd.getK, Opnd.getP, Opnd.getX, Opnd.getTile, Opnd.getCask, Opnd.getCur, bits_setWidth]⟩
theorem Laws.Reads.primClose (g : Guard) (d b : BitVec 6) (tok : BitVec 3) : Laws.Reads.Statement (.primClose g d b tok) := by
  intro _ c h
  cases h
  exact ⟨rfl, by simp [Code.read, tCode, storeCode, atomCode, onTok, FT.instr, FT.noLit, FT.z, FT.sop0, FT.mod0, FT.tok, FT.scope, FT.off0, FT.off, FT.load, FT.store, FT.atomic, FT.cpyMods, FT.onlyCrc, FT.xxk, FT.kk, Opnd.isNone, Opnd.getV, Opnd.getK, Opnd.getP, Opnd.getX, Opnd.getTile, Opnd.getCask, Opnd.getCur]⟩
theorem Laws.Reads.pseg (k : SegKind) (g : Guard) (x : BitVec 8) (a : BitVec 8) (tok : BitVec 3) : Laws.Reads.Statement (.pseg k g x a tok) := by
  intro _ c h
  cases h
  exact ⟨rfl, by simp [Code.read, tCode, storeCode, atomCode, onTok, FT.instr, FT.noLit, FT.z, FT.sop0, FT.mod0, FT.tok, FT.scope, FT.off0, FT.off, FT.load, FT.store, FT.atomic, FT.cpyMods, FT.onlyCrc, FT.xxk, FT.kk, Opnd.isNone, Opnd.getV, Opnd.getK, Opnd.getP, Opnd.getX, Opnd.getTile, Opnd.getCask, Opnd.getCur]⟩
theorem Laws.Reads.covr (eo clr : Bool) (g : Guard) (d a : BitVec 8) (b : BitVec 6) (tok : BitVec 3) : Laws.Reads.Statement (.covr eo clr g d a b tok) := by
  intro _ c h
  cases h
  exact ⟨rfl, by simp [Code.read, tCode, storeCode, atomCode, onTok, FT.instr, FT.noLit, FT.z, FT.sop0, FT.mod0, FT.tok, FT.scope, FT.off0, FT.off, FT.load, FT.store, FT.atomic, FT.cpyMods, FT.onlyCrc, FT.xxk, FT.kk, Opnd.isNone, Opnd.getV, Opnd.getK, Opnd.getP, Opnd.getX, Opnd.getTile, Opnd.getCask, Opnd.getCur]⟩
theorem Laws.Reads.csrr (g : Guard) (d : BitVec 6) (num : BitVec 12) : Laws.Reads.Statement (.csrr g d num) := by
  intro _ c h
  cases h
  exact ⟨rfl, by simp [Code.read, Alu1.code, Alu2.code, Alu3.code, Cmp.code, gCode, FG.instr, FG.z, FG.noLit, FG.sop0, FG.mod0, FG.modBelow, FG.alu1, FG.alu2, FG.alu3, FG.cmp, FG.bare, Opnd.isNone, Opnd.getV, Opnd.getK, Opnd.getP, Opnd.getX, Opnd.getTile, bits_setWidth]⟩
theorem Laws.Reads.csrw (g : Guard) (b : SrcL) (num : BitVec 12) : Laws.Reads.Statement (.csrw g b num) := by
  intro _ c h
  cases h
  exact ⟨rfl, by simp [Code.read, Alu1.code, Alu2.code, Alu3.code, Cmp.code, gCode, FG.instr, FG.z, FG.noLit, FG.sop0, FG.mod0, FG.modBelow, FG.alu1, FG.alu2, FG.alu3, FG.cmp, FG.bare, Opnd.isNone, Opnd.getV, Opnd.getK, Opnd.getP, Opnd.getX, Opnd.getTile, bits_setWidth]⟩
theorem Laws.Reads.hmap (m : HmapMods) (g : Guard) (d a : VK) (tok : BitVec 3) : Laws.Reads.Statement (.hmap m g d a tok) := by
  intro _ c h
  cases h
  obtain ⟨h1, h2, h3, h4, h5, h6, h7⟩ := hmap_word m
  have h8 := toNat_small h1 rfl
  have e3 := bit_of_bits h3
  have e4 := bit_of_bits h4
  have e6 := bit_of_bits h6
  exact ⟨rfl, by simp [Code.read, tCode, storeCode, atomCode, onTok, FT.instr, FT.noLit, FT.z, FT.sop0, FT.mod0, FT.tok, FT.scope, FT.off0, FT.off, FT.load, FT.store, FT.atomic, FT.cpyMods, FT.onlyCrc, FT.xxk, FT.kk, Opnd.isNone, Opnd.getV, Opnd.getK, Opnd.getP, Opnd.getX, Opnd.getTile, Opnd.getCask, Opnd.getCur]; simp_all⟩
theorem Laws.Reads.pgup (g : Guard) (d a : VK) (tok : BitVec 3) : Laws.Reads.Statement (.pgup g d a tok) := by
  intro _ c h
  cases h
  exact ⟨rfl, by simp [Code.read, tCode, storeCode, atomCode, onTok, FT.instr, FT.noLit, FT.z, FT.sop0, FT.mod0, FT.tok, FT.scope, FT.off0, FT.off, FT.load, FT.store, FT.atomic, FT.cpyMods, FT.onlyCrc, FT.xxk, FT.kk, Opnd.isNone, Opnd.getV, Opnd.getK, Opnd.getP, Opnd.getX, Opnd.getTile, Opnd.getCask, Opnd.getCur]⟩
theorem Laws.Reads.finfo (g : Guard) (d : VK) (sel : BitVec 8) (tok : BitVec 3) : Laws.Reads.Statement (.finfo g d sel tok) := by
  intro _ c h
  cases h
  exact ⟨rfl, by simp [Code.read, tCode, storeCode, atomCode, onTok, FT.instr, FT.noLit, FT.z, FT.sop0, FT.mod0, FT.tok, FT.scope, FT.off0, FT.off, FT.load, FT.store, FT.atomic, FT.cpyMods, FT.onlyCrc, FT.xxk, FT.kk, Opnd.isNone, Opnd.getV, Opnd.getK, Opnd.getP, Opnd.getX, Opnd.getTile, Opnd.getCask, Opnd.getCur, bits_setWidth]⟩
theorem Laws.Reads.fpStatClear (bunch : Nat) (bits : BitVec 4) : Laws.Reads.Statement (.fpStatClear bunch bits) := by
  intro _ c h
  cases h
theorem Laws.Reads.accPromoWrite (ctx : Nat) (x : DWord) : Laws.Reads.Statement (.accPromoWrite ctx x) := by
  intro _ c h
  cases h
theorem Laws.Reads.registerWrite (fn ctx num : Nat) (x : DWord) : Laws.Reads.Statement (.registerWrite fn ctx num x) := by
  intro _ c h
  cases h
theorem Laws.Reads.queueDoorbell (fn q : Nat) (tail : Word) : Laws.Reads.Statement (.queueDoorbell fn q tail) := by
  intro _ c h
  cases h
theorem Laws.Reads.hringBaseWrite (fn ctx : Nat) (x : DWord) : Laws.Reads.Statement (.hringBaseWrite fn ctx x) := by
  intro _ c h
  cases h
theorem Laws.Reads.launchCommand (q : Nat) : Laws.Reads.Statement (.launchCommand q) := by
  intro _ c h
  cases h
theorem Laws.Reads.taskCommand (q : Nat) : Laws.Reads.Statement (.taskCommand q) := by
  intro _ c h
  cases h
theorem Laws.Reads.copyCommand (q : Nat) : Laws.Reads.Statement (.copyCommand q) := by
  intro _ c h
  cases h
theorem Laws.Reads.copyAgentComplete (i : Nat) : Laws.Reads.Statement (.copyAgentComplete i) := by
  intro _ c h
  cases h
theorem Laws.Reads.waitCommand (q : Nat) : Laws.Reads.Statement (.waitCommand q) := by
  intro _ c h
  cases h
theorem Laws.Reads.waitSatisfied (q : Nat) : Laws.Reads.Statement (.waitSatisfied q) := by
  intro _ c h
  cases h
theorem Laws.Reads.signalCommand (q : Nat) : Laws.Reads.Statement (.signalCommand q) := by
  intro _ c h
  cases h
theorem Laws.Reads.graphCommand (q : Nat) : Laws.Reads.Statement (.graphCommand q) := by
  intro _ c h
  cases h
theorem Laws.Reads.ringPostCommand (q : Nat) : Laws.Reads.Statement (.ringPostCommand q) := by
  intro _ c h
  cases h
theorem Laws.Reads.pendingLaunchAccept (owner : Nat) : Laws.Reads.Statement (.pendingLaunchAccept owner) := by
  intro _ c h
  cases h
theorem Laws.Reads.dependenceRecordAccept : Laws.Reads.Statement (.dependenceRecordAccept) := by
  intro _ c h
  cases h
theorem Laws.Reads.graphRecordAccept : Laws.Reads.Statement (.graphRecordAccept) := by
  intro _ c h
  cases h
theorem Laws.Reads.pagerUpcallAccept : Laws.Reads.Statement (.pagerUpcallAccept) := by
  intro _ c h
  cases h
theorem Laws.Reads.teamPlacement (launch core : Nat) : Laws.Reads.Statement (.teamPlacement launch core) := by
  intro _ c h
  cases h
theorem Laws.Reads.taskPlacement (launch core : Nat) : Laws.Reads.Statement (.taskPlacement launch core) := by
  intro _ c h
  cases h
theorem Laws.Reads.bunchRetire (bunch : Nat) : Laws.Reads.Statement (.bunchRetire bunch) := by
  intro _ c h
  cases h
theorem Laws.Reads.launchComplete (launch : Nat) : Laws.Reads.Statement (.launchComplete launch) := by
  intro _ c h
  cases h
theorem Laws.Reads.rfillWaitEnd (bunch split : Nat) : Laws.Reads.Statement (.rfillWaitEnd bunch split) := by
  intro _ c h
  cases h
theorem Laws.Reads.drainWaitEnd (bunch split : Nat) : Laws.Reads.Statement (.drainWaitEnd bunch split) := by
  intro _ c h
  cases h
theorem Laws.Reads.opportunisticFusion (bunch split split' : Nat) : Laws.Reads.Statement (.opportunisticFusion bunch split split') := by
  intro _ c h
  cases h
theorem Laws.Reads.feWaitEnd (bunch split : Nat) : Laws.Reads.Statement (.feWaitEnd bunch split) := by
  intro _ c h
  cases h
theorem Laws.Reads.tokenCompletion (bunch op : Nat) : Laws.Reads.Statement (.tokenCompletion bunch op) := by
  intro _ c h
  cases h
theorem Laws.Reads.copyComplete (bunch op : Nat) : Laws.Reads.Statement (.copyComplete bunch op) := by
  intro _ c h
  cases h
theorem Laws.Reads.copyFaultSuspend (bunch op : Nat) : Laws.Reads.Statement (.copyFaultSuspend bunch op) := by
  intro _ c h
  cases h
theorem Laws.Reads.stopContextRequest (ctx : Nat) : Laws.Reads.Statement (.stopContextRequest ctx) := by
  intro _ c h
  cases h
theorem Laws.Reads.contextCreate (ctx : Nat) (c : CtxInit) : Laws.Reads.Statement (.contextCreate ctx c) := by
  intro _ c h
  cases h
theorem Laws.Reads.contextReset (ctx : Nat) : Laws.Reads.Statement (.contextReset ctx) := by
  intro _ c h
  cases h
theorem Laws.Reads.splitAgeWatchdog (bunch split : Nat) : Laws.Reads.Statement (.splitAgeWatchdog bunch split) := by
  intro _ c h
  cases h
theorem Laws.Reads.launchDeadlineWatchdog (bunch : Nat) : Laws.Reads.Statement (.launchDeadlineWatchdog bunch) := by
  intro _ c h
  cases h
theorem Laws.Reads.cwaitSatisfied (bunch split : Nat) : Laws.Reads.Statement (.cwaitSatisfied bunch split) := by
  intro _ c h
  cases h
theorem Laws.Reads.cwaitSwapOut (bunch : Nat) : Laws.Reads.Statement (.cwaitSwapOut bunch) := by
  intro _ c h
  cases h
theorem Laws.Reads.swappedBunchPlacement (bunch slot : Nat) : Laws.Reads.Statement (.swappedBunchPlacement bunch slot) := by
  intro _ c h
  cases h
theorem Laws.Reads.futureStatusWrite (ctx n : Nat) (status : DWord) : Laws.Reads.Statement (.futureStatusWrite ctx n status) := by
  intro _ c h
  cases h
theorem Laws.Reads.savedBunchPlacement (bunch core slot : Nat) : Laws.Reads.Statement (.savedBunchPlacement bunch core slot) := by
  intro _ c h
  cases h
theorem Laws.Reads.preemptRequest (ctx : Nat) : Laws.Reads.Statement (.preemptRequest ctx) := by
  intro _ c h
  cases h
theorem Laws.Reads.preemptTimeout (ctx : Nat) : Laws.Reads.Statement (.preemptTimeout ctx) := by
  intro _ c h
  cases h
theorem Laws.Reads.contextResume (ctx : Nat) : Laws.Reads.Statement (.contextResume ctx) := by
  intro _ c h
  cases h
theorem Laws.Reads.graphNodeComplete (run node : Nat) : Laws.Reads.Statement (.graphNodeComplete run node) := by
  intro _ c h
  cases h
theorem Laws.Reads.ringCoalesceTimer (ctx ring : Nat) : Laws.Reads.Statement (.ringCoalesceTimer ctx ring) := by
  intro _ c h
  cases h
theorem Laws.Reads.commonsBankOperation (cellar bank : Nat) : Laws.Reads.Statement (.commonsBankOperation cellar bank) := by
  intro _ c h
  cases h
theorem Laws.Reads.cooperOperation (cellar row : Nat) : Laws.Reads.Statement (.cooperOperation cellar row) := by
  intro _ c h
  cases h
theorem Laws.Reads.pageWalk (core : Nat) : Laws.Reads.Statement (.pageWalk core) := by
  intro _ c h
  cases h
theorem Laws.Reads.fencePointAck (source : Nat) : Laws.Reads.Statement (.fencePointAck source) := by
  intro _ c h
  cases h
theorem Laws.Reads.fenceCounterFree (source : Nat) : Laws.Reads.Statement (.fenceCounterFree source) := by
  intro _ c h
  cases h
theorem Laws.Reads.matrixCommandStart (core : Nat) : Laws.Reads.Statement (.matrixCommandStart core) := by
  intro _ c h
  cases h
theorem Laws.Reads.matrixCommandComplete (core : Nat) : Laws.Reads.Statement (.matrixCommandComplete core) := by
  intro _ c h
  cases h
theorem Laws.Reads.matrixFaultSuspend (core : Nat) : Laws.Reads.Statement (.matrixFaultSuspend core) := by
  intro _ c h
  cases h
theorem Laws.Reads.primDeliveryResume (cellar : Nat) : Laws.Reads.Statement (.primDeliveryResume cellar) := by
  intro _ c h
  cases h
theorem Laws.Reads.codeParityRefetch (core block : Nat) : Laws.Reads.Statement (.codeParityRefetch core block) := by
  intro _ c h
  cases h
theorem Laws.Reads.poisonError (u : PoisonUnit) : Laws.Reads.Statement (.poisonError u) := by
  intro _ c h
  cases h
theorem Laws.Reads.correctedError (unit loc syndrome : Nat) : Laws.Reads.Statement (.correctedError unit loc syndrome) := by
  intro _ c h
  cases h
theorem Laws.Reads.fatalError (cause cellar unit : Nat) : Laws.Reads.Statement (.fatalError cause cellar unit) := by
  intro _ c h
  cases h
theorem Laws.Reads.thermalTrip (cellar : Nat) : Laws.Reads.Statement (.thermalTrip cellar) := by
  intro _ c h
  cases h
theorem Laws.Reads.dvfsMeasurement (watts celsius : Nat) : Laws.Reads.Statement (.dvfsMeasurement watts celsius) := by
  intro _ c h
  cases h
theorem Laws.Reads.powerCapSet (watts : Nat) : Laws.Reads.Statement (.powerCapSet watts) := by
  intro _ c h
  cases h
theorem Laws.Reads.flitReplay (port : Nat) : Laws.Reads.Statement (.flitReplay port) := by
  intro _ c h
  cases h
theorem Laws.Reads.linkXoff (port cls : Nat) : Laws.Reads.Statement (.linkXoff port cls) := by
  intro _ c h
  cases h
theorem Laws.Reads.linkXon (port cls : Nat) : Laws.Reads.Statement (.linkXon port cls) := by
  intro _ c h
  cases h
theorem Laws.Reads.portDownTimeout (port : Nat) : Laws.Reads.Statement (.portDownTimeout port) := by
  intro _ c h
  cases h
theorem Laws.Reads.portRetire (port : Nat) : Laws.Reads.Statement (.portRetire port) := by
  intro _ c h
  cases h
theorem Laws.Reads.checkpointStart (tier : Nat) : Laws.Reads.Statement (.checkpointStart tier) := by
  intro _ c h
  cases h
theorem Laws.Reads.checkpointEnd : Laws.Reads.Statement (.checkpointEnd) := by
  intro _ c h
  cases h
theorem Laws.Reads.d3hotEntry : Laws.Reads.Statement (.d3hotEntry) := by
  intro _ c h
  cases h
theorem Laws.Reads.d3hotExit : Laws.Reads.Statement (.d3hotExit) := by
  intro _ c h
  cases h
theorem Laws.Reads.selfRefreshTimer : Laws.Reads.Statement (.selfRefreshTimer) := by
  intro _ c h
  cases h
theorem Laws.Reads.deviceReset (device devices : Nat) : Laws.Reads.Statement (.deviceReset device devices) := by
  intro _ c h
  cases h
theorem Laws.Reads.recoveryImageLoad (version : Nat) (signed : Bool) (stages : List (List Nat)) : Laws.Reads.Statement (.recoveryImageLoad version signed stages) := by
  intro _ c h
  cases h
theorem Laws.Reads.quoteRequest (nonce : Nat) : Laws.Reads.Statement (.quoteRequest nonce) := by
  intro _ c h
  cases h
theorem Laws.Reads.unassignedOpcode (w : Word) : Laws.Reads.Statement (.unassignedOpcode w) := by
  intro h c e
  cases e
  refine ⟨?_, by rfl⟩
  have t : (bits w 2 7).toNat = w.toNat / 4 % 128 := by
    simp [bits, BitVec.extractLsb'_toNat, Nat.shiftRight_eq_div_pow]
  rw [Code.ok, t]
  rw [Instr.wf, ← t, toNat_eq_zero_iff, t] at h
  exact h
theorem Laws.Reads.portLaneLoss (port lanes : Nat) : Laws.Reads.Statement (.portLaneLoss port lanes) := by
  intro _ c h
  cases h
theorem Laws.Reads.portTrainingComplete (port lanes peerDev peerPort : Nat) : Laws.Reads.Statement (.portTrainingComplete port lanes peerDev peerPort) := by
  intro _ c h
  cases h
theorem Laws.Reads.hostCxlMemAccess (home : Nat) (acc : ExtAccess) : Laws.Reads.Statement (.hostCxlMemAccess home acc) := by
  intro _ c h
  cases h
theorem Laws.Reads.estateInboundRequest (port : Nat) (r : Inbound) : Laws.Reads.Statement (.estateInboundRequest port r) := by
  intro _ c h
  cases h
theorem Laws.Reads.d3coldEntry : Laws.Reads.Statement (.d3coldEntry) := by
  intro _ c h
  cases h
theorem Laws.Reads.d0IdleEntry : Laws.Reads.Statement (.d0IdleEntry) := by
  intro _ c h
  cases h

end Sys2Proof
end

