-- ==== Sys2Proof/Tests/Slice0.lean ====
section
/-! SUPPORT. Tests: words written out from the spec's encodings decode to their instructions; ill-formed terms and words are
refused; the results of some worked examples; and states that meet the premises of the statements. -/

set_option Elab.async false

namespace Tests

open Sys2Proof Sys2Proof.Machine

def decodesTo (ws : List Word) (i : Instr) : Bool := match decode ws with
  | .ok j => decide (j = i) && encode i == ws && i.wf
  | .error _ => false
def decodeTableWordOf (ws : List Word) : Option Instr := match decode ws with
  | .ok i => some i
  | .error _ => none
/-! ### Words that the spec works out, from the tables of encodings in its files 02 to 23 -/

def wordsControl : List (List Word × Instr) := [
  ([0x00000E14], .exit 7),
  ([0x00000414], .exit 2),
  ([0x01F00E18], .rfill 31),
  ([0x00000E1C], .drain),
  ([0xFFF80E04], .braBase 7 0x3ffe0),
  ([0xFFF10205, 0x00400000, 0x00000020], .braD ⟨false, 1⟩ 32 64),
  ([0xE7F00E09, 0x00001800, 0], .brx ⟨false, 7⟩ 24),
  ([0x3F880E2D, 0x00000002, 0x00000001], .cfetch ⟨false, 7⟩ 2 1 0),
  ([0xFFF00E31, 0, 0x00000400], .jmpf ⟨false, 7⟩ 0x400),
  ([0x00100E18], .rfill 1),
  ([0x00000214], .exit 1),
  ([0x00000E34], .eret),
  ([0xFFF01405, 0, 0x00000800], .bra ⟨true, 2⟩ 0x800),
  ([0xE0F10E09, 0x00060400, 0], .brxD ⟨false, 7⟩ 4 6),
  ([0xFFF00E0D, 0, 0x00000060], .call ⟨false, 7⟩ 96)]
theorem test_decode_control : wordsControl.all (fun e => decodesTo e.1 e.2) = true := by decide +kernel

def wordsInteger : List (List Word × Instr) := [
  ([0x04008E40], .iaddBase false ⟨7, 2, 0, .reg 1⟩),
  ([0x14011E40], .iaddBase false ⟨7, 4, 0, .imm 5⟩),
  ([0x00018E42, 0x00012345, 0], .iaddBase false ⟨7, 6, 0, .lit 0x12345⟩),
  ([0x24F00E41, 0x00020103, 0], .iadd .wrap ⟨⟨false, 7⟩, .k 3, .k 1, .src (.k 2)⟩),
  ([0x04008440], .iaddBase false ⟨2, 2, 0, .reg 1⟩),
  ([0x00701441, 0x00010002, 0], .iadd .wrap ⟨⟨true, 2⟩, .v 2, .v 0, .src (.v 1)⟩),
  ([0x00010E42, 0xFFFFFFFF, 0], .iaddBase false ⟨7, 4, 0, .lit 0xffffffff⟩),
  ([0x0020EE58], .iabsBase true ⟨7, 3, 2⟩),
  ([0x1851EE40], .iaddBase true ⟨7, 7, 5, .reg 6⟩),
  ([0x04008E44], .isubBase false ⟨7, 2, 0, .reg 1⟩),
  ([0x24F04E45, 0x00020103, 0], .isub .usat ⟨⟨false, 7⟩, .k 3, .k 1, .src (.k 2)⟩),
  ([0x40F20E79, 0x00080001, 0], .icmp .lt false ⟨⟨false, 7⟩, 1, .v 0, .src (.k 8)⟩),
  ([0x00000EBD, 0x06030206, 0], .idp4 false false false ⟨⟨false, 7⟩, .v 6, .v 2, .src (.v 3), .v 6⟩),
  ([0x00002E51, 0x08030208, 0], .imad .wide ⟨⟨false, 7⟩, .v 8, .v 2, .src (.v 3), .v 8⟩),
  ([0x08112E54], .imaxBase ⟨7, 4, 1, .reg 2⟩),
  ([0x00704E55, 0x00020104, 0], .imin true ⟨⟨false, 7⟩, .v 4, .v 1, .src (.v 2)⟩),
  ([0x0820CE48], .imulBase ⟨7, 3, 2, .reg 2⟩),
  ([0x08116E4C], .imulhBase true ⟨7, 5, 1, .reg 2⟩),
  ([0x18212E74], .leaBase true ⟨7, 4, 2, .reg 6⟩),
  ([0x00730E75, 0x00060204, 0], .lea false 3 ⟨false, 7⟩ (.v 4) (.v 2) (.src (.v 6)))]
theorem test_decode_integer : wordsInteger.all (fun e => decodesTo e.1 e.2) = true := by decide +kernel

def wordsBits : List (List Word × Instr) := [
  ([0x1EF00E81, 0x00000009, 0], .mov false ⟨false, 7⟩ (.v 9) (.src (.sp .lane))),
  ([0x04025E80], .movBase false 7 9 (.imm 1)),
  ([0x03F02E65, 0x00000203, 0x00000068], .bfx true 8 3 ⟨⟨false, 7⟩, .v 3, .v 2⟩),
  ([0x00700E69, 0x00010004, 0x0000007C], .bfi 28 3 ⟨false, 7⟩ (.v 4) (.v 0) (.v 1)),
  ([0x00414E70], .clzBase ⟨7, 5, 4⟩),
  ([0x04412E5C], .lopBase true ⟨7, 4, 4, .reg 1⟩),
  ([0x00E6CE5E, 0x0000FFFF, 0], .lopBase false ⟨7, 27, 14, .lit 0xffff⟩),
  ([0x00704E5D, 0x00180E0E, 0], .lop .xor ⟨false, 7⟩ (.v 14) (.v 14) (some (.src (.v 24)))),
  ([0x03F08E5D, 0x00000102, 0], .lop .not ⟨false, 7⟩ (.v 2) (.v 1) none),
  ([0x0002AE82, 0x00001000, 0x00000002], .movBase true 7 10 (.lit 0x200001000)),
  ([0x23710E85, 0x00030514, 0], .movk ⟨false, 7⟩ 20 5 (some (.imm 3))),
  ([0x0020CE6C], .popcBase ⟨7, 3, 2⟩),
  ([0x00200E7D, 0x02040305, 0], .sel false ⟨false, 7⟩ (.v 5) (.v 3) (.src (.v 4)) (.p 2)),
  ([0x08109E60], .shfBase false ⟨7, 2, 1, .imm 2⟩),
  ([0x03006E61, 0x05080406, 0], .shf .f ⟨false, 7⟩ (.v 6) (.v 4) (.src (.imm 8)) (some (.v 5)))]
theorem test_decode_bits : wordsBits.all (fun e => decodesTo e.1 e.2) = true := by decide +kernel

def wordsFloat : List (List Word × Instr) := [
  ([0x03F02EC1, 0x00000203, 0x00000300], .cvt true 0 3 .rne ⟨⟨false, 7⟩, .v 3, .v 2⟩),
  ([0x04008EA0], .faddBase false ⟨7, 2, 0, .reg 1⟩),
  ([0x0810EEA4], .fmulBase true ⟨7, 3, 1, .reg 2⟩),
  ([0x40720EB1, 0x00020102, 0], .fcmp .lt ⟨⟨false, 7⟩, 2, .v 1, .src (.v 2)⟩),
  ([0x00000EA9, 0x03020104, 0], .ffma false false false ⟨⟨false, 7⟩, .v 4, .v 1, .src (.v 2), .v 3⟩),
  ([0x00008EA9, 0x03020104, 0], .ffma false false true ⟨⟨false, 7⟩, .v 4, .v 1, .src (.v 2), .v 3⟩),
  ([0x10316EAC], .fmaxBase ⟨7, 5, 3, .reg 4⟩),
  ([0x03F06EC5, 0x00000506, 0], .frnd .rd ⟨⟨false, 7⟩, .v 6, .v 5⟩),
  ([0x0061CEB4], .ftrnRcpBase ⟨7, 7, 6⟩),
  ([0x03F30EB5, 0x00000607, 0], .ftrn .exp2 ⟨⟨false, 7⟩, .v 7, .v 6⟩),
  ([0x00000EB9, 0x03020104, 0], .pfma false false false false ⟨⟨false, 7⟩, .v 4, .v 1, .src (.v 2), .v 3⟩)]
theorem test_decode_float : wordsFloat.all (fun e => decodesTo e.1 e.2) = true := by decide +kernel

def wordsBunch : List (List Word × Instr) := [
  ([0x03F00EF5, 0x00000405, 0], .qdif false ⟨false, 7⟩ 5 4),
  ([0x23F20EE9, 0x00000E1E, 0], .bred .max ⟨false, 7⟩ (.k 30) 14),
  ([0x03F00EED, 0x00000809, 0], .bscan .add false ⟨false, 7⟩ 9 8),
  ([0x03F02EED, 0x00000809, 0], .bscan .add true ⟨false, 7⟩ 9 8),
  ([0x03F00EF1, 0x00000405, 0], .matchl ⟨false, 7⟩ (.any 5) 4),
  ([0x43F10EF1, 0x00000402, 0], .matchl ⟨false, 7⟩ (.all 2) 4),
  ([0x49700EF9, 0x00020103, 0], .plop .and ⟨false, 7⟩ 3 1 (some 2)),
  ([0x03720EE5, 0x00010405, 0], .shfl .down ⟨false, 7⟩ 5 4 (.src (.imm 1))),
  ([0x2BF20EE1, 0x00000105, 0], .vote .ballot ⟨false, 7⟩ (.k 5) 1),
  ([0x4BF00EE1, 0x00000002, 0], .vote .any ⟨false, 7⟩ (.p 2) 0)]
theorem test_decode_bunch : wordsBunch.all (fun e => decodesTo e.1 e.2) = true := by decide +kernel

def wordsMemory : List (List Word × Instr) := [
  ([0x03980F01, 0x0000080A, 0x00000010], .ld ⟨false, 7⟩ .w32 false .team (.v 10) (.v 8) 16 1),
  ([0x27880F19, 0x00000402, 0x00000040], .ldk ⟨false, 7⟩ .w32 false .team 2 4 64 0),
  ([0x03980F01, 0x0000080A, 0x1FFFFFF0], .ld ⟨false, 7⟩ .w32 false .team (.v 10) (.v 8) 0x1ffffff0 1),
  ([0xE4990F25, 0x00060400, 0x60000000], .cctl .tlb .estate ⟨false, 7⟩ 4 (.src (.k 6)) 0 1),
  ([0x039A0F01, 0x00000803, 0], .ld ⟨false, 7⟩ .s8 false .team (.v 3) (.v 8) 0 1),
  ([0x27882F01, 0x00000601, 0x40000000], .ld ⟨false, 7⟩ .w32 true .cellar (.k 1) (.k 6) 0 0),
  ([0x2788CF09, 0x00000A1E, 0x00000300], .lds ⟨false, 7⟩ .w32 .feClr (.k 30) (.k 10) 768 0),
  ([0x03980F09, 0x00000204, 0x00000040], .lds ⟨false, 7⟩ .w32 .plain (.v 4) (.v 2) 64 1),
  ([0xE3810F21, 0x00000800, 0x00000100], .pref true ⟨false, 7⟩ (.v 8) 256 ⟨false, 0⟩),
  ([0xE4804F05, 0x00090600, 0x60000000], .st ⟨false, 7⟩ .w32 true .estate (.k 6) 0 (.src (.k 9)) ⟨false, 0⟩),
  ([0xE0050F05, 0x000A0400, 0x00000008], .st ⟨false, 7⟩ .d64 false .team (.v 4) 8 (.src (.v 10)) ⟨false, 0⟩),
  ([0xE4800F15, 0x00360600, 0x000000C0], .stc ⟨false, 7⟩ .w32 false .team (.k 6) 192 (.src (.k 54)) ⟨false, 0⟩),
  ([0xE4808F0D, 0x000C0A00, 0x00000300], .sts ⟨false, 7⟩ .w32 .fe (.k 10) 768 (.src (.k 12)) ⟨false, 0⟩),
  ([0x0C180F1D, 0x0002040A, 0], .tld false ⟨false, 7⟩ (.v 10) 4 (.v 2) 0 1)]
theorem test_decode_memory : wordsMemory.all (fun e => decodesTo e.1 e.2) = true := by decide +kernel

def wordsAtomic : List (List Word × Instr) := [
  ([0xFFF00F51, 0, 0], .fence .team ⟨false, 7⟩),
  ([0xFFF02F51, 0, 0], .fence .row ⟨false, 7⟩),
  ([0xFFF04F51, 0, 0], .fence .cellar ⟨false, 7⟩),
  ([0xFFF06F51, 0, 0], .fence .estate ⟨false, 7⟩),
  ([0xFFF08F51, 0, 0], .fence .sys ⟨false, 7⟩),
  ([0xFFF10F51, 0, 0], .fenceOpnd ⟨false, 7⟩),
  ([0xFFF00351, 0, 0], .fence .team ⟨false, 1⟩),
  ([0xFBF00F5D, 0x00000300, 0], .mwait ⟨false, 7⟩ 3),
  ([0x070F8F41, 0x00030405, 0], .atom 15 .none .team ⟨false, 7⟩ (.v 5) (.k 4) 0 (.src (.imm 3)) 0),
  ([0x00298F41, 0x001A081E, 0], .atom 9 .none .team ⟨false, 7⟩ (.v 30) (.v 8) 0 (.src (.v 26)) 2),
  ([0x24880F49, 0x00080009, 0], .atomc 0 .none .team ⟨false, 7⟩ (.k 9) (.k 0) 0 (.src (.k 8)) 0),
  ([0x001C8F49, 0x000C0408, 0], .atomc 12 .none .team ⟨false, 7⟩ (.v 8) (.v 4) 0 (.src (.v 12)) 1),
  ([0xFFF00F55, 0, 0], .bar ⟨false, 7⟩ 0 0),
  ([0xFFF10F55, 0, 0x00000023], .barArrive ⟨false, 7⟩ 3 2),
  ([0xFFF20F55, 0, 0x00000003], .barWait ⟨false, 7⟩ 3),
  ([0xE003CF4D, 0x00030800, 0x40000000], .red 11 true .cellar ⟨false, 7⟩ (.v 8) 0 (.src (.v 3)) ⟨false, 0⟩),
  ([0xF3F00F59, 0x00000200, 0], .wtok ⟨false, 7⟩ (.one 2)),
  ([0xFBF10F59, 0x00000500, 0], .wtok ⟨false, 7⟩ (.many 5))]
theorem test_decode_atomic : wordsAtomic.all (fun e => decodesTo e.1 e.2) = true := by decide +kernel

def wordsCopy : List (List Word × Instr) := [
  ([0x03994F61, 0x00000A08, 0x00000020], .cpy .m2s .b16 false ⟨false, 7⟩ 8 10 32 1),
  ([0x6CA88F65, 0x00080102, 0], .cpya ⟨true, false, false⟩ false false false ⟨false, 7⟩ 2 1 8 2),
  ([0x6CA80F65, 0x00000102, 0x80000000], .cpya ⟨false, false, false⟩ true false false ⟨false, 7⟩ 2 1 0 2),
  ([0x6C980F69, 0x00140506, 0x20000000], .cpyg false false false true ⟨false, 7⟩ 6 5 20 1),
  ([0x6F880F75, 0x00000304, 0x40000002], .cpyl false false true 2 ⟨false, 7⟩ 4 3 0),
  ([0x6CB80F71, 0x00180708, 0], .cpyq false false false ⟨false, 7⟩ 8 7 24 3),
  ([0x6CA80F6D, 0x001E090A, 0x80000000], .cpys false true ⟨false, 7⟩ 10 9 30 2),
  ([0x24C88F7B, 0x000E0C0A, 0, 0x53000000, 0x80000001], .cpyx ⟨true, false, false⟩ false (.lit 0x8000000153000000) ⟨false, 7⟩ 10 12 14 4)]
theorem test_decode_copy : wordsCopy.all (fun e => decodesTo e.1 e.2) = true := by decide +kernel

def wordsMatrix : List (List Word × Instr) := [
  ([0xECF00F81, 0x00080400, 0x80000023], .wld true ⟨false, 7⟩ 4 8 35),
  ([0xFFF00F85, 0, 0], .wswp ⟨false, 7⟩),
  ([0x8CF02F89, 0x000A0610, 0x8000001F], .mms .plain true true ⟨false, 7⟩ 0 6 10 none 31 0 0),
  ([0x8C922F89, 0x0C0A0611, 0x8000043F], .mms .triFill true true ⟨false, 7⟩ 1 6 10 (some 12) 63 4 0),
  ([0x9FF00F8D, 0x00000012, 0], .aprm ⟨false, 7⟩ 2),
  ([0x9FF00F91, 0x00000013, 0], .aclr ⟨false, 7⟩ 3),
  ([0x70A90F95, 0x000E1009, 0x8000001F], .adrn true true ⟨false, 7⟩ 9 0 14 31 0 2),
  ([0xECF00F81, 0x000A0400, 0x00000023], .wld false ⟨false, 7⟩ 4 10 35),
  ([0x8CF02F89, 0x00100310, 0x80080007], .mms .plain true true ⟨false, 7⟩ 0 3 16 none 7 0 8),
  ([0x70980F95, 0x000A1005, 0x0000000F], .adrn false false ⟨false, 7⟩ 5 0 10 15 0 1),
  ([0xECF00F81, 0x000A0200, 0x0000000F], .wld false ⟨false, 7⟩ 2 10 15),
  ([0x8CF02F89, 0x000A0110, 0x80000001], .mms .plain true true ⟨false, 7⟩ 0 1 10 none 1 0 0),
  ([0x70980F95, 0x000A1003, 0x80000001], .adrn false true ⟨false, 7⟩ 3 0 10 1 0 1)]
theorem test_decode_matrix : wordsMatrix.all (fun e => decodesTo e.1 e.2) = true := by decide +kernel

def wordsTensor : List (List Word × Instr) := [
  ([0x67880FA1, 0x00000001, 0x00000100], .tdsc ⟨false, 7⟩ 1 0 256 0),
  ([0xE7080FA5, 0x00030400, 0], .tcod ⟨false, 7⟩ 3 4 0 0),
  ([0x2F980FAD, 0x00000502, 0], .tqry ⟨false, 7⟩ 2 5 0 1)]
theorem test_decode_tensor : wordsTensor.all (fun e => decodesTo e.1 e.2) = true := by decide +kernel

def wordsCask : List (List Word × Instr) := [
  ([0x10182FB5, 0x0010230A, 0], .ckins true ⟨false, 7⟩ 10 3 16 1),
  ([0x13B90FB9, 0x00003014, 0x28500103], .cknxt ⟨false, 7⟩ 20 0 1 5 1 2 3 3),
  ([0x87880FB1, 0x00000423, 0], .ckopn ⟨false, 7⟩ 3 4 0 0),
  ([0x90A80FB9, 0x00102330, 0], .ckitr (.range 3 16) ⟨false, 7⟩ 0 2),
  ([0x101A07B5, 0x0020231E, 0], .ckmov false ⟨false, 3⟩ 30 3 32 1),
  ([0x338A0FB1, 0x00002316, 0], .ckrak ⟨false, 7⟩ 22 3 0),
  ([0x101903B5, 0x0016231E, 0], .ckrem ⟨false, 1⟩ 30 3 22 1),
  ([0x10280FBD, 0x00162328, 0x00000002], .ckpay ⟨false, 7⟩ 40 3 22 2 2),
  ([0x10190FBD, 0x0016231E, 0x00000002], .ckwr ⟨false, 7⟩ 30 3 22 2 1),
  ([0x338B0FB1, 0x00002305, 0], .ckcnt ⟨false, 7⟩ 5 3 0),
  ([0xF3890FB1, 0x00002300, 0], .ckcls ⟨false, 7⟩ 3 0),
  ([0x00280FC5, 0x0001060A, 0], .dpst ⟨false, 7⟩ 10 6 1 2)]
theorem test_decode_cask : wordsCask.all (fun e => decodesTo e.1 e.2) = true := by decide +kernel

def wordsLaunch : List (List Word × Instr) := [
  ([0x27980FC1, 0x00000405, 0], .lnch ⟨false, 7⟩ 5 4 0 1),
  ([0x24A90FC9, 0x00080603, 0x80000000], .cwait .sys ⟨false, 7⟩ 3 6 0 8 2),
  ([0x38B90FCD, 0x000C0207, 0], .hpost ⟨false, 7⟩ 7 2 12 3),
  ([0x38B917CD, 0x00200028, 0], .hpost ⟨true, 3⟩ 40 0 32 3),
  ([0x27A80FC1, 0x0000022C, 0x00000100], .lnch ⟨false, 7⟩ 44 2 256 2),
  ([0x24B90FC9, 0x00340632, 0x80000000], .cwait .sys ⟨false, 7⟩ 50 6 0 52 3),
  ([0x27880FC9, 0x00000402, 0], .depd ⟨false, 7⟩ 2 4 0 0),
  ([0x24980FCD, 0x00060403, 0], .garm ⟨false, 7⟩ 3 4 0 6 1),
  ([0x27990FC1, 0x00000406, 0x00000040], .task ⟨false, 7⟩ 6 4 64 1)]
theorem test_decode_launch : wordsLaunch.all (fun e => decodesTo e.1 e.2) = true := by decide +kernel

def wordsRaster : List (List Word × Instr) := [
  ([0x24980FD1, 0x00040802, 0], .prim ⟨false, 7⟩ 2 8 4 1),
  ([0x24A82FD1, 0x00041003, 0x00000002], .primSplat ⟨false, 7⟩ 3 16 4 2 2),
  ([0x63B94FD1, 0x00001007, 0], .pseg .cubic ⟨false, 7⟩ 7 16 3),
  ([0x6C882FD5, 0x00140709, 0], .covr false true ⟨false, 7⟩ 9 7 20 0),
  ([0x3C984FD1, 0x00040002, 0], .primClose ⟨false, 7⟩ 2 4 1)]
theorem test_decode_raster : wordsRaster.all (fun e => decodesTo e.1 e.2) = true := by decide +kernel

def wordsSystem : List (List Word × Instr) := [
  ([0x03980FDD, 0x00000002, 0x00000004], .hmap ⟨0, true, false, 0, false, 0⟩ ⟨false, 7⟩ (.v 2) (.v 0) 1),
  ([0x03A90FDD, 0x00000004, 0], .pgup ⟨false, 7⟩ (.v 4) (.v 0) 2),
  ([0x1F8A0FDD, 0, 0], .finfo ⟨false, 7⟩ (.v 0) 0 0),
  ([0x3FF00FD9, 0x00000004, 0x00000054], .csrr ⟨false, 7⟩ 4 84),
  ([0xFF710FD9, 0x00080000, 0x00000053], .csrw ⟨false, 7⟩ (.src (.imm 8)) 83)]
theorem test_decode_system : wordsSystem.all (fun e => decodesTo e.1 e.2) = true := by decide +kernel
/-! ### Words written out from the fields that the spec gives, for the forms it does not work out -/

def wordsOther : List (List Word × Instr) := [
  ([0], .nop), ([0x00000E10], .ret 7), ([0x00000E20], .yield 7), ([0x00000E28], .bkpt 7),
  ([0xFFF00E25, 0, 0x1234], .trap ⟨false, 7⟩ 0x1234),
  ([0x24F00E49, 0x00020103, 0], .imul ⟨⟨false, 7⟩, .k 3, .k 1, .src (.k 2)⟩),
  ([0x24F00E4D, 0x00020103, 0], .imulh false ⟨⟨false, 7⟩, .k 3, .k 1, .src (.k 2)⟩),
  ([0x08110E54], .iminBase ⟨7, 4, 1, .reg 2⟩),
  ([0x00706E55, 0x00020104, 0], .imax true ⟨⟨false, 7⟩, .v 4, .v 1, .src (.v 2)⟩),
  ([0x03F00E59, 0x00000203, 0], .iabs false ⟨⟨false, 7⟩, .v 3, .v 2⟩),
  ([0x03F00E6D, 0x00000203, 0], .popc ⟨⟨false, 7⟩, .v 3, .v 2⟩),
  ([0x03F00E71, 0x00000203, 0], .clz ⟨⟨false, 7⟩, .v 3, .v 2⟩)]
theorem test_decode_other : wordsOther.all (fun e => decodesTo e.1 e.2) = true := by decide +kernel

def wordsMore : List (List Word × Instr) := [
  ([0x00700EA1, 0x00020104, 0], .fadd false ⟨⟨false, 7⟩, .v 4, .v 1, .src (.v 2)⟩),
  ([0x00700EA5, 0x00020104, 0], .fmul false ⟨⟨false, 7⟩, .v 4, .v 1, .src (.v 2)⟩),
  ([0x10314EAC], .fminBase ⟨7, 5, 3, .reg 4⟩),
  ([0x00700EAD, 0x00020104, 0], .fmin ⟨⟨false, 7⟩, .v 4, .v 1, .src (.v 2)⟩),
  ([0x00702EAD, 0x00020104, 0], .fmax ⟨⟨false, 7⟩, .v 4, .v 1, .src (.v 2)⟩),
  ([0x03C80F11, 0x00000C08, 0x80], .ldc ⟨false, 7⟩ .w32 false .team (.v 8) (.v 12) 0x80 4),
  ([0x00080F45, 0x00030405, 0], .atoms 0 .none .team ⟨false, 7⟩ (.v 5) (.v 4) 0 (.src (.v 3)) 0),
  ([0xFFF00FA9, 0, 0], .tsyn ⟨false, 7⟩),
  ([0x3BB92FCD, 0x00000207, 0], .hpostFlush ⟨false, 7⟩ 7 2 3),
  -- R72: an opcode that R76 does not assign, and opcode 0 in a word that is not 0
  ([0x00000E38], .unassignedOpcode 0xE38), ([0x00000200], .unassignedOpcode 0x200)]
theorem test_decode_more : wordsMore.all (fun e => decodesTo e.1 e.2) = true := by decide +kernel

/-- Words that break a rule of their layout are refused: PG = 7 with PN = 1 (R53), a field that must be zero (R76), a layout that the opcode
does not have (R55), a literal flag where none may stand, and a word that is cut off. -/
def refusedWords : List (List Word) := [
  [0x24F01E41, 0x00020103, 0], [0x00002E14], [0x00000E25], [0x03980F03, 0x0000080A, 0x10, 0, 0], [0x24F00E41, 0x00020103]]
theorem test_decode_refused : refusedWords.all (fun w => !(decodeTableWordOf w).isSome) = true := by decide +kernel
/-! ### Ill-formed terms that WellFormed refuses, one for each of its checks -/

def g7 : Guard := ⟨false, 7⟩
def lit33 : SrcL := .lit 0x100000000

def illControl : List Instr := [
  .bra ⟨true, 7⟩ 0, .brx g7 1, .brxD g7 1 0, .brxD g7 0 1, .cfetch g7 0 0 0, .jmpf ⟨true, 7⟩ 0]
theorem test_ill_control : illControl.all (fun i => !i.wf) = true := by decide +kernel

def illInteger : List Instr := [
  .iaddBase false ⟨7, 2, 0, .lit 0x100000000⟩, .iadd .wrap ⟨⟨true, 7⟩, .v 0, .v 0, .src (.v 0)⟩,
  .iadd .wrap ⟨g7, .k 0, .v 0, .src (.k 0)⟩, .iadd .wrap ⟨g7, .k 0, .k 0, .src (.v 0)⟩, .iadd .wrap ⟨g7, .k 0, .sp .lane, .src (.k 0)⟩,
  .iadd .wrap ⟨g7, .v 0, .v 0, lit33⟩, .imad .wide ⟨g7, .v 1, .v 0, .src (.v 0), .v 0⟩, .imad .wide ⟨g7, .v 0, .v 0, .src (.v 0), .v 1⟩,
  .imad .wideU ⟨g7, .v 0, .v 0, .src (.v 0), .sp .lane⟩, .imad .low ⟨g7, .k 0, .k 0, .src (.k 0), .v 0⟩, .iabs false ⟨g7, .k 0, .v 0⟩,
  .icmp .eq true ⟨g7, 0, .v 0, .src (.v 0)⟩, .icmp .lt true ⟨g7, 0, .v 0, lit33⟩, .leaBase false ⟨7, 1, 0, .reg 0⟩, .leaBase false ⟨7, 0, 1, .reg 0⟩,
  .lea false 0 g7 (.v 1) (.v 0) (.src (.v 0)), .lea false 0 g7 (.v 0) (.v 1) (.src (.v 0)), .lea false 0 g7 (.k 0) (.v 0) (.src (.k 0))]
theorem test_ill_integer : illInteger.all (fun i => !i.wf) = true := by decide +kernel

def illBits : List Instr := [
  .lop .not g7 (.v 0) (.v 0) (some (.src (.v 0))), .lop .and g7 (.v 0) (.v 0) none, .shf .f g7 (.v 0) (.v 0) (.src (.v 0)) none,
  .shf .l g7 (.v 0) (.v 0) (.src (.v 0)) (some (.v 0)), .bfx false 31 1 ⟨g7, .v 0, .v 0⟩, .bfi 16 16 g7 (.v 0) (.v 0) (.v 0),
  .sel true g7 (.v 1) (.v 0) (.src (.v 0)) (.p 0), .sel true g7 (.v 0) (.v 1) (.src (.v 0)) (.p 0), .sel true g7 (.v 0) (.v 0) (.src (.v 1)) (.p 0),
  .sel false g7 (.k 0) (.k 0) (.src (.k 0)) (.p 0), .sel false g7 (.v 0) (.v 0) lit33 (.p 0), .movBase true 7 1 (.reg 0), .movBase true 7 0 (.reg 1),
  .movBase false 7 0 (.lit 0x100000000), .mov true g7 (.v 1) (.src (.v 0)), .mov true g7 (.v 0) (.src (.v 1)), .mov true g7 (.v 0) (.src (.sp .clock)),
  .mov false g7 (.k 0) (.src (.v 0)), .movk ⟨true, 7⟩ 0 0 none]
theorem test_ill_bits : illBits.all (fun i => !i.wf) = true := by decide +kernel

def illFloat : List Instr := [
  .pfma false false false false ⟨g7, .v 0, .v 0, .lit 0, .v 0⟩, .cvt false 11 0 .rne ⟨g7, .v 0, .v 0⟩, .cvt false 0 11 .rne ⟨g7, .v 0, .v 0⟩,
  .cvt false 0 9 .rne ⟨g7, .v 0, .v 0⟩, .vote .ballot g7 (.p 0) 0, .vote .any g7 (.v 0) 0, .shfl .idx g7 0 0 (.src (.sp .lane)), .shfl .idx g7 0 0 lit33,
  .bscan .fadd false g7 0 0, .bscan .fmin false g7 0 0, .bscan .fmax false g7 0 0, .plop .not g7 0 0 (some 0), .plop .and g7 0 0 none]
theorem test_ill_float : illFloat.all (fun i => !i.wf) = true := by decide +kernel

def illMemory : List Instr := [
  .ld g7 .w32 false .row (.v 0) (.v 0) 0 0, .ld g7 .w32 false .team (.v 0) (.v 1) 0 0, .ld g7 .d64 false .team (.v 1) (.v 0) 0 0,
  .ld g7 .q128 false .team (.v 2) (.v 0) 0 0, .ld g7 .w32 false .team (.k 0) (.v 0) 0 0, .st g7 .w32 false .row (.v 0) 0 (.src (.v 0)) ⟨false, 0⟩,
  .st g7 .w32 false .team (.v 1) 0 (.src (.v 0)) ⟨false, 0⟩, .st g7 .w32 false .team (.v 0) 0 (.src (.sp .lane)) ⟨false, 0⟩,
  .st g7 .d64 false .team (.v 0) 0 (.src (.v 1)) ⟨false, 0⟩, .st g7 .w32 false .team (.v 0) 0 lit33 ⟨false, 0⟩,
  .st g7 .q128 false .team (.v 0) 0 (.lit 0) ⟨false, 0⟩, .ldk g7 .w32 false .team 0 1 0 0, .tld false g7 (.k 0) 0 (.v 0) 0 0, .pref false g7 (.v 1) 0 ⟨false, 0⟩,
  .cctl .tlb .sys g7 0 (.src (.k 0)) 0 0, .cctl .l1 .row g7 0 (.src (.k 0)) 0 0, .cctl .tlb .team g7 1 (.src (.k 0)) 0 0,
  .cctl .tlb .team g7 0 (.src (.v 0)) 0 0, .cctl .tlb .team g7 0 lit33 0 0]
theorem test_ill_memory : illMemory.all (fun i => !i.wf) = true := by decide +kernel

def illAtomic : List Instr := [
  .atom 0 .none .row g7 (.v 0) (.v 0) 0 (.src (.v 0)) 0, .atom 0 .none .team g7 (.v 0) (.v 1) 0 (.src (.v 0)) 0,
  .atom 0 .none .team g7 (.k 0) (.v 0) 0 (.src (.k 0)) 0, .atom 0 .none .team g7 (.k 0) (.k 0) 0 (.src (.v 0)) 0,
  .atom 7 .none .team g7 (.v 0) (.v 0) 0 (.src (.imm 0)) 0, .atom 7 .none .team g7 (.v 0) (.v 0) 0 (.src (.v 1)) 0,
  .atom 14 .none .team g7 (.v 1) (.v 0) 0 (.src (.v 0)) 0, .atom 14 .none .team g7 (.v 0) (.v 0) 0 (.src (.v 2)) 0,
  .atom 8 .none .team g7 (.v 1) (.v 0) 0 (.src (.v 0)) 0, .atom 13 .none .team g7 (.v 0) (.v 0) 0 (.src (.v 1)) 0,
  .atomc 12 .none .team g7 (.v 2) (.v 0) 0 (.src (.v 0)) 0, .atomc 12 .none .team g7 (.v 0) (.v 0) 0 (.src (.imm 0)) 0,
  .atoms 0 .none .team g7 (.v 0) (.v 0) 0 lit33 0, .red 7 false .team g7 (.v 0) 0 (.src (.v 0)) ⟨false, 0⟩,
  .red 14 false .team g7 (.v 0) 0 (.src (.v 0)) ⟨false, 0⟩, .red 0 false .sys g7 (.v 0) 0 (.src (.v 0)) ⟨false, 0⟩, .bar g7 0 17, .barArrive g7 0 17]
theorem test_ill_atomic : illAtomic.all (fun i => !i.wf) = true := by decide +kernel

def illCopy : List Instr := [
  .cpy .m2m .b4 false g7 1 0 0 0, .cpy .m2m .b4 false g7 0 1 0 0, .cpya ⟨false, true, false⟩ false false false g7 0 0 0 0,
  .cpya ⟨true, false, true⟩ false false false g7 0 0 0 0, .cpya ⟨false, false, false⟩ false false false g7 0 0 1 0, .cpyg false false false false g7 0 0 62 0,
  .cpys false false g7 0 0 56 0, .cpyq false false false g7 0 0 1 0, .cpyx ⟨false, false, false⟩ false (.lit 0) g7 0 0 0 0,
  .cpyx ⟨false, false, false⟩ false (.lit 0x8000000000000006) g7 0 0 0 0, .cpyx ⟨false, false, false⟩ false (.lit 0x800000000000000D) g7 0 0 0 0,
  .cpyx ⟨false, false, false⟩ false (.short 5) g7 1 0 0 0, .cpyx ⟨true, true, false⟩ false (.short 5) g7 0 0 63 0]
theorem test_ill_copy : illCopy.all (fun i => !i.wf) = true := by decide +kernel

def illMatrix : List Instr := [
  .wld false g7 0 63 0, .mms .plain false false g7 0 0 0 none 0 65 0, .mms .plain false false g7 0 0 0 none 255 0 1, .mms .tri false false g7 0 0 0 none 0 0 0,
  .mms .plain false false g7 0 0 0 (some 0) 0 0 0, .mms .tri false false g7 0 0 0 (some 63) 0 0 0, .adrn true false g7 0 0 1 0 0 0, .adrn true false g7 0 0 62 0 0 0,
  .adrn false false g7 0 0 63 0 0 0, .adrn false false g7 0 0 0 255 1 0, .tdsc g7 0 1 0 0, .tcod g7 0 1 0 0, .tqry g7 0 0 10 0, .tqry g7 1 0 8 0]
theorem test_ill_matrix : illMatrix.all (fun i => !i.wf) = true := by decide +kernel

def illCask : List Instr := [
  .ckopn g7 0 1 0 0, .ckins false g7 0 0 1 0, .ckmov false g7 0 0 1 0, .ckitr (.range 0 1) g7 0 0, .ckitr (.range 0 62) g7 0 0, .ckitr (.box 0 60) g7 0 0,
  .ckitr (.scan 0 62) g7 0 0, .ckitr (.voxel 0 62 0) g7 0 0, .cknxt g7 1 0 0 0 0 0 0 0, .dpst g7 0 1 0 0]
theorem test_ill_cask : illCask.all (fun i => !i.wf) = true := by decide +kernel

def illSystem : List Instr := [
  .lnch g7 0 1 0 0, .task g7 0 1 0 0, .depd g7 1 0 0 0, .depd g7 0 1 0 0, .cwait .team g7 0 1 0 0 0, .cwait .team g7 0 0 0 1 0, .garm g7 0 1 0 0 0,
  .hpost g7 0 0 61 0, .prim g7 0 58 0 0, .prim g7 0 0 1 0, .primSplat g7 0 63 0 0 0, .primClose g7 0 1 0, .pseg .line g7 0 249 0, .covr false false g7 0 0 61 0,
  .csrr g7 1 0x40, .csrr g7 0 0x42, .csrw g7 (.src (.v 0)) 0x41, .csrw g7 (.src (.sp .clock)) 0x41, .csrw g7 (.src (.k 1)) 0x41, .csrw g7 (.src (.k 0)) 0x90]
theorem test_ill_system : illSystem.all (fun i => !i.wf) = true := by decide +kernel

def illHandler : List Instr := [
  .hmap ⟨3, false, false, 0, false, 0⟩ g7 (.v 0) (.v 0) 0, .hmap ⟨0, false, false, 3, false, 0⟩ g7 (.v 0) (.v 0) 0,
  .hmap ⟨0, false, false, 0, false, 3⟩ g7 (.v 0) (.v 0) 0, .hmap ⟨0, false, false, 0, false, 0⟩ g7 (.v 0) (.v 1) 0,
  .hmap ⟨0, false, false, 0, false, 0⟩ g7 (.v 0) (.k 0) 0, .pgup g7 (.v 0) (.v 1) 0, .pgup g7 (.k 0) (.v 0) 0, .finfo g7 (.v 1) 0 0, .finfo g7 (.v 0) 5 0,
  .unassignedOpcode 0x10, .unassignedOpcode 0]
theorem test_ill_handler : illHandler.all (fun i => !i.wf) = true := by decide +kernel
/-! ### Small states -/

def all32 : Mask := 0xFFFFFFFF
def ctx0 : Context := { created := true, cmnWin := 1, hndBase := 0x1001 }
def launch0 : Launch := { ctx := 0, task := false, raw := 0, va := 0, src := .device, seq := 0, placed := 1 }
/-- A bunch with one split, of entry `e`, on core 0. -/
def bunch0 (r : Role) (e : Nat := 0) : Bunch :=
  { ctx := 0, launch := 1, team := some 2, core := 0, slot := some 0, num := 0, role := r, width := 32, budget := 256, active := all32
    splits := [(e, { pc := { bundle := 0x1000, slot := 0 }, mask := all32 })] }
/-- The device with that bunch, about to execute what it issues. -/
def with0 (b : Bunch) (c : Context := ctx0) : State :=
  { State.reset with
    now := 100, nextId := 100, bunches := [(0, b)], ctxs := [(0, c)], launches := [(1, launch0)], teams := [(2, { launch := 1, core := 0, num := 0 })]
    issuer := some { bunch := 0, entry := (b.splits.map (·.1)).headD 0, ctl := 0 } }
def ready (r : Role) (e : Nat := 0) : State := with0 (bunch0 r e)

/-- What an instruction with a guard sees in a state. -/
def seen (s : State) (g : Guard) (u : Bool) : View :=
  match s.issuing with
  | some x => { x with exec := x.guarded g u }
  | none => { s, id := 0, entry := 0, ctl := 0, b := bunch0 .vector, sp := { pc := { bundle := 0, slot := 0 }, mask := 0 }, lanes := 0, exec := 0 }

/-- The parts of `Runs`, decided. -/
def meets (s : State) (g : Guard) (roles : List Role) (rs : List Reg) : Bool :=
  match s.issuing with
  | none => false
  | some x => x.exec == x.lanes && decide (x.b.role ∈ roles) && (x.b.role != .matrix || (g == Guard.always && rs.all fun r => match r with
      | .k _ => true
      | _ => false)) &&
    (rs.all fun r => match r with
      | .v n => decide (n < x.b.budget)
      | _ => true) && x.b.pends.isEmpty && (x.b.ops.all fun o => o.writes.isEmpty) && x.b.poison.isEmpty

theorem runs_of {s : State} {g : Guard} {u : Bool} {roles : List Role} {rs : List Reg} (h : meets s g roles rs = true) :
    Runs s (seen s g u) g u roles rs := by
  unfold meets at h
  split at h
  · simp at h
  · rename_i y hy
    simp only [Bool.and_eq_true, Bool.or_eq_true, beq_iff_eq, bne_iff_ne, decide_eq_true_eq, List.all_eq_true, List.isEmpty_iff] at h
    obtain ⟨⟨⟨⟨⟨⟨h1, h2⟩, h3⟩, h4⟩, h5⟩, h6⟩, h7⟩ := h
    have hs : seen s g u = { y with exec := y.guarded g u } := by simp only [seen, hy]
    rw [hs]
    refine ⟨?_, rfl, h2, ?_, ?_, ?_, h7⟩
    · rw [hy]
      cases y
      simp only at h1
      subst h1
      rfl
    · intro hm
      rcases h3 with h3 | h3
      · exact absurd hm h3
      · refine ⟨h3.1, fun r hr => ?_⟩
        have := h3.2 r hr
        cases r <;> simp_all
    · intro n hn
      exact of_decide_eq_true (h4 _ hn)
    · intro r _
      right
      refine ⟨fun p hp => ?_, fun o ho w hw => ?_⟩
      · simp [h5] at hp
      · have := h6 o ho
        rw [this] at hw
        simp at hw

/-! ### Results the spec works out -/

/-- What v`n` of lane 31 holds after the instruction of these words, with these values in that lane before. -/
def ran (vs : List (Nat × Word)) (ws : List Word) (n : Nat) : Option Word :=
  match decode ws with
  | .error _ => none
  | .ok i =>
    match exec i (with0 { bunch0 .vector with v := vs.map fun e => (32 * e.1 + 31, e.2) }) with
    | .next t => (Store.find t.bunches 0).map fun b => b.vAt n 31
    | _ => none

/-- File 21, IMIN and IMAX (R365): −1 and 1. -/
theorem test_imax_imin : [ran [(1, 0xFFFFFFFF), (2, 1)] [0x08112E54] 4, ran [(1, 0xFFFFFFFF), (2, 1)] [0x00704E55, 0x00020104, 0] 4] = [some 1, some 1] := by decide +kernel
/-- File 21, IMUL and IMULH (R366): −1 by 2. -/
theorem test_imul : [ran [(2, 0xFFFFFFFF)] [0x0820CE48] 3, ran [(1, 0xFFFFFFFF), (2, 2)] [0x08116E4C] 5] = [some 1, some 1] := by decide +kernel
/-- File 21, FFMA (R351): (1 + 2^−23)² − (1 + 2^−22) = 2^−46, rounded once. -/
theorem test_ffma : ran [(1, 0x3F800001), (2, 0x3F800001), (3, 0xBF800002)] [0x00000EA9, 0x03020104, 0] 4 = some 0x28800000 := by decide +kernel
/-- File 22, PFMA.f16 (R379). -/
theorem test_pfma : ran [(1, 0x40003C00), (2, 0x42004000), (3, 0xBC003800)] [0x00000EB9, 0x03020104, 0] 4 = some 0x45004100 := by decide +kernel
/-- File 23, SHF.f and SHF.ra (R389). -/
theorem test_shf : ran [(4, 0x89ABCDEF), (5, 0x01234567)] [0x03006E61, 0x05080406, 0] 6 = some 0x6789ABCD := by decide +kernel
/-- File 22, SHF.l by 2 through the base form (R389). -/
theorem test_shf_base : ran [(1, 0xC0000001)] [0x08109E60] 2 = some 4 := by decide +kernel
/-- Some state lets a split issue an instruction with this guard and these registers. -/
def CanRun (g : Guard) (u : Bool) (roles : List Role) (rs : List Reg) : Prop := ∃ s x, Runs s x g u roles rs
theorem can (r : Role) {g : Guard} {u : Bool} {roles : List Role} {rs : List Reg} (h : meets (ready r) g roles rs = true) :
    CanRun g u roles rs := ⟨_, _, runs_of h⟩

/-! ### States that meet the premises of the statements: register instructions -/

def top2 : Base2 := ⟨7, 63, 63, .lit 0xFFFFFFFF⟩
def topV : Alu2 := ⟨⟨true, 6⟩, .v 255, .v 255, .src (.v 255)⟩
def topK : Alu2 := ⟨g7, .k 63, .k 63, .lit 0xFFFFFFFF⟩
def topV1 : Alu1 := ⟨⟨true, 6⟩, .v 255, .v 255⟩
def topV3 : Alu3 := ⟨⟨true, 6⟩, .v 254, .v 255, .src (.v 255), .v 254⟩
def topP : Cmp := ⟨⟨true, 6⟩, 7, .v 255, .src (.v 255)⟩
def regs2 (f : Alu2) : List Reg := f.a.regs ++ f.b.regs ++ f.d.regs
def regs3 (f : Alu3) : List Reg := f.a.regs ++ f.b.regs ++ f.c.regs ++ f.d.regs

theorem test_meets_IntegerSums :
    CanRun top2.alu.g top2.alu.d.isK allRoles (regs2 top2.alu) ∧ CanRun topV.g topV.d.isK allRoles (regs2 topV) ∧
    CanRun topK.g topK.d.isK allRoles (regs2 topK) ∧
    CanRun g7 false allRoles (vBlock 62 2 ++ (SrcL.src (.imm 1)).regs ++ vBlock 62 2) ∧
    CanRun g7 true allRoles ((VK.k 62).regs 2 ++ (SrcL.src (.k 63)).regs ++ (VK.k 62).regs 2) :=
  ⟨can .copy (by decide), can .vector (by decide), can .matrix (by decide), can .epilogue (by decide), can .matrix (by decide)⟩

theorem test_meets_IntegerProducts :
    CanRun topV.g topV.d.isK allRoles (regs2 topV) ∧ CanRun topV3.g topV3.d.isK allRoles (regs3 topV3) ∧
    CanRun topV3.g topV3.d.isK allRoles (topV3.a.regs ++ topV3.b.regs ++ topV3.c.regs 2 ++ topV3.d.regs 2) :=
  ⟨can .vector (by decide), can .vector (by decide), can .vector (by decide)⟩

theorem test_meets_IntegerOrder :
    CanRun topK.g topK.d.isK allRoles (regs2 topK) ∧ CanRun topV1.g topV1.d.isK allRoles (topV1.a.regs ++ topV1.d.regs) ∧
    CanRun topP.g false allRoles (topP.a.regs ++ topP.b.regs ++ [.p topP.d.toNat]) :=
  ⟨can .matrix (by decide), can .vector (by decide), can .vector (by decide)⟩

theorem test_meets_LogicAndShifts :
    CanRun topK.g topK.d.isK allRoles (regs2 topK) ∧ CanRun topV1.g topV1.d.isK allRoles (topV1.a.regs ++ topV1.d.regs) ∧
    (ShfOp.ra ≠ .f ∧ CanRun topV.g topV.d.isK allRoles (regs2 topV)) ∧ CanRun topV3.g topV3.d.isK allRoles (regs3 topV3) :=
  ⟨can .matrix (by decide), can .vector (by decide), ⟨by decide, can .copy (by decide)⟩, can .epilogue (by decide)⟩

theorem test_meets_BitFields :
    CanRun topV1.g topV1.d.isK allRoles (topV1.a.regs ++ topV1.d.regs) ∧ CanRun topV.g topV.d.isK allRoles (regs2 topV) ∧
    CanRun topV3.g topV3.d.isK allRoles (regs3 topV3) :=
  ⟨can .copy (by decide), can .vector (by decide), can .vector (by decide)⟩

theorem test_meets_Moves :
    CanRun ⟨false, 7⟩ false allRoles ((BaseB.reg 63).srcL.regs ++ [.v 63]) ∧ CanRun ⟨false, 0⟩ false allRoles ((BaseB.lit 0).srcL.regs 2 ++ vBlock 62 2) ∧
    CanRun g7 (VK.k 63).isK allRoles ((SrcL.src (.sp .clock)).regs ++ (VK.k 63).regs) ∧
    CanRun g7 (VK.v 254).isK allRoles ((SrcL.src (.v 254)).regs 2 ++ (VK.v 254).regs 2) ∧
    CanRun g7 true noMatrix [.v 255, .k 63] ∧ CanRun g7 true noMatrix [.v 255, .k 63, .k 0] ∧
    CanRun g7 (VK.v 255).isK allRoles ((Src.v 255).regs ++ (SrcL.src (.v 255)).regs ++ [selReg (.p 7)] ++ (VK.v 255).regs) ∧
    CanRun g7 (VK.k 62).isK allRoles ((Src.k 62).regs 2 ++ (SrcL.lit 0).regs 2 ++ [selReg (.k 63)] ++ (VK.k 62).regs 2) :=
  ⟨can .vector (by decide), can .vector (by decide), can .matrix (by decide), can .vector (by decide), can .vector (by decide),
    can .copy (by decide), can .vector (by decide), can .matrix (by decide)⟩

theorem test_meets_FloatArithmetic :
    CanRun top2.alu.g top2.alu.d.isK vecEpi (regs2 top2.alu) ∧ CanRun topK.g topK.d.isK vecEpi (regs2 topK) ∧
    CanRun topV3.g topV3.d.isK vecEpi (regs3 topV3) ∧ CanRun topP.g false vecEpi (topP.a.regs ++ topP.b.regs ++ [.p topP.d.toNat]) :=
  ⟨can .vector (by decide), can .epilogue (by decide), can .vector (by decide), can .vector (by decide)⟩

theorem test_meets_FloatFunctions :
    CanRun topV1.g topV1.d.isK vecEpi (topV1.a.regs ++ topV1.d.regs) ∧ ((9 : BitVec 5) ≠ 10 ∧ (8 : BitVec 5) ≠ 10) ∧
    (seen (ready .vector) topV1.g topV1.d.isK).exec ≠ 0 :=
  ⟨can .vector (by decide), by decide, by decide +kernel⟩

theorem test_meets_VotesAndShuffles :
    CanRun g7 (vkpIsK (.k 63)) noMatrix [.p 7, vkpReg (.k 63)] ∧ CanRun g7 (vkpIsK (.p 7)) noMatrix [.p 0, vkpReg (.p 7)] ∧
    CanRun g7 false noMatrix (.v 255 :: (SrcL.src (.imm 255)).regs ++ [.v 255]) ∧ CanRun g7 false noMatrix [.v 255, .v 255] ∧
    CanRun g7 false noMatrix [.v 255, .p 7] ∧ CanRun g7 false noMatrix [.p 7, .p 7, .p 7] ∧ CanRun g7 false noMatrix [.p 7, .p 0] ∧
    (seen (ready .vector) g7 true).exec ≠ 0 :=
  ⟨can .vector (by decide), can .copy (by decide), can .vector (by decide), can .vector (by decide), can .epilogue (by decide),
    can .vector (by decide), can .vector (by decide), by decide⟩

theorem test_meets_Reductions :
    CanRun g7 (VK.k 63).isK noMatrix ([.v 255] ++ (VK.k 63).regs) ∧ CanRun ⟨true, 0⟩ (VK.v 255).isK noMatrix ([.v 255] ++ (VK.v 255).regs) ∧
    CanRun g7 false noMatrix [.v 255, .v 255] :=
  ⟨can .vector (by decide), can .vector (by decide), can .vector (by decide)⟩

/-! ### Control -/

/-- The code address of the instruction that issues in the small states. -/
def here : DWord := 0x1000
/-- A bunch whose register k`n` holds a value. -/
def withK (r : Role) (ks : Store Word) (e : Nat := 0) : State := with0 { bunch0 r e with k := ks }
/-- Core 0 has a block with that code, leased to the launch with a segment. -/
def withCode (s : State) (seg : Nat) : State :=
  { s with cores := [(0, { blocks := [{ ctx := 0, va := here, bytes := List.replicate 4096 0, users := [(1, seg)], fetched := some 0 }] })] }

/-- A split issues with this guard, and its view meets a condition. -/
def Issues (g : Guard) (u : Bool) (roles : List Role) (rs : List Reg) (P : State → View → Prop) : Prop := ∃ s x, Runs s x g u roles rs ∧ P s x
theorem issues (s : State) {g : Guard} {u : Bool} {roles : List Role} {rs : List Reg} {P : State → View → Prop}
    (h : meets s g roles rs = true) (hp : P s (seen s g u)) : Issues g u roles rs P := ⟨_, _, runs_of h, hp⟩

def off18 (x : View) (off : BitVec 18) : DWord := x.sp.pc.bundle + 4 * off.signExtend 64
def off32 (x : View) (off : BitVec 32) : DWord := x.sp.pc.bundle + 4 * off.signExtend 64
theorem test_meets_Branches :
    CanRun g7 false allRoles [] ∧
    Issues ⟨false, 0⟩ true allRoles [] (fun _ x => x.exec = 0 ∧ onBundle (off18 x 0x20)) ∧
    Issues g7 true allRoles [] (fun _ x => x.exec ≠ 0 ∧ ¬ onBundle (off18 x 0x3FFFF)) ∧
    Issues g7 true allRoles [] (fun _ x => onBundle (off32 x 0xFFFFFFE0)) ∧
    Issues g7 true allRoles [] (fun _ x => ¬ onBundle (off32 x 0x1F)) ∧
    Issues g7 true allRoles (kBlock 62 2) (fun _ x => x.exec ≠ 0 ∧ onBundle (x.kPair 62)) ∧
    Issues ⟨false, 0⟩ true allRoles (kBlock 62 2) (fun _ x => x.exec = 0 ∧ ¬ onBundle (x.kPair 62)) ∧
    Issues g7 true allRoles (kBlock 62 2) (fun _ x => x.exec ≠ 0 ∧ ¬ onBundle (x.kPair 62)) ∧
    Issues g7 true allRoles (kBlock 60 2) (fun _ x => x.exec ≠ 0 ∧ onBundle (x.kPair 60)) ∧
    Issues g7 true allRoles (kBlock 60 2) (fun _ x => x.exec ≠ 0 ∧ ¬ onBundle (x.kPair 60)) := by
  unfold onBundle
  exact ⟨can .matrix (by decide), issues (ready .vector) (by decide) (by decide +kernel), issues (ready .vector) (by decide) (by decide +kernel),
    issues (ready .copy) (by decide) (by decide +kernel), issues (ready .copy) (by decide) (by decide +kernel),
    issues (withK .vector [(62, 0x80)]) (by decide) (by decide +kernel), issues (withK .vector [(62, 0x40)]) (by decide) (by decide +kernel),
    issues (withK .vector [(62, 0x7F)]) (by decide) (by decide +kernel), issues (withK .vector [(60, 0x80)]) (by decide) (by decide +kernel),
    issues (withK .vector [(60, 0x84)]) (by decide) (by decide +kernel)⟩

theorem landed_here (seg : Nat) (h : seg = 0 ∨ (0, seg) ∈ launch0.landed) :
    hasLanded (withCode (ready .vector) seg) (seen (withCode (ready .vector) seg) g7 true) here :=
  ⟨{ ctx := 0, va := here, bytes := List.replicate 4096 0, users := [(1, seg)], fetched := some 0 }, by rfl, seg, List.mem_singleton.mpr rfl, by
    rcases h with h | h
    · exact .inl h
    · exact .inr ⟨launch0, by rfl, h⟩⟩

theorem not_landed {s : State} {x : View} {a : DWord} (h : (s.core x.b.core).blockOf x.b.ctx x.b.launch a = none) : ¬ hasLanded s x a := by
  rintro ⟨k, hk, -⟩
  simp [h] at hk

theorem test_meets_Jmpf :
    Issues g7 true allRoles [] (fun s x => onBundle (off32 x 0) ∧ hasLanded s x (off32 x 0)) ∧
    Issues g7 true allRoles [] (fun s x => onBundle (off32 x 0) ∧ x.exec ≠ 0 ∧ ¬ hasLanded s x (off32 x 0)) := by
  refine ⟨issues (withCode (ready .vector) 0) (by decide) ⟨by unfold onBundle; decide +kernel, landed_here 0 (.inl rfl)⟩,
    issues (ready .vector) (by decide) ⟨by unfold onBundle; decide +kernel, by decide +kernel, ?_⟩⟩
  exact not_landed (by decide +kernel)

/-- Lanes 0 to 15 of predicate p0. -/
def halfP : Bunch := { bunch0 .vector with p := [(0, 0xFFFF)] }
/-- The split's stack has eight entries, and no table entry is free. -/
def deep (b : Bunch) : Bunch :=
  { b with splits := (List.range 4).map fun e => (e, { pc := { bundle := 0x1000, slot := 0 }, mask := if e = 0 then all32 else 0, stack := List.replicate 8 (.defer { bundle := 0, slot := 0 } 0) }) }

theorem test_meets_Divergence :
    Issues g7 false allRoles [] (fun _ x => ¬ onBundle (off32 x 1)) ∧
    Issues g7 false allRoles [] (fun _ x => onBundle (off32 x 0x20) ∧ ¬ onBundle (x.sp.pc.bundle + 4 * (1 : BitVec 16).signExtend 64)) ∧
    Issues g7 false allRoles [] (fun _ x => onBundle (off32 x 0x20) ∧ onBundle (x.sp.pc.bundle + 4 * (0x40 : BitVec 16).signExtend 64) ∧ x.exec = x.lanes) ∧
    Issues ⟨false, 1⟩ false allRoles [] (fun _ x => x.exec = 0 ∧ x.exec ≠ x.lanes) ∧
    Issues ⟨false, 0⟩ false allRoles [] (fun _ x => x.exec ≠ 0 ∧ x.exec ≠ x.lanes ∧ x.depthAfter 2 ≤ 8) ∧
    Issues ⟨false, 0⟩ false allRoles [] (fun _ x => x.exec ≠ 0 ∧ x.exec ≠ x.lanes ∧ 8 < x.depthAfter 2) := by
  unfold onBundle
  exact ⟨issues (ready .vector) (by decide) (by decide +kernel), issues (ready .vector) (by decide) (by decide +kernel),
    issues (ready .vector) (by decide) (by decide +kernel), issues (ready .vector) (by decide) (by decide +kernel),
    issues (with0 halfP) (by decide) (by decide +kernel), issues (with0 (deep halfP)) (by decide) (by decide +kernel)⟩

/-- The groups of BRX.D's lanes. -/
def brxGroups (x : View) (a : BitVec 8) : List (Pc × Mask) :=
  groupLanes (fun l => if x.exec.getLsbD l then { bundle := x.vPair a.toNat l, slot := 0 } else x.nextPc) (lanesOf x.lanes) []
/-- v0 of lane 1 is another address than that of the other lanes. -/
def twoWays (k : Word) : Bunch := { bunch0 .vector with v := [(1, 0x80)], k := [(0, k)] }

theorem test_meets_BrxD :
    Issues g7 false noMatrix (vBlock 0 2 ++ kBlock 0 2) (fun _ x => (∀ l, l < 32 → x.exec.getLsbD l = true → onBundle (x.vPair 0 l)) ∧
      brxGroups x 0 = [({ bundle := 0, slot := 0 }, all32)]) ∧
    Issues g7 false noMatrix (vBlock 0 2 ++ kBlock 0 2) (fun _ x => (∀ l, l < 32 → x.exec.getLsbD l = true → onBundle (x.vPair 0 l)) ∧
      2 ≤ (brxGroups x 0).length ∧ ¬ onBundle (x.kPair 0)) ∧
    Issues g7 false noMatrix (vBlock 0 2 ++ kBlock 0 2) (fun _ x => (∀ l, l < 32 → x.exec.getLsbD l = true → onBundle (x.vPair 0 l)) ∧
      2 ≤ (brxGroups x 0).length ∧ onBundle (x.kPair 0) ∧ x.depthAfter (brxGroups x 0).length ≤ 8) ∧
    Issues g7 false noMatrix (vBlock 0 2 ++ kBlock 0 2) (fun _ x => (∀ l, l < 32 → x.exec.getLsbD l = true → onBundle (x.vPair 0 l)) ∧
      2 ≤ (brxGroups x 0).length ∧ onBundle (x.kPair 0) ∧ 8 < x.depthAfter (brxGroups x 0).length) := by
  unfold onBundle
  exact ⟨issues (ready .vector) (by decide) (by decide +kernel), issues (with0 (twoWays 1)) (by decide) (by decide +kernel),
    issues (with0 (twoWays 0)) (by decide) (by decide +kernel), issues (with0 (deep (twoWays 0))) (by decide) (by decide +kernel)⟩

/-- Whether an option is some value that meets a condition. -/
def someIs (o : Option α) (p : α → Bool) : Bool :=
  match o with
  | some a => p a
  | none => false

theorem test_meets_ExitAndYield :
    Issues ⟨false, 0⟩ false allRoles [] (fun _ x => x.entry < 4 ∧ x.sp.mask &&& ~~~x.exec ≠ 0 ∧ topJoin x.sp.stack = none) ∧
    Issues g7 true allRoles [] (fun _ x => x.exec ≠ 0 ∧ topJoin x.sp.stack = none) :=
  ⟨issues (with0 halfP) (by decide) (by decide +kernel), issues (ready .matrix) (by decide) (by decide +kernel)⟩
/-- The launch has this record, and these untaken items in the cellar's share. -/
def inLaunch (b : Bunch) (raw : BitVec 512) (items : List (Nat × Nat) := []) : State :=
  { with0 b with launches := [(1, { launch0 with raw, shares := [(0, items)] })] }
/-- A record with REFILL = 1 whose refill point is `here`; the same with KIND = 1. -/
def refillRaw : BitVec 512 := BitVec.ofNat 512 (2 ^ 499 + 0x1000)
def queueRaw : BitVec 512 := BitVec.ofNat 512 (2 ^ 503)
def parkedHalf : Bunch := { bunch0 .vector with active := 0xFFFF, splits := [(0, { pc := { bundle := 0x1000, slot := 0 }, mask := 0xFFFF })] }
def emptySplit (drained : Bool) : Bunch := { bunch0 .vector with drained, splits := [(0, { pc := { bundle := 0x1000, slot := 0 }, mask := 0 })] }

def RefillEnd.tag : RefillEnd → Nat
  | .fails _ => 0 | .filled _ => 1 | .none => 2 | .freed _ => 3 | .waits => 4
def refillEnd (x : View) (map : BitVec 6) : Nat := RefillEnd.tag (x.s.tryRefill x.id x.entry x.b map x.sp.mask)

theorem test_meets_Rfill :
    Issues Guard.always false vecOnly [] (fun _ x => x.entry < 4 ∧ x.refillMisplaced = false ∧ refillEnd x 63 = 1) ∧
    Issues Guard.always false vecOnly [] (fun _ x => x.entry < 4 ∧ x.refillMisplaced = false ∧ refillEnd x 63 = 2) ∧
    Issues Guard.always false vecOnly [] (fun _ x => x.entry < 4 ∧ x.refillMisplaced = false ∧ refillEnd x 63 = 3) ∧
    Issues Guard.always false vecOnly [] (fun _ x => x.entry < 4 ∧ x.refillMisplaced = false ∧ refillEnd x 63 = 4) ∧
    Issues Guard.always false vecOnly [] (fun _ x => x.entry < 4 ∧ x.refillMisplaced = true) :=
  ⟨issues (inLaunch parkedHalf refillRaw [(0, 5)]) (by decide) (by decide +kernel), issues (inLaunch parkedHalf refillRaw) (by decide) (by decide +kernel),
    issues (inLaunch (emptySplit true) refillRaw) (by decide) (by decide +kernel),
    issues (inLaunch (emptySplit false) refillRaw [(0, 5)]) (by decide) (by decide +kernel),
    issues (inLaunch { bunch0 .vector with splits := [(0, { pc := { bundle := 0x1000, slot := 1 }, mask := all32 })] } 0) (by decide) (by decide +kernel)⟩

def closedIs (s : State) (b : Bunch) (v : Bool) : Bool :=
  match s.closed b with
  | .ok w => w == v
  | .error _ => false
def launchIs (s : State) (x : View) (p : Launch → Bool) : Bool := someIs (s.launch x.b.launch) p

theorem test_meets_Drain :
    Issues Guard.always false vecOnly [] (fun s x => x.entry < 4 ∧ launchIs s x (fun l => !l.task && lrKind l.raw == 1) = true ∧ x.b.drained = false) ∧
    Issues Guard.always false vecOnly [] (fun s x => x.entry < 4 ∧ launchIs s x (fun l => lrKind l.raw != 1) = true ∧ closedIs s x.b true = true) ∧
    Issues Guard.always false vecOnly [] (fun s x => x.entry < 4 ∧ launchIs s x (fun l => lrKind l.raw != 1) = true ∧ closedIs s x.b false = true) :=
  ⟨issues (inLaunch (bunch0 .vector) queueRaw) (by decide) (by decide +kernel), issues (inLaunch (bunch0 .vector) 0) (by decide) (by decide +kernel),
    issues (inLaunch (bunch0 .vector) refillRaw [(0, 1)]) (by decide) (by decide +kernel)⟩

/-! ### Exceptions -/

theorem test_meets_SoftwareTraps :
    Issues g7 false allRoles [] (fun _ x => x.exec ≠ 0) ∧ Issues ⟨false, 0⟩ false allRoles [] (fun _ x => x.exec = 0) :=
  ⟨issues (ready .matrix) (by decide) (by decide +kernel), issues (ready .vector) (by decide) (by decide +kernel)⟩

/-- What ExceptionEntry needs, decided. -/
def canFault (s : State) (e : Nat) (fs : List LaneFault) (p : Bunch → Bool) : Bool :=
  someIs (Store.find s.bunches 0) fun b => (Store.find b.splits e).isSome && !fs.isEmpty && fs.all (fun f => decide (f.lane < 32)) &&
    b.ops.all (fun o => o.job != .ready) && p b
def fault31 : List LaneFault := faultAll 0x80000001 .misaligned 5 .read

theorem test_meets_ExceptionEntry :
    canFault (ready .vector) 0 fault31 (fun b => (Store.find b.splits 4).isNone && bit ctx0.hndBase 0) = true ∧
    canFault (with0 (bunch0 .vector) { ctx0 with hndBase := 0 }) 0 fault31 (fun b => (Store.find b.splits 4).isNone) = true ∧
    canFault (ready .vector 4) 4 fault31 (fun b => (Store.find b.splits 4).isSome) = true := by decide +kernel

/-- A bunch in its handler: split 0 frozen where it faulted, split 1 beside it. -/
def inHandler : Bunch :=
  let sp : Split := { pc := { bundle := 0x1000, slot := 0 }, mask := 0xFFFF, frozen := true }
  { bunch0 .vector with
    splits := [(4, { pc := { bundle := 0x1000, slot := 0 }, mask := 1 })] ++ [(0, sp), (1, { sp with mask := 0xFFFF0000 })]
    shMask := 1, shV := [(0, 7)], shP := [(0, 1)], shK := [(48, 9)] }

theorem test_meets_ExceptionReturn :
    Issues Guard.always false allRoles [] (fun s x => 4 ≤ x.entry ∧ (Store.find x.b.splits 5 = none ∧ x.sp.stack = []) ∧
      (Store.find (((s.eret x.id).heldTrips x.id).saveWaiting x.id).bunches x.id).isSome = true) ∧
    Issues Guard.always false allRoles [] (fun _ x => 4 ≤ x.entry ∧ ¬ (Store.find x.b.splits 5 = none ∧ x.sp.stack = [])) ∧
    someIs (Store.find (with0 inHandler).bunches 0) (fun old => !old.fltWait && (bits old.fltCause 12 3).toNat == 0 &&
      someIs (Store.find old.splits 0) (fun q => q.stack.isEmpty) && (Store.find old.splits 1).isSome) = true :=
  ⟨issues (with0 inHandler) (by decide) (by decide +kernel),
    issues (with0 { bunch0 .vector with splits := [(4, { pc := { bundle := 0x1000, slot := 0 }, mask := 1, stack := [.defer { bundle := 0, slot := 0 } 2] })] })
      (by decide) (by decide +kernel), by decide +kernel⟩

/-! ### Memory -/

def isOk {ε : Type} {α : Type} (r : Except ε α) : Bool :=
  match r with
  | .ok _ => true
  | .error _ => false

theorem test_meets_Loads :
    CanRun g7 (VK.v 252).isK noMatrix ((VK.v 254).regs 2 ++ (VK.v 252).regs LoadSize.q128.regs) ∧
    CanRun g7 true allRoles (kBlock 62 2 ++ kBlock 60 LoadSize.q128.regs) ∧
    CanRun g7 (VK.k 63).isK allRoles ((VK.k 63).regs ++ (VK.k 63).regs LoadSize.u8.regs) ∧
    (isOk (placeOf (ready .vector) 0 0 .generic 0x1FFFFFC .read 4 0) = true ∧ (ready .vector).bankQ = []) ∧
    isOk (placeOf (ready .vector) 0 0 .window 1 .read 4 0) = false ∧ isOk (scratchPlace (ready .vector) (bunch0 .vector) 524287 1 true) = true ∧
    isOk (scratchPlace (ready .vector) (bunch0 .vector) 524288 1 true) = false :=
  ⟨can .copy (by decide), can .matrix (by decide), can .vector (by decide), by decide +kernel, by decide +kernel, by decide +kernel, by decide +kernel⟩

theorem test_meets_Stores :
    Issues g7 (storeUniform (.v 254) (.src (.v 252))) noMatrix ((VK.v 254).regs 2 ++ (SrcL.src (.v 252)).regs StoreSize.q128.regs)
      (fun _ x => x.lostFault true .sys = none) ∧
    Issues g7 (storeUniform (.k 62) (.src (.k 63))) allRoles ((VK.k 62).regs ++ (SrcL.src (.k 63)).regs StoreSize.b8.regs) (fun s _ => s.bankQ = []) ∧
    isOk (placeOf (ready .vector) 0 0 .generic 0x1FFFFFC .write 4 0 false) = true ∧ isOk (placeOf (ready .vector) 0 0 .generic 0x200000000 .write 4 0 false) = false ∧
    isOk (scratchPlace (ready .vector) (bunch0 .vector) 524284 4 false) = true ∧ isOk (scratchPlace (ready .vector) (bunch0 .vector) 524288 4 false) = false :=
  ⟨issues (ready .copy) (by decide) (by decide +kernel), issues (ready .matrix) (by decide) (by decide +kernel), by decide +kernel, by decide +kernel,
    by decide +kernel, by decide +kernel⟩

/-- Every executing lane's access lies in one granule, whose state is `full`. -/
def feMeets (x : View) (s : State) (base : VK) (n : Nat) (reads : Bool) (full : Bool) : Bool :=
  x.exec != 0 && x.sp.heldFaults.isEmpty && x.b.ops.isEmpty && (List.range 32).all fun l => !x.exec.getLsbD l ||
    (isOk (scratchPlace s x.b (x.offset base 16 l) n reads) && s.isFull x.b.core ((x.offset base 16 l).toNat / 16) == full)
def fullAt1 : State := { ready .vector with full := [(1, 1)] }

theorem test_meets_FullEmpty :
    Issues g7 (VK.v 2).isK allRoles ((VK.v 0).regs ++ (VK.v 2).regs LoadSize.d64.regs) (fun s x => feMeets x s (.v 0) 8 true true = true) ∧
    Issues g7 (VK.v 2).isK allRoles ((VK.v 0).regs ++ (VK.v 2).regs LoadSize.d64.regs) (fun s x => feMeets x s (.v 0) 8 true false = true) ∧
    Issues g7 (storeUniform (.v 0) (.src (.v 2))) allRoles ((VK.v 0).regs ++ (SrcL.src (.v 2)).regs StoreSize.d64.regs)
      (fun s x => feMeets x s (.v 0) 8 false false = true ∧ x.actors (storeUniform (.v 0) (.src (.v 2))) ≠ 0) ∧
    Issues g7 (storeUniform (.v 0) (.src (.v 2))) allRoles ((VK.v 0).regs ++ (SrcL.src (.v 2)).regs StoreSize.d64.regs)
      (fun s x => feMeets x s (.v 0) 8 false true = true ∧ x.actors (storeUniform (.v 0) (.src (.v 2))) ≠ 0) :=
  ⟨issues fullAt1 (by decide) (by decide +kernel), issues (ready .vector) (by decide) (by decide +kernel), issues (ready .vector) (by decide) (by decide +kernel),
    issues fullAt1 (by decide) (by decide +kernel)⟩

theorem test_meets_Atomics :
    Issues g7 (VK.v 254).isK noMatrix ((VK.v 254).regs 2 ++ (SrcL.src (.v 252)).regs (atomRegs .atom 14) ++ (VK.v 254).regs (atomSize .atom 14 / 4))
      (fun _ x => x.lostFault true .estate = none) ∧
    Issues g7 (VK.k 63).isK noMatrix ((VK.k 63).regs ++ (SrcL.lit 1).regs (atomRegs .atom 0) ++ (VK.k 63).regs (atomSize .atom 0 / 4))
      (fun _ x => x.lostFault false .team = none) ∧
    Issues g7 (storeUniform (.v 254) (.src (.v 252))) noMatrix ((VK.v 254).regs 2 ++ (SrcL.src (.v 252)).regs (atomRegs .atomc 12))
      (fun _ x => x.lostFault true .sys = none) ∧
    isOk (atomPlace (ready .vector) (seen (ready .vector) g7 false) .generic 0x10 (atomSize .atomc 12) 0) = true ∧
    isOk (atomPlace (ready .vector) (seen (ready .vector) g7 false) .generic 0x18 (atomSize .atomc 12) 0) = false ∧
    ((15 : Nat) < 16 ∧ 2 ^ 32 - 1 < 2 ^ (8 * atomSize .atom 15) ∧ 2 ^ 32 - 1 < 2 ^ (32 * atomRegs .atom 15)) :=
  ⟨issues (ready .vector) (by decide) (by decide +kernel), issues (ready .copy) (by decide) (by decide +kernel), issues (ready .vector) (by decide) (by decide +kernel),
    by decide +kernel, by decide +kernel, by decide +kernel⟩
/-! ### States that meet the premises: ordering, tensors, copies and the array -/

/-- Bytes at offsets of the commons of cellar 0, at which the window of the small states begins. -/
def filled (s : State) (l : List (Nat × List Byte)) : State := { s with mem := l.foldl (fun m e => m.writeBytes (Place.commons 0 e.1).key e.2) s.mem }
/-- The launch's segment table entry for segment 1: `va` and a length of one bundle. -/
def segTable : State := filled { ready .vector with launches := [(1, { launch0 with raw := 0x1000 })] } [(0x1000 - 16, leBytes 0x2000 8 ++ leBytes 1 8)]

def segmentIs (s : State) (ok : Bool) : Bool := someIs (s.launch 1) fun l => isOk (readSegment s 0 0 l.entry 1) == ok
theorem test_meets_CacheControl :
    CanRun g7 false noMatrix ((VK.v 254).regs 2) ∧
    Issues g7 true noMatrix (kBlock 62 2 ++ (SrcL.src (.k 63)).regs) (fun _ x => x.exec ≠ 0) ∧
    Issues g7 true allRoles [.k 63] (fun s x => x.exec ≠ 0 ∧ segmentIs s true = true ∧ x.b.ops = []) ∧
    Issues g7 true allRoles [.k 63] (fun s x => x.exec ≠ 0 ∧ segmentIs s false = true) :=
  ⟨can .vector (by decide), issues (ready .copy) (by decide) (by decide +kernel), issues segTable (by decide) (by decide +kernel),
    issues (with0 (bunch0 .vector) { ctx0 with cmnWin := 0 }) (by decide) (by decide +kernel)⟩

theorem test_meets_Fences :
    Issues g7 true allRoles [] (fun _ x => x.exec ≠ 0 ∧ x.lostFault true .sys = none) ∧
    Issues g7 true allRoles [] (fun _ x => x.exec ≠ 0 ∧ x.lostFault true .estate = some 0x40) :=
  ⟨issues (ready .matrix) (by decide) (by decide +kernel), issues { ready .vector with lost := [{ src := 0, va := 0x40 }] } (by decide) (by decide +kernel)⟩

/-- The launch has `n` vector bunches a team. -/
def teamOf (b : Bunch) (n : Nat) : State := { with0 b with launches := [(1, { launch0 with raw := BitVec.ofNat 512 (n * 2 ^ 448) })] }
/-- The bunch has arrived at barrier 15. -/
def arrived : Bunch := { bunch0 .vector with bars := [(15, { lanes := all32, reached := true, gen := 0, count := 0 })] }

theorem test_meets_Barriers :
    Issues g7 true allRoles [] (fun _ x => x.exec ≠ 0 ∧ x.entry < 4 ∧ x.b.team ≠ none ∧ (x.arrive 15 0).barReached x.id 15 = false) ∧
    Issues g7 true allRoles [] (fun _ x => x.exec ≠ 0 ∧ x.entry < 4 ∧ x.b.team ≠ none ∧ (x.arrive 15 16).barReached x.id 15 = true) ∧
    Issues g7 true allRoles [] (fun s x => x.exec ≠ 0 ∧ x.entry < 4 ∧ x.b.team ≠ none ∧ s.barReached x.id 15 = false) ∧
    Issues g7 true allRoles [] (fun s x => x.exec ≠ 0 ∧ x.entry < 4 ∧ x.b.team ≠ none ∧ s.barReached x.id 15 = true) ∧
    Issues g7 true allRoles [] (fun _ x => x.exec ≠ 0 ∧ x.entry < 4 ∧ x.b.team = none) ∧
    (someIs (Store.find (with0 arrived).bunches 0) (fun b => (Store.get {} b.bars 15).reached && b.active ||| b.helper != 0 &&
      (b.active ||| b.helper) &&& ~~~(Store.get {} b.bars 15).lanes == 0) = true ∧ ((with0 arrived).launch 1).isSome = true) :=
  ⟨issues (teamOf (bunch0 .vector) 1) (by decide) (by decide +kernel), issues (teamOf (bunch0 .vector) 2) (by decide) (by decide +kernel),
    issues (ready .vector) (by decide) (by decide +kernel), issues (with0 arrived) (by decide) (by decide +kernel),
    issues (with0 { bunch0 .vector with team := none }) (by decide) (by decide +kernel), by decide +kernel⟩

def copy0 (f : Option LaneFault) : CopyRun := { job := .lanes 4 false false [], fault := f, origin := { bundle := 0, slot := 0 } }
/-- An operation of the bunch on token 7. -/
def onTok7 (job : TokJob) : Bunch := { bunch0 .vector with ops := [{ id := 50, tok := 7, entry := 0, due := 0, job, writes := [] }] }
def fault0 : LaneFault := { lane := 0, cause := .misaligned, addr := 0, kind := .engine }
/-- The array of core 0 has a command at work. -/
def arrayRuns (r : Role) (f : Option LaneFault) : State :=
  { ready r with cores := [(0, { mrun := some { entry := { num := 0, ctx := 0, bunch := 0, cmd := .aprm 3 }, fault := f }, mnext := 1 })] }

theorem test_meets_TokenWaits :
    Issues g7 true allRoles [] (fun _ x => x.exec ≠ 0 ∧ x.b.suspendedOn (wtokMask (.one 7)) = none ∧ x.b.busyOf (wtokMask (.one 7)) = []) ∧
    Issues g7 true allRoles [] (fun _ x => x.exec ≠ 0 ∧ x.b.suspendedOn (wtokMask (.many 0x80)) = none ∧ x.b.busyOf (wtokMask (.many 0x80)) ≠ []) ∧
    Issues g7 true allRoles [] (fun _ x => x.exec ≠ 0 ∧ (x.b.suspendedOn (wtokMask (.many 0xFF))).isSome = true) ∧
    Issues g7 true allRoles [] (fun s x => x.exec ≠ 0 ∧ x.arrayFault = none ∧ (s.core x.b.core).matrixIdle 8 (s.core x.b.core).mnext = true) ∧
    Issues g7 true allRoles [] (fun s x => x.exec ≠ 0 ∧ x.arrayFault = none ∧ (s.core x.b.core).matrixIdle 8 (s.core x.b.core).mnext = false) ∧
    Issues g7 true allRoles [] (fun _ x => x.exec ≠ 0 ∧ x.arrayFault = some fault0) :=
  ⟨issues (ready .vector) (by decide) (by decide +kernel), issues (with0 (onTok7 .ready)) (by decide) (by decide +kernel),
    issues (with0 (onTok7 (.copy (copy0 (some fault0))))) (by decide) (by decide +kernel), issues (ready .matrix) (by decide) (by decide +kernel),
    issues (arrayRuns .epilogue none) (by decide) (by decide +kernel), issues (arrayRuns .matrix (some fault0)) (by decide) (by decide +kernel)⟩

/-- A tensor descriptor of that format and rank, every extent `n`, dense, at address 0; `scale` its scale address, `kdim` its KDIM. -/
def desc (fmt rank n : Nat) (scale : Nat := 0) : Desc :=
  BitVec.ofNat 512 (fmt * 2 ^ 507 + rank * 2 ^ 504 + scale * 2 ^ 428 +
    ((List.range rank).map fun i => n * 2 ^ (88 + 24 * i) + n ^ i * 2 ^ (232 + 24 * i)).foldl (· + ·) 0)
/-- Entries of the tensor table, from x0 on. -/
def withTensors (r : Role) (ds : List Desc) (ks : Store Word := []) (tab : DWord := 0) : State :=
  with0 { bunch0 r with k := ks } { ctx0 with tensors := (List.range ds.length).zip ds, layoutTab := tab }
def recordIs (x : View) (a : DWord) (m align : Nat) (p : Nat → Bool) : Bool :=
  match x.record a m align with
  | .ok r => p r
  | .error _ => false
def descIs (s : State) (x : View) (n : Nat) (p : Desc → Bool) : Bool := someIs (s.descriptor x.b.ctx x.id n) p

theorem test_meets_Tensors :
    Issues g7 true [.copy] (kBlock 62 2) (fun _ x => x.exec ≠ 0 ∧ recordIs x (x.kAddr 62 0) 8 64 (fun r => descOk (BitVec.ofNat 512 r)) = true) ∧
    Issues g7 true [.copy] (kBlock 62 2) (fun _ x => x.exec ≠ 0 ∧ recordIs x (x.kAddr 62 0) 8 64 (fun r => !descOk (BitVec.ofNat 512 r)) = true) ∧
    Issues g7 true [.copy] (kBlock 62 2) (fun _ x => x.exec ≠ 0 ∧ recordIs x (x.kAddr 62 0) 4 32 (fun _ => true) = true) ∧
    Issues g7 true allRoles [] (fun _ x => x.exec ≠ 0) ∧ Issues g7 true allRoles (kBlock 62 2) (fun _ x => x.exec ≠ 0) ∧
    Issues g7 (VK.v 255).isK noMatrix ((VK.v 254).regs 2 ++ (VK.v 255).regs) (fun s x => x.exec ≠ 0 ∧
      descIs s x 0 (fun d => tldAccepts true (some d) && tdRank d == 2) = true) ∧
    (tdIn (desc 0 2 4) [4, 0] = false ∧ tdIn (desc 0 2 4) [3, 3] = true) :=
  ⟨issues (filled (ready .copy) [(0, leBytes (desc 0 6 4).toNat 64)]) (by decide) (by decide +kernel), issues (ready .copy) (by decide) (by decide +kernel),
    issues (ready .copy) (by decide) (by decide +kernel), issues (ready .matrix) (by decide) (by decide +kernel),
    issues (ready .matrix) (by decide) (by decide +kernel), issues (withTensors .vector [desc 8 2 4]) (by decide) (by decide +kernel), by decide +kernel⟩

theorem test_meets_CopyIssue :
    CopyForm (.cpyx ⟨true, true, true⟩ true (.short 40) g7 62 62 62 7) g7 7 (kBlock 62 2 ++ kBlock 62 2 ++ kBlock 62 2) ∧
    Issues g7 true [.copy] (kBlock 62 2 ++ kBlock 62 2 ++ kBlock 62 2) (fun s x => x.exec ≠ 0 ∧ 64 ≤ s.copiesOn x.b.core) ∧
    Issues ⟨false, 0⟩ true [.copy] (kBlock 62 2) (fun _ x => x.exec = 0) ∧
    Issues g7 false noMatrix (vBlock 254 2 ++ vBlock 254 2) (fun s x => x.actors false ≠ 0 ∧ s.copiesOn x.b.core < 64 ∧
      ∀ l, l < 32 → x.exec.getLsbD l = true → (x.addr (.v 254) 0 l).toNat % 16 = 0 ∧ (x.vPair 254 l).toNat % 16 = 0 ∧ x.b.team ≠ none ∧
        (x.addr (.v 254) 0 l).toNat < scratchBytes ∧ (x.vPair 254 l).toNat < scratchBytes) ∧
    (someIs (Store.find (ready .copy).bunches 0) (fun b => b == bunch0 .copy && !b.tokBusy 7)) = true :=
  ⟨CopyForm.cpyx .., issues (with0 { bunch0 .copy with ops := List.replicate 64 { id := 50, tok := 7, entry := 0, due := 0, job := .copy (copy0 none), writes := [] } })
      (by decide) (by decide +kernel), issues (ready .copy) (by decide) (by decide +kernel), issues (ready .vector) (by decide) (by decide +kernel), by decide +kernel⟩

/-- The pair of descriptors x0, x1 suits an instruction. -/
def pairOk (x : View) (ok : Desc → Desc → Bool) : Bool := (x.pair? 0 1 ok).isSome
def idle64 (s : State) (x : View) : Bool := x.exec != 0 && decide (s.copiesOn x.b.core < 64) && x.b.team.isSome
/-- A walk record of one element, all counters of extent 1. -/
def walk1 : Nat := ((List.range 6).map fun c => 2 ^ (64 * c + 48)).foldl (· + ·) 0

theorem test_meets_EngineCopies :
    Issues g7 true [.copy] (kBlock 62 2) (fun s x => idle64 s x = true ∧ pairOk x (fun s t => copyDestOk s t && baseOk true s && baseOk true t) = true ∧
      recordIs x (x.kPair 62) 16 128 (fun r => walkOk (BitVec.ofNat 1024 r) false true && decide (wrTotal (BitVec.ofNat 1024 r) ≤ 2 ^ 32)) = true) ∧
    Issues g7 true [.copy] (kBlock 60 4) (fun s x => idle64 s x = true ∧ pairOk x (fun s t => copyDestOk s t && baseOk true s && baseOk true t &&
      tdRank s == 2 && tdRank t == 2 && tdExtent s 0 == tdExtent t 0) = true) ∧
    Issues g7 true [.copy] (kBlock 54 10) (fun s x => idle64 s x = true ∧
      pairOk x (fun s t => copyDestOk s t && baseOk true t && tdRank s == 1 && tdRank t == 1) = true) ∧
    Issues g7 true [.copy] (kBlock 60 4) (fun s x => idle64 s x = true ∧ pairOk x (fun s t => quantOk s t && baseOk false s && baseOk false t) = true) ∧
    Issues g7 true [.copy] [] (fun s x => idle64 s x = true ∧
      pairOk x (fun s t => copyDestOk s t && baseOk false s && baseOk false t && decide (tdRank s ≤ 2)) = true ∧
      someIs (layoutVa (s.ctx x.b.ctx) 15) (fun va => recordIs x va 8 64 fun r => (layParse 4 4 (wordsOfBytes (leBytes r 64) 16) 4 4).isSome) = true) ∧
    Issues g7 true [.copy] (kBlock 62 2) (fun s x => idle64 s x = true ∧ pairOk x (fun s t => copyDestOk s t && baseOk false s && baseOk false t) = false) :=
  ⟨issues (filled (withTensors .copy [desc 0 2 4, desc 0 2 4]) [(0, leBytes walk1 128)]) (by decide) (by decide +kernel),
    issues (withTensors .copy [desc 0 2 4, desc 10 2 4]) (by decide) (by decide +kernel),
    issues (withTensors .copy [desc 0 1 4, desc 0 1 4]) (by decide) (by decide +kernel),
    issues (withTensors .copy [desc 2 2 4, desc 3 2 4 0x40]) (by decide) (by decide +kernel),
    issues (withTensors .copy [desc 0 2 4, desc 0 2 4] [] 0x400) (by decide) (by decide +kernel),
    issues (withTensors .copy [desc 0 2 4, desc 11 2 4]) (by decide) (by decide +kernel)⟩

theorem test_meets_Cpyx :
    Issues g7 true [.copy] (kBlock 0 2 ++ kBlock 0 2 ++ kBlock 62 2) (fun s x => idle64 s x = true ∧ (x.kAt 62).toNat ≠ 0 ∧ (x.kAt 62).toNat % 16 = 0 ∧
      (x.kPair 0).toNat % 16 = 0 ∧ (routeFrom s x.b.core (.short 40)).1 = .core 0 ∧ (routeFrom s x.b.core (.lit 0x8000000153000000)).1 = .port 0 ∧
      (routeFrom s x.b.core (.short 5)).1 = .illegal) :=
  issues (withK .copy [(62, 16)]) (by decide) (by decide +kernel)

/-- Descriptors of the array's operands: WLD and MMS take FP8 or FP16 of rank 2. -/
def arrayDescs : List Desc := [desc 2 2 4, desc 5 2 4, desc 0 2 4]
def queued (n : Nat) (w : Nat) : State :=
  { withTensors .matrix arrayDescs with
    cores := [(0, { mqueue := List.replicate n { num := 0, ctx := 0, bunch := 0, cmd := .wswp }, mnext := n, wAct := w })] }
def shorter (s : State) (x : View) : Bool := decide ((s.core x.b.core).mqueue.length < 8)

theorem test_meets_ArrayIssue :
    ArrayForm (.mms .tri true true Guard.always 3 255 62 (some 62) 0 64 255) (kBlock 62 2 ++ triRegs (some 62)) ∧
    Issues Guard.always true [.matrix] (kBlock 62 2 ++ triRegs (some 62)) (fun s x => x.arrayFault = none ∧ 8 ≤ (s.core x.b.core).mqueue.length ∧
      3 % (s.core x.b.core).wAct = 0) ∧
    Issues Guard.always true [.matrix] (kBlock 62 2) (fun s x => x.arrayFault = none ∧ shorter s x = true ∧ descIs s x 0 (wldOk true) = true) ∧
    Issues Guard.always true [.matrix] [] (fun s x => x.arrayFault = none ∧ shorter s x = true) ∧
    Issues Guard.always true [.matrix] (kBlock 62 2 ++ triRegs (some 62)) (fun s x => shorter s x = true ∧ 2 % (s.core x.b.core).wAct = 0 ∧
      descIs s x 1 (mmsOk true) = true) ∧
    Issues Guard.always true [.matrix] (kBlock 62 2 ++ triRegs none) (fun s x => 3 % (s.core x.b.core).wAct ≠ 0) ∧
    (queued 7 1).draining 0 [3] = false ∧
    Issues g7 true [.matrix, .epilogue] (kBlock 60 4) (fun s x => x.exec ≠ 0 ∧ descIs s x 2 (adrnOk true) = true ∧ x.b.team ≠ none ∧
      isOk (x.biasAt (x.kPair 62)) = true) :=
  ⟨ArrayForm.mms .., issues (queued 8 1) (by decide) (by decide +kernel), issues (queued 7 1) (by decide) (by decide +kernel),
    issues (queued 7 1) (by decide) (by decide +kernel), issues (queued 0 2) (by decide) (by decide +kernel), issues (queued 0 2) (by decide) (by decide +kernel),
    by decide +kernel, issues (withTensors .epilogue arrayDescs) (by decide) (by decide +kernel)⟩
/-! ### States that meet the premises: casks, launches, raster and system instructions -/

/-- A cask of one column and four staves in pool 0x1000, with its one home at 0x800, and its descriptor at 0x40. -/
def caskD (kind : Nat := 0) : Nat :=
  kind * 2 ^ 510 + 2 ^ 504 + 2 ^ 485 + 15 * 2 ^ 457 + 0x1000 * 2 ^ 395 + 4 * 2 ^ 375 + 0x800 * 2 ^ 319 + 0x3F800000 * 2 ^ 249
def home0 : Nat := 0xFFFFF * 2 ^ 156 + 0xFFFFF * 2 ^ 136
def bind0 : CaskBind := { va := 0x40, desc := BitVec.ofNat 512 caskD }
def withCask (b : Bunch) : State :=
  { filled (with0 b { ctx0 with casks := [(15, bind0)] }) [(0x40, leBytes caskD 64), (0x800, leBytes home0 32)] with
    launches := [(1, { launch0 with cask := some bind0 })] }
def cask0 : Cask := { core := 0, ctx := 0, va := 0x40, d := BitVec.ofNat 512 caskD }
def withK0 (r : Role) (k : Word) : Bunch := { bunch0 r with k := [(62, k)] }
/-- A cask opens at an address, and its descriptor and homes meet a condition. -/
def opens (s : State) (va : DWord) (p : Cask → List Nat → Bool) : Bool :=
  match openCask s 0 0 va with
  | .ok c => (match c.allHomes s with
    | .ok hs => p c hs
    | .error _ => false)
  | .error _ => false

theorem test_meets_CaskSlots :
    Issues g7 true vecCopy (kBlock 62 2) (fun s x => x.exec ≠ 0 ∧ (x.kAddr 62 0).toNat % 64 = 0 ∧
      opens s (x.kAddr 62 0) (fun c hs => caskDescOk c.d && homesOk hs none) = true) ∧
    Issues g7 true vecCopy (kBlock 62 2) (fun _ x => x.exec ≠ 0 ∧ (x.kAddr 62 0).toNat % 64 ≠ 0) ∧
    Issues g7 true vecCopy (kBlock 62 2) (fun s x => x.exec ≠ 0 ∧ (x.kAddr 62 0).toNat % 64 = 0 ∧ opens s (x.kAddr 62 0) (fun c _ => !caskDescOk c.d) = true) ∧
    Issues g7 true vecCopy [.k 63] (fun s x => x.exec ≠ 0 ∧ x.slot 15 = some bind0 ∧ opens s 0x40 (fun c _ => isOk (c.rack s)) = true) ∧
    Issues g7 true vecCopy [.k 63] (fun _ x => x.exec ≠ 0 ∧ x.slot 0 = none) :=
  ⟨issues (withCask (withK0 .copy 0x40)) (by decide) (by decide +kernel), issues (withCask (withK0 .vector 0x60)) (by decide) (by decide +kernel),
    issues (withCask (withK0 .vector 0)) (by decide) (by decide +kernel), issues (withCask (bunch0 .vector)) (by decide) (by decide +kernel),
    issues (withCask (bunch0 .copy)) (by decide) (by decide +kernel)⟩

/-- An element has been inserted with key 7. -/
def oneIn : Except Met Placed := cask0.insertNow (withCask (bunch0 .vector)) [home0] 7 0 [9]
def afterOne : State :=
  { withCask (bunch0 .vector) with
    mem := ((([(98, 0x7F), (105, 4), (111, 2), (114, 0x80), (121, 0x1E), (124, 0x20), (127, 1), (2058, 0x10), (2065, 0xFF), (2066, 0xFF), (2067, 0x0F)] : List (Nat × Byte))
      ++ [(4109, 0x20), (4110, 0x47), (4111, 0x0E), (4113, 0xC0), (4114, 2), (4115, 0xFF), (4116, 0xFF), (4117, 0xFF), (4118, 0xFF), (4119, 0xFF), (4120, 7)]
      ++ [(4128, 1), (4552, 9)])).map fun (e : Nat × Byte) => ((Place.commons 0 e.1).key, e.2) }
def oneInIs (s : State) : Bool :=
  match oneIn with
  | .ok p => p.s.mem == s.mem
  | .error _ => false
theorem test_meets_CaskElements :
    Issues g7 false vecCopy (vBlock 250 (4 + 1) ++ [.v 255]) (fun _ x => x.exec ≠ 0 ∧ ncolOf (x.slot 15) = 1) ∧
    Issues g7 false vecCopy (.v 250 :: vBlock (250 + 2) 4 ++ [.v 255]) (fun _ x => x.exec ≠ 0) ∧
    Issues g7 false vecCopy ([.v 255] ++ vBlock 255 (mapCols 1).length) (fun _ x => x.exec ≠ 0 ∧ mapBad (x.slot 15) 1 = false) ∧
    Issues g7 false vecCopy (vBlock 254 (1 + (mapCols 1).length) ++ [.v 255]) (fun _ x => x.exec ≠ 0 ∧ mapBad (x.slot 15) 1 = false) ∧
    Issues g7 false vecCopy (vBlock 254 2 ++ vBlock 252 4 ++ [.v 255]) (fun s x => launchIs s x (fun l => l.cask.isSome) = true) ∧
    isOk (cask0.rack (withCask (bunch0 .vector))) = true ∧ oneInIs afterOne = true ∧
    isOk (cask0.insertNext (withCask (bunch0 .vector)) [home0] 7 0 [9] true) = true ∧
    opens afterOne 0x40 (fun c hs => isOk (c.remove afterOne 0 0 0) && isOk (c.putCols afterOne 0 0 [(0, 1)]) && isOk (c.move afterOne hs true 0 8 0)) = true :=
  ⟨issues (withCask (bunch0 .vector)) (by decide) (by decide +kernel), issues (withCask (bunch0 .copy)) (by decide) (by decide +kernel),
    issues (withCask (bunch0 .vector)) (by decide) (by decide +kernel), issues (withCask (bunch0 .vector)) (by decide) (by decide +kernel),
    issues (withCask (bunch0 .vector)) (by decide) (by decide +kernel), by decide +kernel, by decide +kernel, by decide +kernel, by decide +kernel⟩

/-- Cursor 7 is open on every key. -/
def cursor0 : Cursor := { bind := bind0, mode := .range 0 7, homes := [0] }
theorem test_meets_CaskIteration :
    Issues g7 true vecCopy [] (fun _ x => x.exec ≠ 0) ∧
    Issues g7 true vecCopy (itrReads (.range 15 60)) (fun _ x => x.exec ≠ 0 ∧ someIs (x.curMode (.range 15 60)) (fun y => x.slot y.1 == some bind0) = true ∧
      itrBad (.range 15 60) (some bind0) = false ∧ opens ((x.s).closeCursor x.id 7) 0x40 (fun _ _ => true) = true) ∧
    Issues g7 true vecCopy (vBlock 248 (7 + (mapCols 1).length) ++ [.p 7, .p 0, .k 63]) (fun _ x => x.exec ≠ 0 ∧ (31 : BitVec 5).toNat + 1 ≤ x.b.width ∧
      Store.find x.b.cursors 7 = none) ∧
    Issues g7 true vecCopy (vBlock 248 (7 + (mapCols 1).length) ++ [.p 7, .p 0, .k 63]) (fun _ x => x.exec ≠ 0 ∧ (31 : BitVec 5).toNat + 1 ≤ x.b.width ∧
      someIs (Store.find x.b.cursors 7) (fun cur => !mapBad (some cur.bind) 1) = true) :=
  ⟨issues (withCask (bunch0 .copy)) (by decide) (by decide +kernel), issues (withCask (bunch0 .vector)) (by decide) (by decide +kernel),
    issues (withCask (bunch0 .vector)) (by decide) (by decide +kernel),
    issues { afterOne with bunches := [(0, { bunch0 .vector with cursors := [(7, cursor0)] })] } (by decide) (by decide +kernel)⟩

def plqOf (x : View) (s : State) : List PendLaunch := Store.get [] s.plqs (x.b.plqKey x.id)
def waiting0 : PendLaunch := { bunch := 0, op := 0, task := false, va := 0, raw := 0, d := 0 }
theorem test_meets_PendingLaunches :
    Issues g7 true noMatrix (kBlock 62 2 ++ [.k 63]) (fun s x => x.exec ≠ 0 ∧ x.entry < 4 ∧ recordIs x (x.kAddr 62 0) 8 64 (fun _ => true) = true ∧ (plqOf x s).length < 4) ∧
    Issues g7 true noMatrix (kBlock 62 2 ++ [.k 63]) (fun s x => x.exec ≠ 0 ∧ x.entry < 4 ∧ recordIs x (x.kAddr 62 0) 8 64 (fun _ => true) = true ∧ 4 ≤ (plqOf x s).length) ∧
    Issues g7 true noMatrix (kBlock 62 2 ++ [.k 63]) (fun _ x => x.exec ≠ 0 ∧ x.entry < 4 ∧ isOk (x.record (x.kAddr 62 0) 8 64) = false) ∧
    Issues g7 true noMatrix (kBlock 62 2 ++ [.k 63]) (fun _ x => x.exec ≠ 0 ∧ 4 ≤ x.entry) :=
  ⟨issues { ready .vector with plqs := [(4, List.replicate 3 waiting0)] } (by decide) (by decide +kernel),
    issues { ready .vector with plqs := [(4, List.replicate 4 waiting0)] } (by decide) (by decide +kernel),
    issues (withK .copy [(62, 1)]) (by decide) (by decide +kernel), issues (ready .epilogue 4) (by decide) (by decide +kernel)⟩

/-- The slot at address 0 has a count and a second word. -/
def slotAt (count w : Nat) (b : Bunch := bunch0 .vector) : State := filled (with0 b) [(0, leBytes count 8 ++ leBytes w 8)]
def slotIs (s : State) (p : Place → Bool) : Bool :=
  match placeOf s 0 0 .window 0 .write 16 0 with
  | .ok q => p q
  | .error _ => false
def graph0 : GraphRun := { id := 9, ctx := 0, va := 0, seq := 0, queue := 0, done := 0, nodes := [0, 0] }
def graphOf (x : View) (s : State) : Option GraphRun := s.graphs.find? (fun q => q.ctx == x.b.ctx && q.va == x.kAddr 62 0 && !q.waits)

theorem test_meets_CountersAndRings :
    Issues g7 true noMatrix (kBlock 62 2 ++ kBlock 62 2) (fun s x => x.exec ≠ 0 ∧ slotIs s (fun p => s.depKind p == 1 && s.natAt p 8 == 1) = true ∧ s.bankQ = []) ∧
    Issues g7 true noMatrix (kBlock 62 2 ++ kBlock 62 2) (fun s x => x.exec ≠ 0 ∧ slotIs s (fun p => s.depKind p == 3) = true) ∧
    Issues g7 true noMatrix (kBlock 62 2 ++ kBlock 60 2 ++ [.k 63]) (fun s x => x.exec ≠ 0 ∧ x.entry < 4 ∧ (x.kPair 60).toNat ≤ s.natAt (.commons 0 0) 8) ∧
    Issues g7 true noMatrix (kBlock 62 2 ++ kBlock 60 2 ++ [.k 63]) (fun s x => x.exec ≠ 0 ∧ x.entry < 4 ∧ s.natAt (.commons 0 0) 8 < (x.kPair 60).toNat) ∧
    isOk (placeOf (ready .vector) 0 0 .window 0 .read 8 0) = true ∧
    Issues g7 true noMatrix (kBlock 62 2 ++ [.k 61] ++ [.k 63]) (fun s x => x.exec ≠ 0 ∧ isOk (locate s 0 0 (x.kAddr 62 0) .read) = true ∧ graphOf x s = none) ∧
    Issues g7 true noMatrix (kBlock 62 2 ++ [.k 61] ++ [.k 63]) (fun s x => x.exec ≠ 0 ∧ someIs (graphOf x s) (fun q => decide (q.nodes.length ≤ (x.kAt 61).toNat)) = true) ∧
    Issues g7 true noMatrix (kBlock 62 2 ++ [.k 61] ++ [.k 63]) (fun s x => x.exec ≠ 0 ∧ someIs (graphOf x s) (fun q => decide ((x.kAt 61).toNat < q.nodes.length)) = true) ∧
    Issues g7 true noMatrix (kBlock 60 4 ++ [.k 63]) (fun s x => x.exec ≠ 0 ∧ isOk (readRing s x.b.core x.b.ctx 15) = true) :=
  ⟨issues (slotAt 1 (2 ^ 62)) (by decide) (by decide +kernel), issues (slotAt 0 (2 ^ 62 + 2 ^ 63)) (by decide) (by decide +kernel),
    issues (slotAt 5 0 { bunch0 .vector with k := [(60, 5)] }) (by decide) (by decide +kernel),
    issues (slotAt 4 0 { bunch0 .vector with k := [(60, 5)] }) (by decide) (by decide +kernel), by decide +kernel, issues (ready .vector) (by decide) (by decide +kernel),
    issues { withK .vector [(61, 2)] with graphs := [graph0] } (by decide) (by decide +kernel),
    issues { withK .vector [(61, 1)] with graphs := [graph0] } (by decide) (by decide +kernel), issues (ready .epilogue) (by decide) (by decide +kernel)⟩

def rasterOk (x : View) (b : BitVec 6) : Bool := isOk (x.rasterRecord b)
/-- A cask that PRIM.splat takes. -/
def splatD : Nat := 2 ^ 510 + 32 * 2 ^ 504 + 8 * 2 ^ 485 + (((List.range 8).zip [5, 5, 5, 5, 5, 3, 2, 3]).map fun e => e.2 * 2 ^ (461 + 3 * e.1)).foldl (· + ·) 0
  + 15 * 2 ^ 457 + 0x1000 * 2 ^ 395 + 4 * 2 ^ 375 + 0x800 * 2 ^ 319 + 0x3F800000 * 2 ^ 249
def splatBind : CaskBind := { va := 0x40, desc := BitVec.ofNat 512 splatD }
def withSplat : State :=
  filled (with0 { bunch0 .vector with k := [(62, 0x2000)] } { ctx0 with casks := [(15, splatBind)] }) [(0x40, leBytes splatD 64), (0x800, leBytes home0 32)]
def splatDone (x : View) (s : State) : Bool :=
  (Store.find (unitGo (x.b.engine x.id) 1 s { job := .splat splatBind 1 1 0 [0] [], lane := lowest x.exec }).1.bunches x.id).isSome

theorem test_meets_Raster :
    Issues g7 true vecOnly (kBlock 50 7 ++ kBlock 62 2 ++ [.k 63]) (fun _ x => x.exec ≠ 0 ∧ rasterOk x 62 = true) ∧
    Issues g7 true vecOnly (kBlock 62 2 ++ [.k 63]) (fun _ x => x.exec ≠ 0 ∧ rasterOk x 62 = true) ∧
    Issues g7 true vecOnly (kBlock 60 2 ++ kBlock 62 2 ++ [.k 63]) (fun s x => x.exec ≠ 0 ∧ rasterOk x 62 = true ∧ s.caskSlot x.b.ctx x.id 15 = some splatBind ∧
      splatCaskOk splatBind.desc = true ∧ splatDone x s = true) ∧
    Issues g7 false vecOnly (vBlock 248 8) (fun s x => x.exec ≠ 0 ∧ descIs s x 0 (fun d => tdFmt d == 7 && tdRank d == 2) = true) ∧
    Issues g7 true vecOnly (kBlock 60 4) (fun s x => x.exec ≠ 0 ∧ descIs s x 0 (fun d => tdFmt d == 7 && tdRank d == 2) = true ∧
      descIs s x 1 (fun d => tdFmt d == 8 && tdRank d == 2) = true) :=
  ⟨issues (ready .vector) (by decide) (by decide +kernel), issues (ready .vector) (by decide) (by decide +kernel), issues withSplat (by decide) (by decide +kernel),
    issues (withTensors .vector [desc 7 2 4]) (by decide) (by decide +kernel), issues (withTensors .vector [desc 7 2 4, desc 8 2 4]) (by decide) (by decide +kernel)⟩

theorem test_meets_SystemRegisters :
    Issues g7 true allRoles (kBlock 62 2) (fun s x => (s.readCsr x.b 0x8F).isSome = true ∧ (s.readCsr x.b 0x5E).isNone = true) ∧
    Issues g7 true noMatrix ((SrcL.src (.k 62)).regs 2) (fun s x => s.readCsr x.b 0x90 = none) ∧
    Issues g7 true noMatrix ((SrcL.lit 64).regs 2) (fun s x => x.exec ≠ 0 ∧ ((s.ctx x.b.ctx).csr 0x053).isSome = true ∧
      1 ≤ (x.dwordL (.lit 64) (lowest x.lanes)).toNat % 128 ∧ (x.dwordL (.lit 64) (lowest x.lanes)).toNat % 128 ≤ 64) :=
  ⟨issues (ready .matrix) (by decide) (by decide +kernel), issues (ready .copy) (by decide) (by decide +kernel), issues (ready .vector) (by decide) (by decide +kernel)⟩

/-- Tables at 0x2000 to 0x9FFF of device memory that map page 0 to frame 16. -/
def mapped : State :=
  let root : Context := { ctx0 with cmnWin := 0, ptRoot := 0x2001, poolBase := 1 }
  { with0 (bunch0 .vector 4) root with
    mem := [(0x2000, 9), (0x4000, 13), (0x6000, 17), (0x8000, 2 ^ 42 + 2 ^ 41 + 2 ^ 40 + 0x21)].foldl
      (fun m e => m.writeBytes (Place.dev 0 e.1).key (leBytes e.2 8)) ([] : Memory) }
def holeIs (s : State) : Bool :=
  match findHole s (rootTable (s.ctx 0).ptRoot) 0 0 3 with
  | .ok .mapped => true
  | _ => false
theorem test_meets_HandlerServices :
    Issues g7 (VK.v 255).isK allRoles ((VK.v 254).regs 2 ++ (VK.v 255).regs) (fun s x => 4 ≤ x.entry ∧
      (Store.find (overLanes .write (fun s l => hmapLane x ⟨0, true, false, 0, false, 0⟩ (x.vkPair (.v 254) l) s) (lanesOf x.exec) s).1.bunches x.id).isSome = true ∧
      (Store.find (overLanes .read (fun s l => pgupLane x (x.vkPair (.v 254) l) l s) (lanesOf x.exec) s).1.bunches x.id).isSome = true) ∧
    (bit ctx0.poolBase 0 = false ∧ bit (mapped.ctx 0).poolBase 0 = true ∧ bit (mapped.ctx 0).ptRoot 0 = true ∧ holeIs mapped = true) ∧
    isOk (mapped.pagerOf 0 0) = true ∧
    Issues g7 (VK.k 62).isK allRoles ((VK.k 62).regs 2) (fun _ x => x.exec ≠ 0 ∧ (4 : BitVec 8).toNat ≤ 4) :=
  ⟨issues mapped (by decide) (by decide +kernel), by decide +kernel, by decide +kernel, issues (ready .matrix) (by decide) (by decide +kernel)⟩

/-- No earlier result of a register is outstanding, decided. -/
def quietB (b : Bunch) (now : Nat) (r : Reg) : Bool :=
  (b.pends.all fun p => p.reg != r || decide (p.ready ≤ now)) && b.ops.all fun o => o.writes.all fun w => w.reg != r
theorem quiet_of {b : Bunch} {now : Nat} {r : Reg} (h : quietB b now r = true) : b.quiet now r := by
  simp only [quietB, Bool.and_eq_true, List.all_eq_true, Bool.or_eq_true, bne_iff_ne, decide_eq_true_eq] at h
  exact .inr ⟨fun p hp e => (h.1 p hp).resolve_left fun c => c e, h.2⟩
def notV (budget : Nat) : Reg → Bool
  | .v n => decide (n < budget)
  | _ => true
def isK : Reg → Bool
  | .k _ => true
  | _ => false
/-- The parts of `View.legal`, `View.roleMay` and `View.handlerMay`, decided. -/
def legalB (x : View) (a : Attr) : Bool := (x.b.role == .matrix || (a.reads ++ a.writes).all (notV x.b.budget)) && !a.ill x
def roleB (x : View) (a : Attr) : Bool := a.roles.contains x.b.role && (x.b.role != .matrix || (a.guard == Guard.always && (a.reads ++ a.writes).all isK))
theorem legal_of {x : View} {a : Attr} (h : legalB x a = true) : x.legal a := by
  simp only [legalB, Bool.and_eq_true, Bool.or_eq_true, beq_iff_eq, List.all_eq_true, Bool.not_eq_true'] at h
  exact ⟨h.1.imp id fun g n hn => by simpa [notV] using g _ hn, h.2⟩
theorem role_of {x : View} {a : Attr} (h : roleB x a = true) : x.roleMay a := by
  simp only [roleB, Bool.and_eq_true, Bool.or_eq_true, bne_iff_ne, List.contains_iff_mem, beq_iff_eq, List.all_eq_true] at h
  refine ⟨h.1, fun e => (h.2.resolve_left fun c => c e).imp id fun g r hr => ?_⟩
  have := g r hr
  cases r <;> simp_all [isK]

/-- The view of the state's issuing split as it comes to an instruction. -/
def comesTo (s : State) (i : Instr) (p : View → Attr → Bool) : Bool :=
  match s.issuing, asks s i with
  | some y, some a => y.exec == y.lanes && p { y with exec := y.guarded a.guard a.uniform } a
  | _, _ => false
theorem comes_of {s : State} {i : Instr} {p : View → Attr → Bool} (h : comesTo s i p = true) :
    ∃ x a, asks s i = some a ∧ s.issuing = some { x with exec := x.lanes } ∧ x.exec = x.guarded a.guard a.uniform ∧ p x a = true := by
  unfold comesTo at h
  split at h
  · rename_i y a hy ha
    simp only [Bool.and_eq_true, beq_iff_eq] at h
    refine ⟨{ y with exec := y.guarded a.guard a.uniform }, a, ha, ?_, rfl, h.2⟩
    rw [hy]
    cases y
    simp only at h
    rw [h.1]
  · simp at h

/-- An instruction comes to issue where it is no ILLEGAL_OP, and a condition holds. -/
def Meets (i : Instr) (P : View → Attr → Prop) : Prop := ∃ s x a, asks s i = some a ∧ Comes s x a ∧ x.legal a ∧ P x a
theorem meets_of (s : State) {i : Instr} {p : View → Attr → Bool} {P : View → Attr → Prop}
    (h : comesTo s i (fun x a => quietB x.b s.now (.p a.guard.pg.toNat) && legalB x a && p x a) = true) (hp : ∀ x a, p x a = true → P x a) : Meets i P := by
  obtain ⟨x, a, h1, h2, h3, h4⟩ := comes_of h
  simp only [Bool.and_eq_true] at h4
  exact ⟨s, x, a, h1, ⟨h2, h3, quiet_of h4.1.1⟩, legal_of h4.1.2, hp x a h4.2⟩

theorem test_meets_RoleChecks :
    Meets .drain (fun x a => x.b.role ∉ a.roles) ∧ Meets (.cpyl false false false 0 g7 0 0 0) (fun x a => x.b.role ∉ a.roles) ∧
    Meets (.iadd .wrap topK) (fun x a => x.b.role = .matrix ∧ x.roleMay a) ∧
    Meets (.iaddBase false ⟨2, 2, 0, .imm 1⟩) (fun x a => x.b.role = .matrix ∧ a.guard ≠ Guard.always) ∧
    Meets (.iadd .wrap topV) (fun x a => x.b.role = .matrix ∧ ∃ r ∈ a.reads ++ a.writes, ∀ n, r ≠ .k n) ∧
    Meets .eret (fun x a => x.roleMay a ∧ a.hnd = .only ∧ x.entry < 4) ∧ Meets (.rfill 1) (fun x a => x.roleMay a ∧ a.hnd = .forbidden ∧ 4 ≤ x.entry) ∧
    Meets (.bar g7 0 0) (fun x a => x.roleMay a ∧ a.hnd = .guarded ∧ x.exec ≠ 0 ∧ 4 ≤ x.entry) :=
  have ad {p q : Bool} {P Q : Prop} (hp : p = true → P) (hq : q = true → Q) (h : (p && q) = true) : P ∧ Q := by
    rw [Bool.and_eq_true] at h
    exact ⟨hp h.1, hq h.2⟩
  ⟨meets_of (ready .copy) (p := fun x a => decide (x.b.role ∉ a.roles)) (by decide +kernel) fun _ _ => of_decide_eq_true,
    meets_of (ready .vector) (p := fun x a => decide (x.b.role ∉ a.roles)) (by decide +kernel) fun _ _ => of_decide_eq_true,
    meets_of (ready .matrix) (p := fun x a => decide (x.b.role = .matrix) && roleB x a) (by decide +kernel) fun _ _ => ad of_decide_eq_true role_of,
    meets_of (ready .matrix) (p := fun x a => decide (x.b.role = .matrix ∧ a.guard ≠ Guard.always)) (by decide +kernel) fun _ _ => of_decide_eq_true,
    meets_of (ready .matrix) (p := fun x a => decide (x.b.role = .matrix) && (a.reads ++ a.writes).any fun r => !isK r) (by decide +kernel)
      fun x a => ad of_decide_eq_true fun h => by
        obtain ⟨r, hr, h⟩ := List.any_eq_true.mp h
        exact ⟨r, hr, fun n e => by simp [e, isK] at h⟩,
    meets_of (ready .matrix) (p := fun x a => roleB x a && decide (a.hnd = .only ∧ x.entry < 4)) (by decide +kernel) fun _ _ => ad role_of of_decide_eq_true,
    meets_of (inLaunch (bunch0 .vector 4) refillRaw) (p := fun x a => roleB x a && decide (a.hnd = .forbidden ∧ 4 ≤ x.entry)) (by decide +kernel)
      fun _ _ => ad role_of of_decide_eq_true,
    meets_of (ready .epilogue 4) (p := fun x a => roleB x a && decide (a.hnd = .guarded ∧ x.exec ≠ 0 ∧ 4 ≤ x.entry)) (by decide +kernel)
      fun _ _ => ad role_of of_decide_eq_true⟩

/-- A result of v1, and one of p0, are still to be written, and an operation under way will write v2. -/
def pendV : Pend := { reg := .v 1, lanes := all32, old := 0, ready := 101, entry := 0 }
def pendP : Pend := { reg := .p 0, lanes := all32, old := 0, ready := 101, entry := 0 }
def writeV : RegWrite := { reg := .v 2, lane := 31, val := 0, gen := 0 }
def opV : TokOp := { id := 50, tok := 7, entry := 0, due := 0, job := .ready, writes := [writeV] }
def pending1 : Bunch := { bunch0 .vector with pends := [pendV, pendP], ops := [opV], budget := 16 }
def early : State := with0 pending1 { ctx0 with ctl := 2 }
def sum (g : Guard) (d a b : BitVec 8) : Alu2 := ⟨g, .v d, .v a, .src (.v b)⟩
/-- Registers v1 hold poison in the lanes `bad`; the split has lanes 0 and 1. -/
def spoilt (bad : List Nat) : State :=
  with0 { bunch0 .vector with splits := [(0, { pc := { bundle := 0x1000, slot := 0 }, mask := 3 })], poison := bad.map fun l => (1, l) }
theorem two_lanes {l : Nat} (h : (3 : Mask).getLsbD l = true) : l = 0 ∨ l = 1 := by
  have hl : l < 32 := BitVec.lt_of_getLsbD h
  have : ∀ l, l < 32 → (3 : Mask).getLsbD l = true → l = 0 ∨ l = 1 := by decide
  exact this l hl h
/-- IADD of these registers comes to issue in a state where it may, but for what its registers hold. -/
structure May (s : State) (f : Alu2) : Prop where
  issuing : s.issuing = some { seen s f.g false with exec := (seen s f.g false).lanes }
  exec    : (seen s f.g false).exec = (seen s f.g false).guarded f.g f.d.isK
  legal   : legalB (seen s f.g false) (asks2 allRoles f) = true
  role    : roleB (seen s f.g false) (asks2 allRoles f) = true
  hnd     : (seen s f.g false).handlerMay (asks2 allRoles f)
theorem may_of {s : State} {f : Alu2} (h : s.issuing = some { seen s f.g false with exec := (seen s f.g false).lanes })
    (g : ((seen s f.g false).exec == (seen s f.g false).guarded f.g f.d.isK && legalB (seen s f.g false) (asks2 allRoles f) &&
      roleB (seen s f.g false) (asks2 allRoles f)) = true) : May s f := by
  simp only [Bool.and_eq_true, beq_iff_eq] at g
  exact ⟨h, g.1.1, g.1.2, g.2, ⟨fun e => (by cases e), fun e => by rcases e with e | ⟨e, -⟩ <;> cases e⟩⟩

theorem test_meets_RegisterChecks :
    Meets (.eret) (fun _ _ => True) ∧
    (∃ x, Comes (with0 { bunch0 .vector with budget := 16 }) x (asks2 allRoles (sum g7 16 0 0)) ∧ x.b.role ≠ .matrix ∧
      .v 16 ∈ (asks2 allRoles (sum g7 16 0 0)).writes ∧ x.b.budget ≤ 16) ∧
    (May early (sum ⟨false, 0⟩ 3 3 3) ∧ bit (early.ctx 0).ctl 1 = true ∧ (seen early ⟨false, 0⟩ false).tooEarly early.now all32 false (.p 0)) ∧
    (May early (sum g7 3 1 3) ∧ (seen early g7 false).tooEarly early.now ((seen early g7 false).readIn (asks2 allRoles (sum g7 3 1 3)) (.v 1)) false (.v 1)) ∧
    (May early (sum g7 2 3 3) ∧ (seen early g7 false).tooEarly early.now ((seen early g7 false).writeLanes (asks2 allRoles (sum g7 2 3 3))) true (.v 2)) ∧
    (May (spoilt [0, 1]) (sum g7 3 1 3) ∧ ∀ l, (seen (spoilt [0, 1]) g7 false).exec.getLsbD l = true →
      ∃ r ∈ (sum g7 3 1 3).a.regs, (seen (spoilt [0, 1]) g7 false).b.holdsPoison r l) ∧
    (May (spoilt [0]) (sum g7 3 1 3) ∧ (seen (spoilt [0]) g7 false).exec &&& ~~~1 ≠ 0 ∧ (seen (spoilt [0]) g7 false).exec &&& 1 ≠ 0 ∧
      ∀ l, (seen (spoilt [0]) g7 false).exec.getLsbD l = true → ((1 : Mask).getLsbD l = true ↔
        ∃ r ∈ [Reg.v 1, .v 3], (seen (spoilt [0]) g7 false).b.holdsPoison r l)) := by
  have h1 : (seen (spoilt [0, 1]) g7 false).exec = 3 := by decide +kernel
  have h2 : (seen (spoilt [0]) g7 false).exec = 3 := by decide +kernel
  have hb : ∀ bad, (seen (spoilt bad) g7 false).b.poison = bad.map fun l => (1, l) := fun _ => by rfl
  have hp : (seen early g7 false).b = pending1 ∧ (seen early ⟨false, 0⟩ false).b = pending1 := ⟨by rfl, by rfl⟩
  refine ⟨meets_of (ready .vector 4) (p := fun _ _ => true) (by decide +kernel) fun _ _ _ => trivial,
    ⟨seen (with0 { bunch0 .vector with budget := 16 }) g7 false, ⟨by rfl, by decide +kernel, .inl rfl⟩, by decide, by decide, by decide⟩,
    ⟨may_of (by rfl) (by decide +kernel), by decide, by simp, .inl ⟨pendP, by rw [hp.2]; decide, rfl, by decide, ⟨0, by decide, ?_, by decide⟩,
      .inr (.inr fun n e => by cases e)⟩⟩,
    ⟨may_of (by rfl) (by decide +kernel), by simp, .inl ⟨pendV, by rw [hp.1]; decide, rfl, by decide, ⟨0, by decide, ?_, by decide⟩,
      .inr (.inr fun n e => by cases e)⟩⟩,
    ⟨may_of (by rfl) (by decide +kernel), by simp, .inr ⟨opV, by rw [hp.1]; decide, writeV, by decide, rfl, ?_, .inl rfl⟩⟩,
    ⟨may_of (by rfl) (by decide +kernel), fun l hl => ⟨.v 1, by decide, ?_⟩⟩,
    ⟨may_of (by rfl) (by decide +kernel), by decide +kernel, by decide +kernel, fun l hl => ?_⟩⟩
  · show all32.getLsbD 0 = true
    decide
  · show BitVec.getLsbD _ 0 = true
    decide +kernel
  · show BitVec.getLsbD _ 31 = true
    decide +kernel
  · show (1, l) ∈ _
    rw [hb]
    rcases two_lanes (h1 ▸ hl) with rfl | rfl <;> decide
  · have h3 : ∀ m n, (seen (spoilt [0]) g7 false).b.holdsPoison (.v n) m ↔ (n, m) ∈ [(1, 0)] := fun m n => by
      show (n, m) ∈ _ ↔ _
      rw [hb]
      rfl
    rcases two_lanes (h2 ▸ hl) with rfl | rfl <;> simp [h3]

theorem test_meets_Guards :
    NoEffect (.csrw ⟨false, 0⟩ (.lit 0) 0x053) ⟨false, 0⟩ noMatrix ((SrcL.lit 0).regs 2) ∧
    Issues ⟨false, 0⟩ true noMatrix ((SrcL.lit 0).regs 2) (fun s x => x.exec = 0 ∧ x.entry < 4 ∧ (s.readCsr x.b 0x053).isSome = true) ∧
    NoEffect (.bar ⟨false, 0⟩ 0 0) ⟨false, 0⟩ allRoles [] ∧
    Issues ⟨false, 0⟩ true allRoles [] (fun s x => x.exec = 0 ∧ 4 ≤ x.entry ∧ ∀ a, asks s (.bar ⟨false, 0⟩ 0 0) = some a → a.hnd ≠ .forbidden) :=
  ⟨.csrw .., issues (ready .vector) (by decide) (by decide +kernel), .bar .., issues (ready .vector 4) (by decide)
    ⟨by decide +kernel, by decide, fun a h => by cases h; decide⟩⟩

/-! ### The device's own operations -/

/-- A 512-bit record with fields, each as position, width and value. -/
def record (fs : List (Nat × Nat × Nat)) : BitVec 512 := BitVec.ofNat 512 (fs.foldl (fun n f => putBits n f.1 f.2.1 f.2.2) 0)
/-- A state with a record in the commons of cellar 0, which the window of `ctx0` shows at the same address. -/
def holding (s : State) (a : Nat) (x : BitVec 512) : State := { s with mem := s.mem.writeBytes (Place.commons 0 a).key (leBytes x.toNat 64) }
/-- Queue 5 with one command. -/
def withQueue (fs : List (Nat × Nat × Nat)) (s : State := ready .vector) : State :=
  { holding s 0x400 (record fs) with queues := [(5, { base := 0x400, log2n := 2, en := true, tail := 1 })] }
def turnIs (s : State) (k : Nat) (ok : Bool) : Bool :=
  match s.turn 5 k with
  | some t => t.ok == ok && t.slot.isSome
  | none => false
/-- A launch of four items with one vector bunch on cellar 0, and a task on it. -/
def launchRec (more : List (Nat × Nat × Nat) := []) : BitVec 512 := record ([(448, 5, 1), (64, 32, 4), (192, 64, 0x200), (0, 64, 0x1000)] ++ more)
def taskRec (more : List (Nat × Nat × Nat) := []) : BitVec 512 := record ((320, 64, 0x1000) :: more)
def withRecs (s : State) : State := holding (holding (holding s 0x200 (record [(0, 64, 4)])) 0x240 launchRec) 0x280 taskRec
def accepted (s : State) (task : Bool) (a : DWord) : Bool := (parseRecord s task 0 a (feRecord s 0 a)).isSome

theorem test_meets_OuterWrites :
    (Store.find (ready .vector).bunches 0).isSome = true ∧ (ready .vector).hasCtx 0 = true ∧ (ready .vector).answers = true ∧
    (0x050 ≠ 0x053 ∧ 0x050 ≠ 0x056 ∧ (((ready .vector).ctx 0).csr 0x050).isSome = true) ∧ 511 < 512 := by decide +kernel

def stopped : State := with0 (bunch0 .vector) { ctx0 with ctl := 0x80 }
theorem test_meets_ContextLife :
    (State.reset.answers = true ∧ (State.reset.ctx 63).created = false ∧ 32 ≤ 32) ∧
    ((ready .vector).hasCtx 0 = true ∧ bit ((ready .vector).ctx 0).ctl 7 = false) ∧ stopped.hasCtx 0 = true ∧ bit (stopped.ctx 0).ctl 7 = true := by decide +kernel

def graphAt (fs : List (Nat × Nat × Nat)) (s : State) : State := holding (holding s 0x280 (record [(499, 13, 1)])) 0x2C0 (record fs)
def readsGraph (s : State) : Bool :=
  match readGraph s 0 0x280 with
  | some (d, ns) => d == 0 && !(GraphRun.begin { id := 100, ctx := 0, va := 0x280, seq := 0, queue := 5, done := d, nodes := ns, waits := true }).over
  | none => false
def run0 : GraphRun := { id := 7, ctx := 0, va := 0x280, seq := 0, queue := 5, done := 0, nodes := [record [(508, 4, 3), (344, 52, 0x240)]] }
/-- A ring 0 of four records with its descriptor at 0x600, head at 0x680 and tail at 0x684. -/
def ringed (r : Ring := {}) (tcoal : Nat := 0) (log2n : Nat := 2) : State :=
  let d := holding (ready .vector) 0x600 (record [(204, 52, 0x700), (200, 4, log2n), (176, 16, tcoal), (113, 52, 0x680), (61, 52, 0x684)])
  { d with ctxs := [(0, { ctx0 with hringBase := 0x600, rings := [(0, r)] })] }
def postIs (s : State) : Option Nat :=
  match (s.post feCore 0 0 [1, 2, 3, 4] false).2 with
  | .ok w => some w.toNat
  | .error _ => none

def postHere (s : State) (w : Option Nat) : Bool :=
  let q := withQueue [(0, 8, 7)] s
  turnIs q 7 true && (match q.turn 5 7 with
    | some t => postIs (t.journal 5 true) == w
    | none => false)
theorem test_meets_QueueCommands :
    ((turnIs (withQueue [(0, 8, 1), (9, 23, 1)]) 1 false && turnIs (withQueue [(0, 8, 2), (9, 23, 1)]) 2 false && turnIs (withQueue [(0, 8, 3)]) 3 false &&
      turnIs (withQueue [(0, 8, 4), (64, 64, 4)]) 4 false && turnIs (withQueue [(0, 8, 5), (64, 64, 4)]) 5 false && turnIs (withQueue [(0, 8, 6), (511, 1, 1)]) 6 false &&
      turnIs (withQueue [(0, 8, 7), (72, 1, 1), (128, 32, 1)]) 7 false) = true) ∧
    (turnIs (withQueue [(0, 8, 1), (64, 64, 0x240)] (withRecs (ready .vector))) 1 true && turnIs (withQueue [(0, 8, 2), (64, 64, 0x280)] (withRecs (ready .vector))) 2 true &&
      accepted (withRecs (ready .vector)) false 0x240 && accepted (withRecs (ready .vector)) true 0x280 && !accepted (withRecs (ready .vector)) false 0x280) = true ∧
    (turnIs (withQueue [(0, 8, 3), (192, 64, 16)]) 3 true && turnIs (withQueue [(0, 8, 4), (64, 64, 8)]) 4 true && turnIs (withQueue [(0, 8, 5), (64, 64, 8)]) 5 true &&
      turnIs (withQueue [(0, 8, 5), (64, 64, 16), (192, 1, 1)]) 5 true) = true ∧
    (turnIs (withQueue [(0, 8, 6), (64, 64, 0x280)]) 6 true && !readsGraph (withQueue [(0, 8, 6), (64, 64, 0x280)]) &&
      turnIs (withQueue [(0, 8, 6), (64, 64, 0x280)] (graphAt [(508, 4, 3), (344, 52, 0x240)] (ready .vector))) 6 true &&
      readsGraph (withQueue [(0, 8, 6), (64, 64, 0x280)] (graphAt [(508, 4, 3), (344, 52, 0x240)] (ready .vector)))) = true ∧
    (postHere ringed (some 0) && postHere (ringed { tail := 4 }) (some 1) && postHere (ringed {} 0 0) (some 2) && postHere (with0 (bunch0 .vector) { ctx0 with hringBase := 2 ^ 51 }) none) = true := by
  decide +kernel

/-- What the front end accepts next. -/
def nextPick (s : State) : Option Pick := s.acceptNext.map (·.1.pick)
def pend0 (task : Bool) (raw : BitVec 512) : PendLaunch := { bunch := 0, op := 9, task, va := 0x240, raw, d := 5 }
def dep0 : DepRec := { ctx := 0, task := true, va := 0x280 }
def up0 : Upcall := { ctx := 0, raw := taskRec, va := 0x280 }
/-- A run whose one node, of that type, has fired with a record; and the device as it accepts that node. -/
def fired0 (type : Nat) (raw : Option (BitVec 512)) (payload : Nat := 0x280) : GraphRun :=
  { run0 with nodes := [record [(508, 4, type), (344, 52, payload)]], state := [(0, .fired)], fires := [(0, { seq := 5, raw })] }
def accepting (g : GraphRun) : State := { withRecs (ready .vector) with graphs := [g] }
/-- The node is accepted next, and a condition holds of the run and the state then. -/
def accepts (g : GraphRun) (p : GraphRun → State → Bool) : Bool :=
  nextPick (accepting g) == some (.graph 7 0) && someIs (Store.find g.fires 0) fun f => g.seq != f.seq &&
    someIs (accepting g).acceptNext fun e => p { g.setState 0 .running with fires := [] } (e.2.setRun { g.setState 0 .running with fires := [] })
def copySlot : BitVec 512 := record [(0, 8, 3), (64, 64, 0x200), (128, 64, 0x300), (192, 64, 16)]
theorem test_meets_RecordAcceptance :
    (nextPick { withRecs (ready .vector) with plqs := [(4, [pend0 false launchRec])] } = some (.pending 4) ∧
      (parseRecord (withRecs (ready .vector)) false 0 0x240 (some launchRec)).isSome = true ∧ parseRecord (withRecs (ready .vector)) true 0 0x240 (some launchRec) = none) ∧
    (nextPick { withRecs (ready .vector) with depRecs := [dep0] } = some (.dep dep0) ∧ accepted (withRecs (ready .vector)) true 0x280 = true) ∧
    nextPick { withRecs (ready .vector) with upcalls := [up0] } = some (.upcall up0) ∧
    (State.run (accepting { fired0 2 none with fires := [] }) 7).isSome = true ∧ (accepting (fired0 2 none)).journalFull = false ∧
    (accepts (fired0 2 (some taskRec)) (fun h v => (parseRecord v true h.ctx 0x280 (some taskRec)).isSome) = true ∧
      accepts (fired0 1 (some taskRec)) (fun h v => (parseRecord v false h.ctx 0x280 (some taskRec)).isNone) = true) ∧
    (accepts (fired0 3 (some copySlot)) (fun h v => (nodeSlot v h (some copySlot) 3).isSome) = true ∧
      accepts (fired0 3 none) (fun h v => (nodeSlot v h none 3).isNone) = true) ∧
    accepts { fired0 5 (some (record [(0, 8, 7)])) with nodes := [record [(508, 4, 5)], record [(508, 4, 3), (500, 8, 1)]], state := [(0, .fired), (1, .running)] }
      (fun h v => (nodeSlot v h (some (record [(0, 8, 7)])) 7).isSome && !(h.complete 0 true).over) = true ∧
    accepts { fired0 4 none 0x200 with nodes := [record [(508, 4, 4), (344, 52, 0x200), (496, 4, 1), (492, 4, 1), (396, 12, 1)], record [(508, 4, 3)]] }
      (fun h v => isOk (readVa v feCore h.ctx (ndPayload (h.node 0)) 4) &&
        !((((ndSuccs (h.node 0)).take (ndRearm (h.node 0))).foldl GraphRun.rearm h).complete 0 false).over) = true ∧
    accepts { fired0 4 none 0x204 with nodes := [record [(508, 4, 4), (344, 52, 0x204), (496, 4, 1), (396, 12, 1)], record [(508, 4, 3), (500, 8, 1)]], rem := [(1, 1)] }
      (fun h v => isOk (readVa v feCore h.ctx (ndPayload (h.node 0)) 4) && !(h.complete 0 true).over) = true := by decide +kernel

def isSome0 (s : State) (va : DWord) : Bool :=
  match locateWindow s 0 va with
  | .ok (.commons _ _) => true
  | _ => false
def agent0 (done : DWord) : AgentCopy := { id := 8, ctx := 0, seq := 0, src := 0x200, dst := 0x300, len := 16, done }
def running0 (more : List (Nat × Nat × Nat)) : GraphRun := { run0 with nodes := [record ([(508, 4, 3)] ++ more), record [(508, 4, 3), (500, 8, 1)]], state := [(0, .running)], rem := [(1, 1)] }
def ended (d : Nat) : Launch := { launch0 with raw := record [(320, 64, d), (448, 5, 0), (466, 5, 1)], placed := 18, retired := 18, teams := 18, parts := [(0, 0)] }
/-- A run that waits for the one that ends. -/
def waits0 : GraphRun := { run0 with id := 9, seq := 1, waits := true }
theorem test_meets_FrontEndEnds :
    ((ready .vector).ctxRuns 0 = true ∧ ([agent0 0].find? fun a => a.id == 8) = some (agent0 0) ∧ (agent0 0).moved = false ∧
      isSome0 (agentMove (ready .vector) 0 0x200 0x300 1) (agent0 8).done = true) ∧
    ({ agent0 8 with node := some (7, 0) } : AgentCopy).node = some (7, 0) ∧
    (State.counter (withQueue []) 0 0x400 = some 0 ∧ (0 : DWord).toNat ≤ 0 ∧ (ready .vector).running = true) ∧
    (((running0 []).complete 0 true).over = true ∧ ((running0 [(496, 4, 1), (396, 12, 1)]).complete 0 true).over = false ∧
      (running0 []).stateOf 0 = .running ∧ State.nodeIdle (ready .vector) 7 0 = true ∧
      ([running0 [], waits0].find? fun r => r.id != 7 && r.ctx == 0 && r.va == 0x280 && r.waits) = some waits0 ∧ waits0.begin.over = false ∧
      isSome0 (ready .vector) 8 = true ∧ (running0 []).held = [] ∧
      (nodeExits ((running0 [(496, 4, 1), (396, 12, 1)]).node 0)).count 1 = Store.get 0 (running0 [(496, 4, 1), (396, 12, 1)]).rem 1) ∧
    ((ready .vector).workOver (ended 0) = true ∧ (ended 0).closing = false ∧ (ended 0).donePtr = 0 ∧ (ended 8).donePtr = 8 ∧ (ready .vector).workOver (ended 8) = true) ∧
    ((ringed { pending := 1 } 1).ringDue 0 0).isSome = false ∧ (State.ringDue { ringed { pending := 1 } 1 with time := microsecond } 0 0).isSome = true := by decide +kernel

/-- Nothing runs; one launch or task waits to be placed. -/
def waiting (l : Launch) : State :=
  { withRecs (ready .vector) with
    bunches := [], teams := [], issuer := none, launches := [(1, { l with ctx := 0, parts := [(0, 4)], placed := 0, shares := [(0, [(0, 4)])] })] }
def mayPlace (s : State) (core : Nat) : Bool :=
  match s.launch 1 with
  | some l => (if l.task then s.taskFits 1 l core else s.teamFits 1 l core) && s.firstFor 1 l core
  | none => false
def saved0 (t : Option Nat) : Bunch := { bunch0 .vector with team := t, slot := none, record := some 0 }
def cwaiting : Bunch :=
  { bunch0 .vector with splits := [(0, { pc := { bundle := 0x1000, slot := 0 }, mask := all32, state := .blocked (.counter 0 0 1 none 50 9) none })] }
theorem test_meets_Placement :
    mayPlace (waiting { launch0 with raw := launchRec }) 17 = true ∧ (waiting launch0).freeSlots 17 ≠ [] ∧
    (mayPlace (waiting { launch0 with raw := launchRec [(501, 1, 1), (96, 14, 2)] }) 0 = true ∧ lrCoop (launchRec [(501, 1, 1), (96, 14, 2)]) = true ∧
      lrCoop launchRec = false ∧ (([(0, 4)] : List (Nat × Nat)).map (·.1)).Nodup) ∧
    mayPlace (waiting { launch0 with raw := taskRec, task := true }) 17 = true ∧
    State.mayRetire (ready .vector) { bunch0 .vector with splits := [], drained := true, active := 0 } = true ∧
    ((with0 (saved0 (some 2))).wantsSlot (saved0 (some 2)) = true ∧ (with0 (saved0 (some 2))).firstSlot 0 0 256 = true) ∧
    ((with0 (saved0 none)).wantsSlot (saved0 none) = true ∧ cellarOf 0 = trCellar taskRec ∧ trMask taskRec = 0 ∧ (with0 (saved0 none)).firstSlot 0 0 256 = true) ∧
    State.swapDue (with0 cwaiting) cwaiting = true ∧ State.coop (with0 cwaiting) cwaiting = false ∧ cwaiting.atBarrier = false ∧
    (State.freeRecord (with0 cwaiting { ctx0 with saveBase := 1, saveCfg := 0xFFFFFFFF }) 0).isSome = true := by decide +kernel

/-- A bunch whose split waits. -/
def blocked (w : Wait) (m : Mask := all32) (r : Option Pc := none) (more : Bunch := bunch0 .vector) : Bunch :=
  { more with splits := [(0, { pc := { bundle := 0x1000, slot := 0 }, mask := m, state := .blocked w r })] }
def onLaunch1 (b : Bunch) (raw : BitVec 512) (cask : Option CaskBind := none) : State :=
  { with0 b with launches := [(1, { launch0 with raw, cask, shares := [(0, [(0, 5)])] })] }
def refillTag (b : Bunch) (s : State) : Nat := RefillEnd.tag (s.tryRefill 0 0 b 1 0)
/-- A blocked LDS.fe of two granules, of which one is full; and one of that alone. -/
def feWait0 (work : List FeLane) : FeWait := { sz := .w32, dst := some (.v 1), clr := false, work, op := none }
def fe1 : FeLane := { lane := 0, off := 16, data := [] }
def fe2 : FeLane := { lane := 1, off := 32, data := [] }
def feWaits (work : List FeLane) : State := { with0 (blocked (.granules (feWait0 work)) all32 (some { bundle := 0x1000, slot := 1 })) with full := [(1, 1)] }
def feIs (work ready : List FeLane) : Bool :=
  someIs ((feWaits work).feWaiter 0 0) fun y => (feWaits work).feReady y.1 y.2.2.1 == ready && !(feWaits work).feYields 0 y.1 ready &&
    ((feWaits work).feDo y.1 0 y.2.2.1 ready).faults.isEmpty && y.2.1.heldFaults.isEmpty && (topJoin y.2.1.stack).isNone
def twoSplits : Bunch :=
  { bunch0 .vector with splits := [(0, { pc := { bundle := 0x1000, slot := 0 }, mask := 0xFFFF }), (3, { pc := { bundle := 0x1000, slot := 0 }, mask := 0xFFFF0000 })] }
def aged (t : Bool) : Bunch :=
  { bunch0 .vector with splits := [(0, { pc := { bundle := 0x1000, slot := 0 }, mask := all32, age := 256, tripped := t })], deadline := some 100 }
theorem test_meets_WaitEnds :
    (((with0 (blocked (.refill 1) 0)).live 0 0).isSome = true ∧
      refillTag (blocked (.refill 1) 0 none parkedHalf) (onLaunch1 (blocked (.refill 1) 0 none parkedHalf) refillRaw) = 1 ∧
      refillTag (blocked (.refill 1) 0 none (emptySplit true)) (onLaunch1 (blocked (.refill 1) 0 none (emptySplit true)) refillRaw) = 3 ∧
      refillTag (blocked (.refill 1) 0) (onLaunch1 (blocked (.refill 1) 0) (2 ^ 499 + 2 ^ 503) (some { va := 2 ^ 51, desc := 0 })) = 0) ∧
    (((with0 (blocked .drain)).live 0 0).isSome = true ∧ closedIs (onLaunch1 (blocked .drain) 0) (blocked .drain) true = true ∧
      isOk ((onLaunch1 (blocked .drain) (2 ^ 499 + 2 ^ 503) (some { va := 2 ^ 51, desc := 0 })).closed (blocked .drain)) = false) ∧
    (feIs [fe1, fe2] [fe1] = true ∧ feIs [fe1] [fe1] = true ∧ [fe1, fe2].filter (fun q => !List.contains [fe1] q) ≠ []) ∧
    ((with0 (blocked (.counter 7 0 1 (some 5) 0 9))).ctxRuns 0 = true ∧
      ((with0 (blocked (.counter 7 0 1 (some 5) 0 9))).live 0 0).isSome = true) ∧
    ((twoSplits.splits.map fun e => (twoSplits.splits.map fun f => canFuse 100 e.2 f.2)) = [[true, true], [true, true]] ∧ twoSplits.slot ≠ none) ∧
    (State.futMem { ready .vector with ctxs := [(0, { ctx0 with futures := [(4095, { page := 0 })], futBase := 1 })] } 0 4095 = 0 ∧ ctx0.preempted = 0 ∧
      ((3 : DWord) ≠ 0)) ∧
    (0 < (bits (1 : DWord) 0 24).toNat ∧ (bits (1 : DWord) 0 24).toNat * 256 ≤ 256 ∧ ((aged true).splits.map (·.2.tripped)) = [true] ∧
      ((aged false).splits.map fun e => (e.2.tripped, e.2.state, e.2.frozen)) = [(false, .ready, false)]) ∧
    ((aged true).deadline = some 100 ∧ 100 ≤ (with0 (aged true)).now ∧ (aged true).oldest.isSome = true ∧ (bunch0 .vector 4).oldest = none ∧
      { bunch0 .vector with splits := [] }.oldest = none) := by decide +kernel

def tokWrite (n l : Nat) : RegWrite := { reg := .v n, lane := l, val := 5, gen := 0 }
def writing : Bunch := { bunch0 .vector with ops := [{ id := 50, tok := 7, entry := 0, due := 0, job := .ready, writes := [tokWrite 255 31, tokWrite 0 0] }] }
def unitIs (s : State) : Nat :=
  match s.unitDone 0 50 with
  | none => 0
  | some (.complete _ _) => 1
  | some (.suspend _ _) => 2
  | some .hold => 3
def unit0 (j : UnitJob) : State := with0 (onTok7 (.unit { job := j })) { ctx0 with hringBase := 2 ^ 51 }
def copying (src : DWord) : State := with0 (onTok7 (.copy { copy0 none with job := .lanes 4 false false [(0, src, 0x100)] }))
def copyEnd (s : State) : Option Bool :=
  match s.copyOf 0 50 with
  | none => none
  | some (b, _, r) => let y := copyAll (b.engine 0) s r; some (y.2.fault.isSome && (Store.find y.1.bunches 0).isSome)
def quad0 : Quad := { index := 0, covered := 15, words := [] }
def delivers : State :=
  { unit0 (.prim 0 [quad0] 1 false) with
    raster := [{ cellar := 0, bunch := 0, op := 50 }], launches := [(1, { launch0 with raw := 2 ^ 502, seq := 0, parts := [(0, 3)] })] }
theorem test_meets_Completions :
    ((writing.ops.map fun o => (o.job == .ready, o.writes.all fun w => decide (w.lane < 32))) = [(true, true)] ∧ (tokWrite 255 31).reg = .v 255 ∧ writing.gen 31 = (tokWrite 255 31).gen) ∧
    unitIs (unit0 (.close 0)) = 1 ∧ copyEnd (copying 0x200) = some false ∧ copyEnd (copying (2 ^ 51)) = some true ∧
    unitIs (unit0 (.post 0 [1, 2, 3, 4] false)) = 2 ∧ (unit0 (.post 0 [1, 2, 3, 4] false)).copySuspended 0 50 = none ∧ (delivers.delivering 0).isSome = true := by
  decide +kernel

def arrayState (c : MatCmd) (f : Option LaneFault := none) : State :=
  { ready .matrix with cores := [(0, { mqueue := [{ num := 1, ctx := 0, bunch := 0, cmd := .wswp }], mrun := some { entry := { num := 0, ctx := 0, bunch := 0, cmd := c }, fault := f } })] }
def arrayFaults (s : State) : Option Bool := (s.matRest 0).map fun e => e.2.fault.isSome
theorem test_meets_ArrayCommands :
    (State.core { ready .matrix with cores := [(0, { mqueue := [{ num := 1, ctx := 0, bunch := 0, cmd := .wswp }] })] } 0).mrun = none ∧
    arrayFaults (arrayState (.aclr 3)) = some false ∧ arrayFaults (arrayState .wswp) = some false ∧
    arrayFaults (arrayState (.wld (desc 2 2 4 + (2 ^ 51 : BitVec 512)) false 0 0 1)) = some true := by decide +kernel

def banked (op : UnitOp) : State := { ready .vector with bankQ := [{ unit := 64 * 7 + 63, src := 18, at_ := 99, op }] }
def walk0 (va : DWord) : Walk := { id := 1, core := 17, ctx := 0, va }
def walked (va : DWord) : State := { mapped with walks := [walk0 va] }
def walkEnds (va : DWord) (none_ : Bool) : Bool :=
  let s := walked va
  ((s.inFlight (estateRow 17)).find? fun w => w.core == 17) == some (walk0 va) &&
    (decide (2 ^ 52 ≤ va.toNat) || inWindow (s.ctx 0) va || !bit (s.ctx 0).ptRoot 0) == none_ &&
    (none_ || (!(walkPath s (rootTable (s.ctx 0).ptRoot) 0 va.toNat 3).isEmpty && (s.core 17).tlb.isEmpty && (Store.get [] s.rowTlb (estateRow 17)).isEmpty))
/-- A fence point's counter of bunch 31, and a state with it. -/
def count0 (point : Nat) : FenceCount := { point, src := 31, count := 1, va := 0, olds := [] }
def counted (f : FenceCount) : State := { ready .vector with fence := [f], ports := [(15, { state := 2 })] }
def waitsFence : State := with0 { bunch0 .vector with splits := [(3, { pc := { bundle := 0x1000, slot := 0 }, mask := all32, state := .blocked (.port 16 none) none })] }
/-- The next part of a CKCNT at its second home. -/
def caskWait0 : CaskWait := { job := .count 63 0, bind := bind0, todo := [{ phase := 0, home := 0, unit := 23 }], op := 50, lane := 0 }
def partWaits : State :=
  let s := withCask { onTok7 .waits with splits := [(0, { pc := { bundle := 0x1000, slot := 0 }, mask := all32, state := .blocked (.cask caskWait0) (some { bundle := 0x1000, slot := 1 }) })] }
  { s with cooperQ := [{ unit := 23, src := 0, at_ := 0, op := .caskPart 0 0 }] }
theorem test_meets_UnitOperations :
    (((banked (.add 7 0 1 .none)).bankNext (64 * 7 + 63)).isSome = true ∧ ((banked (.add 7 0 1 (.command 3))).bankNext (64 * 7 + 63)).isSome = true ∧
      ((banked (.add 7 0 1 (.launch 1))).bankNext (64 * 7 + 63)).isSome = true ∧ ((ready .vector).launch 1).isSome = true) ∧
    (([{ unit := 3 * 7 + 2, src := 19, at_ := 0, op := .caskInsert 0 0x40 7 0 [9] }] : List UnitReq).find? fun q =>
      q.unit == 3 * 7 + 2 && (withCask (bunch0 .vector)).cooperCan q).isSome = true ∧
    (partWaits.cooperQ.find? fun q => q.unit == 23 && partWaits.cooperCan q).isSome = true ∧
    (State.caskWaiter { partWaits with cooperQ := [] } 0 0).isSome = true ∧ Store.get 0 (ready .vector).cooperTo 23 ≤ (ready .vector).now ∧
    (walkEnds 0 false = true ∧ walkEnds (2 ^ 52) true = true) ∧
    (((counted (count0 16)).fence.find? fun f => f.src == 31 && (counted (count0 16)).acks f).isSome = true ∧
      ((counted (count0 15)).fence.find? fun f => f.src == 31 && (counted (count0 15)).acks f).isSome = true ∧
      ((counted (count0 0)).fence.find? fun f => f.src == 31 && (counted (count0 0)).acks f).isSome = false) ∧
    (waitsFence.counterFreed 0).length = 1 ∧ (ready .vector).fenceRoom 16 31 = true ∧
    (ready .vector).fencePoint 0 (.dev 1 0) = some 16 ∧ (ready .vector).fencePoint 0 (.dev 8 0) = some ((ready .vector).portTo 1) := by decide +kernel

def saves (c : Context := ctx0) : Context := { c with saveBase := 0x10000, saveCfg := 0x00100001 }
/-- A task of context 1 whose one core is full of bunches of context 0. -/
def crowded : State :=
  { withRecs (ready .vector) with
    now := 70000, ctxs := [(0, saves), (1, ctx0)], issuer := none
    bunches := (List.range 8).map fun i => (i, { bunch0 .vector with slot := some i })
    launches := [(1, { launch0 with placed := 8 }), (2, { launch0 with ctx := 1, task := true, raw := taskRec [(507, 5, 5), (478, 18, 1)], parts := [(0, 0)], placed := 0 })] }
def saved1 : Bunch := { bunch0 .vector with slot := none, home := some 15, record := some 0 }
def paused (p : List PoisonUnit) : State := { with0 saved1 (saves { ctx0 with preempted := 1 }) with poison := p }
theorem test_meets_Preemption :
    ((with0 (bunch0 .vector) saves).hasCtx 0 = true ∧ (with0 (bunch0 .vector) saves).running = true ∧ (with0 (bunch0 .vector) saves).ctxRuns 0 = true ∧
      (with0 (bunch0 .vector) saves).savable 0 = true ∧ (ready .vector).savable 0 = false) ∧
    (crowded.hasCtx 0 = true ∧ crowded.ctxRuns 0 = true ∧ crowded.running = true ∧ crowded.savable 0 = true ∧ crowded.coopPlaced 0 = false ∧ crowded.outwaited 0 = true) ∧
    ((paused []).running = true ∧ (paused []).ckptState ≠ 1 ∧ ((paused []).ctx 0).preempted = 1 ∧ (paused []).leasesFree 0 = true ∧ (paused []).resumeFirst 0 = true ∧
      ((paused []).bunches.map (·.1)).Nodup ∧ (paused []).recordsPoisoned 0 = false ∧ ((paused []).returning 0).length = 1 ∧
      (paused [.commons 0 ((bunchRecordVa saves 0).toNat / 8)]).recordsPoisoned 0 = true ∧ (paused [.commons 0 ((bunchRecordVa saves 0).toNat / 8)]).leasesFree 0 = true ∧
      (paused [.commons 0 ((bunchRecordVa saves 0).toNat / 8)]).resumeFirst 0 = true) ∧
    ((ready .vector).unsavable = some 0 ∧ (with0 (bunch0 .vector) saves).unsavable = none ∧ (ready .vector).running = true ∧ (ready .vector).ckptState ≠ 1) ∧
    State.running { ready .vector with ckptState := 1 } = true := by decide +kernel

theorem test_meets_PowerStates :
    ((ready .vector).answers = true ∧ (ready .vector).fatal = false ∧ (ready .vector).power = .active ∧ (ready .vector).ckptState ≠ 1 ∧
      (ready .vector).unsavable = some 0 ∧ State.reset.unsavable = none ∧ State.reset.answers = true) ∧
    (State.reset.running = true ∧ State.reset.idle = true ∧ State.reset.ckptState ≠ 1 ∧ State.reset.selfRefresh = false ∧
      State.reset.idleSince + 1000 * cyclesPerUs State.reset.dvfs ≤ 2250000) ∧
    (State.reset.power ≠ .d3cold ∧ ((0 : Nat) < 1) ∧ State.reset.rollback ≤ State.reset.fwVersion ∧ State.reset.choice 39 ≠ 1 ∧ State.reset.power ≠ .d3hot) ∧
    State.reset.measures.length = 8 := by decide +kernel

theorem test_meets_Integrity :
    ((((withCode (ready .vector) 0).core 0).blocks[0]?).isSome = true ∧ isOk (fetchBlock mapped 0 0 0) = true) ∧
    ((ready .vector).answers = true ∧ (ready .vector).fatal = false ∧ (Store.find (ready .vector).bunches 0).isSome = true) ∧
    ((ready .vector).ctx 0).created = true := by decide +kernel

def linked (n : Nat) (p : Port) : State := { ready .vector with ports := [(n, p)] }
theorem test_meets_Links :
    (((linked 15 { state := 2, streak := 63, lanes := 8 }).port 15).state = 2 ∧ 64 ≤ ((linked 15 { state := 2, streak := 63 }).port 15).streak + 1 ∧
      ¬ 64 ≤ ((linked 0 { state := 2, streak := 62 }).port 0).streak + 1) ∧
    (((linked 15 { state := 2 }).port 15).xoff.getLsbD 7 = false ∧ ((linked 15 { state := 2, xoff := 0x80 }).port 15).xoff.getLsbD 7 = true) ∧
    7 < ((linked 15 { state := 2, lanes := 8 }).port 15).lanes ∧ ((ready .vector).port 15).state < 2 ∧
    (((ready .vector).port 15).downAt + 10000 * cyclesPerUs (ready .vector).dvfs ≤ 22500000 ∧ 15 ∉ (ready .vector).retiredLinks ∧
      State.noRoute { ready .vector with retiredLinks := List.range 16 } = true ∧ State.noRoute { ready .vector with retiredLinks := [15] } = false) ∧
    ((ready .vector).port 15).state ≠ 3 := by decide +kernel

theorem test_meets_ExternalAccesses :
    ((ready .vector).answers = true ∧ (ready .vector).fatal = false ∧ (ready .vector).ownCellar 7 = true ∧ (ready .vector).power ≠ .d3hot) ∧
    (extEnd (.write (96 * 2 ^ 30 - 1) [5]) ≤ 96 * 2 ^ 30 ∧ extEnd (.add (96 * 2 ^ 30 - 4) 1) ≤ 96 * 2 ^ 30 ∧ (ready .vector).counting = false ∧
      extEnd (.read 0 16) ≤ 2 ^ 25 ∧ extEnd (.read (2 ^ 51 - 1) 1) ≤ 2 ^ 51) ∧
    ((withCask (bunch0 .vector)).insertRow 0 0x40 7).isSome = true ∧ (expandPayload 16 [2, 7]).isSome = true ∧ (expandPayload 1 [0, 7]).isSome = true := by
  decide +kernel

/-! ### The machine as a whole -/

theorem test_meets_DecodeEncode : (Instr.nop).hasWords = true ∧ (Instr.nop).wf = true := by decide +kernel

/-- The bunch of the smallest state has its code: one block at 0x1000, its first bundle of these words. -/
def coded (ws : List Word) (ctl : Nat := 15) : State :=
  { ready .vector with
    issuer := none
    cores := [(0, { blocks := [{ ctx := 0, va := 0x1000, users := [(1, 0)], bytes := ws.foldl (fun bs w => bs ++ leBytes w.toNat 4) (leBytes ctl 8) ++ List.replicate 4000 0 }] })] }
/-- What the fetch of the split that issues next finds: an address that does not translate, 1; no block, 2; poison, 3; a bundle of another
form, 4; an instruction to pass over, 5, or to execute, 6; an illegal word, 7. -/
def finds (s : State) : Nat :=
  match s.nextMove with
  | .issue c =>
    match (Store.find s.bunches c.bunch).bind fun b => (Store.find b.splits c.entry).map fun sp => (b, sp) with
    | none => 0
    | some (b, sp) =>
      match refetchAt (State.paid { s with choices := s.choices.tail } s.nextMove) b sp.pc with
      | .error _ => 1
      | .ok v =>
        match (v.core b.core).blockOf b.ctx b.launch sp.pc.bundle with
        | none => 2
        | some k =>
          if k.bytes.isEmpty then 0
          else if k.bad.any fun u => u / 4 == sp.pc.bundle.toNat / 128 % 32 then 3
          else if !bundleOk (k.bundle sp.pc.bundle) then 4
          else
            match skipInstrs sp.pc.slot ((k.bundle sp.pc.bundle).drop 2) with
            | some (w :: ws) => if sp.passes then 5 else if isOk (decode (w :: ws)) then 6 else 7
            | _ => 0
  | _ => 0
def goesOn (s : State) : Bool :=
  match step s with
  | .next _ => true
  | _ => false
/-- A next state, or an event that does not occur. -/
def answers (o : Host.Outcome State Fault Refusal) : Option Bool :=
  match o with
  | .next _ => some true
  | .refused (.eventNotEnabled _) => some false
  | _ => none
def idleQueue : State :=
  { State.reset with ctxs := [(0, ctx0)], queues := [(5, { base := 0x400, log2n := 2, en := true, tail := 1 })] }
/-- The bunch stands in the page that `mapped` maps. -/
def onPage (more : Split → Split := id) : Bunch := { bunch0 .vector with splits := [(0, more { pc := { bundle := 0x80, slot := 0 }, mask := all32 })] }
def unmapped : State := with0 (bunch0 .vector) { ctx0 with cmnWin := 0 }
def noCode : State := { mapped with bunches := [(0, onPage)], issuer := none }
def badCode : State := { coded (encode .nop) with cores := (coded (encode .nop)).cores.map fun e => (e.1, { e.2 with blocks := e.2.blocks.map fun k => { k with bad := [0] } }) }
def staleCode (bytes : List Byte) : State :=
  { noCode with cores := [(0, { blocks := [{ ctx := 0, va := 0, users := [(1, 0)], bytes, stale := true }] })] }
def passing : State := { coded (encode .nop) with bunches := [(0, { bunch0 .vector with splits := [(0, { pc := { bundle := 0x1000, slot := 0 }, mask := all32, passes := true })] })] }
theorem test_meets_StepRuns :
    ([finds { unmapped with issuer := none }, finds noCode, finds badCode, finds (coded [] 0), finds passing, finds (coded (encode .nop)), finds (coded [0x00002E14])] =
      [1, 2, 3, 4, 5, 6, 7]) ∧
    (isOk (fetchBlock (staleCode []) 0 0 0) = true ∧ isOk (fetchBlock { unmapped with issuer := none } 0 0 0x1000) = false ∧ finds (staleCode []) = 4) ∧
    (goesOn (coded (encode .nop)) = true ∧ State.reset.halted = false ∧ State.reset.inputs = []) ∧
    (idleQueue.nextMove = .event (.launchCommand 5) ∧ idleQueue.halted = false ∧ goesOn idleQueue = true) ∧ State.reset.nextMove = .tick ∧
    State.halted { State.reset with fatal := true } = true ∧
    answers (exec (.powerCapSet 400) State.reset) = some true ∧
    answers (exec (.portRetire 999) State.reset) = some false := by decide +kernel

theorem test_meets_StepKeepsMemory : (Memory.wf State.reset.mem = true ∧ Memory.wf State.reset.full = true ∧ Memory.wf State.reset.tags = true) ∧ goesOn State.reset = true := by decide +kernel

/-! ### Further states that meet the premises: control and exceptions -/

/-- The splits of a bunch, made from a place and a mask. -/
def stands (m : Mask) (more : Split → Split := id) : Split := more { pc := { bundle := 0x1000, slot := 0 }, mask := m }
/-- A bunch whose split has a stack. -/
def stacked (st : List StackEntry) (m : Mask := 3) (others : Store Split := []) : Bunch := { bunch0 .vector with splits := (0, stands m fun p => { p with stack := st }) :: others }
/-- The split's topmost JOIN reconverges at the next instruction. -/
def nextBundle : Pc := { bundle := 0x1080, slot := 0 }
def joinNext (j a : Mask) : StackEntry := .join 5 0x1080 j a
def notJoining (b : Bunch) : Bool := b.splits.all fun e => e.2.state != .joining
theorem no_joiners {b : Bunch} (h : notJoining b = true) (n e : Nat) (m : Mask) : ¬ b.joiners n e m := by
  rintro ⟨sp, rc, j, r, h1, h2, -⟩
  have f : ∀ (l : Store Split), (l.all fun e => e.2.state != .joining) = true → Store.find l e ≠ some sp := by
    intro l
    induction l with
    | nil => intro _ h; cases h
    | cons x l ih =>
      intro h g
      simp only [List.all_cons, Bool.and_eq_true, bne_iff_ne] at h
      simp only [Store.find] at g
      split at g
      · cases g
        exact h.1 h2
      · exact ih h.2 g
  exact f _ h h1

theorem test_meets_Reconverged :
    Issues g7 true allRoles [] (fun _ x => x.nextPc = { bundle := 0x1000, slot := 1 }) ∧
    Issues g7 true allRoles [] (fun _ x => x.sp.state = .ready ∧ Store.sortedFrom 0 x.b.splits = true ∧ x.reconverges nextBundle ∧
      x.sp.stack = [.defer { bundle := 0x2000, slot := 0 } 4, joinNext 7 0] ∧ topJoin [joinNext 7 0] = some (5, 0x1080, 7, 0)) ∧
    Issues g7 true allRoles [] (fun _ x => x.sp.state = .ready ∧ x.reconverges nextBundle ∧ x.sp.stack = [joinNext 7 0] ∧
      (∀ e m, ¬ x.b.joiners 5 e m) ∧ (7 : Mask) &&& ~~~(0 ||| x.sp.mask) ≠ 0) ∧
    Issues g7 true allRoles [] (fun _ x => x.sp.state = .ready ∧ x.reconverges nextBundle ∧ x.sp.stack = [joinNext 7 4] ∧
      (∀ e m, ¬ x.b.joiners 5 e m) ∧ (7 : Mask) &&& ~~~(4 ||| x.sp.mask) = 0 ∧ (4 ||| x.sp.mask) &&& 7 ≠ 0) ∧
    Issues g7 true allRoles [] (fun _ x => x.sp.state = .ready ∧ x.reconverges nextBundle ∧ x.sp.stack = [joinNext 7 0] ∧ x.b.joiners 5 3 4) :=
  ⟨issues (ready .vector) (by decide) (by decide +kernel),
    issues (with0 (stacked [.defer { bundle := 0x2000, slot := 0 } 4, joinNext 7 0])) (by decide) ⟨by decide, by decide, ⟨5, 0x1080, 7, 0, by decide, rfl⟩, by decide, rfl⟩,
    issues (with0 (stacked [joinNext 7 0])) (by decide) ⟨by decide, ⟨5, 0x1080, 7, 0, by decide, rfl⟩, by decide, no_joiners (by decide) 5, by decide⟩,
    issues (with0 (stacked [joinNext 7 4])) (by decide) ⟨by decide, ⟨5, 0x1080, 7, 4, by decide, rfl⟩, by decide, no_joiners (by decide) 5, by decide, by decide⟩,
    issues (with0 (stacked [joinNext 7 0] 3 [(3, stands 4 fun p => { p with state := .joining, stack := [joinNext 7 4] })])) (by decide)
      ⟨by decide, ⟨5, 0x1080, 7, 0, by decide, rfl⟩, by decide, ⟨stands 4 fun p => { p with state := .joining, stack := [joinNext 7 4] }, 0x1080, 7, [], by rfl, rfl, rfl⟩⟩⟩

theorem test_meets_ExitAndYield_emptied :
    Issues g7 false allRoles [] (fun s x => x.entry < 4 ∧ x.sp.mask &&& ~~~x.exec = 0 ∧ x.exec ≠ 0 ∧ x.emptied.sp.state = .ready ∧
      Store.sortedFrom 0 x.emptied.b.splits = true ∧ x.sp.stack = [] ∧ x.b.splits.length = 1 ∧ s.refills x.b = true ∧ x.b.drained = false ∧
      (s.launch x.b.launch).isSome = true) ∧
    Issues g7 false allRoles [] (fun s x => x.sp.mask &&& ~~~x.exec = 0 ∧ x.sp.stack = [] ∧ x.b.splits.length = 1 ∧ s.refills x.b = false) ∧
    Issues g7 false allRoles [] (fun _ x => x.sp.mask &&& ~~~x.exec = 0 ∧ x.sp.stack = [] ∧ (Store.find x.b.splits 3).isSome = true ∧ x.entry = 0) :=
  ⟨issues (inLaunch (bunch0 .vector) refillRaw) (by decide) (by decide +kernel), issues (ready .vector) (by decide) (by decide +kernel),
    issues (with0 twoSplits) (by decide) (by decide +kernel)⟩

def item0 : Item := { index := 5, pair := 0, words := [], covered := 1 }

theorem test_meets_RefillAndDrain_fill :
    someIs (Store.find (with0 parkedHalf).bunches 0) (fun b => (Store.find b.splits 0).isSome && !b.noItems && b.pends.isEmpty &&
      decide ([item0].length ≤ (b.units false).length) && decide ([item0].length ≤ (b.units true).length) && (b.units false)[0]? == some [16] &&
      (b.units true)[0]? == some [16, 17, 18, 19]) = true := by decide +kernel

/-- A bunch in its handler after a fault with that cause, whose next instruction would be `next`. -/
def after0 (cause : DWord) (wait : Bool) (next : Pc) : Bunch := { inHandler with fltCause := cause, fltWait := wait, fltNext := next, fltMask := 3 }
def returns (b : Bunch) (wait past same : Bool) : Bool :=
  let e := (bits b.fltCause 12 3).toNat
  let code := (bits b.fltCause 0 8).toNat
  b.fltWait == wait && (code == 9 || code == 10 || (b.fltCause.getLsbD 15 && code != 2)) == past && decide (e < 4) &&
    someIs (Store.find b.splits e) fun q => (q.pc == b.fltNext) == same && (topJoin q.stack).isNone
theorem test_meets_ExceptionReturn_goesOn :
    returns (after0 0x01 true nextBundle) true false false = true ∧ returns (after0 0x08 false nextBundle) false false false = true ∧
    returns (after0 0x0A false nextBundle) false true false = true ∧ returns (after0 0x8001 false nextBundle) false true false = true ∧
    returns (after0 0x8003 false { bundle := 0x1000, slot := 0 }) false true true = true ∧
    returns (after0 0x01 false nextBundle) false false false = true ∧ returns (after0 0x8002 false nextBundle) false false false = true := by decide +kernel
/-! ### Further states that meet the premises: memory -/

/-- The links of die 1 retrain: an access of the commons of cellar 1, at 0x2000000, waits. -/
def farBase (b : Bunch) : Bunch := { b with k := [(60, 0x2000000)] }
def retrains (b : Bunch) : State := { with0 (farBase b) with ports := [(20, { state := 1 }), (21, { state := 1 }), (22, { state := 1 }), (23, { state := 1 })] }
def kBase : VK := .k 60
theorem test_meets_held :
    Issues g7 true noMatrix (kBase.regs 2 ++ [.k 63]) (fun _ x => (x.held .generic .read 4 (x.addr kBase 0) (lanesOf x.exec) false).isSome = true ∧
      (x.held .window .read 4 (x.addr kBase 0) (lanesOf x.exec) false).isSome = true) ∧
    Issues g7 (storeUniform (.k 60) (.src (.k 63))) noMatrix (kBase.regs 2 ++ [.k 63]) (fun s x =>
      (x.held .generic .write 4 (x.addr kBase 0) (s.laneOrder (x.actors true)) true).isSome = true ∧
      (x.held .window .write 4 (x.addr kBase 0) (s.laneOrder (x.actors true)) true).isSome = true) ∧
    Issues g7 true noMatrix (kBlock 60 2 ++ kBlock 62 2 ++ [.k 50]) (fun _ x => x.exec ≠ 0 ∧ x.entry < 4 ∧
      (x.held .window .write 16 (fun _ => x.kAddr 60 0) [0] true).isSome = true ∧ (x.held .window .read 8 (fun _ => x.kAddr 60 0) [0] false).isSome = true) ∧
    Issues g7 true noMatrix (kBase.regs 2 ++ [.k 63]) (fun s x => x.held .generic .read 4 (x.addr kBase 0) (lanesOf x.exec) false = none ∧ s.still) :=
  ⟨issues (retrains (bunch0 .vector)) (by decide) (by decide +kernel), issues (retrains (bunch0 .vector)) (by decide) (by decide +kernel),
    issues (retrains (bunch0 .vector)) (by decide) (by decide +kernel),
    issues (with0 (farBase (bunch0 .vector))) (by decide) ⟨by decide +kernel, by decide, by decide, by decide⟩⟩

/-- A poisoned unit of the commons, of the scratchpad, and a lost store. -/
def poisonedAt (p : Place) : State := { ready .vector with poison := [p.unit] }
theorem test_meets_poison :
    isOk (placeOf (poisonedAt (.commons 0 0x10)) 0 0 .generic 0x10 .read 4 0 false) = true ∧ (poisonedAt (.commons 0 0x10)).poisoned (.commons 0 0x10) 4 = true ∧
    isOk (scratchPlace (poisonedAt (.scratch 0 0x10)) (bunch0 .vector) 0x10 4 false) = true ∧ (poisonedAt (.scratch 0 0x10)).poisoned (.scratch 0 0x10) 4 = true ∧
    (poisonedAt (.scratch 0 0x10)).poisoned (.scratch 0 0x20) 4 = false ∧ (0x10 : Nat) < 2 ^ 19 := by decide +kernel

theorem test_meets_Stores_lost :
    Issues g7 (storeUniform (.k 60) (.src (.k 63))) noMatrix (kBase.regs 2 ++ [.k 63]) (fun s x => x.lostFault true .sys = some 0x40 ∧
      x.held .generic .write 4 (x.addr kBase 0) (s.laneOrder (x.actors true)) true = none ∧
      isOk (placeOf s x.b.core x.b.ctx .generic 0x10 .write 4 0 false) = true) ∧
    Issues g7 true allRoles [] (fun s x => x.exec ≠ 0 ∧ x.lostFault true .sys = some 0x40 ∧ s.lost.all (fun l => l.src == x.id) = true) :=
  ⟨issues { ready .vector with lost := [{ src := 0, va := 0x40 }] } (by decide) (by decide +kernel),
    issues { ready .vector with lost := [{ src := 0, va := 0x40 }] } (by decide) (by decide +kernel)⟩

/-- A TLB holds a leaf of a page whose frame tag has changed since, and translates the access. -/
def stale0 : State :=
  { with0 (bunch0 .vector) { ctx0 with cmnWin := 0, ptRoot := 0x2001 } with
    choices := [1], tags := [(16, 1)], cores := [(0, { tlb := [tlbEntry 0 0 0 (2 ^ 42 + 2 ^ 41 + 2 ^ 40 + 0x21)] })] }
theorem test_meets_Atomics_stale :
    staleAt stale0 0 0 .generic 0 0 = true ∧ isOk (atomPlace stale0 (seen stale0 g7 false) .generic 0 4 0) = true ∧ stale0.still :=
  ⟨by decide +kernel, by decide +kernel, by decide, by decide, by decide⟩

def cfetchIs (s : State) (va len : Nat) : Nat := (s.cfetch 0 0 1 1 { va := BitVec.ofNat 64 va, len }).2.toNat
theorem test_meets_CacheControl_results :
    Issues g7 true noMatrix (kBlock 62 2 ++ (SrcL.src (.k 60)).regs) (fun s x => x.exec ≠ 0 ∧ s.walks.filter (fun w => scopeCores .estate x.b.core w.core) ≠ []) ∧
    Issues g7 false noMatrix ((VK.v 254).regs 2) (fun _ x => x.prefWalks (.v 254) 0x10 ≠ []) ∧
    cfetchIs (ready .vector) 0 1 = 2 ∧ cfetchIs (ready .vector) 0x2000 1 = 0 ∧ cfetchIs (ready .vector) 0x2000 100000 = 1 :=
  ⟨issues (walked 0) (by decide) (by decide +kernel), issues mapped (by decide) (by decide +kernel), by decide +kernel, by decide +kernel, by decide +kernel⟩

theorem test_meets_TokenWaits_covered : (bunch0 .matrix).role = .matrix ∧ (bunch0 .epilogue).role ≠ .matrix ∧ 3 < 4 := by decide

/-- The tensor table with an older descriptor of x0, which bunch 0 replaced. -/
def older (idle : Bool) : State :=
  let c := { ctx0 with tensors := [(0, desc 0 2 4)], olds := [{ code := false, idx := 0, old := desc 1 2 4, reach := { writer := 0, op := 50, tok := 7, idle } }] }
  with0 (bunch0 .vector) c
/-- The element is read where its place is, and holds nothing back. -/
def elemOk (s : State) (d : Desc) (p : Place) : Bool := match enginePlace s 0 0 0 (some (tdLayout d)) false (BitVec.ofInt 64 (tdBase d + 4 * tdPos d [1, 2])) 4 .read with
  | .ok q => q == p && !s.poisoned p 4 && !s.unreachable 0 p
  | .error _ => false
theorem test_meets_Tensors_visible :
    (∀ o ∈ ((older true).ctx 0).olds, o.code = false → o.idx = 0 → o.reach.writer = 0 ∧ o.reach.idle = true) ∧ ((older true).ctx 0).olds ≠ [] ∧
    (Store.find ((older false).ctx 0).tensors 0).isSome = true ∧
    Issues g7 (VK.v 255).isK noMatrix ((VK.v 254).regs 2 ++ (VK.v 255).regs) (fun s x => x.exec ≠ 0 ∧ descIs s x 0 (fun d => (x.tldHeld d (.v 254)).isNone) = true) ∧
    (tdIn (desc 0 2 4) [1, 2] = true ∧ tdFmt (desc 0 2 4) = 0 ∧ tdScale (desc 0 2 4) = 0 ∧ elemOk (ready .vector) (desc 0 2 4) (.commons 0 36) = true ∧
      (ready .vector).bankQ = []) :=
  ⟨by decide +kernel, by decide, by decide, issues (withTensors .vector [desc 8 2 4]) (by decide) (by decide +kernel), by decide +kernel⟩
/-! ### Further states that meet the premises: copies and the array -/

def engine0 : Engine := { core := 0, ctx := 0, bunch := 0 }
/-- An engine reads, or writes, `n` bytes at an address, and nothing holds it back. -/
def readsAt (s : State) (l : Option Nat) (sp : Bool) (a : DWord) (n : Nat) : Bool := match enginePlace s 0 0 0 l sp a n .read with
  | .ok p => !s.poisoned p n && !s.unreachable 0 p && s.linksIdle
  | .error _ => false
def writesAt (s : State) (l : Option Nat) (sp : Bool) (a : DWord) (n : Nat) : Bool := match enginePlace s 0 0 0 l sp a n .write with
  | .ok q => !s.unreachable 0 q && s.linksIdle
  | .error _ => false
def run (job : CopyJob) (done : Nat := 0) (reg0 : Nat := 0) : CopyRun := { copy0 none with job, done, reg0 }
/-- The bytes at an offset of the commons after a step of a copy. -/
def stepped (s : State) (r : CopyRun) (o n : Nat) : Option Nat := match copyStep engine0 s r with
  | .ok y => some (y.1.natAt (.commons 0 o) n)
  | .error _ => none
def lanesRun : CopyRun := run (.lanes 4 false false [(0, 0x40, 0x80)])

theorem test_meets_CopyIssue_lanes :
    cpyFault true true false 4 0x12 0x34 = some (.pageProtection, 0x12) ∧ cpyFault false true false 4 0x12 0x34 = some (.misaligned, 0x12) ∧
    cpyFault true false false 4 0x10 0x36 = some (.misaligned, 0x36) ∧ cpyFault false true true 16 0x10 0x80000 = some (.pageProtection, 0x80000) ∧
    cpyFault false true true 8 0x7FFF8 0 = none ∧
    Issues g7 false noMatrix (vBlock 254 2 ++ vBlock 252 2) (fun s x => ((s.laneOrder (x.actors false)).filter fun l =>
      (cpyFault x.b.team.isNone false false 4 (x.addr (.v 254) 0 l) (x.vPair 252 l)).isNone).length = 31) :=
  ⟨by decide +kernel, by decide +kernel, by decide +kernel, by decide +kernel, by decide +kernel,
    issues (with0 { bunch0 .vector with v := [(32 * 254 + 31, 2)] }) (by decide) (by decide +kernel)⟩

/-- A vector or a square of elements of a format, at a base address, with a bounds mode. -/
def flat (fmt rank n bounds base : Nat) : Desc := desc fmt rank n + BitVec.ofNat 512 (bounds * 2 ^ 496 + base * 2 ^ 376)
/-- An element is read from `i` of the source and written to `j` of the destination; or only written, or only read. -/
def fromTo (s : State) (src dst : Desc) (i j : List Int) : Bool :=
  tdIn src i && tdIn dst j && readsAt s (some (tdLayout src)) false (elemAt src i) (fmtBytes (tdFmt src)) &&
    writesAt s (some (tdLayout dst)) false (elemAt dst j) (fmtBytes (tdFmt dst)) && decide (tdFmt src < 10 ∧ tdScale src = 0 ∧ tdFmt dst < 10 ∧ tdScale dst = 0)
/-- Words 1 to 8 at 0x100 of the commons. -/
def words8 : State := filled (ready .copy) [(0x100, (List.range 8).flatMap fun n => leBytes (n + 1) 4)]
def sq (bounds base : Nat) : Desc := flat 7 2 2 bounds base
/-- Two by two elements, the source walked by columns; and one with an offset that leaves the extents. -/
def walk2 (org : Nat) : BitVec 1024 :=
  BitVec.ofNat 1024 (((List.range 6).map fun c => (if c < 2 then 2 else 1) * 2 ^ (64 * c + 48)).foldl (· + ·) 0 + 2 ^ 28 + 2 ^ (64 + 24) + 2 ^ 0 + 2 ^ (64 + 4) +
    org * 2 ^ 384 + 9 * 2 ^ 768)
def affine0 (org : Nat) (b : Nat) (done : Nat) : CopyRun := run (.affine (sq b 0x100) (sq b 0x80) false false false (walk2 org)) done
theorem test_meets_EngineCopies_affine :
    readsAt words8 none false 0x40 4 = true ∧ writesAt words8 none false 0x80 4 = true ∧ words8.bankQ = [] ∧ words8.counting = false ∧
    fromTo words8 (sq 0 0x100) (sq 0 0x80) (wrSource (walk2 0) (wrCounters (walk2 0) 1)) (wrDest (walk2 0) (wrCounters (walk2 0) 1)) = true ∧
    stepped words8 (affine0 0 0 1) 0x84 4 = some 3 ∧ stepped words8 (affine0 0 0 2) 0x88 4 = some 2 ∧
    tdIn (sq 1 0x100) (wrSource (walk2 2) (wrCounters (walk2 2) 0)) = false ∧ tdIn (sq 1 0x80) (wrDest (walk2 2) (wrCounters (walk2 2) 0)) = true ∧
    stepped words8 (affine0 2 1 0) 0x80 4 = some 9 ∧ stepped words8 (affine0 2 0 0) 0x80 4 = none := by decide +kernel
/-- A 2:4 walk of four places whose metadata, at 0x200, keeps the first two places; both vectors of four. -/
def walk24 : BitVec 1024 := BitVec.ofNat 1024 (((List.range 6).map fun c => (if c < 1 then 4 else 1) * 2 ^ (64 * c + 48)).foldl (· + ·) 0 + 2 ^ 24 + 1 + 0x200 * 2 ^ 832)
def sparse24 (done : Nat) : CopyRun := run (.affine (flat 7 1 4 0 0x100) (flat 7 1 4 0 0x80) false false true walk24) done
def words24 : State := filled words8 [(0x200, [0x04])]
theorem test_meets_EngineCopies_24 :
    readsAt words24 none false (wrMeta walk24) 1 = true ∧ words24.natAt (.commons 0 0x200) 1 / 16 ^ 0 % 16 = 4 ∧
    (keptAt 4 0 1 = [1] ∧ keptAt 4 0 2 = [] ∧ wrCounters walk24 1 = [1, 0, 0, 0, 0, 0]) ∧
    (stepped words24 (sparse24 1) 0x84 4 = some 2 ∧ stepped words24 (sparse24 2) 0x88 4 = some 0 ∧ stepped words24 (sparse24 0) 0x80 4 = some 1) := by decide +kernel

/-- CPYG of the rows that a list at 0x180 names, at row 1 of the destination. -/
def gather0 (done reg0 : Nat) : CopyRun := run (.gather (sq 0 0x100) (sq 0 0x80) false false false 0x180 1 1) done reg0
theorem test_meets_EngineCopies_gather :
    readsAt words8 none false 0x180 4 = true ∧ (gather0 0 0).done % (tdExtent (sq 0 0x100) 0 + 1) = 0 ∧ (gather0 2 1).done % (tdExtent (sq 0 0x100) 0 + 1) = 2 ∧
    fromTo words8 (sq 0 0x100) (sq 0 0x80) [1, 1] [1, 1] = true ∧ stepped words8 (gather0 2 1) 0x8C 4 = some 4 := by decide +kernel

/-- CPYS of two rows with the pointers 3, 5, 6 at 0x300, the positions at 0x100, the values there too. -/
def pointers : State := filled words8 [(0x300, leBytes 3 4 ++ leBytes 5 4 ++ leBytes 6 4)]
def rows0 (done reg0 reg1 : Nat) : CopyRun := { run (.sparse (flat 7 1 8 0 0x100) (flat 7 1 3 0 0x80) false 0x300 0x100 0 2 0x40 0x20) done reg0 with reg1 }
theorem test_meets_EngineCopies_sparse :
    readsAt pointers none false 0x304 4 = true ∧ writesAt pointers none false 0x24 4 = true ∧ pointers.natAt (.commons 0 0x304) 4 = 5 ∧
    stepped pointers (rows0 0 0 0) 0x20 4 = some 0 ∧ stepped pointers (rows0 1 3 3) 0x24 4 = some 2 ∧ stepped pointers (rows0 1 3 6) 0x24 4 = none ∧
    readsAt pointers none false 0x110 4 = true ∧ writesAt pointers none false 0x44 4 = true ∧ fromTo pointers (flat 7 1 8 0 0x100) (flat 7 1 3 0 0x80) [4] [1] = true ∧
    stepped pointers (rows0 4 3 6) 0x44 4 = some 5 ∧ stepped pointers (rows0 4 3 6) 0x84 4 = some 5 := by decide +kernel

/-- CPYL with no step, and with one that transposes. -/
def layout0 (p : List Word) (done : Nat) : CopyRun := run (.layout (sq 0 0x100) (sq 0 0x80) false false p) done
def layoutIs (p : List Word) (f : List LayStep → Bool) : Bool := someIs (layParse 4 4 p 2 2) fun y => f y.1 && y.2.2 == 2
theorem test_meets_EngineCopies_layout :
    layoutIs (List.replicate 16 0) (fun st => st.isEmpty) = true ∧ fromTo words8 (sq 0 0x100) (sq 0 0x80) [1, 0] [1, 0] = true ∧
    stepped words8 (layout0 (List.replicate 16 0) 1) 0x84 4 = some 2 ∧ layRows (sq 0 0x100) = 2 ∧ tdExtent (sq 0 0x100) 0 = 2 := by decide +kernel

/-- CPYX to the scratchpad of core 1. -/
def estate0 : CopyRun := run (.estate false 0x100 0x80 16 (some 1) 0 [])
def scratchAfter (s : State) (r : CopyRun) (p o n : Nat) : Option Nat := match copyStep engine0 s r with
  | .ok y => some (y.1.natAt (.scratch p o) n)
  | .error _ => none
theorem test_meets_EngineCopies_estate :
    readsAt words8 none false 0x100 16 = true ∧ writesAt words8 none true 0x80 16 = true ∧ estate0.done < 16 / 16 ∧
    (match enginePlace words8 0 0 0 none true 0x80 16 .write with
      | .ok p => p == .scratch 0 0x80
      | .error _ => false) = true ∧
    scratchAfter words8 estate0 1 0x80 4 = some 1 := by decide +kernel

theorem test_meets_EngineCopies_values :
    (f32Finite 0x40490FDB ∧ (0x40490FDB : Word).toNat % 2 ^ 31 < 0x7F800000) ∧ isBpi 17 = true ∧
    (convElem 0 0 { raw := 0x42F70000, scale := none } 5).bits = 124 ∧ (convElem 0 0 { raw := 0x43FF0000, scale := none } 5).sat = true ∧
    (convElem 0 0 { raw := 0x3F808000, scale := none } 2).bits = 0x3F80 ∧ (254 : Nat) < 255 := by
  unfold f32Finite
  decide +kernel
/-- A tile whose MMS's operand reads no MWAIT has covered; and a drain of a tile under way. -/
def uncovered : State := { queued 0 1 with cores := (queued 0 1).cores.map fun e => (e.1, { e.2 with unread := [(2, 0)], unwaited := 4 }) }
def drain0 (t : Nat) : CopyRun := run (.drain (flat 0 2 128 0 0x100) false t 0 1 0 0 none)
def drains (t : Nat) : State := with0 { bunch0 .matrix with ops := [{ id := 50, tok := 7, entry := 0, due := 0, job := .copy (drain0 t), writes := [] }] }
theorem test_meets_ArrayIssue_undefined :
    ((uncovered.core 0).clashes (.aprm 2) = true ∧ (uncovered.core 0).clashes (.aclr 3) = false ∧ (uncovered.core 0).unwaited.getLsbD 2 = true) ∧
    ((drains 2).draining 0 [2] = true ∧ (drains 2).draining 0 [3] = false ∧
      someIs (Store.find ((drains 2).spoilDrains 0 [2]).bunches 0) (fun b => b.ops.all fun o => match o.job with
        | .copy r => r.undef
        | _ => false) = true) ∧
    ((ready .epilogue).ownsArray (bunch0 .epilogue) = false ∧ State.ownsArray { ready .epilogue with launches := [(1, { launch0 with raw := BitVec.ofNat 512 (2 ^ 466) })] } (bunch0 .epilogue) = true) := by decide +kernel

/-- The cask with two homes; the second begins at key 4, on row 1 of cellar 1. -/
def caskD2 : Nat := caskD + 2 ^ 313
def bind2 : CaskBind := { va := 0x40, desc := BitVec.ofNat 512 caskD2 }
def withHomes (b : Bunch) : State :=
  { filled (with0 b { ctx0 with casks := [(15, bind2)] })
      [(0x40, leBytes caskD2 64), (0x800, leBytes home0 32), (0x820, leBytes (home0 + 4 * 2 ^ 192 + 2 ^ 184 + 2 ^ 182) 32)] with
    launches := [(1, { launch0 with cask := some bind2 })] }
def homesOf (s : State) (p : Cask → List Nat → Bool) : Bool := opens s 0x40 p
/-- CKRAK of another bunch is in progress. -/
def racking : State := withCask { bunch0 .vector with ops := [{ id := 50, tok := 7, entry := 0, due := 0, job := .ready, writes := [], rack := some 0x40 }] }
theorem test_meets_CaskSlots_homes :
    Issues g7 true vecCopy [.k 63] (fun s x => x.exec ≠ 0 ∧ x.slot 15 = some bind2 ∧ homesOf s (fun _ hs => decide (1 < hs.length) && homesOk hs none) = true) ∧
    Issues g7 true vecCopy [.k 63] (fun s x => x.exec ≠ 0 ∧ x.slot 15 = some bind0 ∧ homesOf s (fun c hs => decide (hs.length ≤ 1) && match c.rack s with
      | .ok y => y.2 != 0xFFFFFFF0
      | .error _ => false) = true) ∧
    (racking.choice 40 = 0 ∧ (withCask (bunch0 .vector)).ctxs.all (fun c => Store.sortedFrom 0 c.2.casks) = true ∧ homesOf racking (fun c _ => match c.rack racking with
      | .ok y => y.2 == 0xFFFFFFF1
      | .error _ => false) = true) ∧
    homesOf afterOne (fun c _ => match c.rack afterOne with
      | .ok y => y.2 == 0xFFFFFFF0
      | .error _ => false) = true :=
  ⟨issues (withHomes (bunch0 .vector)) (by decide) (by decide +kernel), issues racking (by decide) (by decide +kernel), by decide +kernel, by decide +kernel⟩

/-- CKITR and CKNXT over both homes; CKNXT of one element and of more than there are. -/
def cursor2 : Cursor := { bind := bind2, mode := .range 0 7, homes := [0, 1] }
def nextOf (s : State) (cur : Cursor) (p : List CaskPart → List CaskElem → Bool) : Bool := homesOf s fun c hs => match cur.ahead hs with
  | q :: rest => (match c.home s q.home with
    | .ok hm => (match c.elems s q.home hm with
      | .ok es => p rest (cur.upcoming q.phase es)
      | .error _ => false)
    | .error _ => false)
  | [] => false
def itrHomes (s : State) (cur : Cursor) : Bool := isOk (s.openHomes 0 0 cur.bind.desc (· + 1) cur.homes)
theorem test_meets_CaskIteration_homes :
    Issues g7 true vecCopy (itrReads (.range 15 60)) (fun s x => x.exec ≠ 0 ∧ someIs (x.curMode (.range 15 60)) (fun y => x.slot y.1 == some bind2) = true ∧
      itrBad (.range 15 60) (some bind2) = false ∧ isOk (s.withoutCursor x 7) = true ∧ homesOf s (fun _ hs => reached bind2.desc hs (.range 0 7) == [0, 1]) = true ∧
      itrHomes s cursor2 = true) ∧
    (nextOf (withHomes { bunch0 .vector with cursors := [(7, cursor2)] }) cursor2 (fun rest es => !rest.isEmpty && es.isEmpty) = true ∧
      nextOf { afterOne with bunches := [(0, { bunch0 .vector with cursors := [(7, cursor0)] })] } cursor0 (fun rest es => rest.isEmpty && es.length == 1) = true) ∧
    (CurMode.meets (.range 7 7) (BitVec.ofNat 512 caskD2) 4 7 = true ∧ CurMode.meets (.range 3 3) (BitVec.ofNat 512 caskD2) 4 7 = false) :=
  ⟨issues (withHomes (bunch0 .vector)) (by decide) (by decide +kernel), by decide +kernel, by decide +kernel⟩
/-! ### Further states that meet the premises: launching, raster, the front end -/

theorem test_meets_PendingLaunches_lost :
    Issues g7 true noMatrix (kBlock 62 2 ++ [.k 63]) (fun s x => x.exec ≠ 0 ∧ x.entry < 4 ∧ recordIs x (x.kAddr 62 0) 8 64 (fun _ => true) = true ∧
      (plqOf x s).length < 4 ∧ x.lostFault true .sys = some 0x40) ∧
    Issues g7 true noMatrix (kBlock 62 2 ++ [.k 63]) (fun s x => 4 ≤ (plqOf x s).length ∧ x.lostFault true .sys = none) :=
  ⟨issues { ready .vector with lost := [{ src := 0, va := 0x40 }] } (by decide) (by decide +kernel),
    issues { ready .vector with plqs := [(4, List.replicate 4 waiting0)] } (by decide) (by decide +kernel)⟩

/-- A triangle over the pixels (0, 0), (1, 0), (0, 1) of a 4 by 4 target, turning the positive way; and the raster record. -/
def tri0 : Tri := { v0 := { x := 0, y := 0 }, v1 := { x := 768, y := 0 }, v2 := { x := 0, y := 768 } }
def triK : Nat → Word := fun n => [0, 0, 0x40400000, 0, 0, 0x40400000, 9].getD n 0
theorem test_meets_Raster_triangles :
    (snap 0x40400000 = some 768 ∧ snap 0x7FC00000 = none ∧ snap 0xCB000000 = none ∧ snap 0x3B000000 = some 0 ∧ snap 0x3BC00000 = some 2) ∧
    tri0.area = 589824 ∧ tri0.covers (centre 0 0) = true ∧ tri0.covers (centre 2 2) = false ∧
    ((tri0.quads 3 3 9).map (·.covered) = [7] ∧ (tri0.quads 3 3 9).map (fun q => (q.words.headD []).headD 0) = [0]) ∧
    inside { x := 0, y := 0 } { x := 768, y := 0 } { x := 128, y := 0 } = true ∧ inside { x := 768, y := 0 } { x := 0, y := 0 } { x := 128, y := 0 } = false ∧
    (primQuads (record [(464, 16, 3), (448, 16, 3)]) triK).2 = false ∧ ratio32 1 3 = 0x3EAAAAAB ∧ f32Finite (ratio32 (-1) 3) := by
  unfold f32Finite
  decide +kernel

/-- A splat centred on pixel (5, 7) with opacity 0.5, and one too faint. -/
def splat0 (o : Word) : List Word := [half32 5, half32 7, 0x3F800000, 0, 0x3F800000, o, 0x3F800000, 0, 0x3F000000]
theorem test_meets_Raster_splats :
    f32Val 0x3B000000 < f32Val 0x3B800000 ∧ f32Finite 0x3B000000 ∧ f32Val 0x3B800000 ≤ f32Val ({} : Blend).t ∧
    ((({} : Blend).splat 5 7 (splat0 0x3F000000)).r = 0x3F000000 ∧ (({} : Blend).splat 5 7 (splat0 0x3F000000)).t = 0x3F000000) ∧
    ({} : Blend).splat 5 7 (splat0 0x3A000000) = {} ∧ (({} : Blend).splat 5 7 (splat0 0x3F800000)).t = fSub 0x3F800000 0x3F7D70A4 ∧
    (0x3F800000 : Word).toNat % 2 ^ 31 < 0x7E800000 ∧ half32 5 = 0x40B00000 := by
  unfold f32Finite
  decide +kernel

/-- A square of four by four elements of format 7, and one of format 8, at 0x100 and 0x80. -/
def cover0 (clr : Bool) : Option (Nat × Nat) := match coverStep engine0 words8 2 (flat 7 2 4 0 0x100) (flat 8 2 4 0 0x80) false clr 0 0 4 with
  | .ok t => some (t.natAt (.commons 0 0x82) 1, t.natAt (.commons 0 0x108) 4)
  | .error _ => none
def seg0 : Option Nat := match segStep engine0 words8 (flat 7 2 4 0 0x100) (0, 2, 0, 0xFFFFFFFE) with
  | .ok t => some (t.natAt (.commons 0 0x108) 4)
  | .error _ => none
theorem test_meets_Raster_paths :
    (segment [{ x := 300, y := 0 }, { x := 300, y := 256 }] 3 1 = [(1, 0, 212 * 256), (2, 0, 65536)] ∧ segment [{ x := 0, y := 5 }, { x := 300, y := 5 }] 3 1 = []) ∧
    (writesAt words8 (some 0) false 0x108 4 = true ∧ seg0 = some 1) ∧
    (resolve false 70000 = 65536 ∧ resolve true 70000 = 61072 ∧ coverBits 8 65536 = 255 ∧ coverBits 0 65536 = 0x3F800000) ∧
    (tdLayout (flat 7 2 4 0 0x100) = 0 ∧ tdIn (flat 7 2 4 0 0x100) [2, 0] = true ∧ tdIn (flat 8 2 4 0 0x80) [2, 0] = true ∧ readsAt words8 (some 0) false 0x108 4 = true ∧
      writesAt words8 (some 0) false 0x82 1 = true ∧ (Place.commons 0 0x82).key + 1 ≤ (Place.commons 0 0x108).key) ∧
    cover0 true = some (0, 0) ∧ cover0 false = some (0, 3) := by decide +kernel

/-- A graph that is over at once, one that waits behind a run of the same graph, and a ring read by the front end. -/
def graphTurn (s : State) : Bool := turnIs (withQueue [(0, 8, 6), (64, 64, 0x280)] s) 6 true
def overGraph : State := graphAt [(508, 4, 3), (500, 8, 1), (344, 52, 0x240)] (ready .vector)
def beginsOver (s : State) : Bool :=
  match readGraph s 0 0x280 with
  | some (d, ns) => d == 0 && (GraphRun.begin { id := 100, ctx := 0, va := 0x280, seq := 0, queue := 5, done := d, nodes := ns, waits := true }).over
  | none => false
def writesVa (s : State) (a : DWord) (bs : List Byte) : Bool := isOk (writeVa s feCore 0 a bs)
theorem test_meets_QueueCommands_more :
    graphTurn overGraph = true ∧ beginsOver (withQueue [(0, 8, 6), (64, 64, 0x280)] overGraph) = true ∧
    graphTurn { graphAt [(508, 4, 3), (344, 52, 0x240)] (ready .vector) with graphs := [run0] } = true ∧ run0.va = 0x280 ∧ run0.id ≠ 100 ∧
    (isOk (readRing ringed feCore 0 0) = true ∧ isOk (readVa ringed feCore 0 0x680 4) = true ∧ writesVa ringed 0x700 [1, 2] = true ∧ writesVa ringed 0x684 [1, 0, 0, 0] = true) ∧
    ((match readRing (ringed {} 1) feCore 0 0 with
      | .ok d => max 1 (rdNcoal d)
      | .error _ => 0) = 1 ∧ (match readRing (ringed {} 1 0) feCore 0 0 with
      | .ok d => rdLog2n d
      | .error _ => 9) = 0 ∧ (ringed { pending := 1 }).jsize = 0) ∧
    (match readRing (holding (ringed {} 1) 0x600 (record [(204, 52, 0x700), (200, 4, 2), (192, 8, 3), (113, 52, 0x680), (61, 52, 0x684)])) feCore 0 0 with
      | .ok d => rdNcoal d
      | .error _ => 0) = 3 := by decide +kernel

theorem test_meets_Completions_walks :
    someIs (Store.find (with0 (onTok7 (.walks [5]))).bunches 0) (fun b => (b.ops.find? fun o => o.id == 50).isSome) = true ∧ (∀ w ∈ (ready .vector).walks, w.id ∉ [5]) ∧
    ((3 : Nat) < 16) := by decide +kernel
/-! ### Further states that meet the premises: the array's arithmetic, power, links and the outside -/

/-- MMS of INT8 activations at 0x100 of the commons, over weights of INT8, one at (0, 0). -/
def acts0 : Desc := flat 5 2 2 1 0x100
def mms0 (mode : TriMode) (diag : Word) : MatEntry := { num := 0, ctx := 0, bunch := 0, cmd := .mms acts0 false mode true 3 1 0 0 diag 7 1 0 64 }
def planes0 : Planes := { fmt := some 5, cells := [(0, { code := 3, scale := 127 })] }
def arrayOf (m : MatEntry) : State :=
  filled { ready .matrix with cores := [(0, { planes := planes0, mrun := some { entry := m } })] } [(0x100, [5, 0xFE])]
def elemAfter (m : MatEntry) (n : Nat) : Option Acc := match matRow (arrayOf m) 0 m 0 with
  | .ok u => Store.find (u.core 0).acc n
  | .error _ => none
theorem test_meets_ArrayCommands_mms :
    (tdFmt acts0 = 5 ∧ tdScale acts0 = 0 ∧ tdBounds acts0 = 1 ∧ (arrayOf (mms0 .plain 0)).poison = [] ∧ rowSkipped .plain 0 1 0 = false ∧ tdIn acts0 [1, 0] = true ∧
      readsAt (arrayOf (mms0 .plain 0)) (some 0) false 0x101 1 = true ∧ tdIn acts0 [2, 0] = false) ∧
    (elemAfter (mms0 .plain 0) (accKey 3 0 0)).map (fun x => (a26To32 x.a26, x.passes)) = some (0x41700000, 1) ∧
    ((0 : Nat) / 16 * 16 = 0 ∧ (16 : Int) > 0 + 15 + (0 : Word).toInt ∧ ((5 : Int) ≤ 0 + 15 + (0 : Word).toInt ∧ (5 : Int) > 0 + (0 : Word).toInt) ∧ TriMode.triFill ≠ .plain) ∧
    (elemAfter (mms0 .triFill 0) (accKey 3 0 5)).map (·.tile) = some 7 ∧ (List.replicate 128 (signed 1 0)).length = 128 := by decide +kernel

theorem test_meets_ArrayCommands_sums :
    (1 ≤ ({ tile := 0, a26 := 0, passes := 63 } : Acc).passes + 1) ∧ (passSum [signed 3 0, signed (-1) 1] = .fin false (2 ^ 37) (-37)) ∧
    ((0x3F80000 / 64 : Nat) < 2 ^ 26) ∧ ((1 : Word).toNat < 2 ^ 26 ∧ (1 : Word).toNat / 2 ^ 17 % 256 < 255 ∧ (0 : Int) + 149 + ((0 : Nat) : Int) ≥ 0) ∧
    f32Val (a26To32 0xFE0000) = f32Val 0x3F800000 := by decide +kernel

/-- WLD of row 0 of BF16 weights at 0x100; and ADRN of a tile whose element (0, 0) is 1. -/
def wld0 : MatEntry := { num := 0, ctx := 0, bunch := 0, cmd := .wld (flat 2 2 2 1 0x100) false 0 0 2 }
def weightAfter : Option Machine.Num := match matRow (filled (arrayOf wld0) [(0x100, [0x80, 0x3F])]) 0 wld0 0 with
  | .ok u => (u.core 0).shadow.weight 2 0 0 0
  | .error _ => none
def tile1 : State := { ready .matrix with cores := [(0, { acc := [(accKey 3 0 0, { tile := 0x3F800000, a26 := 0, passes := 0 })] })] }
theorem test_meets_ArrayCommands_rows :
    (tdFmt (flat 2 2 2 1 0x100) = 2 ∧ tdBounds (flat 2 2 2 1 0x100) = 1 ∧ tdIn (flat 2 2 2 1 0x100) [0, 1] = true ∧ readsAt (arrayOf wld0) (some 0) false 0x102 2 = true ∧
      weightAfter = some (Fmt.bf16.num 0x3F80)) ∧
    ((drain0 3).undef = false ∧ tile1.accPoisoned 0 (accKey 3 0 0) = false ∧ (Store.find ((tile1.settleRow 0 3 0).core 0).acc (accKey 3 0 0)).isSome = true ∧
      writesAt (tile1.settleRow 0 3 0) (some 0) false 0x100 4 = true ∧ tdIn (flat 0 2 128 0 0x100) [0, 0] = true ∧
      stepped tile1 (drain0 3) 0x100 4 = some 0x3F800000) := by decide +kernel

theorem test_meets_OuterWrites_functions :
    ((ready .vector).ctx 0).fn = 0 ∧ ({ ctx0 with fn := 3 } : Context).fn = 3 ∧ (3 : Nat) ≠ 0 ∧
    (Store.get {} (idleQueue.queues) 5).ctx = 0 ∧ (idleQueue.answers && idleQueue.ownCellar 7) = true ∧ 2 ^ 39 - 1 < 2 ^ 39 ∧ (63 : Nat) < 64 := by decide +kernel

/-- Port 15 is up, and carries every class; a checkpoint of which has the image. -/
def portUp (s : State) : State := { s with ports := [(15, { state := 2 })] }
def imaged : State := portUp { with0 (bunch0 .vector) saves with ckptState := 1, image := some { tier := 0, mem := [], tags := [], whole := false } }
theorem test_meets_Preemption_image :
    (State.answers { with0 (bunch0 .vector) saves with power := .idle } = true ∧ State.unsavable { with0 (bunch0 .vector) saves with power := .idle } = none) ∧
    (imaged.answers = true ∧ imaged.fatal = false ∧ imaged.power = .active ∧ imaged.ckptState = 1 ∧ imaged.carries 15 7 = true ∧ imaged.image.isSome = true) ∧
    (portUp (ready .vector)).carries 14 7 = false := by decide +kernel

theorem test_meets_PowerStates_boot :
    ((31 : Nat) < 32 ∧ 32 ≤ 32 ∧ ({ State.reset with fwVersion := 1, rollback := 2 } : State).fwVersion < 2) ∧
    ((State.reset.choice 39) ≠ 1 ∧ State.choice { State.reset with choices := List.replicate 40 1 } 39 = 1) ∧
    (State.answers { State.reset with power := .idle } = true ∧ State.reset.dvfs = 0 ∧ 114 < 115 ∧ State.reset.cap < 1601) ∧
    (State.idleSince { State.reset with power := .idle } + 1000 * microsecond ≤ 1000 * microsecond) := by decide +kernel

theorem test_meets_Integrity_dump :
    (((staleCode []).core 0).blocks[0]?).isSome = true ∧ State.answers { ready .vector with dbase := some 64 } = true ∧ (ready .vector).bankQ = [] ∧
    ((ready .vector).dumpParts.map (·.2.length))[1]? = some 16384 ∧ ((ready .vector).dumpParts.map (·.2.length))[2]? = some 16384 ∧
    (({ ready .vector with errThresh := 1 } : State).errLog.filter (·.corrected)).length + 1 = 1 := by decide +kernel

/-- A die-to-die link that retrains, and one that is up. -/
theorem test_meets_Links_dies :
    ((16 : Nat) ≤ 47 ∧ 47 < 48 ∧ 31 ∉ (ready .vector).retiredUnits ∧ ((linked 47 { state := 1 }).port 47).state = 1 ∧ ((ready .vector).port 47).state ≠ 1) ∧
    (191 < 192 ∧ 175 ∉ (ready .vector).retiredUnits) ∧
    (((linked 15 { state := 1, lanes := 8 }).port 15).state = 1 ∧ 0 < ((linked 15 { state := 1, lanes := 8 }).port 15).lanes) ∧
    (State.port { ready .vector with time := 10000 * microsecond } 15).downAt + 10000 * microsecond ≤ 10000 * microsecond ∧
    State.lostAt { ready .vector with retiredLinks := List.range 16 } (count0 15) = true := by decide +kernel

theorem test_meets_ExternalAccesses_estate :
    ((portUp (ready .vector)).answers = true ∧ (portUp (ready .vector)).fatal = false ∧ (portUp (ready .vector)).power ≠ .d3hot ∧ ((portUp (ready .vector)).port 15).state = 2 ∧
      (portUp (ready .vector)).ownCellar 7 = true ∧ (portUp (ready .vector)).hasCtx 0 = true) ∧
    ((expandPayload 32 [2, 7]).isSome = true ∧ (expandPayload 4 [0, 1, 2, 3, 4]) = some [1, 2, 3, 4]) ∧
    ([graph0].find? fun q => q.ctx == 0 && q.va == 0 && !q.waits) = some graph0 ∧ 1 < graph0.nodes.length ∧
    (imaged.ckptState = 1 ∧ imaged.image.isSome = true) ∧ (List.replicate 512 (0 : Byte)).length = 512 := by decide +kernel

end Tests
end

section
/-! The integer instructions (R317, R333, R360 to R366, R372, R382): what each writes is its rule applied to the operands read. -/

namespace Sys2Proof.Machine

/-! ### From an element-wise shape to a rule -/

/-- An instruction of the one-source shape computes what its operation's rule says. -/
theorem computes1_of_alu1 {i : Instr} {roles : List Role} {f : Alu1} {rule : Word → Word → Prop} {op : Word → Word} (lat : Nat)
    (hrule : ∀ a, rule a (op a)) (hexec : ∀ s, exec i s = alu1 roles lat f op s) : Computes1 i roles f rule := by
  intro s x h
  obtain ⟨t, ht, hw⟩ := alu1_runs lat op h
  exact ⟨t, _, (hexec s).trans ht, hw, fun _ => hrule _⟩

/-- The same of the two-source shape. -/
theorem computes2_of_alu2 {i : Instr} {roles : List Role} {f : Alu2} {rule : Word → Word → Word → Prop} {op : Word → Word → Word}
    (lat : Nat) (hrule : ∀ a b, rule a b (op a b)) (hexec : ∀ s, exec i s = alu2 roles lat f op s) : Computes2 i roles f rule := by
  intro s x h
  obtain ⟨t, ht, hw⟩ := alu2_runs lat op h
  exact ⟨t, _, (hexec s).trans ht, hw, fun _ => hrule _ _⟩

/-- The same of the three-source shape. -/
theorem computes3_of_alu3 {i : Instr} {roles : List Role} {f : Alu3} {rule : Word → Word → Word → Word → Prop}
    {op : Word → Word → Word → Word} (lat : Nat) (hrule : ∀ a b c, rule a b c (op a b c))
    (hexec : ∀ s, exec i s = alu3 roles lat f op s) : Computes3 i roles f rule := by
  intro s x h
  obtain ⟨t, ht, hw⟩ := alu3_runs lat op h
  exact ⟨t, _, (hexec s).trans ht, hw, fun _ => hrule _ _ _⟩

/-! ### Results that fill a pair -/

/-- An instruction that runs and whose meaning sets a register pair writes that pair and nothing else. -/
theorem setPair_runs {s : State} {x : View} {g : Guard} {roles : List Role} {reads : List Reg} {d : VK} (lat : Nat)
    (value : View → Nat → DWord) (h : Runs s x g d.isK roles (reads ++ d.regs 2)) :
    ∃ t, issue { guard := g, roles, uniform := d.isK, reads, writes := d.regs 2, lat := some lat }
        (fun y => y.answer (y.setPair d (value y))) s = .next t ∧
      Wrote s x t x.b.fpStat (x.pair d (value x)) := by
  refine ⟨_, issue_runs _ _ h (by simp) rfl (.inl rfl),
    answer_wrote rfl rfl h (fun r hr => List.mem_append_right reads hr) ?_ fun r l hl => setPair_reg x d _ r l hl⟩
  rw [setPair_only]

/-- LEA adds to a pair (R372). -/
theorem leaOp_runs {s : State} {x : View} {g : Guard} {d a : VK} {b : SrcL} (sgn : Bool) (shift : Nat)
    (h : Runs s x g d.isK allRoles (a.regs 2 ++ b.regs ++ d.regs 2)) :
    ∃ t v, leaOp sgn shift g d a b s = .next t ∧ Wrote s x t x.b.fpStat (x.pair d v) ∧
      ∀ l, leaRule sgn shift (x.vkPair a l) (x.wordL b l) (v l) := by
  obtain ⟨t, ht, hw⟩ := setPair_runs 4 (fun y l => leaFn sgn shift (y.vkPair a l) (y.wordL b l)) h
  exact ⟨t, _, ht, hw, fun _ => leaFn_rule ..⟩

/-- A base word's register field names the same register in the extended form (R54). -/
theorem toNat_baseReg (n : BitVec 6) : (n.setWidth 8).toNat = n.toNat := BitVec.toNat_setWidth_of_le (by decide)

/-- LEA's base word adds to the pair that its A names. -/
theorem leaBase_runs {s : State} {x : View} (sgn : Bool) {f : Base2}
    (h : Runs s x f.alu.g false allRoles (vBlock f.a.toNat 2 ++ f.alu.b.regs ++ vBlock f.d.toNat 2)) :
    ∃ t v, exec (.leaBase sgn f) s = .next t ∧ Wrote s x t x.b.fpStat (x.pair f.alu.d v) ∧
      ∀ l, leaRule sgn 0 (x.vPair f.a.toNat l) (x.wordL f.alu.b l) (v l) := by
  have hr : Runs s x f.alu.g f.alu.d.isK allRoles ((VK.v (f.a.setWidth 8)).regs 2 ++ f.alu.b.regs ++ f.alu.d.regs 2) := by
    simpa only [Base2.alu, VK.isK, VK.regs, toNat_baseReg] using h
  obtain ⟨t, v, ht, hw, hv⟩ := leaOp_runs sgn 0 hr
  refine ⟨t, v, ht, hw, fun l => ?_⟩
  simpa only [View.vkPair, toNat_baseReg] using hv l

/-- IMAD.wide adds the exact product to a pair (R364). -/
theorem imad_wide_runs {s : State} {x : View} (u : Bool) {f : Alu3}
    (h : Runs s x f.g f.d.isK allRoles (f.a.regs ++ f.b.regs ++ f.c.regs 2 ++ f.d.regs 2)) :
    ∃ t v, exec (.imad (if u then .wideU else .wide) f) s = .next t ∧ Wrote s x t x.b.fpStat (x.pair f.d v) ∧
      ∀ l, wideRule u (x.word f.a l) (x.wordL f.b l) (x.dword f.c l) (v l) := by
  obtain ⟨t, ht, hw⟩ := setPair_runs 6 (fun y l => madWide u (y.word f.a l) (y.wordL f.b l) (y.dword f.c l)) h
  refine ⟨t, _, ?_, hw, fun _ => madWide_rule ..⟩
  cases u <;> exact ht

/-! ### The low product and its sum -/

theorem mad_low_wrap (a b c : Word) : (a * b + c).toNat = (a.toNat * b.toNat + c.toNat) % 2 ^ 32 := by
  rw [BitVec.toNat_add, mul_wrap, Nat.mod_add_mod]

/-! ### The statements -/

/-- Settles O1: IADD and ISUB by the sums' rules, LEA by its pair; a base word names the registers of its extended form. -/
theorem integerSums : Obligations.IntegerSums := by
  refine ⟨⟨?iaddBase, ?iadd, ?isubBase, ?isub⟩, ?leaBase, ?lea⟩
  case iaddBase => exact fun sat f => computes2_of_alu2 4 (addOp_rule (satMode sat)) fun _ => rfl
  case iadd => exact fun m f => computes2_of_alu2 4 (addOp_rule m) fun _ => rfl
  case isubBase => exact fun sat f => computes2_of_alu2 4 (subOp_rule (satMode sat)) fun _ => rfl
  case isub => exact fun m f => computes2_of_alu2 4 (subOp_rule m) fun _ => rfl
  case leaBase => exact fun sgn f s x h => leaBase_runs sgn h
  case lea => exact fun sgn shift g d a b s x h => leaOp_runs sgn shift.toNat h

/-- Settles O2: the low and high halves of the product by their rules, IMAD.wide by its pair. -/
theorem integerProducts : Obligations.IntegerProducts := by
  refine ⟨?imulBase, ?imul, ?imulhBase, ?imulh, ?imadLow, ?imadWide⟩
  case imulBase => exact fun f => computes2_of_alu2 6 mul_wrap fun _ => rfl
  case imul => exact fun f => computes2_of_alu2 6 mul_wrap fun _ => rfl
  case imulhBase => exact fun u f => computes2_of_alu2 6 (mulHigh_rule u) fun _ => rfl
  case imulh => exact fun u f => computes2_of_alu2 6 (mulHigh_rule u) fun _ => rfl
  case imadLow => exact fun f => computes3_of_alu3 6 mad_low_wrap fun _ => rfl
  case imadWide => exact fun u f s x h => imad_wide_runs u h

/-- Settles O3: the operations by their order rules, ICMP by its predicate. -/
theorem integerOrder : Obligations.IntegerOrder := by
  refine ⟨⟨?iminBase, ?imin, ?imaxBase, ?imax, ?iabsBase, ?iabs⟩, ?icmp⟩
  case iminBase => exact fun f => computes2_of_alu2 4 (minOp_rule false) fun _ => rfl
  case imin => exact fun u f => computes2_of_alu2 4 (minOp_rule u) fun _ => rfl
  case imaxBase => exact fun f => computes2_of_alu2 4 (maxOp_rule false) fun _ => rfl
  case imax => exact fun u f => computes2_of_alu2 4 (maxOp_rule u) fun _ => rfl
  case iabsBase => exact fun sat f => computes1_of_alu1 4 (absOp_rule sat) fun _ => rfl
  case iabs => exact fun sat f => computes1_of_alu1 4 (absOp_rule sat) fun _ => rfl
  case icmp =>
    intro c u f s x h
    obtain ⟨t, ht, hw⟩ := cmp2_runs 4 (icmpFn c u) h
    exact ⟨t, _, ht, hw, fun _ => icmpFn_rule ..⟩

/-- Settles O5: each operation by its rule on the bits of its sources. -/
theorem bitFields : Obligations.BitFields := by
  refine ⟨?bfx, ?bfi, ?popcBase, ?popc, ?clzBase, ?clz, ?idp4⟩
  case bfx => exact fun sgn pos wm1 f => computes1_of_alu1 4 (bfxFn_rule sgn pos wm1) fun _ => rfl
  case bfi => exact fun pos wm1 g d a b => computes2_of_alu2 4 (bfiFn_rule pos wm1) fun _ => rfl
  case popcBase => exact fun f => computes1_of_alu1 4 popcFn_rule fun _ => rfl
  case popc => exact fun f => computes1_of_alu1 4 popcFn_rule fun _ => rfl
  case clzBase => exact fun f => computes1_of_alu1 4 clzFn_rule fun _ => rfl
  case clz => exact fun f => computes1_of_alu1 4 clzFn_rule fun _ => rfl
  case idp4 => exact fun ua ub sat f => computes3_of_alu3 8 (idp4Fn_rule ua ub sat) fun _ => rfl

end Sys2Proof.Machine
end
